-- ==== Sys2Proof/Word.lean ====
section
/-! DEFINITION. The word types of the system bus and of the Sensor Link (00_scope.md, Conventions). -/
namespace Sys2Proof

/-- A byte of host memory. -/
abbrev Byte := BitVec 8

/-- A 16-bit value: a sample of the Sensor Link, a 2-byte field. -/
abbrev Half := BitVec 16

/-- A 32-bit word: a register, a bus address, a 4-byte field. -/
abbrev Word := BitVec 32

end Sys2Proof
end

