-- ==== Sys2Proof/Syntax.lean ====
section
/-! DEFINITION. The commands of the block: one constructor per row of spec/opcode_table.json, with the row's operands
(the table gives no bits; log 2 says what data a command carries). -/
namespace Sys2Proof

/-- One transfer of the Sensor Link: four 16-bit samples, red, green, blue, infrared (01, before R1). -/
structure Pixel where
  r  : Half
  g  : Half
  b  : Half
  ir : Half
  deriving DecidableEq, Repr

/-- One read of a plate table scan as it completes (R148), with the bytes read: the 4 of plate_count, or the 12 of an
entry's address, size and owner word. -/
inductive ScanRead where
  | count (data : List Byte)
  | entry (data : List Byte)
  deriving DecidableEq, Repr

/-- The accesses of the register window that change nothing (R161). -/
inductive IgnoredAccess where
  | causeWrite (value : Word)
  | stateWrite (value : Word)
  | narrowRead (offset : Nat)
  | narrowWrite (offset : Nat) (value : Half)
  deriving DecidableEq, Repr

/-- The reads the part makes of host memory, by what is read (R10, R148, R171, R177, R178). -/
inductive ReadSite where
  | windowSource
  | slotWord
  | orderRecord
  | shadingEntry
  | plateCount
  | plateEntry
  deriving DecidableEq, Repr

/-- The access that a bus error is reported for: a read in flight, by what it reads and its failed address, or the write
that stands at place `k` of the writes in flight, oldest first. -/
inductive FailedAccess where
  | read (site : ReadSite) (address : Word)
  | write (k : Nat)
  deriving DecidableEq, Repr

/-- The commands: the rows of spec/opcode_table.json, in the table's order. -/
inductive Instr where
  | powerOn
  | startOfLineMark
  | pixel (p : Pixel)
  | endOfLineMark
  | blockBaseWrite (value : Word)
  | causeRead
  | causeMaskWrite (value : Word)
  | resetHoldEnter (value : Word)
  | resetHoldLeave (value : Word)
  | registerWriteIgnored (access : IgnoredAccess)
  | look
  | plates
  | holdOn
  | holdOff
  | suspend
  | resume
  | abort
  | windows
  | fixWindows
  | park
  | wake
  | unknownAttentionValue (value : Word)
  | windowLoadComplete (data : List Byte)
  | selectionReadsComplete (data : List Byte)
  | orderRecordReadComplete (record : List Byte)
  | shadingLoadComplete (table : List Byte)
  | startWritesComplete
  | fillComplete
  | burstComplete
  | plateBurstBusError
  | plateScanReadComplete (reads : List ScanRead)
  | framesTallyWriteComplete
  | orderTallyWriteComplete
  | shadingTableWritten
  | abortDrainComplete
  | exchangeBusError (access : FailedAccess)
  | busErrorInFault (access : FailedAccess)
  | faultDrainComplete
  deriving DecidableEq, Repr

end Sys2Proof
end

