-- ==== Sys2Proof/Decode.lean ====
section
/-! DEFINITION. The commands a word spells. spec/opcode_table.json gives no row any bits ("fields": []), so no word spells
a command. -/
namespace Sys2Proof

/-- The command of the row whose bits `w` are: none, for no row of the table gives bits. -/
def decodeTableWord (_nbits _w : Nat) : Option Instr := none

end Sys2Proof
end

