-- ==== Sys2Proof/Config.lean ====
section
/-! DEFINITION. What the part fixes for good, and the free values: constants without a body, of which nothing can be proved
but what holds of every value (log 4, 5, 19, 23). -/
namespace Sys2Proof

/-- Part code and revision, written into the header at each WAKE (R174). -/
def Config.partCode : Nat := 2410
def Config.revision : Nat := 3

/-- Pixels of a line in progress that are kept (R1), the widest sensor. -/
def Config.maxColumns : Nat := 6144

/-- Slots of the Line Store (R30). -/
def Config.storeSlots : Nat := 64

/-- Spans a span list holds at most (R96, R97). -/
def Config.maxSpans : Nat := 24

/-- Entries a plate list holds at most (R150). -/
def Config.maxPlateList : Nat := 64

/-- Records the column profile holds at most (R76). -/
def Config.maxProfile : Nat := 16

/-- Bytes of the Exchange Block (R173). -/
def Config.blockBytes : Nat := 5632

/-- Saturation of the 32-bit counts that saturate (R5, R22, Formats: plates refused). -/
def Config.maxCount : Nat := 4294967295

/-- FREE VALUE (log 4): whether byte `j` of the write that ended without completing, the `n`-th free value, reached memory
(R27, R152, R184, R186). -/
opaque Config.freeByteLands : Nat → Nat → Bool

/-- FREE VALUE (log 5, log 19): how far a piece of work had come when it was stopped, the `n`-th free value
(R28, R124, R139, R143, R183). -/
opaque Config.freeProgress : Nat → Nat

/-- FREE VALUE (log 23): what a 4-byte field reads when a count that the spec does not bound has passed 2^32 - 1. -/
opaque Config.freeWideCount : Nat → Nat

end Sys2Proof
end

