-- ==== Sys2Proof/Machine/State.lean ====
section
/-! DEFINITION. The state of the part, block by block (INVENTORY.md lists every field with its rule and its reset value),
the reasons a command can stop, and the state after power-on. -/
namespace Sys2Proof.Machine

/-! ### Names -/

/-- The part state (R166). -/
inductive PartState where
  | inReset | parked | idle | starting | running | suspended | finishing | fault
  deriving DecidableEq, Repr

/-- The state from which SUSPENDED was entered (R182). -/
inductive Origin where
  | running | finishing
  deriving DecidableEq, Repr

/-- The six causes (R164). -/
inductive Cause where
  | frameDone | orderDone | platesWanted | linesLost | refused | fault
  deriving DecidableEq, Repr

/-- The reason codes of the result area (Formats). -/
inductive Reason where
  | none | badKind | badWidth | badBand | badGeometry | badFrames | badOutput | badCrop | noWindows | window
  | aborted | sensor
  deriving DecidableEq, Repr

inductive Film where
  | negative | positive
  deriving DecidableEq, Repr

inductive CropMode where
  | fixed | edge
  deriving DecidableEq, Repr

/-- The source of the base levels (R54). -/
inductive BaseSource where
  | leader | short | fallback
  deriving DecidableEq, Repr

/-- The kinds of the fault record (Formats). -/
inductive FaultKind where
  | none | block | roster | shading | plate
  deriving DecidableEq, Repr

/-- What a write the part issues is made to: the Exchange Block outside the plate table, the plate table, a roster entry,
the shading table, a plate (R173, R184). -/
inductive AccessKind where
  | block | plateTable | roster | shading | plate
  deriving DecidableEq, Repr

/-- The writes whose end is an event of its own in the opcode table. -/
inductive Mark where
  | silent | startLast | framesTally | ordersTally | tableLast | burst
  deriving DecidableEq, Repr

/-- The owner words of a plate table entry (R146). -/
inductive Owner where
  | empty | given | taken | filled | refused
  deriving DecidableEq, Repr

/-- The conditions of the shading copy (01, "The shading copy"). -/
inductive ShadingState where
  | empty | loading | loaded
  deriving DecidableEq, Repr

/-- The pass states of the Calibration Unit (R18). -/
inductive PassState where
  | idle | darkPass | brightPass | passesComplete | writing
  deriving DecidableEq, Repr

/-- The states of the Strip Tracker (04). -/
inductive TrackerState where
  | off | leader | seek | image | gapRun | gap | cut | trail | ended
  deriving DecidableEq, Repr

/-- The class of a line (R31). -/
inductive LineClass where
  | leader | gap | image | trail
  deriving DecidableEq, Repr

/-- The fate of a line (R36). -/
inductive Fate where
  | undecided | write | dropImage | dropOther
  deriving DecidableEq, Repr

/-- The states of the Fill Unit (07). -/
inductive FillState where
  | idle | filling | halted
  deriving DecidableEq, Repr

/-- The states of the Frame Writer (R134). -/
inductive WriterState where
  | off | ready | plateWait | throttled | writing | aborting | halted
  deriving DecidableEq, Repr

/-- The damages of a frame (R139, R150). -/
inductive Damage where
  | busError | plateListFull
  deriving DecidableEq, Repr

/-! ### Orders -/

/-- The order record as read: the fields the Formats section lists, before validation. -/
structure OrderRecord where
  sequence : Nat
  kind : Nat
  film : Nat
  width : Nat
  bandLeft : Nat
  bandRight : Nat
  expectedFrames : Nat
  stripLines : Nat
  pitch : Nat
  tol : Nat
  minGap : Nat
  minFrame : Nat
  leaderLines : Nat
  gapRatio : Nat
  spreadLimit : Nat
  darkGapLevel : Nat
  insetTop : Nat
  insetBottom : Nat
  insetLeft : Nat
  insetRight : Nat
  cropMode : Nat
  defaultLeft : Nat
  defaultRight : Nat
  edgeRun : Nat
  irSeed : Nat
  thr : Nat
  growth : Nat
  fillEnable : Nat
  rv : Nat
  hmax : Nat
  decimation : Nat
  depth : Nat
  credit : Nat
  shadingAddress : Nat
  rosterAddress : Nat
  fallbackR : Nat
  fallbackG : Nat
  fallbackB : Nat
  darkLines : Nat
  brightLines : Nat
  white : Nat
  hotLimit : Nat
  deadLimit : Nat
  deriving DecidableEq, Repr

/-- A SCAN order as validated, with clamped values in place of the record's (R179). -/
structure ScanOrder where
  sequence : Nat
  film : Film
  width : Nat
  bandLeft : Nat
  bandRight : Nat
  expectedFrames : Nat
  stripLines : Nat
  pitch : Nat
  tol : Nat
  minGap : Nat
  minFrame : Nat
  leaderLines : Nat
  gapRatio : Nat
  spreadLimit : Nat
  darkGapLevel : Nat
  insetTop : Nat
  insetBottom : Nat
  insetLeft : Nat
  insetRight : Nat
  cropMode : CropMode
  defaultLeft : Nat
  defaultRight : Nat
  edgeRun : Nat
  irSeed : Nat
  thr : Nat
  growth : Nat
  fillEnable : Bool
  rv : Nat
  hmax : Nat
  decimation : Nat
  depth : Nat
  credit : Nat
  shadingAddress : Nat
  rosterAddress : Nat
  fallbackR : Nat
  fallbackG : Nat
  fallbackB : Nat
  deriving DecidableEq, Repr

/-- A CALIBRATE order as validated (R17). -/
structure CalOrder where
  sequence : Nat
  width : Nat
  tableAddress : Nat
  darkLines : Nat
  brightLines : Nat
  white : Nat
  hotLimit : Nat
  deadLimit : Nat
  deriving DecidableEq, Repr

/-- The order record copy of the Order Unit. -/
inductive Order where
  | scan (o : ScanOrder)
  | calibrate (o : CalOrder)
  deriving DecidableEq, Repr

/-! ### Register Port and Order Unit -/

structure RegisterPort where
  blockBase : Word
  cause : BitVec 6
  mask : BitVec 6
  hostHold : Bool
  /-- The word the window last answered to a read that is a command (log 16, log 2). -/
  readData : Word
  deriving DecidableEq, Repr

/-- The refusal record copy (R170). -/
structure RefusalRecord where
  code : Word
  state : Nat
  count : Nat
  deriving DecidableEq, Repr

/-- The fault record copy (R184, R185). -/
structure FaultRecord where
  kind : FaultKind
  address : Nat
  plate : Nat
  frame : Nat
  repeats : Nat
  deriving DecidableEq, Repr

/-- Results handed to the Order Unit before the end writes: the tracker's at ABORT (R71), the Calibration Unit's at its
report (R26, R28). -/
structure Gathered where
  slivers : Nat
  excess : Nat
  baseR : Nat
  baseG : Nat
  baseB : Nat
  source : BaseSource
  hot : Nat
  dead : Nat
  /-- The outcome of R25 is FAILED with SENSOR. -/
  sensorFailed : Bool
  deriving DecidableEq, Repr

/-- What stood when the end writes of an abort sequence were put in flight: the suspend hold, the writer's stop flag, and whether
the order was a SCAN order. The model's own (log 31). -/
structure AbortEnd where
  hold : Bool
  stop : Bool
  scan : Bool
  deriving DecidableEq, Repr

structure OrderUnit where
  part : PartState
  origin : Option Origin
  aborting : Bool
  chosen : Option (Fin 4)
  current : Option Order
  recordRead : Bool
  waiting : Option OrderRecord
  shadingReads : Bool
  selecting : Bool
  selectionRequest : Bool
  endWrites : Bool
  follows : Bool
  heldEnd : Bool
  gathered : Option Gathered
  refusal : RefusalRecord
  faultRec : FaultRecord
  faultDrained : Bool
  framesTally : Word
  ordersTally : Word
  suspendHold : Bool
  faultHold : Bool
  atEnd : AbortEnd
  deriving DecidableEq, Repr

/-! ### Bus Port -/

/-- A Window Table entry in use (R171). -/
structure Window where
  first : Nat
  last : Nat
  deriving DecidableEq, Repr

/-- How a write in flight has come to be issued (log 5, log 31). `issued`: it has been. `grouped`: it is one of writes that
are issued one after another; where issuing stops, a free number of those have been issued. `sequel`: it is an end write of
an abort sequence, and a bus error on an earlier write means that it is not issued. -/
inductive Pace where
  | issued | grouped | sequel
  deriving DecidableEq, Repr

/-- A write the part has issued. `landed`: its bytes are in memory, but the event that reports its end is still to come. -/
structure BusWrite where
  kind : AccessKind
  mark : Mark
  address : Nat
  data : List Byte
  /-- Plate index and frame number for a fault record (R184): 0xFFFF and 0 where there is none. -/
  plate : Nat
  frame : Nat
  pace : Pace
  landed : Bool
  deriving DecidableEq, Repr

/-- How far a read has come (log 30): the operation has still to make it, it has been made, or it has been made and its
operation was given up, so that its data is discarded. -/
inductive ReadStage where
  | waiting | made | dropped
  deriving DecidableEq, Repr

/-- A read of an operation in progress, or of one that was given up, until it ends. `plate` and `frame` are for a fault
record (R184): 0xFFFF and 0 where there is none. -/
structure BusRead where
  site : ReadSite
  address : Nat
  bytes : Nat
  plate : Nat
  frame : Nat
  stage : ReadStage
  deriving DecidableEq, Repr

structure BusPort where
  windows : List (Option Window)
  fixed : Bool
  loading : Bool
  reads : List BusRead
  inFlight : List BusWrite
  credit : Nat
  /-- A write that failed the window check in this step (R173, log 26). -/
  barred : Option BusWrite
  deriving DecidableEq, Repr

/-! ### Line Intake and Calibration Unit -/

/-- A value for each of the four channels. -/
structure Quad where
  r : Nat
  g : Nat
  b : Nat
  ir : Nat
  deriving DecidableEq, Repr

/-- The line in progress on the link (R1): the pixels kept and the true length. -/
structure LineBuffer where
  pixels : List Pixel
  count : Nat
  deriving DecidableEq, Repr

/-- One column of the shading copy, one entry of the shading table (Formats). -/
structure ShadingColumn where
  dark : Quad
  gain : Quad
  hot : Bool
  dead : Bool
  deriving DecidableEq, Repr

structure LineIntake where
  line : Option LineBuffer
  shading : ShadingState
  copy : List ShadingColumn
  hot : Nat
  dead : Nat
  arrival : Nat
  malformed : Nat
  stray : Nat
  deriving DecidableEq, Repr

structure CalibrationUnit where
  pass : PassState
  passLines : Nat
  darkSums : List Quad
  brightSums : List Quad
  columnInHand : Option ShadingColumn
  hot : Nat
  dead : Nat
  faulted : Nat
  excess : Nat
  deriving DecidableEq, Repr

/-! ### Strip Tracker -/

/-- A record of the leader window (R53). -/
structure LeaderRecord where
  line : Nat
  sumR : Nat
  sumG : Nat
  sumB : Nat
  deriving DecidableEq, Repr

/-- The base levels and their source (R54). -/
structure Base where
  r : Nat
  g : Nat
  b : Nat
  source : BaseSource
  deriving DecidableEq, Repr

/-- The roster flags (Formats). -/
structure RosterFlags where
  forcedCut : Bool := false
  truncated : Bool := false
  linesLost : Bool := false
  busError : Bool := false
  plateListFull : Bool := false
  baseShort : Bool := false
  baseFallback : Bool := false
  edgeFallback : Bool := false
  edgeCarried : Bool := false
  spansMerged : Bool := false
  deriving DecidableEq, Repr

/-- Crop columns, a mapping band (R82). -/
structure Columns where
  left : Nat
  right : Nat
  deriving DecidableEq, Repr

/-- The open frame (R58). -/
structure OpenFrame where
  number : Nat
  top : Nat
  crop : Columns
  flags : RosterFlags
  deriving DecidableEq, Repr

/-- A record of the column profile (R76). -/
structure ProfileRecord where
  line : Nat
  greens : List Nat
  deriving DecidableEq, Repr

structure Tracker where
  state : TrackerState
  window : List LeaderRecord
  base : Option Base
  gapLevel : Option Nat
  lastGap : Option Bool
  gapStart : Option Nat
  runCount : Nat
  openFrame : Option OpenFrame
  carried : Option Columns
  nextFrame : Nat
  slivers : Nat
  excess : Nat
  heldLost : List Nat
  profile : List ProfileRecord
  deriving DecidableEq, Repr

/-! ### Line Store, Defect Mapper, Fill Unit -/

/-- A span of a span list (R95): its start column and its length. -/
structure Span where
  start : Nat
  length : Nat
  deriving DecidableEq, Repr

/-- An entry of the Line Store (R31). -/
structure Entry where
  line : Nat
  samples : List Pixel
  cls : LineClass
  frame : Option Nat
  fate : Fate
  spans : Option (List Span)
  complete : Bool
  deriving DecidableEq, Repr

/-- The order state of the Line Store (R32). -/
structure StoreLevels where
  rv : Nat
  delay : Nat
  setLevel : Nat
  clearLevel : Nat
  deriving DecidableEq, Repr

structure LineStore where
  pending : List Entry
  context : List Entry
  levels : Option StoreLevels
  lost : Nat
  outsideRaised : Bool
  lostFrames : List Nat
  hold : Bool
  deriving DecidableEq, Repr

/-- The mapping parameters (R87). -/
structure MapParams where
  irSeed : Nat
  thr : Nat
  growth : Nat
  deriving DecidableEq, Repr

structure DefectMapper where
  ref : List Nat
  faults : List Nat
  params : Option MapParams
  runMerge : List Nat
  inHand : Option (List Span)
  deriving DecidableEq, Repr

/-- The fill parameters (R106). -/
structure FillParams where
  rv : Nat
  hmax : Nat
  enable : Bool
  deriving DecidableEq, Repr

/-- The line in hand of the Fill Unit (R107), with the source lines as they stood at the request (R115). -/
structure LineInHand where
  line : Nat
  frame : Nat
  top : Nat
  last : Option Nat
  crop : Columns
  decimation : Nat
  samples : List Pixel
  spans : List Span
  sources : List Entry
  deriving DecidableEq, Repr

structure FillUnit where
  state : FillState
  line : Option LineInHand
  pixel : Option Nat
  defect : Nat
  filled : Nat
  unfilled : Nat
  params : Option FillParams
  deriving DecidableEq, Repr

/-! ### Frame Writer -/

/-- An entry of a frame's plate list (R149). -/
structure PlateListEntry where
  index : Nat
  firstLine : Nat
  count : Nat
  deriving DecidableEq, Repr

/-- A frame record (R127). `fillingWritten`: its FILLING write has been issued (R154). `doomed`: its discard report was
taken while one of its lines was being written, and its removal waits for that line (R128). -/
structure FrameRecord where
  number : Nat
  closed : Bool
  top : Nat
  cropTop : Nat
  last : Option Nat
  cropBottom : Option Nat
  crop : Columns
  outWidth : Nat
  outBytes : Nat
  openFlags : RosterFlags
  flags : RosterFlags
  damage : Option Damage
  outLines : Nat
  lostLines : Nat
  mergedLines : Nat
  defect : Nat
  filled : Nat
  unfilled : Nat
  plateList : List PlateListEntry
  fillingWritten : Bool
  doomed : Bool
  deriving DecidableEq, Repr

/-- The current plate (R135), with the number of the frame it was taken for. -/
structure CurrentPlate where
  index : Nat
  address : Nat
  size : Nat
  room : Nat
  frame : Nat
  deriving DecidableEq, Repr

/-- A scan of the plate table in progress (R148): waiting for plate_count, or examining `left` more entries of `count` from
`next` on. -/
inductive Scan where
  | count
  | entries (count next left : Nat)
  deriving DecidableEq, Repr

/-- The line write in progress (R136). `discarded`: its frame was discarded meanwhile (R128). `errored`: a burst has
reported a bus error (R139). `cut`: ABORT left bursts of it unissued (R143). -/
structure LineWrite where
  frame : Nat
  plate : Nat
  place : Nat
  errored : Bool
  discarded : Bool
  cut : Bool
  deriving DecidableEq, Repr

structure FrameWriter where
  state : WriterState
  stop : Bool
  waitFlag : Bool
  records : List FrameRecord
  plate : Option CurrentPlate
  scanPos : Option Nat
  scan : Option Scan
  rescan : Bool
  lineBytes : Option Nat
  write : Option LineWrite
  framesReady : Nat
  framesDamaged : Nat
  platesRefused : Nat
  /-- The owner word the part last wrote, per plate table index, indices strictly rising. -/
  owners : List (Nat × Owner)
  deriving DecidableEq, Repr

/-! ### The state -/

/-- The bytes the part's ended writes left in host memory (log 3), addresses strictly rising; an address that is not listed
reads as none. -/
abbrev Memory := List Host.Cell

structure State where
  reg : RegisterPort
  order : OrderUnit
  bus : BusPort
  intake : LineIntake
  cal : CalibrationUnit
  tracker : Tracker
  store : LineStore
  mapper : DefectMapper
  fill : FillUnit
  writer : FrameWriter
  mem : Memory
  /-- The number of the next free value (log 4, 5, 19). -/
  free : Nat
  /-- The commands waiting, first in, first out (log 1). -/
  pending : List Instr
  deriving DecidableEq, Repr

/-- Why a command stops the model. Both constructors are SAFE: the operands spell no event of the hardware (log 7). -/
inductive Fault where
  /-- Raised by a meaning whose command is not `Instr.wellFormed`. Safe. -/
  | illFormed
  /-- Raised by SHADING_LOAD_COMPLETE when the data is not the 20 bytes a column that the load in progress reads (R10).
  Safe. -/
  | readLength
  deriving DecidableEq, Repr

/-- Why a command has no meaning. No meaning of this model is refused. -/
inductive Refusal where
  /-- The command's arm has no meaning yet. Safe. -/
  | notModelled (mnemonic : String)
  deriving DecidableEq, Repr

/-! ### The blocks after power-on -/

/-- R162, R164, R165, R167. -/
def RegisterPort.reset : RegisterPort :=
  { blockBase := 0, cause := 0, mask := 0x3F, hostHold := false, readData := 0 }

/-- R186. -/
def FaultRecord.reset : FaultRecord :=
  { kind := .none, address := 0, plate := 0xFFFF, frame := 0, repeats := 0 }

/-- R186. -/
def OrderUnit.reset : OrderUnit :=
  { part := .parked, origin := none, aborting := false, chosen := none, current := none, recordRead := false,
    waiting := none, shadingReads := false, selecting := false, selectionRequest := false, endWrites := false,
    follows := false, heldEnd := false, gathered := none, refusal := { code := 0, state := 0, count := 0 },
    faultRec := FaultRecord.reset, faultDrained := false, framesTally := 0, ordersTally := 0, suspendHold := false,
    faultHold := false, atEnd := { hold := false, stop := false, scan := false } }

/-- R171, R145 (credit). -/
def BusPort.reset : BusPort :=
  { windows := [none, none, none, none], fixed := false, loading := false, reads := [], inFlight := [], credit := 0,
    barred := none }

/-- R16. -/
def LineIntake.reset : LineIntake :=
  { line := none, shading := .empty, copy := [], hot := 0, dead := 0, arrival := 0, malformed := 0, stray := 0 }

/-- R29. Sums not listed are 0 (log 15). -/
def CalibrationUnit.reset : CalibrationUnit :=
  { pass := .idle, passLines := 0, darkSums := [], brightSums := [], columnInHand := none, hot := 0, dead := 0,
    faulted := 0, excess := 0 }

/-- R71, R77, R81. R71's table does not list the last outcome: none here is log 16. Also the tracker that has become OFF after DONE
or ABORT, of which R71 gives no values (log 24). -/
def Tracker.reset : Tracker :=
  { state := .off, window := [], base := none, gapLevel := none, lastGap := none, gapStart := none, runCount := 0,
    openFrame := none, carried := none, nextFrame := 1, slivers := 0, excess := 0, heldLost := [], profile := [] }

/-- R45. Its table does not list the record of the frames that have had a lost line (R39): the model's is empty (log 24). -/
def LineStore.reset : LineStore :=
  { pending := [], context := [], levels := none, lost := 0, outsideRaised := false, lostFrames := [], hold := false }

/-- R105. Elements not listed are 0 (log 15). -/
def DefectMapper.reset : DefectMapper :=
  { ref := [], faults := [], params := none, runMerge := [], inHand := none }

/-- R125. -/
def FillUnit.reset : FillUnit :=
  { state := .idle, line := none, pixel := none, defect := 0, filled := 0, unfilled := 0, params := none }

/-- R145, R160. -/
def FrameWriter.reset : FrameWriter :=
  { state := .off, stop := false, waitFlag := false, records := [], plate := none, scanPos := none, scan := none,
    rescan := false, lineBytes := none, write := none, framesReady := 0, framesDamaged := 0, platesRefused := 0,
    owners := [] }

/-- The part after power-on (R186 and the reset rule of every block), nothing written to host memory, no command waiting. -/
def State.reset : State :=
  { reg := RegisterPort.reset, order := OrderUnit.reset, bus := BusPort.reset, intake := LineIntake.reset,
    cal := CalibrationUnit.reset, tracker := Tracker.reset, store := LineStore.reset, mapper := DefectMapper.reset,
    fill := FillUnit.reset, writer := FrameWriter.reset, mem := [], free := 0, pending := [] }

end Sys2Proof.Machine
end

