-- ==== Sys2Proof/Machine/Operands.lean ====
section
/-! DEFINITION. The byte layouts and numeric codes of the Formats section (10): what the part reads out of the data of a
read, and what bytes a field it writes has. -/
namespace Sys2Proof.Machine

/-! ### Fields: little-endian (R174) -/

/-- The `n` bytes of a value, least significant first. -/
def leBytes : Nat → Nat → List Byte
  | 0, _ => []
  | n + 1, v => BitVec.ofNat 8 v :: leBytes n (v / 256)

/-- The value of bytes, least significant first. -/
def leValue : List Byte → Nat
  | [] => 0
  | b :: bs => b.toNat + 256 * leValue bs

/-- A 2-byte field. -/
def half (v : Nat) : List Byte := leBytes 2 v

/-- A 4-byte field. -/
def word (v : Nat) : List Byte := leBytes 4 v

/-- The value of the field of `size` bytes at `offset`. -/
def fieldAt (bytes : List Byte) (offset size : Nat) : Nat := leValue ((bytes.drop offset).take size)

/-! ### Numeric codes -/

/-- Part state codes of STATE and of the refusal record. -/
def PartState.code : PartState → Nat
  | .inReset => 0
  | .parked => 1
  | .idle => 2
  | .starting => 3
  | .running => 4
  | .suspended => 5
  | .finishing => 6
  | .fault => 7

def Reason.code : Reason → Nat
  | .none => 0
  | .badKind => 1
  | .badWidth => 2
  | .badBand => 3
  | .badGeometry => 4
  | .badFrames => 5
  | .badOutput => 6
  | .badCrop => 7
  | .noWindows => 8
  | .window => 9
  | .aborted => 10
  | .sensor => 11

def BaseSource.code : BaseSource → Nat
  | .leader => 0
  | .short => 1
  | .fallback => 2

def FaultKind.code : FaultKind → Nat
  | .none => 0
  | .block => 1
  | .roster => 2
  | .shading => 3
  | .plate => 4

def Owner.code : Owner → Nat
  | .empty => 0
  | .given => 1
  | .taken => 2
  | .filled => 3
  | .refused => 4

/-- Slot state words. -/
def slotPosted : Nat := 1
def slotRunning : Nat := 2
def slotSuspended : Nat := 3
def slotDone : Nat := 4
def slotFailed : Nat := 5
def slotRefused : Nat := 6

/-- Roster entry states. -/
def rosterFree : Nat := 0
def rosterFilling : Nat := 1
def rosterReady : Nat := 2
def rosterDamaged : Nat := 3
def rosterAborted : Nat := 4

/-- The value of one flag at a bit place. -/
def flagAt (flag : Bool) (place : Nat) : Nat := if flag then 2 ^ place else 0

/-- The flags word of a roster entry. -/
def RosterFlags.value (f : RosterFlags) : Nat :=
  flagAt f.forcedCut 0 + flagAt f.truncated 1 + flagAt f.linesLost 2 + flagAt f.busError 3 + flagAt f.plateListFull 4
    + flagAt f.baseShort 5 + flagAt f.baseFallback 6 + flagAt f.edgeFallback 7 + flagAt f.edgeCarried 8
    + flagAt f.spansMerged 9

/-- Both sets of flags (R128: closing flags are added). -/
def RosterFlags.union (f g : RosterFlags) : RosterFlags :=
  { forcedCut := f.forcedCut || g.forcedCut, truncated := f.truncated || g.truncated,
    linesLost := f.linesLost || g.linesLost, busError := f.busError || g.busError,
    plateListFull := f.plateListFull || g.plateListFull, baseShort := f.baseShort || g.baseShort,
    baseFallback := f.baseFallback || g.baseFallback, edgeFallback := f.edgeFallback || g.edgeFallback,
    edgeCarried := f.edgeCarried || g.edgeCarried, spansMerged := f.spansMerged || g.spansMerged }

/-! ### What is read -/

/-- The order record of a slot, from the 96 bytes that its reads give: those of 0x04 to 0x59, then those of 0x5C to 0x65, for the
unused bytes between and behind are not read (R174). The offsets below are the Formats section's. Bits 31..24 of credit per line
are not used. -/
def OrderRecord.ofBytes (bytes : List Byte) : OrderRecord :=
  let f := fun offset => fieldAt bytes (offset - 4) 2
  let w := fun offset => fieldAt bytes (offset - 4) 4
  let c := fun offset => fieldAt bytes (offset - 6) 2
  { sequence := w 0x04, kind := f 0x08, film := f 0x0A, width := f 0x0C, bandLeft := f 0x0E, bandRight := f 0x10,
    expectedFrames := f 0x12, stripLines := w 0x14, pitch := f 0x18, tol := f 0x1A, minGap := f 0x1C, minFrame := f 0x1E,
    leaderLines := f 0x20, gapRatio := f 0x22, spreadLimit := f 0x24, darkGapLevel := f 0x26, insetTop := f 0x28,
    insetBottom := f 0x2A, insetLeft := f 0x2C, insetRight := f 0x2E, cropMode := f 0x30, defaultLeft := f 0x32,
    defaultRight := f 0x34, edgeRun := f 0x36, irSeed := f 0x38, thr := f 0x3A, growth := f 0x3C, fillEnable := f 0x3E,
    rv := f 0x40, hmax := f 0x42, decimation := f 0x44, depth := f 0x46, credit := w 0x48 % 2 ^ 24,
    shadingAddress := w 0x4C, rosterAddress := w 0x50, fallbackR := f 0x54, fallbackG := f 0x56, fallbackB := f 0x58,
    darkLines := c 0x5C, brightLines := c 0x5E, white := c 0x60, hotLimit := c 0x62, deadLimit := c 0x64 }

/-- What an order selection reads of one slot (R177): the state word and the sequence number. -/
structure SlotRead where
  state : Nat
  sequence : Nat
  deriving DecidableEq, Repr

/-- The first 8 bytes of a slot (Formats): the state word at 0x00, the sequence number at 0x04. -/
def SlotRead.ofBytes (bytes : List Byte) : SlotRead := { state := fieldAt bytes 0 4, sequence := fieldAt bytes 4 4 }

/-- The four slots, 8 bytes each, slot 0 first. -/
def slotsOfBytes (bytes : List Byte) : List SlotRead :=
  [0, 8, 16, 24].map fun offset => SlotRead.ofBytes ((bytes.drop offset).take 8)

/-- plate_count as read (Formats, 0x24): a value above 256 is read as 256 (R148). -/
def plateCountOfBytes (bytes : List Byte) : Nat := min (fieldAt bytes 0 4) 256

/-- What a scan reads of a plate table entry (R147). -/
structure PlateRead where
  address : Nat
  size : Nat
  owner : Nat
  deriving DecidableEq, Repr

/-- The first 12 bytes of a plate table entry (Formats): the address at 0x0, the size at 0x4, the owner word at 0x8. -/
def PlateRead.ofBytes (bytes : List Byte) : PlateRead :=
  { address := fieldAt bytes 0 4, size := fieldAt bytes 4 4, owner := fieldAt bytes 8 4 }

/-- A window source (Formats): base and size. -/
def windowOfSource (base size : Nat) : Option Window :=
  if size = 0 then none else some { first := base, last := min (base + size - 1) (2 ^ 32 - 1) }

/-- The four Window Table entries that the 32 bytes of the window sources load (R171). -/
def windowsOfBytes (bytes : List Byte) : List (Option Window) :=
  [0, 8, 16, 24].map fun offset => windowOfSource (fieldAt bytes offset 4) (fieldAt bytes (offset + 4) 4)

/-- One shading table entry (Formats): dark levels, gains, the HOT and DEAD flags of the fault flags word. -/
def ShadingColumn.ofBytes (bytes : List Byte) : ShadingColumn :=
  let f := fun offset => fieldAt bytes offset 2
  { dark := { r := f 0, g := f 2, b := f 4, ir := f 6 }, gain := { r := f 8, g := f 10, b := f 12, ir := f 14 },
    hot := (f 16).testBit 0, dead := (f 16).testBit 1 }

/-- The bytes of one shading table entry (R26): the other bits of the fault flags word and the pad written 0. -/
def ShadingColumn.toBytes (c : ShadingColumn) : List Byte :=
  half c.dark.r ++ half c.dark.g ++ half c.dark.b ++ half c.dark.ir ++ half c.gain.r ++ half c.gain.g ++ half c.gain.b
    ++ half c.gain.ir ++ half (flagAt c.hot 0 + flagAt c.dead 1) ++ half 0

/-- The first `n` entries of a shading table, one per column in column order (R10). -/
def shadingOfBytes : Nat → List Byte → List ShadingColumn
  | 0, _ => []
  | n + 1, bytes => ShadingColumn.ofBytes (bytes.take 20) :: shadingOfBytes n (bytes.drop 20)

/-! ### Places in the Exchange Block and in the roster -/

/-- Offset of slot `i`. -/
def slotOffset (i : Nat) : Nat := 0x200 + 256 * i

/-- Offset of window source `i`. -/
def sourceOffset (i : Nat) : Nat := 0x100 + 8 * i

/-- Offset of plate table entry `j`. -/
def plateOffset (j : Nat) : Nat := 0x600 + 16 * j

/-- Address of the roster entry of frame `k` (09, "The Frame Roster"). -/
def rosterEntry (rosterAddress k : Nat) : Nat := rosterAddress + (k - 1) * 640

/-- The bytes of an output sample at a depth (R131, Formats "Output lines in plates"). -/
def sampleBytes (depth w : Nat) : List Byte := if depth = 16 then half w else leBytes 1 (w / 256)

end Sys2Proof.Machine
end

