-- ==== Sys2Proof/Machine/Flags.lean ====
section
/-! DEFINITION. The cause flags, the INT and HOLD outputs and the register window as it reads (R161, R164 to R167). -/
namespace Sys2Proof.Machine

/-- The bit of a cause in CAUSE and CAUSE_MASK (Formats). -/
def Cause.place : Cause → Nat
  | .frameDone => 0
  | .orderDone => 1
  | .platesWanted => 2
  | .linesLost => 3
  | .refused => 4
  | .fault => 5

/-- Whether a cause is set. -/
def State.causeSet (s : State) (c : Cause) : Bool := s.reg.cause.getLsbD c.place

/-- Whether a cause is masked. -/
def State.causeMasked (s : State) (c : Cause) : Bool := s.reg.mask.getLsbD c.place

/-- The INT output: a cause is set whose mask flag is 0 (R165). -/
def State.int (s : State) : Bool := (s.reg.cause &&& ~~~s.reg.mask) != 0

/-- The HOLD output (R167). -/
def State.holdOut (s : State) : Bool :=
  s.reg.hostHold || s.store.hold || s.order.suspendHold || s.order.faultHold || s.order.part == .inReset

/-- At least one Window Table entry is in use (R166). -/
def State.windowsLoaded (s : State) : Bool := s.bus.windows.any Option.isSome

/-- What a read of STATE returns (R166, Formats). -/
def State.stateWord (s : State) : Word :=
  BitVec.ofNat 32 (s.order.part.code + flagAt s.holdOut 4 + flagAt s.reg.hostHold 5 + flagAt s.store.hold 6
    + flagAt s.order.suspendHold 7 + flagAt s.order.faultHold 8 + flagAt s.windowsLoaded 9 + flagAt s.bus.fixed 10
    + flagAt s.writer.waitFlag 11)

/-- What a 32-bit read of the register at an offset of the window returns (R161). The read of CAUSE also clears what it
returns: that effect is the command CAUSE_READ. -/
def State.readRegister (s : State) : Nat → Word
  | 0x00 => s.reg.blockBase
  | 0x08 => s.reg.cause.zeroExtend 32
  | 0x0C => s.reg.mask.zeroExtend 32
  | 0x10 => s.stateWord
  | 0x14 => if s.order.part = .inReset then 1 else 0
  | _ => 0

end Sys2Proof.Machine
end

