-- ==== Sys2Proof/Machine/Ops.lean ====
section
/-! DEFINITION. The named operations every meaning is made of: one block changed at a time, raising a cause, host memory,
and the Bus Port's writes in flight. -/
namespace Sys2Proof.Machine

/-! ### One block at a time -/

def State.onReg (s : State) (f : RegisterPort → RegisterPort) : State := { s with reg := f s.reg }
def State.onOrder (s : State) (f : OrderUnit → OrderUnit) : State := { s with order := f s.order }
def State.onBus (s : State) (f : BusPort → BusPort) : State := { s with bus := f s.bus }
def State.onIntake (s : State) (f : LineIntake → LineIntake) : State := { s with intake := f s.intake }
def State.onCal (s : State) (f : CalibrationUnit → CalibrationUnit) : State := { s with cal := f s.cal }
def State.onTracker (s : State) (f : Tracker → Tracker) : State := { s with tracker := f s.tracker }
def State.onStore (s : State) (f : LineStore → LineStore) : State := { s with store := f s.store }
def State.onMapper (s : State) (f : DefectMapper → DefectMapper) : State := { s with mapper := f s.mapper }
def State.onFill (s : State) (f : FillUnit → FillUnit) : State := { s with fill := f s.fill }
def State.onWriter (s : State) (f : FrameWriter → FrameWriter) : State := { s with writer := f s.writer }

/-- The next free value is another one. -/
def State.stepFree (s : State) : State := { s with free := s.free + 1 }

/-- Raise a cause: its flag is set, and stays set if it was (R164). -/
def State.raise (s : State) (c : Cause) : State :=
  s.onReg fun r => { r with cause := r.cause ||| BitVec.twoPow 6 c.place }

/-! ### Host memory: what the part's ended writes left -/

/-- The byte the part left at an address, none where it has written nothing. -/
def Memory.get : Memory → Nat → Option Byte
  | [], _ => none
  | (x, b) :: m, a => if a = x then some b else Memory.get m a

/-- Write one byte, keeping the addresses strictly rising. -/
def Memory.set : Memory → Nat → Byte → Memory
  | [], a, b => [(a, b)]
  | (x, c) :: m, a, b => if a < x then (a, b) :: (x, c) :: m else if a = x then (a, b) :: m else (x, c) :: Memory.set m a b

/-- Write bytes from an address on. -/
def Memory.store : Memory → Nat → List Byte → Memory
  | m, _, [] => m
  | m, a, b :: bs => Memory.store (Memory.set m a b) (a + 1) bs

/-- Write those of the bytes that `lands` chooses by their place in the list, from place `j` on (log 4). -/
def Memory.storeSome (lands : Nat → Bool) : Memory → Nat → List Byte → Nat → Memory
  | m, _, [], _ => m
  | m, a, b :: bs, j =>
    Memory.storeSome lands (if lands j then Memory.set m a b else m) (a + 1) bs (j + 1)

/-- The canonical form: addresses strictly rising. (Every listed byte differs from what an unlisted address reads as, which
is no byte at all.) -/
def Memory.wf : Memory → Bool
  | [] => true
  | [_] => true
  | (x, _) :: (y, c) :: m => decide (x < y) && Memory.wf ((y, c) :: m)

/-! ### The Bus Port's window check (R171, R173) -/

/-- Whether an extent of `bytes` bytes from an address lies whole inside one window in use. -/
def insideWindow (windows : List (Option Window)) (address bytes : Nat) : Bool :=
  windows.any fun entry =>
    match entry with
    | none => false
    | some w => decide (w.first ≤ address) && decide (address + bytes ≤ w.last + 1)

/-- Whether bytes lie inside the Exchange Block. -/
def insideBlock (base address bytes : Nat) : Bool :=
  decide (base ≤ address) && decide (address + bytes ≤ base + Config.blockBytes)

/-- The address of the Exchange Block. -/
def State.blockBase (s : State) : Nat := s.reg.blockBase.toNat

/-- Whether the Bus Port lets a write pass (R173; log 17). -/
def State.passesCheck (s : State) (w : BusWrite) : Bool :=
  insideBlock s.blockBase w.address w.data.length || insideWindow s.bus.windows w.address w.data.length

/-- Whether the part makes no new access: in FAULT (R184), in IN_RESET (R186), and after a write of this step failed the
window check (log 26). -/
def State.accessBarred (s : State) : Bool :=
  s.order.part == .fault || s.order.part == .inReset || s.bus.barred.isSome

/-! ### Issuing -/

/-- Put a write at the end of the writes in flight. -/
def State.push (s : State) (w : BusWrite) : State :=
  s.onBus fun b => { b with inFlight := b.inFlight ++ [w] }

/-- Issue a write of the exchange with the host. One that fails the window check is not issued; its bus error is taken at
the end of the step (log 26). -/
def State.issue (s : State) (w : BusWrite) : State :=
  if s.accessBarred then s
  else if s.passesCheck w then s.push w
  else s.onBus fun b => { b with barred := some w }

/-- Issue writes in order. -/
def State.issueAll (s : State) (ws : List BusWrite) : State := ws.foldl State.issue s

/-- A write of a field of the Exchange Block outside the plate table. -/
def State.blockField (s : State) (offset : Nat) (data : List Byte) (mark : Mark) (pace : Pace := .issued) : BusWrite :=
  { kind := .block, mark := mark, address := s.blockBase + offset, data := data, plate := 0xFFFF, frame := 0,
    pace := pace, landed := false }

/-- Issue the write of a field of the Exchange Block outside the plate table. -/
def State.issueBlock (s : State) (offset : Nat) (data : List Byte) : State := s.issue (s.blockField offset data .silent)

/-- Issue the write of the chosen slot's state word. -/
def State.issueSlotWord (s : State) (value : Nat) (mark : Mark) : State :=
  match s.order.chosen with
  | none => s
  | some i => s.issue (s.blockField (slotOffset i) (word value) mark)

/-! ### Ends of writes (log 3) -/

/-- Memory after writes have ended without error, oldest first. -/
def landAll (m : Memory) (ws : List BusWrite) : Memory :=
  ws.foldl (fun m w => if w.landed then m else Memory.store m w.address w.data) m

/-- The writes among those that have landed whose end is still to be reported. -/
def stillTracked (ws : List BusWrite) : List BusWrite :=
  (ws.filter fun w => w.mark != .silent).map fun w => { w with landed := true }

/-- The write at place `k` ends without error: every earlier write has landed before it (R137). -/
def State.endWrite (s : State) (k : Nat) : State :=
  let earlier := s.bus.inFlight.take k
  let through := s.bus.inFlight.take (k + 1)
  { s with
    bus := { s.bus with inFlight := stillTracked earlier ++ s.bus.inFlight.drop (k + 1) }
    mem := landAll s.mem through }

/-- The write at place `k` ends in a bus error: which of its bytes reached memory is free (log 4). The writes before it have landed
(log 3), those of a whole table where it was issued in WRITING (log 5). -/
def State.failWrite (s : State) (k : Nat) : State :=
  match s.bus.inFlight[k]? with
  | none => s
  | some w =>
    let earlier := s.bus.inFlight.take k
    { s with
      bus := { s.bus with inFlight := stillTracked earlier ++ s.bus.inFlight.drop (k + 1) }
      mem := Memory.storeSome (Config.freeByteLands s.free) (landAll s.mem earlier) w.address w.data 0
      free := s.free + 1 }

/-- The place of the oldest write in flight with a mark. -/
def State.placeOf (s : State) (mark : Mark) : Option Nat := s.bus.inFlight.findIdx? fun w => w.mark == mark

/-- All writes in flight have ended. -/
def State.endAllWrites (s : State) : State :=
  { s with bus := { s.bus with inFlight := [] }, mem := landAll s.mem s.bus.inFlight }

/-- The writes of an aborted piece of work have ended, and with them every earlier one (R183). -/
def State.endWritesThrough (s : State) (own : BusWrite → Bool) : State :=
  let n := (s.bus.inFlight.reverse.dropWhile fun w => !own w).length
  let gone := s.bus.inFlight.take n
  { s with
    bus := { s.bus with inFlight := stillTracked (gone.filter fun w => !own w) ++ s.bus.inFlight.drop n }
    mem := landAll s.mem gone }

/-- The writes in flight at a reset end on the bus, with all, some or none of their bytes written (R186; log 4, log 21). -/
def State.dropWrites (s : State) : State :=
  { s with
    bus := { s.bus with inFlight := [] }
    mem := (s.bus.inFlight.foldl (fun (acc : Memory × Nat) w =>
      (if w.landed then acc.1
        else Memory.storeSome (Config.freeByteLands s.free) acc.1 w.address w.data acc.2, acc.2 + w.data.length))
      (s.mem, 0)).1
    free := s.free + 1 }

/-! ### Writes that were not issued after all (log 5, log 31) -/

/-- A write of a group that may not have been issued yet. -/
def BusWrite.isQueued (w : BusWrite) : Bool := w.pace == .grouped && !w.landed

/-- Of the queued writes that `own` chooses, the first `quota` have been issued and stay in flight; the others are not
issued. -/
def keepIssued (own : BusWrite → Bool) : Nat → List BusWrite → List BusWrite
  | _, [] => []
  | quota, w :: ws =>
    if own w && w.isQueued then
      match quota with
      | 0 => keepIssued own 0 ws
      | q + 1 => { w with pace := .issued } :: keepIssued own q ws
    else w :: keepIssued own quota ws

/-- How many of the writes that `own` chooses are in flight and have not landed. -/
def State.countWrites (s : State) (own : BusWrite → Bool) : Nat :=
  (s.bus.inFlight.filter fun w => own w && !w.landed).length

/-- How many of the queued writes that `own` chooses had been issued: a free number (log 5). -/
def State.issuedCount (s : State) (own : BusWrite → Bool) : Nat :=
  Config.freeProgress s.free % (s.countWrites (fun w => own w && w.isQueued) + 1)

/-- Issuing stops: a free number of the queued writes that `own` chooses had been issued, the others are not. A write whose
issue an earlier stop has settled is not queued, so a second stop leaves it. -/
def State.cutUnissued (s : State) (own : BusWrite → Bool) : State :=
  { s with
    bus := { s.bus with inFlight := keepIssued own (s.issuedCount own) s.bus.inFlight }
    free := s.free + 1 }

/-- The end writes of an abort sequence are not issued (R183; log 31). -/
def State.withdrawSequels (s : State) : State :=
  s.onBus fun b => { b with inFlight := b.inFlight.filter fun w => !(w.pace == .sequel && !w.landed) }

/-! ### Reads (log 30) -/

/-- A read of the Exchange Block. -/
def State.blockRead (s : State) (site : ReadSite) (offset bytes : Nat) : BusRead :=
  { site := site, address := s.blockBase + offset, bytes := bytes, plate := 0xFFFF, frame := 0, stage := .waiting }

/-- The first of an operation's reads is made at once. -/
def firstMade : List BusRead → List BusRead
  | [] => []
  | r :: rs => { r with stage := .made } :: rs

/-- An operation begins its reads: the first is made, the others follow. -/
def State.startReads (s : State) (reads : List BusRead) : State :=
  if s.accessBarred then s else s.onBus fun b => { b with reads := b.reads ++ firstMade reads }

/-- A read of a site whose operation has not been given up. -/
def BusRead.isLive (r : BusRead) (site : ReadSite) : Bool := r.site == site && r.stage != .dropped

/-- A read of a site whose operation was given up. -/
def BusRead.isDropped (r : BusRead) (site : ReadSite) : Bool := r.site == site && r.stage == .dropped

/-- The reads of the operation in progress at a site have ended. -/
def State.endReads (s : State) (site : ReadSite) : State :=
  s.onBus fun b => { b with reads := b.reads.filter fun r => !r.isLive site }

/-- The reads at a site whose operation was given up have ended. -/
def State.endDropped (s : State) (site : ReadSite) : State :=
  s.onBus fun b => { b with reads := b.reads.filter fun r => !r.isDropped site }

/-- A read of a site that has still to be made. -/
def BusRead.isWaiting (r : BusRead) (site : ReadSite) : Bool := r.site == site && r.stage == .waiting

/-- The first `quota` of the reads of a site that had still to be made have been made. -/
def makeReads (site : ReadSite) : Nat → List BusRead → List BusRead
  | _, [] => []
  | quota, r :: rs =>
    if r.isWaiting site then
      match quota with
      | 0 => r :: makeReads site 0 rs
      | q + 1 => { r with stage := .made } :: makeReads site q rs
    else r :: makeReads site quota rs

/-- How many reads of a site have still to be made. -/
def State.countWaiting (s : State) (site : ReadSite) : Nat := (s.bus.reads.filter fun r => r.isWaiting site).length

/-- How far the reads of a site have come by now: a free number of those that had still to be made have been made. -/
def State.reachReads (s : State) (site : ReadSite) : State :=
  if s.countWaiting site = 0 then s
  else
    { s with
      bus := { s.bus with
        reads := makeReads site (Config.freeProgress s.free % (s.countWaiting site + 1)) s.bus.reads }
      free := s.free + 1 }

/-- No further read of a site is made, and the data of those that have been made is to be discarded. -/
def dropReads (site : ReadSite) (reads : List BusRead) : List BusRead :=
  (reads.filter fun r => !r.isWaiting site).map fun r => if r.site = site then { r with stage := .dropped } else r

/-- The operation that reads at a site is given up. -/
def State.stopReads (s : State) (site : ReadSite) : State :=
  (s.reachReads site).onBus fun b => { b with reads := dropReads site b.reads }

/-- Every operation that reads is given up. -/
def State.stopAllReads (s : State) : State :=
  [ReadSite.windowSource, .slotWord, .orderRecord, .shadingEntry, .plateCount, .plateEntry].foldl State.stopReads s

/-- The scan of the plate table is given up (R143, R152). -/
def State.stopScan (s : State) : State := (s.stopReads .plateCount).stopReads .plateEntry

/-- Reads of the Exchange Block that have still to be made are made at its new address (R162). -/
def moveReads (old new : Nat) (reads : List BusRead) : List BusRead :=
  reads.map fun r =>
    if r.stage = .waiting ∧ r.site ≠ .shadingEntry then { r with address := r.address - old + new } else r

/-- The place of the first read in flight of a site whose bytes take in an address. -/
def State.findRead (s : State) (site : ReadSite) (address : Nat) : Option Nat :=
  s.bus.reads.findIdx? fun r => r.site == site && decide (r.address ≤ address) && decide (address < r.address + r.bytes)

/-- The read at place `k` has failed; the reads of its site before it have been made. -/
def State.failRead (s : State) (k : Nat) (site : ReadSite) : State :=
  s.onBus fun b =>
    { b with
      reads :=
        (b.reads.take k).map (fun r => if r.isWaiting site then { r with stage := .made } else r) ++ b.reads.drop (k + 1) }

/-- The bursts of a line. -/
def isBurst (w : BusWrite) : Bool := w.mark == .burst

/-- The entry writes of a shading table. -/
def isTableWrite (w : BusWrite) : Bool := w.kind == .shading

/-- The roster writes. -/
def isRosterWrite (w : BusWrite) : Bool := w.kind == .roster

/-! ### The order in progress -/

def State.scanOrder (s : State) : Option ScanOrder :=
  match s.order.current with
  | some (.scan o) => some o
  | _ => none

def State.calOrder (s : State) : Option CalOrder :=
  match s.order.current with
  | some (.calibrate o) => some o
  | _ => none

end Sys2Proof.Machine
end

