-- ==== Sys2Proof/Machine/Store.lean ====
section
/-! DEFINITION. The Line Store (03): room, the pending and the context list, the occupancy hold, lost lines. -/
namespace Sys2Proof.Machine

/-- The order state fixed at the entry to RUNNING (R32). -/
def levelsOf (o : ScanOrder) : StoreLevels :=
  { rv := o.rv, delay := max o.rv (o.insetBottom + o.minGap), setLevel := 56 - o.rv, clearLevel := 40 - o.rv }

/-- The occupancy hold for a pending count (R40). -/
def holdAfter (levels : Option StoreLevels) (hold : Bool) (count : Nat) : Bool :=
  match levels with
  | none => hold
  | some l => if hold then !decide (count ≤ l.clearLevel) else decide (l.setLevel ≤ count)

/-- The store after its pending list has become `pending`, its hold evaluated (R40). -/
def LineStore.withPending (st : LineStore) (pending : List Entry) : LineStore :=
  { st with pending := pending, hold := holdAfter st.levels st.hold pending.length }

/-- Room for one more line (R33). -/
def LineStore.hasRoom (st : LineStore) : Bool := decide (st.pending.length + st.context.length < Config.storeSlots)

/-- An entry as begun at the announcement of its line (R31, R33). Its samples, class, frame number and span list are the model's
choice until the tracker hands the line on: R31 gives them no value before (log 36). -/
def newEntry (line : Nat) : Entry :=
  { line := line, samples := [], cls := .gap, frame := none, fate := .undecided, spans := none, complete := false }

/-- The announcement of line `n`: it joins the pending list, or is lost and counted (R33, R39 step 1). -/
def LineStore.announce (st : LineStore) (n : Nat) : LineStore :=
  if st.hasRoom then st.withPending (st.pending ++ [newEntry n]) else { st with lost := st.lost + 1 }

/-- Rewrite the pending entries that `which` chooses. -/
def LineStore.mapPending (st : LineStore) (which : Entry → Bool) (f : Entry → Entry) : LineStore :=
  { st with pending := st.pending.map fun e => if which e then f e else e }

/-- The context list keeps the `rv` newest lines (R37). -/
def trimContext (rv : Nat) (context : List Entry) : List Entry := context.drop (context.length - rv)

/-- Whether a line of this fate goes to the context list when it leaves the pending list (R36). -/
def Fate.isImage : Fate → Bool
  | .write => true
  | .dropImage => true
  | .undecided => false
  | .dropOther => false

/-- Remove the head (R37). `clearFrame`: it is a line of a frame discarded while it was being written (R36). -/
def LineStore.removeHead (st : LineStore) (clearFrame : Bool) : LineStore :=
  match st.pending with
  | [] => st
  | e :: rest =>
    let moved := if clearFrame then { e with frame := none } else e
    let rv := match st.levels with
      | none => 0
      | some l => l.rv
    let context := if e.fate.isImage then trimContext rv (st.context ++ [moved]) else st.context
    { st with context := context }.withPending rest

/-- Both lists emptied; the hold is clear (R42, R43). The record of the frames that have had a lost line is emptied with them
(log 24). -/
def LineStore.emptied (st : LineStore) : LineStore := { st with pending := [], context := [], hold := false, lostFrames := [] }

/-- A line is present (R38). -/
def LineStore.presentLines (st : LineStore) : List Entry := (st.context ++ st.pending).filter Entry.complete

/-- The frame of the head of the pending list. -/
def State.headFrame (s : State) : Option Nat := s.store.pending.head?.bind Entry.frame

/-- The sliver of frame `k` is discarded in the store (R36, R64): every pending entry of it but one whose write is in
progress becomes DROP_OTHER with frame none, every context entry of it loses its frame. -/
def LineStore.discardFrame (st : LineStore) (k : Nat) (headIsWritten : Bool) : LineStore :=
  let drop := fun (e : Entry) => if e.frame = some k then { e with fate := Fate.dropOther, frame := none } else e
  { st with
    pending :=
      (match st.pending with
      | [] => []
      | e :: rest => (if headIsWritten then e else drop e) :: rest.map drop)
    context := st.context.map fun e => if e.frame = some k then { e with frame := none } else e
    lostFrames := st.lostFrames.filter (· != k) }

end Sys2Proof.Machine
end

