-- ==== Sys2Proof/Machine/Convert.lean ====
section
/-! DEFINITION. Rounding, the fill of a line (07, R108 to R119) and its conversion to output form (08, R130, R131). -/
namespace Sys2Proof.Machine

/-- Round half up (00_scope.md, Conventions). -/
def roundHalfUp (num den : Nat) : Nat := (num + den / 2) / den

/-- Clamped to a range (00_scope.md, Conventions). -/
def clamp (low high v : Nat) : Nat := if v < low then low else if high < v then high else v

/-! ### The decimation grid (R83) -/

/-- Whether a column is an output column of a crop. -/
def isOutputColumn (crop : Columns) (f c : Nat) : Bool :=
  decide (crop.left ≤ c) && decide (c ≤ crop.right) && decide ((c - crop.left) % f = 0)

/-- The output width. -/
def outputWidth (crop : Columns) (f : Nat) : Nat := (crop.right - crop.left) / f + 1

/-- The output line bytes (R126). -/
def outputBytes (crop : Columns) (f depth : Nat) : Nat := outputWidth crop f * 3 * (depth / 8)

/-! ### Spans -/

/-- The end column of a span. -/
def Span.last (p : Span) : Nat := p.start + p.length - 1

/-- Whether a column lies inside a span. -/
def Span.covers (p : Span) (c : Nat) : Bool := decide (p.start ≤ c) && decide (c < p.start + p.length)

/-- The span of a list that a column lies in. -/
def spanAt (spans : List Span) (c : Nat) : Option Span := spans.find? fun p => p.covers c

/-! ### The three channels of an image pixel -/

/-- Red, green and blue of a filled pixel. -/
structure Rgb where
  r : Nat
  g : Nat
  b : Nat
  deriving DecidableEq, Repr

def rgbOf (p : Pixel) : Rgb := { r := p.r.toNat, g := p.g.toNat, b := p.b.toNat }

def Rgb.map2 (f : Nat → Nat → Nat) (x y : Rgb) : Rgb := { r := f x.r y.r, g := f x.g y.g, b := f x.b y.b }

/-- The image samples of a column of a line. -/
def rgbAt (samples : List Pixel) (c : Nat) : Rgb :=
  match samples[c]? with
  | none => { r := 0, g := 0, b := 0 }
  | some p => rgbOf p

/-- An estimate of a defect pixel: its three values and its distance. -/
structure Estimate where
  value : Rgb
  distance : Nat
  deriving DecidableEq, Repr

/-- The weighted mean of two sources, each weighted by the other's distance (R111, R114, R116). -/
def blend (near : Rgb) (nearDistance : Nat) (other : Rgb) (otherDistance : Nat) : Rgb :=
  Rgb.map2 (fun x y => roundHalfUp (otherDistance * x + nearDistance * y) (nearDistance + otherDistance)) near other

/-- The estimate from up to two sources, each with its distance (R111, R114). -/
def estimateOf (first second : Option Estimate) : Option Estimate :=
  match first, second with
  | some u, some v => some { value := blend u.value u.distance v.value v.distance, distance := min u.distance v.distance }
  | some u, none => some u
  | none, some v => some v
  | none, none => none

/-- The left and the right source of a pixel of a span (R110). -/
def leftSource (l : LineInHand) (p : Span) (x : Nat) : Option Estimate :=
  if l.crop.left + 1 ≤ p.start then some { value := rgbAt l.samples (p.start - 1), distance := x - p.start + 1 } else none

def rightSource (l : LineInHand) (p : Span) (x : Nat) : Option Estimate :=
  if p.last + 1 ≤ l.crop.right then some { value := rgbAt l.samples (p.last + 1), distance := p.last + 1 - x } else none

/-- The horizontal estimate (R110, R111). -/
def horizontalEstimate (hmax : Nat) (l : LineInHand) (p : Span) (x : Nat) : Option Estimate :=
  if hmax < p.length then none else estimateOf (leftSource l p x) (rightSource l p x)

/-- Whether an entry is a vertical source line of column x of the line in hand (R112), its distance apart. -/
def isVerticalSource (l : LineInHand) (x : Nat) (e : Entry) : Bool :=
  e.complete && e.frame == some l.frame && decide (l.top ≤ e.line)
    && (match l.last with
        | none => true
        | some last => decide (e.line ≤ last))
    && (match e.spans with
        | none => false
        | some spans => (spanAt spans x).isNone)

/-- The source line with a given number. -/
def sourceLine (l : LineInHand) (x line : Nat) : Option Entry :=
  l.sources.find? fun e => e.line == line && isVerticalSource l x e

/-- The search through `left` more lines at distances `d`, `d + 1`, … (R113); `lineAt` gives the line at a distance. -/
def searchFrom (l : LineInHand) (x : Nat) (lineAt : Nat → Option Nat) : Nat → Nat → Option Estimate
  | 0, _ => none
  | left + 1, d =>
    match (lineAt d).bind (sourceLine l x) with
    | some e => some { value := rgbAt e.samples x, distance := d }
    | none => searchFrom l x lineAt left (d + 1)

/-- The vertical estimate (R113, R114). -/
def verticalEstimate (rv : Nat) (l : LineInHand) (x : Nat) : Option Estimate :=
  estimateOf (searchFrom l x (fun d => if d ≤ l.line then some (l.line - d) else none) rv 1)
    (searchFrom l x (fun d => some (l.line + d)) rv 1)

/-- The value of a defect pixel and whether it was filled (R116 to R118). -/
def fillPixel (params : FillParams) (l : LineInHand) (p : Span) (x : Nat) (original : Rgb) : Rgb × Bool :=
  if !params.enable then (original, false)
  else
    match horizontalEstimate params.hmax l p x, verticalEstimate params.rv l x with
    | some h, some v => (blend h.value h.distance v.value v.distance, true)
    | some h, none => (h.value, true)
    | none, some v => (v.value, true)
    | none, none => (original, false)

/-- What the Fill Unit makes of one output column: its values, and none for a clean pixel, else whether it was filled. -/
structure FilledPixel where
  value : Rgb
  defect : Option Bool
  deriving DecidableEq, Repr

def fillColumn (params : FillParams) (l : LineInHand) (x : Nat) (p : Pixel) : FilledPixel :=
  match spanAt l.spans x with
  | none => { value := rgbOf p, defect := none }
  | some span =>
    let result := fillPixel params l span x (rgbOf p)
    { value := result.1, defect := some result.2 }

/-- The filled line: its output columns in column order, from column `c` on (R108, R121). -/
def fillFrom (params : FillParams) (l : LineInHand) : Nat → List Pixel → List FilledPixel
  | _, [] => []
  | c, p :: ps =>
    if isOutputColumn l.crop l.decimation c then fillColumn params l c p :: fillFrom params l (c + 1) ps
    else fillFrom params l (c + 1) ps

def fillLine (params : FillParams) (l : LineInHand) : List FilledPixel := fillFrom params l 0 l.samples

/-- Defect, filled and unfilled pixels of output columns (R119). -/
def countDefect (ps : List FilledPixel) : Nat := (ps.filter fun p => p.defect.isSome).length
def countFilled (ps : List FilledPixel) : Nat := (ps.filter fun p => p.defect == some true).length
def countUnfilled (ps : List FilledPixel) : Nat := (ps.filter fun p => p.defect == some false).length

/-! ### Conversion -/

/-- A value of a negative inverted against its base level (R130). -/
def invertSample (base v : Nat) : Nat := 65535 - min ((v * 65535 + base / 2) / base) 65535

/-- The bytes of one output pixel (R130, R131). -/
def pixelBytes (film : Film) (base : Base) (depth : Nat) (v : Rgb) : List Byte :=
  match film with
  | .negative =>
    sampleBytes depth (invertSample base.r v.r) ++ sampleBytes depth (invertSample base.g v.g)
      ++ sampleBytes depth (invertSample base.b v.b)
  | .positive => sampleBytes depth v.r ++ sampleBytes depth v.g ++ sampleBytes depth v.b

/-- The output line. -/
def convertLine (film : Film) (base : Base) (depth : Nat) (ps : List FilledPixel) : List Byte :=
  ps.flatMap fun p => pixelBytes film base depth p.value

/-- A line's bursts in rising address order: at most 256 bytes each, none crossing a 256-byte boundary (R137). The fuel is
the number of bytes. -/
def splitBursts : Nat → Nat → List Byte → List (Nat × List Byte)
  | 0, _, _ => []
  | _ + 1, _, [] => []
  | fuel + 1, address, b :: bs =>
    let n := 256 - address % 256
    (address, (b :: bs).take n) :: splitBursts fuel (address + n) ((b :: bs).drop n)

end Sys2Proof.Machine
end

