-- ==== Sys2Proof/Machine/Crop.lean ====
section
/-! DEFINITION. The crop columns of a frame (05): FIXED columns, widening, the column profile and the edge search. -/
namespace Sys2Proof.Machine

/-- A pair of columns whose width may be below 16, widened (R75); a pair of 16 columns or more stands. -/
def widen (width : Nat) (left right : Int) : Columns :=
  if 16 ≤ right - left + 1 then { left := left.toNat, right := right.toNat }
  else
    let start := if left + right < 15 then 0 else ((left + right - 15) / 2).toNat
    if width - 1 < start + 15 then { left := width - 16, right := width - 1 } else { left := start, right := start + 15 }

/-- The crop columns of FIXED mode (R74, R75). -/
def fixedCrop (o : ScanOrder) : Columns :=
  widen o.width ((o.defaultLeft : Int) + o.insetLeft) ((o.defaultRight : Int) - o.insetRight)

/-- Sum two lists place by place, as far as both go. -/
def addColumns (sums greens : List Nat) : List Nat := List.zipWith (· + ·) sums greens

/-- The column means of the profile (R78). -/
def columnMeans (width : Nat) (profile : List ProfileRecord) : List Nat :=
  (profile.foldl (fun sums record => addColumns sums record.greens) (List.replicate width 0)).map (· / profile.length)

/-- The first place, from `c` on, at which a run of `run` film columns begins (R79). -/
def firstRun (run : Nat) : Nat → List Bool → Option Nat
  | _, [] => none
  | c, b :: bs =>
    if ((b :: bs).take run).length = run ∧ ((b :: bs).take run).all id then some c else firstRun run (c + 1) bs

/-- The two edges of the film columns (R79). -/
def filmEdges (run : Nat) (film : List Bool) : Option (Nat × Nat) :=
  match firstRun run 0 film, firstRun run 0 film.reverse with
  | some left, some fromRight => some (left, film.length - 1 - fromRight)
  | _, _ => none

/-- The film columns of the profile at a gap level (R78). -/
def filmColumns (width gapLevel : Nat) (profile : List ProfileRecord) : List Bool :=
  (columnMeans width profile).map fun mean => decide (gapLevel ≤ mean)

/-- The crop columns of EDGE mode, none when one of the three conditions fails (R80). -/
def edgeCrop (o : ScanOrder) (gapLevel : Nat) (profile : List ProfileRecord) : Option Columns :=
  if profile.length < 4 then none
  else
    match filmEdges o.edgeRun (filmColumns o.width gapLevel profile) with
    | none => none
    | some (left, right) =>
      if 16 ≤ (right : Int) - o.insetRight - (left + o.insetLeft) + 1 then
        some { left := left + o.insetLeft, right := right - o.insetRight }
      else none

/-- The crop columns of a frame that opens from LEADER, SEEK or GAP, and whether EDGE mode fell back (R74, R80). -/
def openingCrop (o : ScanOrder) (t : Tracker) : Columns × Bool :=
  match o.cropMode with
  | .fixed => (fixedCrop o, false)
  | .edge =>
    match edgeCrop o (t.gapLevel.getD 0) t.profile with
    | some crop => (crop, false)
    | none => (fixedCrop o, true)

/-- A record joins the column profile, in EDGE mode (R76). -/
def joinProfile (o : ScanOrder) (profile : List ProfileRecord) (record : ProfileRecord) : List ProfileRecord :=
  match o.cropMode with
  | .fixed => profile
  | .edge => (profile ++ [record]).drop ((profile.length + 1) - Config.maxProfile)

/-- The record that a line with samples gives the profile (R76). -/
def profileRecord (line : Nat) (samples : List Pixel) : ProfileRecord :=
  { line := line, greens := samples.map fun p => p.g.toNat }

/-- The columns that fix the order line bytes B0 (R126). -/
def orderLineBytes (o : ScanOrder) : Nat :=
  match o.cropMode with
  | .fixed => outputBytes (fixedCrop o) o.decimation o.depth
  | .edge => outputBytes { left := 0, right := o.width - 1 } o.decimation o.depth

end Sys2Proof.Machine
end

