-- ==== Sys2Proof/Machine/Mapper.lean ====
section
/-! DEFINITION. The Defect Mapper (06): the defect test, the IR reference, and the span list of a mapped line. -/
namespace Sys2Proof.Machine

/-- The defect test (R90). -/
def isDefect (thr ref i : Nat) : Bool := decide (i * 256 < ref * thr)

/-- The IR reference of a clean candidate after its sample (R91). -/
def moveReference (ref i : Nat) : Nat := if ref ≤ i then ref + (i - ref) / 16 else ref - (ref - i) / 16

/-- Whether a column is given the defect test (R90, R92). -/
def isTested (band : Columns) (faults : List Nat) (c : Nat) : Bool :=
  decide (band.left ≤ c) && decide (c ≤ band.right) && !faults.contains c

/-- The defect candidates of a line, from column `c` on (R90). A reference element that is not listed is 0. -/
def defectColumns (thr : Nat) (band : Columns) (faults : List Nat) : Nat → List Pixel → List Nat → List Nat
  | _, [], _ => []
  | c, p :: ps, ref =>
    if isTested band faults c && isDefect thr (ref.headD 0) p.ir.toNat then
      c :: defectColumns thr band faults (c + 1) ps ref.tail
    else defectColumns thr band faults (c + 1) ps ref.tail

/-- The IR reference after a mapped line, from column `c` on (R91, R92). -/
def updateReference (thr : Nat) (band : Columns) (faults : List Nat) : Nat → List Pixel → List Nat → List Nat
  | _, [], ref => ref
  | c, p :: ps, ref =>
    (if isTested band faults c && !isDefect thr (ref.headD 0) p.ir.toNat then moveReference (ref.headD 0) p.ir.toNat
      else ref.headD 0) :: updateReference thr band faults (c + 1) ps ref.tail

/-- The maximal runs of columns in ascending order. -/
def runsOf : List Nat → List Span
  | [] => []
  | c :: cs =>
    match runsOf cs with
    | [] => [{ start := c, length := 1 }]
    | p :: ps => if p.start = c + 1 then { start := c, length := p.length + 1 } :: ps
      else { start := c, length := 1 } :: p :: ps

/-- A candidate run grown and clipped to the band (R93). -/
def growSpan (growth : Nat) (band : Columns) (p : Span) : Span :=
  let first := max band.left (p.start - growth)
  let last := min band.right (p.last + growth)
  { start := first, length := last + 1 - first }

/-- The faulted spans of a band (R94). -/
def faultedSpans (band : Columns) (faults : List Nat) : List Span :=
  (faults.filter fun c => decide (band.left ≤ c) && decide (c ≤ band.right)).map fun c => { start := c, length := 1 }

/-- The columns of a band. -/
def bandColumns (band : Columns) : List Nat := List.range' band.left (band.right + 1 - band.left)

/-- The union of spans inside a band: the set of columns they cover, cut into maximal runs (R95). -/
def unionSpans (band : Columns) (spans : List Span) : List Span :=
  runsOf ((bandColumns band).filter fun c => (spanAt spans c).isSome)

/-- The columns between two neighbouring spans (R96). -/
def gapBetween (p q : Span) : Nat := q.start - (p.start + p.length)

/-- The smallest gap between neighbours. -/
def smallestGap : List Span → Nat
  | p :: q :: rest =>
    match rest with
    | [] => gapBetween p q
    | _ :: _ => min (gapBetween p q) (smallestGap (q :: rest))
  | _ => 0

/-- Join the leftmost pair of neighbours with a gap (R96). -/
def joinAt (gap : Nat) : List Span → List Span
  | p :: q :: rest =>
    if gapBetween p q = gap then { start := p.start, length := q.start + q.length - p.start } :: rest
    else p :: joinAt gap (q :: rest)
  | ps => ps

/-- Join at the smallest gap until 24 spans remain (R96). The fuel is the number of spans. -/
def capSpans : Nat → List Span → List Span
  | 0, ps => ps
  | fuel + 1, ps => if ps.length ≤ Config.maxSpans then ps else capSpans fuel (joinAt (smallestGap ps) ps)

/-- The union of a mapped line (R93 to R95). -/
def lineUnion (params : MapParams) (band : Columns) (faults ref : List Nat) (samples : List Pixel) : List Span :=
  unionSpans band
    ((runsOf (defectColumns params.thr band faults 0 samples ref)).map (growSpan params.growth band)
      ++ faultedSpans band faults)

/-- The span list of a mapped line (R97). -/
def lineSpans (params : MapParams) (band : Columns) (faults ref : List Nat) (samples : List Pixel) : List Span :=
  let union := lineUnion params band faults ref samples
  capSpans union.length union

/-- Whether it is a merged line (R96). -/
def isMergedLine (params : MapParams) (band : Columns) (faults ref : List Nat) (samples : List Pixel) : Bool :=
  decide (Config.maxSpans < (lineUnion params band faults ref samples).length)

end Sys2Proof.Machine
end

