-- ==== Sys2Proof/Machine/Judge.lean ====
section
/-! DEFINITION. How the Strip Tracker judges a line and forms the base (04, R48 to R54). -/
namespace Sys2Proof.Machine

/-- The pixels of the tracker band (04). -/
def bandPixels (o : ScanOrder) (samples : List Pixel) : List Pixel :=
  (samples.drop o.bandLeft).take (o.bandRight + 1 - o.bandLeft)

/-- The width of the tracker band. -/
def bandWidth (o : ScanOrder) : Nat := o.bandRight - o.bandLeft + 1

/-- The sum of values. -/
def sumOf (vs : List Nat) : Nat := vs.foldl (· + ·) 0

def greatest (vs : List Nat) : Nat := vs.foldl max 0

def least (vs : List Nat) : Nat := vs.foldl min 65535

/-- The green samples of the tracker band. -/
def bandGreens (o : ScanOrder) (samples : List Pixel) : List Nat := (bandPixels o samples).map fun p => p.g.toNat

/-- The band mean (R48). -/
def bandMean (o : ScanOrder) (samples : List Pixel) : Nat := sumOf (bandGreens o samples) / bandWidth o

/-- The spread (R48). -/
def bandSpread (o : ScanOrder) (samples : List Pixel) : Nat :=
  greatest (bandGreens o samples) - least (bandGreens o samples)

/-- Whether a line with samples is gap-like in the tracker's present state (R49 to R51). -/
def isGapLike (o : ScanOrder) (t : Tracker) (samples : List Pixel) : Bool :=
  match o.film with
  | .positive => decide (bandMean o samples ≤ o.darkGapLevel) && decide (bandSpread o samples ≤ o.spreadLimit)
  | .negative =>
    if t.state = .leader then decide (bandSpread o samples ≤ o.spreadLimit)
    else decide (t.gapLevel.getD 0 ≤ bandMean o samples) && decide (bandSpread o samples ≤ o.spreadLimit)

/-- The record of a leader line (R53). -/
def leaderRecord (o : ScanOrder) (line : Nat) (samples : List Pixel) : LeaderRecord :=
  { line := line, sumR := sumOf ((bandPixels o samples).map fun p => p.r.toNat),
    sumG := sumOf (bandGreens o samples), sumB := sumOf ((bandPixels o samples).map fun p => p.b.toNat) }

/-- A record joins the leader window (R53). -/
def joinWindow (o : ScanOrder) (window : List LeaderRecord) (record : LeaderRecord) : List LeaderRecord :=
  (window ++ [record]).drop (window.length + 1 - o.leaderLines)

/-- The base formed from the leader window (R54). -/
def formBase (o : ScanOrder) (window : List LeaderRecord) : Base :=
  let n := window.length
  let level := fun (sum : LeaderRecord → Nat) (fallback : Nat) =>
    max 256 (if n < 4 then fallback else sumOf (window.map sum) / (n * bandWidth o))
  { r := level LeaderRecord.sumR o.fallbackR, g := level LeaderRecord.sumG o.fallbackG,
    b := level LeaderRecord.sumB o.fallbackB,
    source := if n = o.leaderLines then .leader else if 4 ≤ n then .short else .fallback }

/-- The gap level of a base (R49). It is used for NEGATIVE film only. -/
def gapLevelOf (o : ScanOrder) (base : Base) : Nat := base.g * o.gapRatio / 256

/-- The tracker with the base formed: the window is emptied, and for NEGATIVE film the gap level is set (R53, R54). -/
def Tracker.withBase (o : ScanOrder) (t : Tracker) : Tracker :=
  let base := formBase o t.window
  { t with
    base := some base
    gapLevel := (match o.film with
      | .negative => some (gapLevelOf o base)
      | .positive => none)
    window := [] }

/-- The base as the tracker reports it: formed from the window if it is still in LEADER (R55). -/
def Tracker.reportedBase (o : ScanOrder) (t : Tracker) : Base := t.base.getD (formBase o t.window)

end Sys2Proof.Machine
end

