-- ==== Sys2Proof/Machine/OrderEnd.lean ====
section
/-! DEFINITION. How an order ends: the result area, the end writes, and what every block holds afterwards
(11, R180, R181, R183). -/
namespace Sys2Proof.Machine

/-- The fields of a result area (Formats). -/
structure Results where
  reason : Reason
  source : Nat
  ready : Nat
  damaged : Nat
  slivers : Nat
  lost : Nat
  excess : Nat
  malformed : Nat
  platesRefused : Nat
  baseR : Nat
  baseG : Nat
  baseB : Nat
  hot : Nat
  dead : Nat
  deriving DecidableEq, Repr

/-- A reason, every other field 0 (R180). -/
def Results.only (reason : Reason) : Results :=
  { reason := reason, source := 0, ready := 0, damaged := 0, slivers := 0, lost := 0, excess := 0, malformed := 0,
    platesRefused := 0, baseR := 0, baseG := 0, baseB := 0, hot := 0, dead := 0 }

/-- A count that the spec does not bound, in a 4-byte field (log 23). -/
def wideCount (n : Nat) : List Byte := word (if n < 2 ^ 32 then n else Config.freeWideCount n)

/-- The writes of the result area of slot `i`, field by field in the order of the Formats section (log 18). -/
def State.resultWrites (s : State) (i : Nat) (r : Results) : List BusWrite :=
  [(0x80, half r.reason.code), (0x82, half r.source), (0x84, word r.ready), (0x88, word r.damaged),
    (0x8C, word r.slivers), (0x90, word r.lost), (0x94, word r.excess), (0x98, wideCount r.malformed),
    (0x9C, word (min r.platesRefused Config.maxCount)), (0xA0, half r.baseR), (0xA2, half r.baseG), (0xA4, half r.baseB),
    (0xA6, half r.hot), (0xA8, half r.dead)].map fun field => s.blockField (slotOffset i + field.1) field.2 .silent

/-- The writes of an order's end or refusal, in order: the result area, the slot state word, the advanced orders tally
(R180, R181, R183). -/
def State.endWrites (s : State) (i : Nat) (r : Results) (slotWord : Nat) (pace : Pace) : List BusWrite :=
  (s.resultWrites i r ++
    [s.blockField (slotOffset i) (word slotWord) .silent,
      s.blockField 0x08 (word (s.order.ordersTally + 1).toNat) .ordersTally]).map fun w => { w with pace := pace }

/-- The end writes of the order in the chosen slot are issued. -/
def State.issueEnd (s : State) (r : Results) (slotWord : Nat) (pace : Pace) : State :=
  match s.order.chosen with
  | none => s
  | some i =>
    (s.onOrder fun u => { u with ordersTally := u.ordersTally + 1, endWrites := true, follows := true }).issueAll
      (s.endWrites i r slotWord pace)

/-- The shading copy is discarded, and with it the column fault list (R14, R88). -/
def State.discardShading (s : State) : State :=
  (s.onIntake fun i => { i with shading := .empty, copy := [], hot := 0, dead := 0 }).onMapper fun m =>
    { m with faults := [] }

/-- What the blocks hold once the order is over: the part is IDLE, no order is chosen (R14, R42, R71, R104, R142, R181; for
the values that lose their meaning, and for the tracker's, log 24). -/
def State.leaveOrder (s : State) : State :=
  (((((s.onOrder fun u =>
      { u with part := .idle, origin := none, aborting := false, chosen := none, current := none, recordRead := false,
               waiting := none, shadingReads := false, heldEnd := false, gathered := none }).discardShading).onTracker
    fun _ => Tracker.reset).onStore fun st => { st.emptied with levels := none }).onMapper fun m =>
      { m with params := none, runMerge := [], inHand := none }).onFill (fun f =>
        { f with state := .idle, line := none, pixel := none, params := none })
    |>.onWriter fun wr =>
      { wr with state := .off, stop := false, waitFlag := false, records := [], plate := none, scan := none, rescan := false,
                lineBytes := none, write := none }

/-- The results of a SCAN order (R181). -/
def State.scanResults (s : State) (o : ScanOrder) (reason : Reason) : Results :=
  let base := s.tracker.reportedBase o
  { reason := reason, source := base.source.code, ready := s.writer.framesReady, damaged := s.writer.framesDamaged,
    slivers := s.tracker.slivers, lost := s.store.lost, excess := s.tracker.excess, malformed := s.intake.malformed,
    platesRefused := s.writer.platesRefused, baseR := base.r, baseG := base.g, baseB := base.b, hot := s.intake.hot,
    dead := s.intake.dead }

/-- The results of a CALIBRATE order from its unit's report (R181). -/
def State.calResults (s : State) (g : Gathered) (reason : Reason) : Results :=
  { Results.only reason with
    source := BaseSource.fallback.code, excess := g.excess, malformed := s.intake.malformed, hot := g.hot,
    dead := g.dead }

/-- The normal end of a SCAN order (R181). -/
def State.endScan (s : State) (o : ScanOrder) : State :=
  (s.issueEnd (s.scanResults o .none) slotDone .grouped).leaveOrder

/-- The normal end of a CALIBRATE order, with its unit's report (R25, R181). -/
def State.endCalibrate (s : State) (g : Gathered) : State :=
  (if g.sensorFailed then s.issueEnd (s.calResults g .sensor) slotFailed .grouped
    else s.issueEnd (s.calResults g .none) slotDone .grouped).leaveOrder

end Sys2Proof.Machine
end

