-- ==== Sys2Proof/Machine/Calibration.lean ====
section
/-! DEFINITION. The Calibration Unit (02): the passes, the computation of the table, its report and its stop. -/
namespace Sys2Proof.Machine

/-- Change each channel's value. -/
def Quad.map2 (f : Nat → Nat → Nat) (x y : Quad) : Quad :=
  { r := f x.r y.r, g := f x.g y.g, b := f x.b y.b, ir := f x.ir y.ir }

/-- Whether a channel satisfies a test. -/
def Quad.anyChannel (test : Nat → Bool) (x : Quad) : Bool := test x.r || test x.g || test x.b || test x.ir

def quadOf (p : Pixel) : Quad := { r := p.r.toNat, g := p.g.toNat, b := p.b.toNat, ir := p.ir.toNat }

def zeroQuad : Quad := { r := 0, g := 0, b := 0, ir := 0 }

/-- The same value in all four channels. -/
def sameQuad (v : Nat) : Quad := { r := v, g := v, b := v, ir := v }

/-! ### The passes (R19 to R22) -/

/-- A line's raw samples are added to a pass's sums, column by column; the sums of columns above the line's width stand
(R18, R19). -/
def addLine (sums : List Quad) (line : List Pixel) : List Quad :=
  List.zipWith (fun sum p => Quad.map2 (· + ·) sum (quadOf p)) sums line ++ sums.drop line.length

/-- A line of the dark pass (R19). -/
def CalibrationUnit.darkLine (o : CalOrder) (u : CalibrationUnit) (line : List Pixel) : CalibrationUnit :=
  let u := { u with darkSums := addLine u.darkSums line }
  if o.darkLines ≤ u.passLines + 1 then { u with passLines := 0, pass := .brightPass }
  else { u with passLines := u.passLines + 1 }

/-- A line of the bright pass (R20). -/
def CalibrationUnit.brightLine (o : CalOrder) (u : CalibrationUnit) (line : List Pixel) : CalibrationUnit :=
  { u with
    brightSums := addLine u.brightSums line
    passLines := u.passLines + 1
    pass := if o.brightLines ≤ u.passLines + 1 then .passesComplete else .brightPass }

/-- A line handed to the unit (R19, R20, R22). -/
def CalibrationUnit.takeLine (o : CalOrder) (u : CalibrationUnit) (line : List Pixel) : CalibrationUnit :=
  match u.pass with
  | .darkPass => u.darkLine o line
  | .brightPass => u.brightLine o line
  | .passesComplete => { u with excess := min (u.excess + 1) Config.maxCount }
  | .idle => u
  | .writing => u

/-! ### The table (R23 to R26) -/

/-- The span of a channel (R23). -/
def spanOf (dark bright : Nat) : Nat := if dark < bright then bright - dark else 0

/-- Whether a channel is DEAD (R24). -/
def deadChannel (o : CalOrder) (span : Nat) : Bool := decide (span = 0) || decide (span < o.deadLimit)

/-- The gain of a channel (R24). -/
def gainOf (o : CalOrder) (span : Nat) : Nat :=
  if deadChannel o span then 16384 else min 65535 (o.white * 16384 / span)

/-- The entry of a column from its two sums (R23 to R25). -/
def columnEntry (o : CalOrder) (darkSum brightSum : Quad) : ShadingColumn :=
  let dark := Quad.map2 (fun sum _ => sum / o.darkLines) darkSum zeroQuad
  let bright := Quad.map2 (fun sum _ => sum / o.brightLines) brightSum zeroQuad
  let span := Quad.map2 spanOf dark bright
  { dark := dark, gain := Quad.map2 (fun v _ => gainOf o v) span zeroQuad,
    hot := dark.anyChannel fun v => decide (o.hotLimit < v), dead := span.anyChannel (deadChannel o) }

/-- Whether a column is faulted (R25). -/
def ShadingColumn.faulted (c : ShadingColumn) : Bool := c.hot || c.dead

/-- The entries of columns 0 to width − 1. -/
def tableColumns (o : CalOrder) (u : CalibrationUnit) : List ShadingColumn :=
  List.zipWith (columnEntry o) (u.darkSums.take o.width) (u.brightSums.take o.width)

def countHot (columns : List ShadingColumn) : Nat := (columns.filter ShadingColumn.hot).length
def countDead (columns : List ShadingColumn) : Nat := (columns.filter ShadingColumn.dead).length
def countFaulted (columns : List ShadingColumn) : Nat := (columns.filter ShadingColumn.faulted).length

/-- The entry writes from column `c` on; the last is the one whose end is reported (R26). -/
def tableWrites (o : CalOrder) : Nat → List ShadingColumn → List BusWrite
  | _, [] => []
  | c, column :: rest =>
    { kind := .shading, mark := if rest.isEmpty then .tableLast else .silent, address := o.tableAddress + 20 * c,
      data := column.toBytes, plate := 0xFFFF, frame := 0, pace := .grouped, landed := false } :: tableWrites o (c + 1) rest

/-- The unit enters WRITING: every column is computed and its entry's write issued (R26). The entries go in flight together,
so a write of another rule issued in WRITING (a slot word, a stray line count, a refusal record) stands behind all of them,
and a bus error on it finds the whole table landed (log 5). The counts are those of the whole table from here on, also where a
FAULT or an ABORT leaves entries unissued (log 24). -/
def State.enterTable (s : State) (o : CalOrder) : State :=
  let columns := tableColumns o s.cal
  let s := s.onCal fun u =>
    { u with
      pass := .writing, columnInHand := none, hot := countHot columns, dead := countDead columns,
      faulted := countFaulted columns }
  s.issueAll (tableWrites o 0 columns)

/-- The unit's report (R26), with the base of R181. -/
def CalibrationUnit.report (u : CalibrationUnit) : Gathered :=
  { slivers := 0, excess := u.excess, baseR := 0, baseG := 0, baseB := 0, source := .fallback, hot := u.hot,
    dead := u.dead, sensorFailed := decide (64 < u.faulted) }

/-- The order's passes are complete and the part is RUNNING: the part enters FINISHING and the unit WRITING (R20). -/
def State.finishPasses (s : State) (o : CalOrder) : State :=
  if s.cal.pass = .passesComplete ∧ s.order.part = .running then
    (s.onOrder fun u => { u with part := .finishing }).enterTable o
  else s

/-- A line of a CALIBRATE order (R9, R19 to R22). -/
def State.calibrateLine (s : State) (o : CalOrder) (line : List Pixel) : State :=
  (s.onCal fun u => u.takeLine o line).finishPasses o

/-- The last entry's write has ended: the unit reports and enters IDLE; the order ends, or its end is held while it is
suspended from FINISHING (R26, R181). -/
def State.tableWritten (s : State) : State :=
  let report := s.cal.report
  let s := (s.onCal fun u => { u with pass := .idle }).onOrder fun u => { u with gathered := some report }
  if s.order.part = .finishing then s.endCalibrate report
  else s.onOrder fun u => { u with heldEnd := true }

end Sys2Proof.Machine
end

