-- ==== Sys2Proof/Machine/Writer.lean ====
section
/-! DEFINITION. The Frame Writer (08, 09): frame records, roster and plate table writes, the handling of the head, the
throttle, line writes and plate scans. -/
namespace Sys2Proof.Machine

/-! ### Frame records (R127, R128) -/

/-- The record of a frame number; one whose frame has been discarded is gone (R128). -/
def FrameWriter.record (wr : FrameWriter) (k : Nat) : Option FrameRecord :=
  wr.records.find? fun r => r.number == k && !r.doomed

/-- Change the record of a frame number; without one nothing changes (R127). -/
def FrameWriter.onRecord (wr : FrameWriter) (k : Nat) (f : FrameRecord → FrameRecord) : FrameWriter :=
  { wr with records := wr.records.map fun r => if r.number = k ∧ r.doomed = false then f r else r }

/-- Whether the writer holds a frame as damaged (R70). -/
def State.frameDamaged (s : State) (k : Nat) : Bool :=
  match s.writer.record k with
  | none => false
  | some r => r.damage.isSome

/-- A frame takes a damage and its flag (R139, R150). -/
def FrameRecord.damaged (r : FrameRecord) : Damage → FrameRecord
  | .busError => { r with damage := some .busError, flags := { r.flags with busError := true } }
  | .plateListFull => { r with damage := some .plateListFull, flags := { r.flags with plateListFull := true } }

/-- Lost line report (R127). -/
def FrameRecord.lostLine (r : FrameRecord) : FrameRecord :=
  { r with lostLines := r.lostLines + 1, flags := { r.flags with linesLost := true } }

/-- Merge report (R127). -/
def FrameRecord.mergedLine (r : FrameRecord) : FrameRecord :=
  { r with mergedLines := r.mergedLines + 1, flags := { r.flags with spansMerged := true } }

/-- The last entry of a plate list counts one more line (R138). -/
def countOnLast : List PlateListEntry → List PlateListEntry
  | [] => []
  | [e] => [{ e with count := e.count + 1 }]
  | e :: es => e :: countOnLast es

/-- A written line is counted (R138 steps 1 and 2). -/
def FrameRecord.writtenLine (r : FrameRecord) : FrameRecord :=
  { r with outLines := r.outLines + 1, plateList := countOnLast r.plateList }

/-- The record of a frame that opens (R127). -/
def openingRecord (o : ScanOrder) (fr : OpenFrame) : FrameRecord :=
  { number := fr.number, closed := false, top := fr.top, cropTop := fr.top + o.insetTop, last := none, cropBottom := none,
    crop := fr.crop, outWidth := outputWidth fr.crop o.decimation, outBytes := outputBytes fr.crop o.decimation o.depth,
    openFlags := fr.flags, flags := fr.flags, damage := none, outLines := 0, lostLines := 0, mergedLines := 0, defect := 0,
    filled := 0, unfilled := 0, plateList := [], fillingWritten := false, doomed := false }

/-- The record after its close report (R128). -/
def FrameRecord.close (o : ScanOrder) (r : FrameRecord) (last : Nat) (closing : RosterFlags) : FrameRecord :=
  { r with closed := true, last := some last, cropBottom := some (last - o.insetBottom), flags := r.flags.union closing }

/-! ### Owner words (R146) -/

/-- The owner word the part last wrote for a plate. -/
def lastOwner (owners : List (Nat × Owner)) (index : Nat) : Option Owner :=
  (owners.find? fun x => x.1 == index).map Prod.snd

/-- Remember the owner word written, keeping the indices strictly rising. -/
def setOwner : List (Nat × Owner) → Nat → Owner → List (Nat × Owner)
  | [], i, w => [(i, w)]
  | (j, v) :: rest, i, w =>
    if i < j then (i, w) :: (j, v) :: rest else if i = j then (i, w) :: rest else (j, v) :: setOwner rest i w

/-- A write to a plate table entry. -/
def State.plateField (s : State) (index offset frame : Nat) (data : List Byte) (pace : Pace := .issued) : BusWrite :=
  { kind := .plateTable, mark := .silent, address := s.blockBase + plateOffset index + offset, data := data, plate := index,
    frame := frame, pace := pace, landed := false }

/-- Write the owner word of a plate. -/
def State.writeOwner (s : State) (index frame : Nat) (w : Owner) (pace : Pace := .issued) : State :=
  (s.issue (s.plateField index 0x8 frame (word w.code) pace)).onWriter fun wr =>
    { wr with owners := setOwner wr.owners index w }

/-- Write an owner word for each plate of a list, in list order, that the part last wrote TAKEN (R155, R156, R158). -/
def State.releasePlates (s : State) (frame : Nat) (w : Owner) (plates : List PlateListEntry) : State :=
  plates.foldl (fun s e =>
    if lastOwner s.writer.owners e.index = some .taken then s.writeOwner e.index frame w .grouped else s) s

/-! ### Roster writes (R153 to R158) -/

/-- A write to the roster entry of frame `k`. -/
def rosterField (o : ScanOrder) (k offset : Nat) (data : List Byte) : BusWrite :=
  { kind := .roster, mark := .silent, address := rosterEntry o.rosterAddress k + offset, data := data, plate := 0xFFFF,
    frame := k, pace := .grouped, landed := false }

/-- The free form of entry `k`, the state FREE last (R153, R155). -/
def freeForm (o : ScanOrder) (k : Nat) : List BusWrite :=
  [rosterField o k 0x02 (List.replicate 638 0), rosterField o k 0x00 (half rosterFree)]

/-- The FILLING write of a record (R154). -/
def fillingWrites (o : ScanOrder) (r : FrameRecord) : List BusWrite :=
  [(0x02, half r.number), (0x04, word r.openFlags.value), (0x08, word r.top), (0x10, word r.cropTop),
    (0x18, half r.crop.left), (0x1A, half r.crop.right), (0x1C, half r.outWidth), (0x0C, word 0), (0x14, word 0),
    (0x20, word 0), (0x24, word 0), (0x28, word 0), (0x2C, word 0), (0x30, word 0), (0x34, word 0), (0x1E, half 0),
    (0x00, half rosterFilling)].map fun field => rosterField o r.number field.1 field.2

/-- The plate list entries of a roster entry, from slot `m` on. -/
def plateListFields : Nat → List PlateListEntry → List (Nat × List Byte)
  | _, [] => []
  | m, e :: es =>
    (0x80 + 8 * m, half e.index) :: (0x80 + 8 * m + 2, half e.count) :: (0x80 + 8 * m + 4, word e.firstLine)
      :: plateListFields (m + 1) es

/-- Every field of the entry of a record but the state (R156 step 1, R158 step 1). -/
def recordWrites (o : ScanOrder) (r : FrameRecord) : List BusWrite :=
  ([(0x02, half r.number), (0x04, word r.flags.value), (0x08, word r.top), (0x0C, word (r.last.getD 0)),
    (0x10, word r.cropTop), (0x14, word (r.cropBottom.getD 0)), (0x18, half r.crop.left), (0x1A, half r.crop.right),
    (0x1C, half r.outWidth), (0x20, word r.outLines), (0x24, word r.defect), (0x28, word r.filled), (0x2C, word r.unfilled),
    (0x30, word r.mergedLines), (0x34, word r.lostLines), (0x1E, half r.plateList.length)]
    ++ plateListFields 0 r.plateList).map fun (field : Nat × List Byte) => rosterField o r.number field.1 field.2

/-- Write the state of a roster entry. -/
def State.issueRosterState (s : State) (o : ScanOrder) (k value : Nat) : State :=
  s.issue (rosterField o k 0x00 (half value))

/-- The FILLING write of the leading record, once (R154). -/
def State.fillLeading (s : State) (o : ScanOrder) : State :=
  match s.writer.records with
  | [] => s
  | r :: rest =>
    if r.fillingWritten then s
    else (s.issueAll (fillingWrites o r)).onWriter fun wr => { wr with records := { r with fillingWritten := true } :: rest }

/-- The current plate goes with its frame. -/
def plateAfter (plate : Option CurrentPlate) (k : Nat) : Option CurrentPlate :=
  plate.filter fun p => p.frame != k

/-! ### Completion (R129, R156, R157) -/

/-- The completion point of a record (R129). -/
def FrameRecord.isComplete (r : FrameRecord) (pending : List Entry) : Bool :=
  r.closed && !r.doomed
    && !pending.any fun e => e.frame == some r.number && (e.fate == .undecided || e.fate == .write)

/-- Advance the frames tally and issue its write (R157). -/
def State.issueFramesTally (s : State) : State :=
  let s := s.onOrder fun u => { u with framesTally := u.framesTally + 1 }
  s.issue (s.blockField 0x04 (word s.order.framesTally.toNat) .framesTally .grouped)

/-- The completion writes of the leading record, and its removal (R156). -/
def State.completeRecord (s : State) (o : ScanOrder) (r : FrameRecord) (rest : List FrameRecord) : State :=
  let written := (((s.issueAll (recordWrites o r)).releasePlates r.number .filled r.plateList).issueRosterState o r.number
    (if r.damage.isSome then rosterDamaged else rosterReady)).issueFramesTally
  (written.onWriter fun wr =>
    { wr with
      records := rest
      plate := plateAfter wr.plate r.number
      framesReady := if r.damage.isSome then wr.framesReady else wr.framesReady + 1
      framesDamaged := if r.damage.isSome then wr.framesDamaged + 1 else wr.framesDamaged }).fillLeading o

/-- The writer states in which completion writes are made (R129). -/
def WriterState.completes : WriterState → Bool
  | .ready => true
  | .plateWait => true
  | .throttled => true
  | .writing => true
  | .off => false
  | .aborting => false
  | .halted => false

/-- Complete leading records that have reached their completion point (R129, R154; log 10). The fuel is the number of
records. -/
def completeFrom (o : ScanOrder) : Nat → State → State
  | 0, s => s
  | fuel + 1, s =>
    match s.writer.records with
    | [] => s
    | r :: rest =>
      if r.isComplete s.store.pending && s.writer.state.completes then completeFrom o fuel (s.completeRecord o r rest) else s

def State.completeFrames (s : State) (o : ScanOrder) : State := completeFrom o s.writer.records.length s

/-! ### Opening, closing, discarding (R127, R128, R155) -/

/-- The opening report: a record joins, and the FILLING write goes out if it is leading. -/
def State.openRecord (s : State) (o : ScanOrder) (fr : OpenFrame) : State :=
  (s.onWriter fun wr => { wr with records := wr.records ++ [openingRecord o fr] }).fillLeading o

/-- The discard writes of a record (R155). -/
def State.discardWrites (s : State) (o : ScanOrder) (r : FrameRecord) : State :=
  let s := s.releasePlates r.number .given r.plateList
  if r.fillingWritten then s.issueAll (freeForm o r.number) else s

/-- The discard writes and the removal of the records that `which` chooses. -/
def State.discardRecords (s : State) (o : ScanOrder) (which : FrameRecord → Bool) : State :=
  let written := (s.writer.records.filter which).foldl (fun s r => (s.discardWrites o r).onWriter fun wr =>
    { wr with plate := plateAfter wr.plate r.number }) s
  (written.onWriter fun wr => { wr with records := wr.records.filter fun r => !which r }).fillLeading o

/-- A line of frame `k` is being written, and `k` has not been discarded. -/
def FrameWriter.isWriting (wr : FrameWriter) (k : Nat) : Bool :=
  match wr.write with
  | none => false
  | some lw => wr.state == .writing && lw.frame == k && !lw.discarded

/-- The head whose line is being written is one of frame `k`, discarded or not (R36). -/
def FrameWriter.headIsWritten (wr : FrameWriter) (k : Nat) : Bool :=
  match wr.write with
  | none => false
  | some lw => wr.state == .writing && lw.frame == k

/-- The wait, the scan or the throttle hold that a discarded head kept the writer in is over (R128, R135, R152), and with the scan a
rescan request recorded in it (log 12). -/
def FrameWriter.releaseHead (wr : FrameWriter) : FrameWriter :=
  match wr.state with
  | .plateWait => { wr with state := .ready, waitFlag := false, scan := none, rescan := false }
  | .throttled => { wr with state := .ready }
  | .ready => { wr with scan := none, rescan := false }
  | .off => wr
  | .writing => wr
  | .aborting => wr
  | .halted => wr

/-- The discard report of frame `k` in the writer (R128). The head is the store's before the discard. While a line of the
frame is being written its record waits for that line with everything that goes with the record, the current plate included:
the plate becomes none when the line has left the pending list (log 32). -/
def State.discardReport (s : State) (o : ScanOrder) (k : Nat) : State :=
  if s.writer.isWriting k then
    s.onWriter fun wr =>
      { (wr.onRecord k fun r => { r with doomed := true }) with
        write := wr.write.map fun lw => { lw with discarded := true } }
  else
    let s := if s.headFrame = some k then (s.onWriter FrameWriter.releaseHead).stopScan else s
    s.discardRecords o fun r => r.number == k && !r.doomed

/-! ### The head -/

/-- Remove the head and test for completion points (R37, R138, R139). -/
def State.dropHead (s : State) (o : ScanOrder) : State :=
  (s.onStore fun st => st.removeHead false).completeFrames o

/-- The head's fate becomes DROP_IMAGE (R36). -/
def State.dropImageHead (s : State) : State :=
  s.onStore fun st =>
    match st.pending with
    | [] => st
    | e :: rest => { st with pending := { e with fate := Fate.dropImage } :: rest }

/-- The throttle test (R133). -/
def State.throttlePasses (s : State) (o : ScanOrder) (bytes : Nat) : Bool :=
  decide (bytes ≤ s.bus.credit) || o.credit == 0 || decide (48 - o.rv ≤ s.store.pending.length) || s.store.hold
    || s.order.part == .finishing

/-- The credit after a write that begins (R132, R133). -/
def creditAfter (o : ScanOrder) (credit bytes : Nat) : Nat :=
  if o.credit ≠ 0 ∧ bytes ≤ credit then credit - bytes else credit

/-- The fill request for the head (R107, R115). -/
def fillRequest (o : ScanOrder) (st : LineStore) (e : Entry) (r : FrameRecord) (f : FillUnit) : FillUnit :=
  { f with
    state := .filling
    line := some
      { line := e.line, frame := r.number, top := r.top, last := r.last, crop := r.crop, decimation := o.decimation,
        samples := e.samples, spans := e.spans.getD [], sources := st.presentLines }
    pixel := some r.crop.left, defect := 0, filled := 0, unfilled := 0 }

/-- A line write begins (R136). -/
def State.beginWrite (s : State) (o : ScanOrder) (e : Entry) (r : FrameRecord) (p : CurrentPlate) : State :=
  let s := s.onBus fun b => { b with credit := creditAfter o b.credit r.outBytes }
  let s := s.onWriter fun wr =>
    { wr with
      state := .writing
      plate := some { p with room := p.room - r.outBytes }
      write := some
        { frame := r.number, plate := p.index, place := p.address + p.size - p.room, errored := false, discarded := false,
          cut := false } }
  s.onFill fun f => fillRequest o s.store e r f

/-- The throttle test of a head with a plate: the write begins, or the writer is THROTTLED (R133, R135). -/
def State.throttle (s : State) (o : ScanOrder) (e : Entry) (r : FrameRecord) (p : CurrentPlate) : State :=
  if s.throttlePasses o r.outBytes then s.beginWrite o e r p
  else s.onWriter fun wr => { wr with state := .throttled }

/-- The head, its record and the current plate, where the head is a line to be written. -/
def State.writeHead (s : State) : Option (Entry × FrameRecord × CurrentPlate) :=
  match s.store.pending, s.writer.plate with
  | e :: _, some p => (e.frame.bind s.writer.record).map fun r => (e, r, p)
  | _, _ => none

/-- The throttle test for the head with the current plate. -/
def State.throttleHead (s : State) (o : ScanOrder) : State :=
  match s.writeHead with
  | none => s
  | some (e, r, p) => s.throttle o e r p

/-- The throttle test made again in THROTTLED (R133). -/
def State.rethrottle (s : State) (o : ScanOrder) : State :=
  if s.writer.state = .throttled then s.throttleHead o else s

/-- A scan of the plate table begins: plate_count is read (R148). -/
def State.beginScan (s : State) : State :=
  (s.onWriter fun wr => { wr with scan := some .count }).startReads [s.blockRead .plateCount 0x24 4]

/-- Whether the writer handles a head now (R135, R37): READY, the stop flag clear, no scan in progress, the order RUNNING or
FINISHING. -/
def State.handlesHead (s : State) : Bool :=
  s.writer.state == .ready && !s.writer.stop && s.writer.scan.isNone
    && (s.order.part == .running || s.order.part == .finishing)

/-- What becomes of a WRITE head of a frame that is not damaged (R135, R150). `none`: the frame is damaged with
PLATE_LIST_FULL and the head is to be dropped. -/
def State.placeHead (s : State) (o : ScanOrder) (e : Entry) (r : FrameRecord) : Option State :=
  match s.writer.plate.filter fun p => p.frame == r.number && decide (r.outBytes ≤ p.room) with
  | some p => some (s.throttle o e r p)
  | none => if Config.maxPlateList ≤ r.plateList.length then none else some s.beginScan

/-- The frame of the head is damaged with PLATE_LIST_FULL, and the head becomes DROP_IMAGE (R150). -/
def State.plateListFull (s : State) (k : Nat) : State :=
  (s.onWriter fun wr => wr.onRecord k fun r => r.damaged .plateListFull).dropImageHead

/-- Handle heads until one waits (R135). The fuel is the number of pending lines. -/
def handleHeads (o : ScanOrder) : Nat → State → State
  | 0, s => s
  | fuel + 1, s =>
    if !s.handlesHead then s
    else
      match s.store.pending with
      | [] => s
      | e :: _ =>
        match e.fate with
        | .undecided => s
        | .dropImage => handleHeads o fuel (s.dropHead o)
        | .dropOther => handleHeads o fuel (s.dropHead o)
        | .write =>
          match e.frame.bind s.writer.record with
          | none => handleHeads o fuel (s.dropImageHead.dropHead o)
          | some r =>
            if r.damage.isSome then handleHeads o fuel (s.dropImageHead.dropHead o)
            else
              match s.placeHead o e r with
              | some s' => s'
              | none => handleHeads o fuel ((s.plateListFull r.number).dropHead o)

/-- The writer's report that its work for the order is done (R142): in FINISHING the order ends, while it is suspended from
FINISHING the Order Unit sets the held end (R181). -/
def State.workDone (s : State) (o : ScanOrder) : State :=
  if s.store.pending.isEmpty && s.writer.records.isEmpty && s.writer.state == .ready then
    if s.order.part = .finishing then s.endScan o
    else if s.order.part = .suspended ∧ s.order.origin = some .finishing then s.onOrder fun u => { u with heldEnd := true }
    else s
  else s

/-- The writer goes on as far as it can. -/
def State.writerGo (s : State) (o : ScanOrder) : State :=
  let s := s.rethrottle o
  (handleHeads o s.store.pending.length s).workDone o

/-! ### Line writes (R136 to R140) -/

/-- The write of the fault record copy into the header (R184, R185). -/
def State.faultRecordWrite (s : State) : BusWrite :=
  let f := s.order.faultRec
  s.blockField 0x18
    (half f.kind.code ++ half f.repeats ++ word f.address ++ half f.plate ++ half f.frame) .silent

/-- A bus error on a burst of the line being written, the first of the line: the plate is refused, the fault record taken
and written, the frame damaged unless it has been discarded (R139, R140, R185). -/
def State.plateError (s : State) (lw : LineWrite) (address : Nat) : State :=
  let s := (s.writeOwner lw.plate lw.frame .refused).onWriter fun wr =>
    { wr with plate := none, platesRefused := wr.platesRefused + 1 }
  let s := s.onOrder fun u =>
    { u with faultRec := { kind := .plate, address := address, plate := lw.plate, frame := lw.frame, repeats := 0 } }
  (s.issue s.faultRecordWrite).onWriter fun wr =>
    let wr := if lw.discarded then wr else wr.onRecord lw.frame fun r => r.damaged .busError
    { wr with write := some { lw with errored := true } }

/-- Whether a burst has not been reported ended. -/
def State.burstsLeft (s : State) : Bool := s.bus.inFlight.any isBurst

/-- One burst of a line. -/
def plateBurst (lw : LineWrite) (burst : Nat × List Byte) : BusWrite :=
  { kind := .plate, mark := .burst, address := burst.1, data := burst.2, plate := lw.plate, frame := lw.frame,
    pace := .grouped, landed := false }

/-- Issue the bursts of a line in order. One outside every window is not issued and ends in a bus error, and the bursts
after it are not issued (R137, R139, R173). Every burst is checked, one inside the Exchange Block too (log 17). -/
def issueBursts (lw : LineWrite) : List (Nat × List Byte) → State → State
  | [], s => s
  | burst :: rest, s =>
    if insideWindow s.bus.windows burst.1 burst.2.length then issueBursts lw rest (s.push (plateBurst lw burst))
    else s.plateError lw burst.1

/-- The line in progress counts as written, unless a burst of it failed, was left unissued, or its frame is gone
(R138 steps 1 and 2, R143 step 2). -/
def State.countLine (s : State) (lw : LineWrite) : State :=
  if lw.errored || lw.discarded || lw.cut then s
  else s.onWriter fun wr => wr.onRecord lw.frame FrameRecord.writtenLine

/-- Every issued burst of the line in progress has ended: in WRITING the head is removed, the discard writes that waited
for it are made, completion points are tested, and the writer goes on (R128, R138, R139). -/
def State.lineWritten (s : State) (o : ScanOrder) (lw : LineWrite) : State :=
  let s := (s.countLine lw).onStore fun st => st.removeHead lw.discarded
  let s := if lw.discarded then s.discardRecords o FrameRecord.doomed else s
  ((s.completeFrames o).onWriter fun wr => { wr with state := .ready, write := none }).writerGo o

/-- The end of the line in progress, by the writer state (R138, R139, R143). -/
def State.lineEnds (s : State) (o : ScanOrder) : State :=
  match s.writer.write with
  | none => s
  | some lw =>
    match s.writer.state with
    | .writing => s.lineWritten o lw
    | .aborting => (s.countLine lw).onWriter fun wr => { wr with write := none }
    | .off => s
    | .ready => s
    | .plateWait => s
    | .throttled => s
    | .halted => s

/-- A burst has ended: if it was the last of the line, the line's write ends. -/
def State.burstEnds (s : State) (o : ScanOrder) : State := if s.burstsLeft then s else s.lineEnds o

/-- The counts of a filled line join its frame's (R120, R127). -/
def FrameRecord.addCounts (r : FrameRecord) (ps : List FilledPixel) : FrameRecord :=
  { r with
    defect := r.defect + countDefect ps, filled := r.filled + countFilled ps, unfilled := r.unfilled + countUnfilled ps }

/-- The base levels the conversion uses; none are used for POSITIVE film (R130, R131). -/
def State.conversionBase (s : State) : Base := s.tracker.base.getD { r := 256, g := 256, b := 256, source := .fallback }

/-- The output line of the line in hand. -/
def State.outputLine (s : State) (o : ScanOrder) (ps : List FilledPixel) : List Byte :=
  convertLine o.film s.conversionBase o.depth ps

/-- The end of a fill: the line and its counts are handed over, the line is converted and its bursts issued (R121, R130,
R137). The count fields keep the ended line's counts until the next request (log 24). -/
def State.fillEnds (s : State) (o : ScanOrder) (params : FillParams) (l : LineInHand) (lw : LineWrite) : State :=
  let ps := fillLine params l
  let s := s.onFill fun f =>
    { f with
      state := .idle, line := none, pixel := none, defect := countDefect ps, filled := countFilled ps,
      unfilled := countUnfilled ps }
  let s := if lw.discarded then s else s.onWriter fun wr => wr.onRecord lw.frame fun r => r.addCounts ps
  let bytes := s.outputLine o ps
  (issueBursts lw (splitBursts bytes.length lw.place bytes) s).burstEnds o

/-! ### Plate scans (R147 to R152) -/

/-- The entry a scan of `count` entries starts at (R148 step 2). -/
def scanStart (scanPos : Option Nat) (count : Nat) : Nat :=
  match scanPos with
  | none => 0
  | some p => if p = 255 ∨ count ≤ p + 1 then 0 else p + 1

/-- The size of a plate is malformed (R147 test 2). -/
def malformedSize (size : Nat) : Bool := decide (size < 65536) || decide (16777216 < size) || decide (size % 4096 ≠ 0)

/-- A scan has ended with no usable plate (R148, R151). -/
def State.scanFails (s : State) : State :=
  let s :=
    if s.writer.state = .plateWait then s
    else (s.onWriter fun wr => { wr with state := .plateWait, waitFlag := true }).raise .platesWanted
  let again := s.writer.rescan
  let s := s.onWriter fun wr => { wr with scan := none, rescan := false }
  if again then s.beginScan else s

/-- The scan reads an entry: its address, its size and its owner word (R148 step 3, R174), with the entry's index and the frame of
the head for a fault record (R184; log 22). -/
def State.readEntry (s : State) (count next left : Nat) : State :=
  (s.onWriter fun wr => { wr with scan := some (.entries count next left) }).startReads
    [{ s.blockRead .plateEntry (plateOffset next) 12 with plate := next, frame := s.headFrame.getD 0 }]

/-- The frame of the head is given a usable plate (R149, R151). -/
def State.takePlate (s : State) (o : ScanOrder) (index address size : Nat) : State :=
  let k := s.headFrame.getD 0
  let s := s.issue (s.plateField index 0xC k (half o.sequence ++ half k) .grouped)
  (s.writeOwner index k .taken .grouped).onWriter fun wr =>
    { (wr.onRecord k fun r => { r with plateList := r.plateList ++ [{ index := index, firstLine := r.outLines, count := 0 }] })
      with
        scanPos := some index
        plate := some { index := index, address := address, size := size, room := size, frame := k }
        scan := none, rescan := false, waitFlag := false, state := .ready }

/-- The scan goes past an entry (R148 steps 3 and 4). -/
def State.scanPast (s : State) (count next left : Nat) : State :=
  if left ≤ 1 then s.scanFails else s.readEntry count (if next + 1 < count then next + 1 else 0) (left - 1)

/-- plate_count has been read (R148 steps 1 and 2). -/
def State.scanCount (s : State) (count : Nat) : State :=
  if count = 0 then s.scanFails else s.readEntry count (scanStart s.writer.scanPos count) count

/-- Whether the part holds a plate TAKEN: it stands in one frame record's plate list (R149). -/
def FrameWriter.holds (wr : FrameWriter) (index : Nat) : Bool := decide (lastOwner wr.owners index = some .taken)

/-- An entry is judged (R147). One that the part holds TAKEN is passed over whatever word was read, for a plate is in one frame
record's list at most (R149; log 37). One that was written REFUSED and reads GIVEN again is usable in the same order as any other
(R147, R149), one struck by a bus error included, though R139 says that its owner word is not written again in the order (log 40). A
REFUSED write is made for the frame of the head (log 22). -/
def State.scanEntry (s : State) (o : ScanOrder) (count next left : Nat) (entry : PlateRead) : State :=
  if entry.owner ≠ Owner.given.code ∨ s.writer.holds next = true ∨ malformedSize entry.size = true then
    s.scanPast count next left
  else if insideWindow s.bus.windows entry.address entry.size then
    let s := s.takePlate o next entry.address entry.size
    if s.writer.stop then s else s.throttleHead o
  else
    ((s.writeOwner next (s.headFrame.getD 0) .refused).onWriter fun wr =>
      { wr with platesRefused := wr.platesRefused + 1 }).scanPast count next left

/-- A read of a scan that was given up completes, and its data is discarded (R152; log 30). -/
def State.dropScanRead (s : State) : ScanRead → State
  | .count _ => s.endDropped .plateCount
  | .entry _ => s.endDropped .plateEntry

/-- One read of a scan completes. The data of a read that the scan does not wait for is discarded (log 6). -/
def State.scanRead (o : ScanOrder) (s : State) (read : ScanRead) : State :=
  match s.writer.scan, read with
  | some .count, .count data => (s.endReads .plateCount).scanCount (plateCountOfBytes data)
  | some (.entries count next left), .entry data =>
    (s.endReads .plateEntry).scanEntry o count next left (PlateRead.ofBytes data)
  | some .count, .entry data => s.dropScanRead (.entry data)
  | some (.entries _ _ _), .count data => s.dropScanRead (.count data)
  | none, read => s.dropScanRead read

/-- PLATES in a plate wait with no scan in progress: a rescan begins, or a full plate list ends the wait (R135, R151). -/
def State.beginRescan (s : State) (o : ScanOrder) : State :=
  match s.headFrame.bind s.writer.record with
  | none => s.beginScan
  | some r =>
    if Config.maxPlateList ≤ r.plateList.length then
      (((s.onWriter FrameWriter.releaseHead).plateListFull r.number).dropHead o).writerGo o
    else s.beginScan

end Sys2Proof.Machine
end

