-- ==== Sys2Proof/Machine/Tracker.lean ====
section
/-! DEFINITION. How the Strip Tracker handles one line (04, R52 to R70), with what the Line Store, the Defect Mapper and the
Frame Writer learn from it on the way. -/
namespace Sys2Proof.Machine

/-- What the tracker gives a line: its class, its frame, and its mapping band if it is handed on mapped (R69 step 4). -/
structure Verdict where
  cls : LineClass
  frame : Option Nat
  band : Option Columns
  deriving DecidableEq, Repr

/-- A line of no frame. -/
def verdictOutside (cls : LineClass) : Verdict := { cls := cls, frame := none, band := none }

/-- A line of the open frame, mapped. -/
def verdictInside (fr : OpenFrame) : Verdict := { cls := .image, frame := some fr.number, band := some fr.crop }

/-- The verdict on a line that stays in the open frame. -/
def Tracker.insideVerdict (t : Tracker) : Verdict :=
  match t.openFrame with
  | none => verdictOutside .gap
  | some fr => verdictInside fr

/-! ### Step 1: the outcome (R48 to R52) -/

/-- Whether the tracker judges lines in a state (R49 to R51, R66; log 14). -/
def TrackerState.judges : TrackerState → Bool
  | .leader => true
  | .seek => true
  | .image => true
  | .gapRun => true
  | .gap => true
  | .cut => true
  | .off => false
  | .trail => false
  | .ended => false

/-- Whether the line is gap-like: judged from its samples, or for a lost line the last outcome. -/
def Tracker.outcome (o : ScanOrder) (t : Tracker) (samples : Option (List Pixel)) : Bool :=
  match samples with
  | some ps => if t.state.judges then isGapLike o t ps else t.lastGap.getD false
  | none => t.lastGap.getD false

/-! ### Frames opening and closing (R58, R61 to R64) -/

/-- The opening flags that come from the base source (R55). -/
def Tracker.baseFlags (t : Tracker) : RosterFlags :=
  match t.base with
  | none => {}
  | some b =>
    match b.source with
    | .leader => {}
    | .short => { baseShort := true }
    | .fallback => { baseFallback := true }

/-- A frame opens on line `n` (R58). The store has no record of a lost line of it (R39). -/
def State.openFrameAt (s : State) (o : ScanOrder) (n : Nat) (crop : Columns) (flags : RosterFlags) : State :=
  let fr : OpenFrame := { number := s.tracker.nextFrame, top := n, crop := crop, flags := flags }
  let s := s.onTracker fun t => { t with openFrame := some fr }
  let s := s.onStore fun st => { st with lostFrames := st.lostFrames.filter (· != fr.number) }
  s.openRecord o fr

/-- A frame opens from LEADER, SEEK or GAP, with the crop columns of R74 and R80. -/
def State.openFresh (s : State) (o : ScanOrder) (n : Nat) : State :=
  let crop := openingCrop o s.tracker
  let flags := { s.tracker.baseFlags with edgeFallback := crop.2 }
  (s.openFrameAt o n crop.1 flags).onTracker fun t => { t with state := .image }

/-- Whether the frame that closes with this last line is a sliver (R63). -/
def isSliver (o : ScanOrder) (fr : OpenFrame) (last : Nat) : Bool := decide (last + 1 - fr.top < o.minFrame)

/-- The open frame closes (R63) or is discarded as a sliver (R64). `held`: the line being handled has an entry that is to
belong to the frame, so its completion point is not reached (R129; log 14). -/
def State.closeFrame (s : State) (o : ScanOrder) (last : Nat) (closing : RosterFlags) (held : Bool) : State :=
  match s.tracker.openFrame with
  | none => s
  | some fr =>
    if isSliver o fr last then
      let written := s.writer.headIsWritten fr.number
      let s := s.discardReport o fr.number
      let s := s.onStore fun st => st.discardFrame fr.number written
      s.onTracker fun t => { t with slivers := t.slivers + 1, openFrame := none }
    else
      let s := s.onWriter fun wr => wr.onRecord fr.number fun r => r.close o last closing
      let s := s.onTracker fun t => { t with nextFrame := t.nextFrame + 1, openFrame := none }
      if held then s else s.completeFrames o

/-- The state after a close: TRAIL once the last expected frame has closed (R66). -/
def stateAfterClose (o : ScanOrder) (t : Tracker) (last : Nat) (otherwise : TrackerState) : TrackerState :=
  match t.openFrame with
  | none => otherwise
  | some fr => if !isSliver o fr last && fr.number == o.expectedFrames then .trail else otherwise

/-! ### Gap runs (R59, R60, R98, R99) -/

/-- The run merge list is reported to the open frame and emptied (R99). -/
def State.reportRunMerge (s : State) (k : Nat) : State :=
  (s.onWriter fun wr => s.mapper.runMerge.foldl (fun wr _ => wr.onRecord k FrameRecord.mergedLine) wr).onMapper fun m =>
    { m with runMerge := [] }

/-- The run ends inside the frame: its lines stay (R60, R61). R60 clears the gap start and sets the run count to 0; for the forced
cut R61 clears the gap start alone, and the run count 0 is log 39. -/
def State.runStays (s : State) : State :=
  let s := match s.tracker.openFrame with
    | none => s
    | some fr => s.reportRunMerge fr.number
  s.onTracker fun t => { t with gapStart := none, runCount := 0 }

/-- Whether a pending entry is one of the run's lines. -/
def inRun (start : Nat) (e : Entry) : Bool := decide (start ≤ e.line)

/-- The run's lines become GAP with frame none, and the run merge list is dropped (R60, R67, R99). That the gap start is then
cleared and the run count 0 is log 39. -/
def State.runLeaves (s : State) (start : Nat) : State :=
  let s := s.onStore fun st =>
    st.mapPending (inRun start) fun e => { e with cls := LineClass.gap, frame := none }
  (s.onMapper fun m => { m with runMerge := [] }).onTracker fun t => { t with gapStart := none, runCount := 0 }

/-- A line with samples is offered to the column profile (R76). -/
def State.offer (s : State) (o : ScanOrder) (n : Nat) (samples : Option (List Pixel)) : State :=
  match samples with
  | none => s
  | some ps => s.onTracker fun t => { t with profile := joinProfile o t.profile (profileRecord n ps) }

/-- The run's lines that have entries are offered to the column profile in line order (R60). The entry of the line being
handled is not complete yet. -/
def State.offerRun (s : State) (o : ScanOrder) (start : Nat) : State :=
  (s.store.pending.filter fun e => e.complete && inRun start e).foldl (fun s e => s.offer o e.line (some e.samples)) s

/-- Line `n` confirms the gap (R60). -/
def State.confirmGap (s : State) (o : ScanOrder) (n : Nat) (samples : Option (List Pixel)) : State :=
  let start := s.tracker.gapStart.getD n
  let after := stateAfterClose o s.tracker (start - 1) .gap
  let s := ((s.runLeaves start).offerRun o start).offer o n samples
  (s.closeFrame o (start - 1) {} false).onTracker fun t => { t with state := after }

/-- The forced-cut test on line `n` of the open frame (R61). The crop columns are kept as the carried crop at every forced
cut, the one that closes the last expected frame included: R61's "unless R66 makes it TRAIL" is read of the state alone, as
R81 names no exception (log 33). -/
def State.cutTest (s : State) (o : ScanOrder) (n : Nat) (held : Bool) : State :=
  match s.tracker.openFrame with
  | none => s
  | some fr =>
    if o.pitch + o.tol ≤ n + 1 - fr.top then
      let after := stateAfterClose o s.tracker n .cut
      (s.runStays.closeFrame o n { forcedCut := true } held).onTracker fun t =>
        { t with state := after, carried := some fr.crop }
    else s

/-! ### Step 2: the transition (R56 to R67) -/

/-- LEADER (R56). -/
def State.inLeader (s : State) (o : ScanOrder) (n : Nat) (samples : Option (List Pixel)) (gap : Bool) : State × Verdict :=
  if gap then
    let s := match samples with
      | none => s
      | some ps => s.onTracker fun t => { t with window := joinWindow o t.window (leaderRecord o n ps) }
    (s.offer o n samples, verdictOutside .leader)
  else
    let s := s.onTracker (Tracker.withBase o)
    if (s.tracker.base.map Base.source) = some .fallback then
      (s.onTracker fun t => { t with state := .seek }, verdictOutside .leader)
    else
      let s := s.openFresh o n
      (s, s.tracker.insideVerdict)

/-- SEEK and GAP (R57, R65). -/
def State.betweenFrames (s : State) (o : ScanOrder) (n : Nat) (samples : Option (List Pixel)) (gap : Bool) :
    State × Verdict :=
  if gap then (s.offer o n samples, verdictOutside .gap)
  else
    let s := s.openFresh o n
    (s, s.tracker.insideVerdict)

/-- IMAGE (R59). -/
def State.inImage (s : State) (o : ScanOrder) (n : Nat) (held gap : Bool) : State × Verdict :=
  let verdict := s.tracker.insideVerdict
  let s := if gap then s.onTracker fun t => { t with state := .gapRun, gapStart := some n, runCount := 1 } else s
  (s.cutTest o n held, verdict)

/-- GAP_RUN (R60). -/
def State.inGapRun (s : State) (o : ScanOrder) (n : Nat) (samples : Option (List Pixel)) (held gap : Bool) :
    State × Verdict :=
  let verdict := s.tracker.insideVerdict
  if gap then
    if o.minGap ≤ s.tracker.runCount + 1 then (s.confirmGap o n samples, verdictOutside .gap)
    else ((s.onTracker fun t => { t with runCount := t.runCount + 1 }).cutTest o n held, verdict)
  else ((s.runStays.onTracker fun t => { t with state := .image }).cutTest o n held, verdict)

/-- CUT (R62). -/
def State.inCut (s : State) (o : ScanOrder) (n : Nat) (gap : Bool) : State × Verdict :=
  let crop := s.tracker.carried.getD (fixedCrop o)
  let flags := { s.tracker.baseFlags with forcedCut := true, edgeCarried := true }
  let s := (s.openFrameAt o n crop flags).onTracker fun t =>
    if gap then { t with state := .gapRun, gapStart := some n, runCount := 1, carried := none }
    else { t with state := .image, carried := none }
  (s, s.tracker.insideVerdict)

/-- The transition on line `n`. `samples` is none for a lost line (R52). In OFF and ENDED no line comes (R67, R71). -/
def State.transition (s : State) (o : ScanOrder) (n : Nat) (samples : Option (List Pixel)) (gap : Bool) : State × Verdict :=
  let held := samples.isSome
  match s.tracker.state with
  | .leader => s.inLeader o n samples gap
  | .seek => s.betweenFrames o n samples gap
  | .gap => s.betweenFrames o n samples gap
  | .image => s.inImage o n held gap
  | .gapRun => s.inGapRun o n samples held gap
  | .cut => s.inCut o n gap
  | .trail => (s.onTracker fun t => { t with excess := t.excess + 1 }, verdictOutside .trail)
  | .off => (s, verdictOutside .trail)
  | .ended => (s, verdictOutside .trail)

/-! ### Step 3: lost lines (R39, R68) -/

/-- A lost line is settled into a frame or none (R39 steps 3 and 4). -/
def State.settleLost (s : State) : Option Nat → State
  | some k =>
    let s := s.onWriter fun wr => wr.onRecord k FrameRecord.lostLine
    if s.store.lostFrames.contains k then s
    else (s.onStore fun st => { st with lostFrames := st.lostFrames ++ [k] }).raise .linesLost
  | none =>
    if s.store.outsideRaised then s
    else (s.onStore fun st => { st with outsideRaised := true }).raise .linesLost

/-- Settle the pending attributions, all alike (R68). -/
def State.settleHeld (s : State) (frame : Option Nat) : State :=
  (s.tracker.heldLost.foldl (fun s _ => s.settleLost frame) s).onTracker fun t => { t with heldLost := [] }

/-- The lost-line attributions of the line's handling. -/
def State.attribute (s : State) (n : Nat) (lost : Bool) (frame : Option Nat) : State :=
  if s.tracker.state = .gapRun then
    if lost then s.onTracker fun t => { t with heldLost := t.heldLost ++ [n] } else s
  else
    let s := s.settleHeld frame
    if lost then s.settleLost frame else s

/-! ### Step 4: handing the line on (R69, R86 to R99) -/

/-- The Defect Mapper finishes a mapped line: the IR reference moves, and a merged line is reported or held (R91, R98, R99). -/
def State.mapLine (s : State) (n frame : Nat) (params : MapParams) (band : Columns) (samples : List Pixel) : State :=
  let merged := isMergedLine params band s.mapper.faults s.mapper.ref samples
  let s := s.onMapper fun m => { m with ref := updateReference params.thr band m.faults 0 samples m.ref }
  if !merged then s
  else if s.tracker.state = .gapRun then s.onMapper fun m => { m with runMerge := m.runMerge ++ [n] }
  else s.onWriter fun wr => wr.onRecord frame FrameRecord.mergedLine

/-- The span list a line gets: none where it is not mapped (R31, R97). -/
def State.spansFor (s : State) (band : Option Columns) (samples : List Pixel) : Option (List Span) :=
  match band, s.mapper.params with
  | some band, some params => some (lineSpans params band s.mapper.faults s.mapper.ref samples)
  | some _, none => some []
  | none, _ => none

/-- The line goes to the store, and to the mapper if it is mapped; a lost line goes nowhere (R52). -/
def State.handOn (s : State) (n : Nat) (samples : Option (List Pixel)) (v : Verdict) : State :=
  match samples with
  | none => s
  | some ps =>
    let spans := s.spansFor v.band ps
    let s := match v.band, v.frame, s.mapper.params with
      | some band, some k, some params => s.mapLine n k params band ps
      | _, _, _ => s
    s.onStore fun st =>
      st.mapPending (fun e => e.line == n) fun e =>
        { e with samples := ps, cls := v.cls, frame := v.frame, spans := spans, complete := true }

/-! ### Step 5: the strip end (R67) -/

/-- The open frame closes truncated. -/
def State.closeTruncated (s : State) (o : ScanOrder) (last : Nat) : State :=
  s.closeFrame o last { truncated := true } false

/-- The closing at the strip end, by the state after the last line; the tracker becomes ENDED. -/
def State.endStrip (s : State) (o : ScanOrder) : State :=
  let s := match s.tracker.state with
    | .leader => s.onTracker (Tracker.withBase o)
    | .image => s.closeTruncated o (o.stripLines - 1)
    | .gapRun =>
      let start := s.tracker.gapStart.getD 0
      ((s.runLeaves start).closeTruncated o (start - 1)).settleHeld none
    | .cut => s.onTracker fun t => { t with carried := none }
    | .off => s
    | .seek => s
    | .gap => s
    | .trail => s
    | .ended => s
  s.onTracker fun t => { t with state := .ended }

/-- The tracker handles line `n` (R69). -/
def State.trackLine (s : State) (o : ScanOrder) (n : Nat) (samples : Option (List Pixel)) : State :=
  let gap := s.tracker.outcome o samples
  let s := if s.tracker.state.judges then s.onTracker fun t => { t with lastGap := some gap } else s
  let moved := s.transition o n samples gap
  let s := (moved.1.attribute n samples.isNone moved.2.frame).handOn n samples moved.2
  if n + 1 = o.stripLines then s.endStrip o else s

/-! ### Decisions (R34, R35, R70, R84) -/

/-- The fate of an image line of a frame whose record is held. -/
def rowFate (o : ScanOrder) (r : FrameRecord) (line : Nat) : Fate :=
  if line < r.cropTop then .dropImage
  else if r.closed && decide (r.cropBottom.getD 0 < line) then .dropImage
  else if (line - r.cropTop) % o.decimation ≠ 0 then .dropImage
  else .write

/-- The fate of a pending line. -/
def State.fateOf (s : State) (o : ScanOrder) (e : Entry) : Fate :=
  match e.cls, e.frame.bind s.writer.record with
  | .image, some r => if r.damage.isSome then .dropOther else rowFate o r e.line
  | .image, none => .dropOther
  | .leader, _ => .dropOther
  | .gap, _ => .dropOther
  | .trail, _ => .dropOther

/-- Decide the UNDECIDED pending lines that `which` chooses. -/
def State.decideLines (s : State) (o : ScanOrder) (which : Entry → Bool) : State :=
  s.onStore fun st =>
    st.mapPending (fun e => which e && e.fate == .undecided) fun e => { e with fate := s.fateOf o e }

/-- The decision that the arrival of line `n` takes (R34). -/
def State.decideDelayed (s : State) (o : ScanOrder) (n : Nat) : State :=
  match s.store.levels with
  | none => s
  | some l => if l.delay ≤ n then s.decideLines o fun e => e.line == n - l.delay else s

end Sys2Proof.Machine
end

