-- ==== Sys2Proof/Machine/Intake.lean ====
section
/-! DEFINITION. The Line Intake (01): what becomes of an arriving line, its length, its correction, and the hand-off. -/
namespace Sys2Proof.Machine

def zeroPixel : Pixel := { r := 0, g := 0, b := 0, ir := 0 }

/-- A pixel appended to the line in progress: the first 6144 are kept, all are counted (R1). -/
def LineBuffer.append (b : LineBuffer) (p : Pixel) : LineBuffer :=
  { pixels := if b.count < Config.maxColumns then b.pixels ++ [p] else b.pixels, count := b.count + 1 }

/-- A line with no pixels yet. -/
def LineBuffer.empty : LineBuffer := { pixels := [], count := 0 }

/-- The line brought to the order's width (R6). -/
def lengthCorrect (width : Nat) (pixels : List Pixel) : List Pixel :=
  let kept := pixels.take width
  kept ++ List.replicate (width - kept.length) (kept.getLast?.getD zeroPixel)

/-- A sample corrected (R8). -/
def shadeSample (raw : Half) (dark gain : Nat) : Half :=
  if raw.toNat ≤ dark then 0 else BitVec.ofNat 16 (min 65535 ((raw.toNat - dark) * gain / 16384))

/-- A pixel corrected by its column (R8). -/
def shadePixel (p : Pixel) (c : ShadingColumn) : Pixel :=
  { r := shadeSample p.r c.dark.r c.gain.r, g := shadeSample p.g c.dark.g c.gain.g,
    b := shadeSample p.b c.dark.b c.gain.b, ir := shadeSample p.ir c.dark.ir c.gain.ir }

/-- A line corrected column by column (R8). -/
def shadeLine (copy : List ShadingColumn) (line : List Pixel) : List Pixel := List.zipWith shadePixel line copy

/-- A stray line (R5). -/
def State.strayLine (s : State) : State :=
  if s.intake.stray < Config.maxCount then
    let s := s.onIntake fun i => { i with stray := i.stray + 1 }
    s.issueBlock 0x0C (word s.intake.stray)
  else s

/-- The credit after an arrival (R132). -/
def earn (credit perLine lineBytes : Nat) : Nat := if perLine = 0 then credit else min (credit + perLine) (4 * lineBytes)

/-- The arrival is announced: the writer earns credit, the store finds room or loses the line, and a THROTTLED writer tests
again (R15, R33, R132, R133). -/
def State.announce (s : State) (o : ScanOrder) (n : Nat) : State :=
  let bytes := s.writer.lineBytes.getD 0
  (((s.onBus fun b => { b with credit := earn b.credit o.credit bytes }).onStore fun st => st.announce n).rethrottle o)

/-- The strip has ended: every UNDECIDED line is decided, and the part enters FINISHING, or the origin becomes FINISHING
(R35, R181). -/
def State.stripEnd (s : State) (o : ScanOrder) : State :=
  (s.decideLines o fun _ => true).onOrder fun u =>
    if u.part = .suspended then { u with origin := some .finishing } else { u with part := .finishing }

/-- A line of a SCAN order, corrected (R15, R34, R35, R69). -/
def State.scanLine (s : State) (o : ScanOrder) (n : Nat) (line : List Pixel) : State :=
  let room := s.store.hasRoom
  let s := (s.announce o n).trackLine o n (if room then some line else none)
  let s := s.decideDelayed o n
  let s := if n + 1 = o.stripLines then s.stripEnd o else s
  s.writerGo o

/-- The line takes its number and is counted if it is malformed (R4, R7). -/
def LineIntake.number (i : LineIntake) (malformed : Bool) : LineIntake :=
  { i with arrival := i.arrival + 1, malformed := if malformed then i.malformed + 1 else i.malformed }

/-- A taken line (R4, R6 to R9, R15). -/
def State.takeLine (s : State) (buffer : LineBuffer) : State :=
  let n := s.intake.arrival
  match s.order.current with
  | none => s
  | some (.scan o) =>
    (s.onIntake fun i => i.number (decide (buffer.count ≠ o.width))).scanLine o n
      (shadeLine s.intake.copy (lengthCorrect o.width buffer.pixels))
  | some (.calibrate o) =>
    (s.onIntake fun i => i.number (decide (buffer.count ≠ o.width))).calibrateLine o
      (lengthCorrect o.width buffer.pixels)

/-- Whether the order takes an arriving line (R3, R183). -/
def OrderUnit.takesLines (u : OrderUnit) : Bool :=
  (u.part == .running || (u.part == .suspended && u.origin == some .running)) && !u.aborting

/-- A line arrives (R3). -/
def State.lineArrives (s : State) (buffer : LineBuffer) : State :=
  match s.order.part with
  | .inReset => s
  | .parked => s
  | .idle => s.strayLine
  | .starting => s.strayLine
  | .running => if s.order.takesLines then s.takeLine buffer else s.strayLine
  | .suspended => if s.order.takesLines then s.takeLine buffer else s.strayLine
  | .finishing => s.strayLine
  | .fault => s.strayLine

/-- The line in progress arrives, and `next` is in progress after it (R1). -/
def State.endLine (s : State) (next : Option LineBuffer) : State :=
  match s.intake.line with
  | none => s.onIntake fun i => { i with line := next }
  | some buffer => ((s.onIntake fun i => { i with line := none }).lineArrives buffer).onIntake fun i => { i with line := next }

end Sys2Proof.Machine
end

