-- ==== Sys2Proof/Machine/Start.lean ====
section
/-! DEFINITION. Order selection, validation and start (11, R177 to R180; 02, R17; 04, R47; 05, R72; 06, R87; 07, R106; 08,
R126). -/
namespace Sys2Proof.Machine

/-! ### Selection (R177) -/

/-- Whether a slot of smaller index is kept against another POSTED slot: its sequence number is not larger. -/
def betterSlot (best : Option (Nat × Nat)) (index sequence : Nat) : Option (Nat × Nat) :=
  match best with
  | none => some (index, sequence)
  | some (i, q) => if sequence < q then some (index, sequence) else some (i, q)

/-- The chosen slot and its sequence number, from slot `index` on. -/
def chooseFrom : Nat → List SlotRead → Option (Nat × Nat) → Option (Nat × Nat)
  | _, [], best => best
  | index, slot :: rest, best =>
    chooseFrom (index + 1) rest
      (if slot.state = slotPosted then betterSlot best index slot.sequence else best)

/-- The chosen slot: the POSTED slot of smallest sequence number, of smallest index among equals. -/
def chooseSlot (slots : List SlotRead) : Option (Fin 4) := (chooseFrom 0 slots none).map fun best => Fin.ofNat 4 best.1

/-- The reads of a selection: the state words of the four slots, then the sequence numbers. Which sequence numbers are read
depends on the words; the number of a slot that is not POSTED is not looked at (log 2, log 30). -/
def State.slotReads (s : State) : List BusRead :=
  ([0, 1, 2, 3].map fun i => s.blockRead .slotWord (slotOffset i) 4)
    ++ [0, 1, 2, 3].map fun i => s.blockRead .slotWord (slotOffset i + 4) 4

/-- A selection begins: its reads are made. -/
def State.beginSelection (s : State) : State :=
  (s.onOrder fun u => { u with selecting := true, follows := false }).startReads s.slotReads

/-- The reads of the order record of slot `i` (R178 step 1): the fields on either side of the unused bytes 0x5A and 0x5B; those
from 0x66 on are unused too (R174). -/
def State.recordReads (s : State) (i : Nat) : List BusRead :=
  [s.blockRead .orderRecord (slotOffset i + 0x04) 86, s.blockRead .orderRecord (slotOffset i + 0x5C) 10]

/-- The selection's reads have completed. -/
def State.endSelection (s : State) (slots : List SlotRead) : State :=
  match chooseSlot slots with
  | some i =>
    (s.onOrder fun u =>
      { u with
        part := .starting, chosen := some i, recordRead := true, selecting := false,
        selectionRequest := false }).startReads (s.recordReads i)
  | none =>
    if s.order.selectionRequest then (s.onOrder fun u => { u with selectionRequest := false }).beginSelection
    else s.onOrder fun u => { u with selecting := false }

/-! ### Validation (R179) -/

/-- The outcome of validation. -/
inductive Checked where
  | refused (reason : Reason)
  | accepted (o : Order)
  deriving DecidableEq, Repr

/-- The first failed check of a list decides the reason. -/
def firstFailure : List (Bool × Reason) → Option Reason
  | [] => none
  | (passed, reason) :: rest => if passed then firstFailure rest else some reason

/-- A value in a closed range. -/
def within (low high v : Nat) : Bool := decide (low ≤ v) && decide (v ≤ high)

/-- At least one window in use. -/
def anyWindow (windows : List (Option Window)) : Bool := windows.any Option.isSome

/-- tol as clamped (R47). -/
def clampedTol (r : OrderRecord) : Nat := min r.tol (r.pitch / 4)

/-- The tracker's parameters (R47). -/
def geometryOk (r : OrderRecord) : Bool :=
  within 2 12 r.minGap && within 0 8 r.insetTop && within 0 8 r.insetBottom && within 4 64 r.leaderLines
    && within 64 32767 r.pitch && within (r.insetTop + r.insetBottom + 16) (r.pitch - clampedTol r) r.minFrame
    && within 64 16777215 r.stripLines

/-- The tracker band (R47). -/
def bandOk (r : OrderRecord) : Bool := decide (r.bandLeft + 31 ≤ r.bandRight) && decide (r.bandRight + 1 ≤ r.width)

/-- The crop parameters (R72). -/
def cropOk (r : OrderRecord) : Bool :=
  (r.cropMode == 0 || (r.cropMode == 1 && r.film == 0)) && decide (r.defaultLeft ≤ r.defaultRight)
    && decide (r.defaultRight + 1 ≤ r.width) && within 0 64 r.insetLeft && within 0 64 r.insetRight

/-- The output parameters (R126). -/
def outputOk (r : OrderRecord) : Bool :=
  (r.decimation == 1 || r.decimation == 2 || r.decimation == 4) && (r.depth == 8 || r.depth == 16)

/-- The checks of a SCAN order after its kind, in order (R179). -/
def scanChecks (windows : List (Option Window)) (r : OrderRecord) : List (Bool × Reason) :=
  [(within 256 6144 r.width, .badWidth), (within 0 1 r.film, .badKind), (bandOk r, .badBand), (geometryOk r, .badGeometry),
    (within 1 40 r.expectedFrames, .badFrames), (outputOk r, .badOutput), (cropOk r, .badCrop),
    (anyWindow windows, .noWindows), (insideWindow windows r.rosterAddress (r.expectedFrames * 640), .window),
    (r.shadingAddress == 0 || insideWindow windows r.shadingAddress (r.width * 20), .window)]

/-- The validated SCAN order, clamped (R47, R72, R87, R106). -/
def scanOf (r : OrderRecord) : ScanOrder :=
  { sequence := r.sequence, film := if r.film = 0 then .negative else .positive, width := r.width, bandLeft := r.bandLeft,
    bandRight := r.bandRight, expectedFrames := r.expectedFrames, stripLines := r.stripLines, pitch := r.pitch,
    tol := clampedTol r, minGap := r.minGap, minFrame := r.minFrame, leaderLines := r.leaderLines,
    gapRatio := clamp 128 255 r.gapRatio, spreadLimit := r.spreadLimit, darkGapLevel := r.darkGapLevel,
    insetTop := r.insetTop, insetBottom := r.insetBottom, insetLeft := r.insetLeft, insetRight := r.insetRight,
    cropMode := if r.cropMode = 0 then .fixed else .edge, defaultLeft := r.defaultLeft, defaultRight := r.defaultRight,
    edgeRun := clamp 4 32 r.edgeRun, irSeed := clamp 1024 65535 r.irSeed, thr := clamp 64 250 r.thr,
    growth := clamp 0 3 r.growth, fillEnable := r.fillEnable != 0, rv := clamp 1 8 r.rv, hmax := clamp 4 64 r.hmax,
    decimation := r.decimation, depth := r.depth, credit := r.credit, shadingAddress := r.shadingAddress,
    rosterAddress := r.rosterAddress, fallbackR := r.fallbackR, fallbackG := r.fallbackG, fallbackB := r.fallbackB }

/-- The checks of a CALIBRATE order after its kind, in order (R17). -/
def calChecks (windows : List (Option Window)) (r : OrderRecord) : List (Bool × Reason) :=
  [(within 256 6144 r.width, .badWidth), (within 4 64 r.darkLines, .badGeometry), (within 4 64 r.brightLines, .badGeometry),
    (anyWindow windows, .noWindows), (insideWindow windows r.shadingAddress (r.width * 20), .window)]

/-- The validated CALIBRATE order (R17). -/
def calOf (r : OrderRecord) : CalOrder :=
  { sequence := r.sequence, width := r.width, tableAddress := r.shadingAddress, darkLines := r.darkLines,
    brightLines := r.brightLines, white := clamp 4096 65535 r.white, hotLimit := r.hotLimit, deadLimit := r.deadLimit }

/-- Validation (R179, R17). -/
def validate (windows : List (Option Window)) (r : OrderRecord) : Checked :=
  if r.kind = 1 then
    match firstFailure (calChecks windows r) with
    | some reason => .refused reason
    | none => .accepted (.calibrate (calOf r))
  else if r.kind = 2 then
    match firstFailure (scanChecks windows r) with
    | some reason => .refused reason
    | none => .accepted (.scan (scanOf r))
  else .refused .badKind

/-! ### Refusal and start (R178, R180) -/

/-- The refusal of an order (R180). -/
def State.refuseOrder (s : State) (reason : Reason) : State := (s.issueEnd (Results.only reason) slotRefused .grouped).leaveOrder

/-- The free-form writes of the roster entries of `n` frames from frame `k` on; the end of the last is reported (R153). -/
def rosterFreeForms (o : ScanOrder) : Nat → Nat → List BusWrite
  | 0, _ => []
  | n + 1, k => (freeForm o k).map (fun w =>
      if n = 0 ∧ w.data.length = 2 then { w with mark := Mark.startLast } else w) ++ rosterFreeForms o n (k + 1)

/-- The free-form writes of the order's whole roster. -/
def State.issueRoster (s : State) (o : ScanOrder) : State := s.issueAll (rosterFreeForms o o.expectedFrames 1)

/-- A column of unity values (R11). -/
def unityColumn : ShadingColumn := { dark := sameQuad 0, gain := sameQuad 16384, hot := false, dead := false }

/-- The columns, from column `c` on, that are faulted (R10). -/
def faultList : Nat → List ShadingColumn → List Nat
  | _, [] => []
  | c, column :: rest => if column.faulted then c :: faultList (c + 1) rest else faultList (c + 1) rest

/-- The shading copy is LOADED: the counts and the column fault list are formed (R10, R11, R88). -/
def State.shadingLoaded (s : State) (copy : List ShadingColumn) : State :=
  (s.onIntake fun i =>
    { i with shading := .loaded, copy := copy, hot := countHot copy, dead := countDead copy }).onMapper fun m =>
      { m with faults := faultList 0 copy }

/-- The reads of a shading load: one entry of 20 bytes per column, in column order (R10). -/
def shadingReads (o : ScanOrder) : List BusRead :=
  (List.range o.width).map fun c =>
    { site := .shadingEntry, address := o.shadingAddress + 20 * c, bytes := 20, plate := 0xFFFF, frame := 0,
      stage := .waiting }

/-- The shading step of a SCAN order's start (R10, R11, R178 steps 3 and 4). -/
def State.startShading (s : State) (o : ScanOrder) : State :=
  if o.shadingAddress = 0 then (s.shadingLoaded (List.replicate o.width unityColumn)).issueRoster o
  else
    ((s.onIntake fun i => { i with shading := .loading }).onOrder fun u => { u with shadingReads := true }).startReads
      (shadingReads o)

/-- The order starts: the slot is written RUNNING (R178 step 2), and a SCAN order goes on to its shading step. -/
def State.startOrder (s : State) (order : Order) : State :=
  let s := s.onOrder fun u => { u with current := some order }
  match order with
  | .calibrate _ => s.issueSlotWord slotRunning .startLast
  | .scan o => (s.issueSlotWord slotRunning .silent).startShading o

/-- The order record is validated (R178 step 1). -/
def State.validateRecord (s : State) (r : OrderRecord) : State :=
  let s := s.onOrder fun u => { u with waiting := none }
  match validate s.bus.windows r with
  | .refused reason => s.refuseOrder reason
  | .accepted order => s.startOrder order

/-- The record has been read: it is validated, or it waits for a window load to end (R178, R171). -/
def State.recordArrives (s : State) (r : OrderRecord) : State :=
  let s := s.onOrder fun u => { u with recordRead := false }
  if s.bus.loading then s.onOrder fun u => { u with waiting := some r } else s.validateRecord r

/-! ### The entry to RUNNING (R178 step 5) -/

/-- The sums of columns 0 to width − 1 set to 0; those above are not cleared (R18). -/
def clearSums (width : Nat) (sums : List Quad) : List Quad := List.replicate width zeroQuad ++ sums.drop width

/-- The Calibration Unit takes up a CALIBRATE order (R18). -/
def CalibrationUnit.start (o : CalOrder) (u : CalibrationUnit) : CalibrationUnit :=
  { u with
    pass := .darkPass, passLines := 0, darkSums := clearSums o.width u.darkSums,
    brightSums := clearSums o.width u.brightSums, columnInHand := none, hot := 0, dead := 0, faulted := 0, excess := 0 }

/-- The tracker takes up a SCAN order (R46). -/
def Tracker.start : Tracker := { Tracker.reset with state := .leader }

/-- The Line Store takes up a SCAN order (R32). -/
def LineStore.start (o : ScanOrder) : LineStore := { LineStore.reset with levels := some (levelsOf o) }

/-- The mapper takes up a SCAN order; the elements above the width are not set (R87, R89). -/
def DefectMapper.start (o : ScanOrder) (m : DefectMapper) : DefectMapper :=
  { m with
    ref := List.replicate o.width o.irSeed ++ m.ref.drop o.width
    params := some { irSeed := o.irSeed, thr := o.thr, growth := o.growth }, runMerge := [], inHand := none }

/-- The Fill Unit takes up a SCAN order (R106). -/
def FillUnit.start (o : ScanOrder) (f : FillUnit) : FillUnit :=
  { f with params := some { rv := o.rv, hmax := o.hmax, enable := o.fillEnable } }

/-- The writer takes up a SCAN order (R126, R134). -/
def FrameWriter.start (o : ScanOrder) (wr : FrameWriter) : FrameWriter :=
  { wr with
    state := .ready, stop := false, waitFlag := false, lineBytes := some (orderLineBytes o), framesReady := 0,
    framesDamaged := 0, platesRefused := 0 }

/-- The blocks of a SCAN order (R32, R46, R89, R106, R126, R132). -/
def State.startScan (s : State) (o : ScanOrder) : State :=
  (((((s.onStore fun _ => LineStore.start o).onTracker fun _ => Tracker.start).onMapper (DefectMapper.start o)).onFill
    (FillUnit.start o)).onWriter (FrameWriter.start o)).onBus fun b => { b with credit := 4 * orderLineBytes o }

/-- The part enters RUNNING from STARTING (R4, R7, R178). -/
def State.enterRunning (s : State) : State :=
  let s := (s.onOrder fun u => { u with part := .running, gathered := none }).onIntake fun i =>
    { i with arrival := 0, malformed := 0 }
  match s.order.current with
  | some (.scan o) => s.startScan o
  | some (.calibrate o) => s.onCal (CalibrationUnit.start o)
  | none => s

end Sys2Proof.Machine
end

