-- ==== Sys2Proof/Machine/Fault.lean ====
section
/-! DEFINITION. FAULT (11, R184), the stop of every block (R27, R103, R124, R139, R144), and the hold reset and power-on
(R163, R186). -/
namespace Sys2Proof.Machine

/-- The fault kind of an access (R184). -/
def AccessKind.fault : AccessKind → FaultKind
  | .block => .block
  | .plateTable => .block
  | .roster => .roster
  | .shading => .shading
  | .plate => .plate

/-- A fault record with repeat count 0. -/
def faultRecord (kind : FaultKind) (address plate frame : Nat) : FaultRecord :=
  { kind := kind, address := address, plate := plate, frame := frame, repeats := 0 }

/-- The fault record of a failed write (R184). The failed address is that of its first byte: R137 says so of a plate burst and
R173 of a write that fails the window check; for the other writes it is the model's reading (log 35). -/
def BusWrite.faultRecord (w : BusWrite) : FaultRecord :=
  Machine.faultRecord w.kind.fault w.address w.plate w.frame

/-! ### The blocks stop -/

/-- The output columns of the line in hand that had been filled: a free number of them, not all, for with the last the fill
has ended (R121, R124). They are taken from the left: the chapter gives no order (log 19). -/
def State.filledColumns (s : State) (ps : List FilledPixel) : List FilledPixel :=
  ps.take (Config.freeProgress s.free % ps.length)

/-- A fill in progress stops where it stands (R124; log 19). -/
def State.haltFill (s : State) : State :=
  match s.fill.state, s.fill.line, s.fill.params with
  | .filling, some l, some params =>
    let done := s.filledColumns (fillLine params l)
    (s.onFill fun f =>
      { f with
        state := .halted, pixel := some (l.crop.left + l.decimation * done.length), defect := countDefect done,
        filled := countFilled done, unfilled := countUnfilled done }).stepFree
  | _, _, _ => s

/-- The writer is HALTED from whatever state it was in during a SCAN order, its start included; outside one an OFF writer stays
OFF (R144; from when on an order is a SCAN order is log 38). A plate wait ends, and with it the rescan request; the wait flag
stays (R151). -/
def FrameWriter.halt (scanning : Bool) (wr : FrameWriter) : FrameWriter :=
  match wr.state with
  | .off => if scanning then { wr with state := .halted } else wr
  | .plateWait => { wr with state := .halted, rescan := false }
  | .ready => { wr with state := .halted }
  | .throttled => { wr with state := .halted }
  | .writing => { wr with state := .halted }
  | .aborting => { wr with state := .halted }
  | .halted => wr

/-- The slot word FAILED of an abort sequence is in flight and is taken as not issued: it is the last of the sequel's writes but
for the orders tally, the only one with a mark (log 31). -/
def State.slotWithheld (s : State) : Bool :=
  s.bus.inFlight.any fun w => w.pace == .sequel && !w.landed && w.mark == .silent

/-- Where that slot word has not been issued, the suspend hold and the stop flag are as they stood (R182, R183; log 31). -/
def State.keepSuspension (s : State) : State :=
  (s.onOrder fun u => { u with suspendHold := if s.slotWithheld then u.atEnd.hold else u.suspendHold }).onWriter fun wr =>
    { wr with stop := if s.slotWithheld then s.order.atEnd.stop else wr.stop }

/-- Whether a SCAN order is in progress, one whose abort sequence has not come to its slot word included (R144; log 31). -/
def State.duringScan (s : State) : Bool := s.scanOrder.isSome || (s.slotWithheld && s.order.atEnd.scan)

/-- Every block stops, and writes and reads not made yet are not made (R184): the end writes of an abort sequence (R183), and
of the writes of every group those that had not been issued (log 5). -/
def State.stopBlocks (s : State) : State :=
  (((s.keepSuspension.withdrawSequels.cutUnissued fun _ => true).stopAllReads).haltFill).onWriter
    (FrameWriter.halt s.duringScan)

/-- The entry to FAULT (R184). -/
def State.enterFault (s : State) (record : FaultRecord) : State :=
  ((s.stopBlocks.onOrder fun u =>
    { u with
      part := .fault, origin := none, aborting := false, faultHold := true, faultRec := record, faultDrained := false }).onBus
    fun b => { b with barred := none }).raise .fault

/-- A further bus error in FAULT (R184). -/
def State.repeatFault (s : State) : State :=
  s.onOrder fun u => { u with faultRec := { u.faultRec with repeats := min (u.faultRec.repeats + 1) 255 } }

/-- A shading table write that failed: the unit enters IDLE (R27). No rule says what its HOT, DEAD and faulted counts hold then;
they stay those of the whole table, as after any FAULT in WRITING (log 24). -/
def State.afterFailedWrite (s : State) (w : BusWrite) : State :=
  if w.kind = .shading then s.onCal fun u => { u with pass := .idle } else s

/-- The end of every step: a write that failed the window check ends in its bus error (R173; log 26). -/
def State.settle (s : State) : State :=
  match s.bus.barred with
  | none => s
  | some w => (s.enterFault w.faultRecord).afterFailedWrite w

/-! ### Failed reads (R13, R159, R171, R177, R184) -/

/-- The fault kind of a failed read. -/
def readFault : ReadSite → FaultKind
  | .windowSource => .block
  | .slotWord => .block
  | .orderRecord => .block
  | .shadingEntry => .shading
  | .plateCount => .block
  | .plateEntry => .block

/-- The fault record of a failed read (R184). That of a plate table entry has the entry's index, as R184's table says, and the
frame of the head that the plate is wanted for (log 22). -/
def BusRead.faultRecord (r : BusRead) (address : Nat) : FaultRecord :=
  Machine.faultRecord (readFault r.site) address r.plate r.frame

/-- What a failed read ends beside the entry to FAULT: a shading load leaves the copy EMPTY (R13), a window load ends with
the table unchanged (R171). -/
def State.afterFailedRead (s : State) : ReadSite → State
  | .shadingEntry => if s.intake.shading = .loading then s.onIntake fun i => { i with shading := .empty } else s
  | .windowSource => s.onBus fun b => { b with loading := false }
  | .slotWord => s
  | .orderRecord => s
  | .plateCount => s
  | .plateEntry => s

/-- The read at place `k` fails outside FAULT, at an address. -/
def State.readFails (s : State) (k : Nat) (r : BusRead) (address : Nat) : State :=
  ((s.failRead k r.site).enterFault (r.faultRecord address)).afterFailedRead r.site

/-- The read in flight that an address of a site names, with its place: none where no read of the site takes in the address
(log 6). -/
def State.openRead (s : State) (site : ReadSite) (address : Nat) : Option (Nat × BusRead) :=
  match s.findRead site address with
  | none => none
  | some k => (s.bus.reads[k]?).map fun r => (k, r)

/-! ### Failed writes -/

/-- The write at a place in flight that has not ended, none where there is none. -/
def State.openWrite (s : State) (k : Nat) : Option BusWrite := (s.bus.inFlight[k]?).filter fun w => !w.landed

/-- A write of the exchange with the host fails outside FAULT (R184, R27). -/
def State.writeFails (s : State) (k : Nat) (w : BusWrite) : State :=
  ((s.failWrite k).enterFault w.faultRecord).afterFailedWrite w

/-! ### Resets (R163, R186) -/

/-- What the hold reset keeps: BLOCK_BASE and CAUSE_MASK (R162, R165), and the model's own fields. -/
def State.holdReset (s : State) : State :=
  let kept := s.dropWrites
  { State.reset with
    reg := { RegisterPort.reset with blockBase := s.reg.blockBase, mask := s.reg.mask, readData := s.reg.readData }
    order := { OrderUnit.reset with part := .inReset }
    mem := kept.mem, free := kept.free, pending := s.pending }

/-- Power-on (R186); host memory is not the part's, and the queue is the model's own (log 21). -/
def State.powerOn (s : State) : State :=
  let kept := s.dropWrites
  { State.reset with mem := kept.mem, free := kept.free, pending := s.pending }

end Sys2Proof.Machine
end

