-- ==== Sys2Proof/Machine/Abort.lean ====
section
/-! DEFINITION. The abort sequence (11, R183; 02, R28; 03, R43; 04, R71; 06, R102; 07, R123; 08, R143; 09, R158). -/
namespace Sys2Proof.Machine

/-- The order is marked as aborting. -/
def State.markAborting (s : State) : State := s.onOrder fun u => { u with aborting := true }

/-- What is cleared with the slot write of an aborted order (R183). What stood is noted, for a FAULT that comes before that write
has been issued (log 31). -/
def State.clearSuspension (s : State) : State :=
  (s.onOrder fun u =>
    { u with
      suspendHold := false, heldEnd := false
      atEnd := { hold := u.suspendHold, stop := s.writer.stop, scan := s.scanOrder.isSome } }).onWriter fun wr =>
    { wr with stop := false }

/-- The end writes of an aborted order (R183 step 3). -/
def State.endAborted (s : State) (r : Results) : State := ((s.issueEnd r slotFailed .sequel).clearSuspension).leaveOrder

/-! ### From STARTING -/

/-- The results of an order aborted in STARTING: hot and dead counts only of a copy that is LOADED (R12, R55, R183). -/
def State.startResults (s : State) : Results :=
  let loaded := s.intake.shading == .loaded
  { Results.only .aborted with
    source := BaseSource.fallback.code, hot := if loaded then s.intake.hot else 0,
    dead := if loaded then s.intake.dead else 0 }

/-- ABORT in STARTING: the work stops where it stands; with no access outstanding the order ends at once (R13, R183;
log 8). -/
def State.abortStarting (s : State) : State :=
  if s.order.waiting.isSome then s.endAborted s.startResults
  else
    let s := (((s.cutUnissued isRosterWrite).stopReads .orderRecord).stopReads .shadingEntry).markAborting
    if s.intake.shading = .loading then s.onIntake fun i => { i with shading := .empty } else s

/-! ### CALIBRATE -/

/-- The unit's counts at ABORT, for the result area (R28). -/
def CalibrationUnit.aborted (u : CalibrationUnit) (hot dead : Nat) : Gathered :=
  { u.report with hot := hot, dead := dead, sensorFailed := false }

/-- ABORT in the passes or with the table written: the unit enters IDLE and the order ends at once (R28; log 8). The abandoned sums
and the pass line count are kept as they stood (log 24). -/
def State.abortPasses (s : State) (g : Gathered) : State :=
  (s.onCal fun u => { u with pass := .idle }).endAborted (s.calResults g .aborted)

/-- ABORT in WRITING: no further entry is written; the counts reported are those of the columns whose writes were issued (R28). The
unit's own counts stay those of the whole table (log 24). -/
def State.abortTable (s : State) (o : CalOrder) : State :=
  let waiting := s.countWrites isTableWrite
  let s := s.cutUnissued isTableWrite
  let dropped := waiting - s.countWrites isTableWrite
  let columns := tableColumns o s.cal
  let issued := columns.take (columns.length - dropped)
  (s.onOrder fun u => { u with gathered := some (s.cal.aborted (countHot issued) (countDead issued)) }).markAborting

/-- ABORT of a CALIBRATE order by its pass state (R28). -/
def State.abortCalibrate (s : State) (o : CalOrder) : State :=
  match s.cal.pass with
  | .darkPass => s.abortPasses (s.cal.aborted 0 0)
  | .brightPass => s.abortPasses (s.cal.aborted 0 0)
  | .passesComplete => s.abortPasses (s.cal.aborted 0 0)
  | .writing => s.abortTable o
  | .idle => s.abortPasses (s.order.gathered.getD (s.cal.aborted s.cal.hot s.cal.dead))

/-! ### SCAN -/

/-- What the tracker hands over at ABORT (R55, R71). -/
def Tracker.handOver (o : ScanOrder) (t : Tracker) : Gathered :=
  let base := t.reportedBase o
  { slivers := t.slivers, excess := t.excess, baseR := base.r, baseG := base.g, baseB := base.b, source := base.source,
    hot := 0, dead := 0, sensorFailed := false }

/-- The line write in progress at ABORT: bursts that had not been issued are not issued (R143 steps 1 and 2). -/
def State.stopLine (s : State) : State :=
  let waiting := s.countWrites isBurst
  let s := s.cutUnissued isBurst
  let cut := decide (s.countWrites isBurst < waiting)
  s.onWriter fun wr =>
    { wr with
      write := if s.burstsLeft then wr.write.map fun lw => { lw with cut := lw.cut || cut } else none }

/-- The writer enters ABORTING (R143 step 1). A line whose error has been reported has no burst left to issue. A rescan request goes
with the scan (log 12). -/
def State.abortWriter (s : State) : State :=
  let errored := match s.writer.write with
    | none => false
    | some lw => lw.errored
  let s := if errored then s else s.stopLine
  s.onWriter fun wr =>
    { wr with state := .aborting, stop := false, waitFlag := false, scan := none, rescan := false }

/-- ABORT of a SCAN order from RUNNING, SUSPENDED or FINISHING: the blocks stop (R71, R102, R123, R143). The three counts of a
fill that is abandoned stay as the request set them, 0, and the tracker takes its reset values (log 24). -/
def State.abortScan (s : State) (o : ScanOrder) : State :=
  let handed := s.tracker.handOver o
  let s := (s.onTracker fun _ => Tracker.reset).onMapper fun m => { m with runMerge := [], inHand := none }
  let s := s.onFill fun f => { f with state := .idle, line := none, pixel := none }
  ((s.abortWriter.stopScan).onOrder fun u => { u with gathered := some handed }).markAborting

/-- ABORT taken (R183). -/
def State.abortOrder (s : State) : State :=
  if s.order.part = .starting then s.abortStarting
  else
    match s.order.current with
    | some (.scan o) => s.abortScan o
    | some (.calibrate o) => s.abortCalibrate o
    | none => s

/-! ### The drain -/

/-- Whether a write is one of the start's: a roster write or the slot word RUNNING. -/
def State.isStartWrite (s : State) (w : BusWrite) : Bool :=
  isRosterWrite w || w.mark == .startLast
    || (match s.order.chosen with
        | none => false
        | some i => w.kind == .block && w.address == s.blockBase + slotOffset i)

/-- The abort writes of one record (R158). -/
def State.abortRecord (o : ScanOrder) (s : State) (r : FrameRecord) : State :=
  ((s.issueAll (recordWrites o r)).releasePlates r.number .given r.plateList).issueRosterState o r.number rosterAborted

/-- The abort writes of every record, leading first (R143 step 3; log 9). -/
def State.abortRecords (s : State) (o : ScanOrder) : State := s.writer.records.foldl (State.abortRecord o) s

/-- The end of the writer's abort steps (R143 step 4). -/
def State.removeRecords (s : State) : State := s.onWriter fun wr => { wr with records := [], plate := none, state := .off }

/-- The results of a SCAN order aborted after its start (R71, R181, R183). -/
def State.abortedResults (s : State) (g : Gathered) : Results :=
  { reason := .aborted, source := g.source.code, ready := s.writer.framesReady, damaged := s.writer.framesDamaged,
    slivers := g.slivers, lost := s.store.lost, excess := g.excess, malformed := s.intake.malformed,
    platesRefused := s.writer.platesRefused, baseR := g.baseR, baseG := g.baseG, baseB := g.baseB, hot := s.intake.hot,
    dead := s.intake.dead }

/-- The end of a SCAN order's abort: the abort writes, the store emptied, the end writes (R43, R143, R158, R183). An abort write
that fails the window check ends the sequence where it stands (R173, R183). -/
def State.drainScan (s : State) (o : ScanOrder) (g : Gathered) : State :=
  let s := s.abortRecords o
  if s.bus.barred.isSome then s
  else
    let s := s.removeRecords.onStore LineStore.emptied
    s.endAborted (s.abortedResults g)

/-- The end of the abort of a table being written (R28, R183). -/
def State.drainTable (s : State) (g : Gathered) : State :=
  let s := (s.endWritesThrough isTableWrite).onCal fun u => { u with pass := .idle }
  s.endAborted (s.calResults g .aborted)

/-- The reads of the aborted work have ended (R183). -/
def State.endAbortedReads (s : State) : State :=
  [ReadSite.orderRecord, .shadingEntry, .plateCount, .plateEntry].foldl State.endDropped s

/-- Every access the aborted work had issued has ended (R183; log 8). -/
def State.drainAbort (s : State) : State :=
  let s := s.endAbortedReads
  if s.order.part = .starting then (s.endWritesThrough s.isStartWrite).endAborted s.startResults
  else
    match s.order.current, s.order.gathered with
    | some (.scan o), some g => s.drainScan o g
    | some (.calibrate _), some g => s.drainTable g
    | _, _ => s

end Sys2Proof.Machine
end

