-- ==== Sys2Proof/WellFormed.lean ====
section
/-! DEFINITION. When a command's operands spell an event of its row (log 7). A command that is not well-formed is no event
of the hardware; exec stops on it by name. -/
namespace Sys2Proof

/-- The eleven attention codes (Formats, attention code values). -/
def attentionCodes : List Nat := [0x11, 0x12, 0x21, 0x22, 0x31, 0x32, 0x33, 0x41, 0x42, 0x51, 0x52]

/-- Bit 0 of a value written to RESET_HOLD (R163). -/
def bitZero (v : Word) : Bool := v.getLsbD 0

/-- The offsets of a narrow access lie inside the 24 bytes of the register window (R161). -/
def IgnoredAccess.wellFormed : IgnoredAccess → Bool
  | .causeWrite _ => true
  | .stateWrite _ => true
  | .narrowRead offset => decide (offset < 24)
  | .narrowWrite offset _ => decide (offset < 24)

/-- The data of a read of a scan has the length the part reads (R148). -/
def ScanRead.wellFormed : ScanRead → Bool
  | .count data => decide (data.length = 4)
  | .entry data => decide (data.length = 12)

/-- The commands whose operands spell an event. -/
def Instr.wellFormed : Instr → Bool
  | .powerOn => true
  | .startOfLineMark => true
  | .pixel _ => true
  | .endOfLineMark => true
  | .blockBaseWrite _ => true
  | .causeRead => true
  | .causeMaskWrite _ => true
  | .resetHoldEnter value => bitZero value
  | .resetHoldLeave value => !bitZero value
  | .registerWriteIgnored access => access.wellFormed
  | .look => true
  | .plates => true
  | .holdOn => true
  | .holdOff => true
  | .suspend => true
  | .resume => true
  | .abort => true
  | .windows => true
  | .fixWindows => true
  | .park => true
  | .wake => true
  | .unknownAttentionValue value => !attentionCodes.contains value.toNat
  | .windowLoadComplete data => decide (data.length = 32)
  | .selectionReadsComplete data => decide (data.length = 32)
  | .orderRecordReadComplete record => decide (record.length = 96)
  | .shadingLoadComplete table => decide (table.length % 20 = 0)
  | .startWritesComplete => true
  | .fillComplete => true
  | .burstComplete => true
  | .plateBurstBusError => true
  | .plateScanReadComplete reads => !reads.isEmpty && reads.all ScanRead.wellFormed
  | .framesTallyWriteComplete => true
  | .orderTallyWriteComplete => true
  | .shadingTableWritten => true
  | .abortDrainComplete => true
  | .exchangeBusError _ => true
  | .busErrorInFault _ => true
  | .faultDrainComplete => true

end Sys2Proof
end

