-- ==== Sys2Proof/Machine/Reset.lean ====
section
/-! DEFINITION. The meanings of POWER_ON, RESET_HOLD_ENTER and RESET_HOLD_LEAVE, and how every meaning answers. -/
namespace Sys2Proof.Machine

/-- The answer of a meaning that has run. -/
def done (s : State) : Host.Outcome State Fault Refusal := .next s.settle

/-- POWER_ON (R186, and the reset rule of every block). -/
def execPowerOn (s : State) : Host.Outcome State Fault Refusal := done s.powerOn

/-- RESET_HOLD written with bit 0 set (R163): in IN_RESET nothing changes. -/
def execResetHoldEnter (value : Word) (s : State) : Host.Outcome State Fault Refusal :=
  if bitZero value then done (if s.order.part = .inReset then s else s.holdReset) else .fault .illFormed

/-- RESET_HOLD written with bit 0 clear (R163): outside IN_RESET nothing changes. -/
def execResetHoldLeave (value : Word) (s : State) : Host.Outcome State Fault Refusal :=
  if bitZero value then .fault .illFormed
  else done (if s.order.part = .inReset then s.onOrder fun u => { u with part := .parked } else s)

end Sys2Proof.Machine
end

