-- ==== Sys2Proof/Machine/Attention.lean ====
section
/-! DEFINITION. The meanings of a write to ATTENTION (10, R167 to R172; 09, R151; 11, R175 to R177, R182, R183). -/
namespace Sys2Proof.Machine

/-! ### Acceptance and refusal (R168, R170) -/

/-- The five states in which a refused code goes into the refusal record, and LOOK and PLATES are accepted (R168, R170). -/
def PartState.works : PartState → Bool
  | .idle => true
  | .starting => true
  | .running => true
  | .suspended => true
  | .finishing => true
  | .inReset => false
  | .parked => false
  | .fault => false

/-- The three fields of a refusal record, from offset 0x10 of the header on. -/
def RefusalRecord.toBytes (r : RefusalRecord) : List Byte := word r.code.toNat ++ half r.state ++ half r.count

/-- The write of the refusal record, from its copy: one write of its three fields (R170). -/
def State.issueRefusal (s : State) : State := s.issueBlock 0x10 s.order.refusal.toBytes

/-- A value written to ATTENTION is refused (R170). -/
def State.refuseCode (s : State) (value : Word) : State :=
  let s := s.raise .refused
  if s.order.part.works then
    (s.onOrder fun u =>
      { u with refusal := { code := value, state := u.part.code, count := min (u.refusal.count + 1) 65535 } }).issueRefusal
  else s

/-- The answer to a code: its effect where it is accepted, the refusal where it is not. -/
def judged (accepted : Bool) (value : Word) (effect : State → State) (s : State) : Host.Outcome State Fault Refusal :=
  done (if accepted then effect s else s.refuseCode value)

/-! ### LOOK, PLATES -/

/-- LOOK taken (R177; log 13). -/
def State.look (s : State) : State :=
  if s.order.part = .idle then
    if s.order.selecting || s.order.endWrites then s.onOrder fun u => { u with selectionRequest := true }
    else s.beginSelection
  else s

def execLook (s : State) : Host.Outcome State Fault Refusal := judged s.order.part.works 0x11 State.look s

/-- PLATES taken, by the writer's condition (R151). -/
def State.plates (s : State) : State :=
  match s.writer.state, s.writer.scan, s.scanOrder with
  | .plateWait, none, some o => s.beginRescan o
  | .plateWait, some _, some _ => s.onWriter fun wr => { wr with rescan := true }
  | .ready, some _, some _ => s.onWriter fun wr => { wr with rescan := true }
  | _, _, _ => s

def execPlates (s : State) : Host.Outcome State Fault Refusal := judged s.order.part.works 0x12 State.plates s

/-! ### HOLD_ON, HOLD_OFF (R167) -/

def execHoldOn (s : State) : Host.Outcome State Fault Refusal :=
  judged (s.order.part != .inReset) 0x21 (fun s => s.onReg fun r => { r with hostHold := true }) s

def execHoldOff (s : State) : Host.Outcome State Fault Refusal :=
  judged (s.order.part != .inReset) 0x22 (fun s => s.onReg fun r => { r with hostHold := false }) s

/-! ### SUSPEND, RESUME (R182) -/

/-- The writer's stop flag set: a THROTTLED writer enters READY (R141). -/
def FrameWriter.suspend (wr : FrameWriter) : FrameWriter :=
  { wr with stop := true, state := if wr.state = .throttled then .ready else wr.state }

/-- The origin SUSPENDED is entered from. -/
def originOf (part : PartState) : Origin := if part = .finishing then .finishing else .running

/-- SUSPEND taken; during an abort sequence it has no effect (R182, R183). -/
def State.suspend (s : State) : State :=
  if s.order.aborting then s
  else
    let s := s.onOrder fun u => { u with part := .suspended, origin := some (originOf u.part), suspendHold := true }
    (s.onWriter FrameWriter.suspend).issueSlotWord slotSuspended .silent

def execSuspend (s : State) : Host.Outcome State Fault Refusal :=
  judged (s.order.part == .running || s.order.part == .finishing) 0x31 State.suspend s

/-- The state an origin returns to. -/
def Origin.part : Origin → PartState
  | .running => .running
  | .finishing => .finishing

/-- The order goes on after a RESUME: a held end ends it, completed passes are finished, a writer in READY handles the head
(R20, R141, R181, R182). -/
def State.goOn (s : State) (held : Bool) : State :=
  match s.order.current with
  | some (.scan o) => if held then s.endScan o else s.writerGo o
  | some (.calibrate o) =>
    match held, s.order.gathered with
    | true, some g => s.endCalibrate g
    | _, _ => s.finishPasses o
  | none => s

/-- RESUME taken; during an abort sequence it has no effect (R182, R183). -/
def State.resume (s : State) : State :=
  if s.order.aborting then s
  else
    let held := s.order.heldEnd
    let s := s.issueSlotWord slotRunning .silent
    let s := s.onOrder fun u =>
      { u with part := (u.origin.getD .running).part, origin := none, suspendHold := false, heldEnd := false }
    (s.onWriter fun wr => { wr with stop := false }).goOn held

def execResume (s : State) : Host.Outcome State Fault Refusal :=
  judged (s.order.part == .suspended) 0x32 State.resume s

/-! ### ABORT (R183) -/

/-- The states that accept ABORT (R168). -/
def PartState.hasOrder : PartState → Bool
  | .starting => true
  | .running => true
  | .suspended => true
  | .finishing => true
  | .idle => false
  | .inReset => false
  | .parked => false
  | .fault => false

/-- ABORT taken; during an abort sequence it has no effect. -/
def State.abort (s : State) : State := if s.order.aborting then s else s.abortOrder

def execAbort (s : State) : Host.Outcome State Fault Refusal := judged s.order.part.hasOrder 0x33 State.abort s

/-! ### WINDOWS, FIX_WINDOWS (R171, R172) -/

/-- The reads of a window load: source 0 to source 3, each a base and a size (R171). -/
def State.windowReads (s : State) : List BusRead :=
  [0, 1, 2, 3].map fun i => s.blockRead .windowSource (sourceOffset i) 8

def execWindows (s : State) : Host.Outcome State Fault Refusal :=
  judged (s.order.part == .idle && !s.bus.fixed && !s.bus.loading) 0x41
    (fun s => (s.onBus fun b => { b with loading := true }).startReads s.windowReads) s

def execFixWindows (s : State) : Host.Outcome State Fault Refusal :=
  judged (s.order.part == .idle && s.windowsLoaded && !s.bus.loading) 0x42
    (fun s => s.onBus fun b => { b with fixed := true }) s

/-! ### PARK, WAKE (R175, R176) -/

/-- PARK taken (R14, R176). -/
def State.park (s : State) : State :=
  ((s.onOrder fun u =>
    { u with part := .parked, selecting := false, selectionRequest := false, follows := false }).stopReads
      .slotWord).discardShading

def execPark (s : State) : Host.Outcome State Fault Refusal := judged (s.order.part == .idle) 0x51 State.park s

/-- The header writes of WAKE, in order (R175). -/
def State.headerWrites (s : State) : List BusWrite :=
  [(0x00, half Config.partCode), (0x02, half Config.revision), (0x04, word s.order.framesTally.toNat),
    (0x08, word s.order.ordersTally.toNat), (0x0C, word s.intake.stray),
    (0x10, s.order.refusal.toBytes)].map fun field => s.blockField field.1 field.2 .silent .grouped

/-- WAKE taken. -/
def State.wake (s : State) : State := (s.onOrder fun u => { u with part := .idle }).issueAll s.headerWrites

def execWake (s : State) : Host.Outcome State Fault Refusal := judged (s.order.part == .parked) 0x52 State.wake s

/-! ### Any other value (R168) -/

def execUnknownAttentionValue (value : Word) (s : State) : Host.Outcome State Fault Refusal :=
  if attentionCodes.contains value.toNat then .fault .illFormed else judged false value id s

end Sys2Proof.Machine
end

