-- ==== Sys2Proof/Machine/Ends.lean ====
section
/-! DEFINITION. The meanings of the ends of writes, of fills and of the abort drain. Each is an event for work in progress;
where there is none it changes nothing (log 6). -/
namespace Sys2Proof.Machine

/-- The oldest write with a mark ends, and something follows from it; nothing changes where there is no such write. -/
def State.onEnd (s : State) (mark : Mark) (follow : State → State) : State :=
  match s.placeOf mark with
  | none => s
  | some k => follow (s.endWrite k)

/-- The start's writes have completed: the part enters RUNNING (R178 step 5). -/
def execStartWritesComplete (s : State) : Host.Outcome State Fault Refusal :=
  done
    (s.onEnd .startLast fun s =>
      if s.order.part = .starting ∧ s.order.aborting = false then s.enterRunning else s)

/-- A fill has ended (R121, R130, R131, R137). -/
def execFillComplete (s : State) : Host.Outcome State Fault Refusal :=
  match s.fill.state, s.fill.line, s.fill.params, s.writer.write, s.scanOrder with
  | .filling, some l, some params, some lw, some o => done (s.fillEnds o params l lw)
  | _, _, _, _, _ => done s

/-- What follows the end of a plate burst: nothing more in FAULT (R138, R139, R143, R144). -/
def State.afterBurst (s : State) : State :=
  match s.scanOrder with
  | some o => if s.order.part = .fault then s else s.burstEnds o
  | none => s

/-- The oldest burst in flight has completed (R137, R138). -/
def execBurstComplete (s : State) : Host.Outcome State Fault Refusal := done (s.onEnd .burst State.afterBurst)

/-- The oldest write of the frames tally has completed: FRAME_DONE (R157; log 11). -/
def execFramesTallyWriteComplete (s : State) : Host.Outcome State Fault Refusal :=
  done (s.onEnd .framesTally fun s => s.raise .frameDone)

/-- The orders tally has been written: ORDER_DONE, but in FAULT, and a selection follows (R177, R180, R181, R183, R184;
log 11, log 13). -/
def State.ordersTallied (s : State) : State :=
  let s := s.onOrder fun u => { u with endWrites := false }
  if s.order.part = .fault then s
  else
    let s := s.raise .orderDone
    if s.order.part = .idle ∧ (s.order.follows || s.order.selectionRequest) = true ∧ s.order.selecting = false then
      s.beginSelection
    else s

def execOrderTallyWriteComplete (s : State) : Host.Outcome State Fault Refusal :=
  done (s.onEnd .ordersTally State.ordersTallied)

/-- The last entry of a shading table has been written (R26). In FAULT and in an abort sequence the unit makes no report
(R27, R28). -/
def execShadingTableWritten (s : State) : Host.Outcome State Fault Refusal :=
  done
    (s.onEnd .tableLast fun s =>
      if s.cal.pass = .writing ∧ s.order.part ≠ .fault ∧ s.order.aborting = false then s.tableWritten else s)

/-- Every access the aborted work had issued has ended (R143, R183; log 8). -/
def execAbortDrainComplete (s : State) : Host.Outcome State Fault Refusal :=
  done (if s.order.aborting && !s.burstsLeft then s.drainAbort else s)

end Sys2Proof.Machine
end

