-- ==== Sys2Proof/Machine/Errors.lean ====
section
/-! DEFINITION. The meanings of bus errors and of the drain in FAULT (08, R139, R140; 11, R184, R185). -/
namespace Sys2Proof.Machine

/-- A burst of the line in progress has failed: the first error of the line refuses the plate, and bursts not issued yet are
not issued; a further one changes nothing (R139, R140). -/
def State.burstFails (s : State) (lw : LineWrite) (address : Nat) : State :=
  if lw.errored then s else (s.cutUnissued isBurst).plateError lw address

/-- What follows a failed burst: in FAULT it is a further bus error (R140), else the line is in error and may end. -/
def State.afterBurstError (s : State) (address : Nat) : State :=
  if s.order.part = .fault then s.repeatFault
  else
    match s.scanOrder, s.writer.write with
    | some o, some lw => (s.burstFails lw address).burstEnds o
    | _, _ => s

/-- The oldest burst in flight has ended in a bus error (R137, R139, R140). -/
def execPlateBurstBusError (s : State) : Host.Outcome State Fault Refusal :=
  match s.placeOf .burst with
  | none => done s
  | some k =>
    match s.openWrite k with
    | none => done s
    | some w => done ((s.failWrite k).afterBurstError w.address)

/-- A further bus error in FAULT (R184; log 6, log 29). The Calibration Unit keeps its pass state, a LOADING shading copy stays
LOADING and a window load stays in progress: R27, R13 and R171 end them on a failed access of theirs, R184 has every block stop
where it stands, and the part was in FAULT before this error was reported (log 34). -/
def State.failsInFault (s : State) (access : FailedAccess) : State :=
  match access with
  | .read site address =>
    match s.openRead site address.toNat with
    | none => s
    | some (k, r) => (s.failRead k r.site).repeatFault
  | .write k => if (s.openWrite k).isSome then (s.failWrite k).repeatFault else s

/-- A bus error outside FAULT on an access of the exchange with the host; a plate burst is none (R184; log 6). -/
def State.failsOutside (s : State) (access : FailedAccess) : State :=
  match access with
  | .read site address =>
    match s.openRead site address.toNat with
    | none => s
    | some (k, r) => s.readFails k r address.toNat
  | .write k =>
    match s.openWrite k with
    | none => s
    | some w => if isBurst w then s else s.writeFails k w

/-- A bus error on the exchange with the host; in IN_RESET it is ignored (R184, R186). -/
def execExchangeBusError (access : FailedAccess) (s : State) : Host.Outcome State Fault Refusal :=
  done
    (if s.order.part = .inReset then s
      else if s.order.part = .fault then s.failsInFault access
      else s.failsOutside access)

/-- A bus error on an access that was in flight at the entry to FAULT (R140, R184); outside FAULT there is none (log 6). -/
def execBusErrorInFault (access : FailedAccess) (s : State) : Host.Outcome State Fault Refusal :=
  done (if s.order.part = .fault then s.failsInFault access else s)

/-- Whether a write of the frames tally is among the writes in flight. -/
def State.tallyInFlight (s : State) : Bool := (s.placeOf .framesTally).isSome

/-- Every access issued before FAULT has ended: the fault record is written, the last access (R184, R157; log 11). -/
def State.drainFault (s : State) : State :=
  let tally := s.tallyInFlight
  let s := s.endAllWrites
  let s := if tally then s.raise .frameDone else s
  ((s.onBus fun b => { b with reads := [] }).push s.faultRecordWrite).onOrder fun u => { u with faultDrained := true }

def execFaultDrainComplete (s : State) : Host.Outcome State Fault Refusal :=
  done (if s.order.part = .fault ∧ s.order.faultDrained = false then s.drainFault else s)

end Sys2Proof.Machine
end

