-- ==== Sys2Proof/Machine/Link.lean ====
section
/-! DEFINITION. The meanings of the Sensor Link's events (01, R1 to R9, R15). -/
namespace Sys2Proof.Machine

/-- A start-of-line mark (R1, R2). -/
def execStartOfLineMark (s : State) : Host.Outcome State Fault Refusal :=
  done (if s.order.part = .inReset then s else s.endLine (some LineBuffer.empty))

/-- A pixel (R1, R2). -/
def execPixel (p : Pixel) (s : State) : Host.Outcome State Fault Refusal :=
  done
    (if s.order.part = .inReset then s
      else s.onIntake fun i => { i with line := i.line.map fun b => b.append p })

/-- An end-of-line mark (R1, R2). -/
def execEndOfLineMark (s : State) : Host.Outcome State Fault Refusal :=
  done (if s.order.part = .inReset then s else s.endLine none)

end Sys2Proof.Machine
end

