-- ==== Sys2Proof/Machine/Reads.lean ====
section
/-! DEFINITION. The meanings of the ends of reads. Each is an event for reads in progress; where the part waits for no such
read, the reads ended are those of an operation that was given up, and their data is discarded (log 2, log 6, log 30). -/
namespace Sys2Proof.Machine

/-- The table replaced, and a validation that waited for the load made (R171, R178). -/
def State.windowsArrive (s : State) (data : List Byte) : State :=
  let s := s.onBus fun b => { b with windows := windowsOfBytes data, loading := false }
  match s.order.waiting with
  | some r => if s.order.part = .starting then s.validateRecord r else s
  | none => s

/-- The four window source reads have completed (R171). -/
def execWindowLoadComplete (data : List Byte) (s : State) : Host.Outcome State Fault Refusal :=
  if data.length = 32 then
    done
      (if s.bus.loading && s.order.part != .fault then (s.endReads .windowSource).windowsArrive data
        else s.endDropped .windowSource)
  else .fault .illFormed

/-- The selection's reads have completed (R177). -/
def execSelectionReadsComplete (data : List Byte) (s : State) : Host.Outcome State Fault Refusal :=
  if data.length = 32 then
    done
      (if s.order.selecting && s.order.part == .idle then (s.endReads .slotWord).endSelection (slotsOfBytes data)
        else s.endDropped .slotWord)
  else .fault .illFormed

/-- The order record has been read (R178 step 1). In an abort sequence the data is discarded (R183). -/
def execOrderRecordReadComplete (record : List Byte) (s : State) : Host.Outcome State Fault Refusal :=
  if record.length = 96 then
    done
      (if s.order.recordRead && s.order.part == .starting && !s.order.aborting then
        (s.endReads .orderRecord).recordArrives (OrderRecord.ofBytes record)
        else s.endDropped .orderRecord)
  else .fault .illFormed

/-- The last shading table entry has been read (R10, R178 steps 3 and 4). In an abort sequence the data is discarded
(R13). -/
def execShadingLoadComplete (table : List Byte) (s : State) : Host.Outcome State Fault Refusal :=
  if table.length % 20 = 0 then
    match s.scanOrder with
    | some o =>
      if s.intake.shading = .loading ∧ s.order.part = .starting then
        if table.length = 20 * o.width then
          done
            ((((s.endReads .shadingEntry).onOrder fun u => { u with shadingReads := false }).shadingLoaded
              (shadingOfBytes o.width table)).issueRoster o)
        else .fault .readLength
      else done (s.endDropped .shadingEntry)
    | none => done (s.endDropped .shadingEntry)
  else .fault .illFormed

/-- Reads of a plate table scan complete, in the order given (R147 to R149, R151). -/
def execPlateScanReadComplete (reads : List ScanRead) (s : State) : Host.Outcome State Fault Refusal :=
  if !reads.isEmpty && reads.all ScanRead.wellFormed then
    match s.scanOrder with
    | some o =>
      done (if s.order.part = .fault then reads.foldl State.dropScanRead s else reads.foldl (State.scanRead o) s)
    | none => done (reads.foldl State.dropScanRead s)
  else .fault .illFormed

end Sys2Proof.Machine
end

