-- ==== Sys2Proof/Machine/Registers.lean ====
section
/-! DEFINITION. The meanings of the accesses of the register window other than ATTENTION and RESET_HOLD (10, R161 to R165). -/
namespace Sys2Proof.Machine

/-- The address a value written to BLOCK_BASE gives: its low 13 bits cleared (R162). -/
def blockAddress (value : Word) : Word := value &&& ~~~0x1FFF#32

/-- The Exchange Block moves: of a window load and of a selection in progress, the reads that have not been made are made at
the new address (R162; log 30). The address of a write is fixed when its group begins, so writes in flight keep theirs (log 5). -/
def State.moveBlock (s : State) (base : Word) : State :=
  let s := (s.reachReads .windowSource).reachReads .slotWord
  (s.onBus fun b => { b with reads := moveReads s.blockBase base.toNat b.reads }).onReg fun r => { r with blockBase := base }

/-- BLOCK_BASE written (R162). -/
def execBlockBaseWrite (value : Word) (s : State) : Host.Outcome State Fault Refusal :=
  done
    (if s.order.part = .parked ∨ s.order.part = .idle then s.moveBlock (blockAddress value) else s.raise .refused)

/-- CAUSE read (R164). -/
def execCauseRead (s : State) : Host.Outcome State Fault Refusal :=
  done (s.onReg fun r => { r with readData := r.cause.zeroExtend 32, cause := 0 })

/-- CAUSE_MASK written (R165). -/
def execCauseMaskWrite (value : Word) (s : State) : Host.Outcome State Fault Refusal :=
  done (s.onReg fun r => { r with mask := value.truncate 6 })

/-- An access that changes nothing; a narrow read returns 0 (R161). -/
def execRegisterWriteIgnored (access : IgnoredAccess) (s : State) : Host.Outcome State Fault Refusal :=
  if access.wellFormed then
    match access with
    | .causeWrite _ => done s
    | .stateWrite _ => done s
    | .narrowRead _ => done (s.onReg fun r => { r with readData := 0 })
    | .narrowWrite _ _ => done s
  else .fault .illFormed

end Sys2Proof.Machine
end

