-- ==== Sys2Proof/Machine/Dispatch.lean ====
section
/-! DEFINITION. One arm per command. -/
namespace Sys2Proof.Machine

/-- The effect of a command. -/
def exec (i : Instr) (s : State) : Host.Outcome State Fault Refusal :=
  match i with
  | .powerOn => Sys2Proof.Machine.execPowerOn s
  | .startOfLineMark => Sys2Proof.Machine.execStartOfLineMark s
  | .pixel p => Sys2Proof.Machine.execPixel p s
  | .endOfLineMark => Sys2Proof.Machine.execEndOfLineMark s
  | .blockBaseWrite value => Sys2Proof.Machine.execBlockBaseWrite value s
  | .causeRead => Sys2Proof.Machine.execCauseRead s
  | .causeMaskWrite value => Sys2Proof.Machine.execCauseMaskWrite value s
  | .resetHoldEnter value => Sys2Proof.Machine.execResetHoldEnter value s
  | .resetHoldLeave value => Sys2Proof.Machine.execResetHoldLeave value s
  | .registerWriteIgnored access => Sys2Proof.Machine.execRegisterWriteIgnored access s
  | .look => Sys2Proof.Machine.execLook s
  | .plates => Sys2Proof.Machine.execPlates s
  | .holdOn => Sys2Proof.Machine.execHoldOn s
  | .holdOff => Sys2Proof.Machine.execHoldOff s
  | .suspend => Sys2Proof.Machine.execSuspend s
  | .resume => Sys2Proof.Machine.execResume s
  | .abort => Sys2Proof.Machine.execAbort s
  | .windows => Sys2Proof.Machine.execWindows s
  | .fixWindows => Sys2Proof.Machine.execFixWindows s
  | .park => Sys2Proof.Machine.execPark s
  | .wake => Sys2Proof.Machine.execWake s
  | .unknownAttentionValue value => Sys2Proof.Machine.execUnknownAttentionValue value s
  | .windowLoadComplete data => Sys2Proof.Machine.execWindowLoadComplete data s
  | .selectionReadsComplete slots => Sys2Proof.Machine.execSelectionReadsComplete slots s
  | .orderRecordReadComplete record => Sys2Proof.Machine.execOrderRecordReadComplete record s
  | .shadingLoadComplete table => Sys2Proof.Machine.execShadingLoadComplete table s
  | .startWritesComplete => Sys2Proof.Machine.execStartWritesComplete s
  | .fillComplete => Sys2Proof.Machine.execFillComplete s
  | .burstComplete => Sys2Proof.Machine.execBurstComplete s
  | .plateBurstBusError => Sys2Proof.Machine.execPlateBurstBusError s
  | .plateScanReadComplete reads => Sys2Proof.Machine.execPlateScanReadComplete reads s
  | .framesTallyWriteComplete => Sys2Proof.Machine.execFramesTallyWriteComplete s
  | .orderTallyWriteComplete => Sys2Proof.Machine.execOrderTallyWriteComplete s
  | .shadingTableWritten => Sys2Proof.Machine.execShadingTableWritten s
  | .abortDrainComplete => Sys2Proof.Machine.execAbortDrainComplete s
  | .exchangeBusError access => Sys2Proof.Machine.execExchangeBusError access s
  | .busErrorInFault access => Sys2Proof.Machine.execBusErrorInFault access s
  | .faultDrainComplete => Sys2Proof.Machine.execFaultDrainComplete s

end Sys2Proof.Machine
end

