-- ==== Sys2Proof/Safety.lean ====
section
/-! DEFINITION. What holds of every state the block reaches, and what one step may issue: the predicates the statements are
about. -/
namespace Sys2Proof.Machine

/-- No write that failed the window check waits for its bus error: so it stands between commands (log 26). -/
def State.Settled (s : State) : Prop := s.bus.barred = none

/-- The part makes no access in IN_RESET (R186) and no new one in FAULT (R184). -/
def State.Active (s : State) : Prop := s.order.part ≠ .inReset ∧ s.order.part ≠ .fault

/-- A state with these writes more in flight, and nothing else changed. -/
def State.withWrites (s : State) (ws : List BusWrite) : State :=
  { s with bus := { s.bus with inFlight := s.bus.inFlight ++ ws } }

/-- A state with these reads more in flight, and nothing else changed. -/
def State.withReads (s : State) (rs : List BusRead) : State :=
  { s with bus := { s.bus with reads := s.bus.reads ++ rs } }

/-- The read of a field of the Exchange Block, made. -/
def State.madeRead (s : State) (site : ReadSite) (offset bytes : Nat) : BusRead :=
  { s.blockRead site offset bytes with stage := .made }

/-- The invariant of the model: memory is in its canonical form, no write that failed the window check waits for its bus
error, the Window Table has four entries (R171), BLOCK_BASE lies on an 8192-byte boundary (R162), and the Line Store holds at
most 64 lines (R30). -/
structure State.Sound (s : State) : Prop where
  memory : Memory.wf s.mem = true
  settled : s.Settled
  table : s.bus.windows.length = 4
  boundary : s.reg.blockBase.toNat % 8192 = 0
  room : s.store.pending.length + s.store.context.length ≤ Config.storeSlots

/-- The same write in flight, whether it has landed or not and whatever is known of its issue. -/
def sameAccess (v w : BusWrite) : Prop := { v with landed := w.landed, pace := w.pace } = w

/-- Every write in flight in `t` was in flight in `s`, or passes the window check of `t` (R173). -/
def State.IssuesChecked (s t : State) : Prop :=
  ∀ w ∈ t.bus.inFlight, (∃ v ∈ s.bus.inFlight, sameAccess v w) ∨ t.passesCheck w = true

/-! ### What the statements speak of -/

/-- The two marks that make a line in progress arrive, each with the line in progress after it (R1). -/
def lineMarks : List (Instr × Option LineBuffer) :=
  [(.endOfLineMark, none), (.startOfLineMark, some { pixels := [], count := 0 })]

/-- The arriving line is stray and the header is written (R3, R5). -/
def State.Strays (s : State) : Prop :=
  s.order.part ∈ [.idle, .starting, .finishing] ∨ (s.order.part = .suspended ∧ s.order.origin ≠ some .running)
    ∨ (s.order.aborting = true ∧ s.order.part ∈ [.running, .suspended])

/-- The arriving line is taken by the order (R3, R183). -/
def State.Takes (s : State) : Prop :=
  s.order.aborting = false ∧ (s.order.part = .running ∨ (s.order.part = .suspended ∧ s.order.origin = some .running))

/-- The four channels of a column, and the three of an output pixel. -/
def quadChannels : List (Quad → Nat) := [Quad.r, Quad.g, Quad.b, Quad.ir]
def rgbChannels : List (Rgb → Nat) := [Rgb.r, Rgb.g, Rgb.b]

/-- An address among the bytes of a write. -/
def BusWrite.covers (w : BusWrite) (a : Nat) : Prop := w.address ≤ a ∧ a < w.address + w.data.length

/-- The intake after a line of `count` pixels has been taken by an order of a width (R1, R4, R7). -/
def LineIntake.taken (i : LineIntake) (width count : Nat) (next : Option LineBuffer) : LineIntake :=
  { i with
    line := next, arrival := i.arrival + 1, malformed := if count = width then i.malformed else i.malformed + 1 }

/-- The orders tally write that ends an order of `s` (R181). -/
def State.tallyWrite (s : State) (pace : Pace) : BusWrite :=
  s.blockField 0x08 (word (s.order.ordersTally + 1).toNat) .ordersTally pace

/-- The slot state word of slot `i` (R177). -/
def State.slotWrite (s : State) (i : Fin 4) (value : Nat) (mark : Mark) (pace : Pace := .issued) : BusWrite :=
  s.blockField (0x200 + 256 * i) (word value) mark pace

/-- The writes of a result area, as a group or as the sequel of an abort (R181, R183). -/
def State.resultArea (s : State) (i : Fin 4) (r : Results) (pace : Pace) : List BusWrite :=
  (s.resultWrites i r).map fun w => { w with pace := pace }

/-! ### States that the statements name, written out -/

/-- A value refused in IDLE, STARTING, RUNNING, SUSPENDED or FINISHING: the cause, the record, and the one write that carries
it (R170). -/
def State.refusing (s : State) (value : Word) : State :=
  ({ s with
      reg := { s.reg with cause := s.reg.cause ||| 0x10#6 }
      order := { s.order with
        refusal :=
          { code := value, state := s.order.part.code,
            count := min (s.order.refusal.count + 1) 65535 } } }).withWrites
    [s.blockField 0x10
      (word value.toNat ++ half s.order.part.code ++ half (min (s.order.refusal.count + 1) 65535)) .silent]

/-- The reads of an order selection (R177), the first of them made. -/
def State.selectionReads (s : State) : List BusRead :=
  s.madeRead .slotWord 0x200 4
    :: [0x300, 0x400, 0x500, 0x204, 0x304, 0x404, 0x504].map fun offset => s.blockRead .slotWord offset 4

/-- The read of plate table entry `k` for the frame of the head (R148, R159). -/
def State.entryRead (s : State) (k : Nat) : BusRead :=
  { s.madeRead .plateEntry (0x600 + 16 * k) 12 with plate := k, frame := s.headFrame.getD 0 }

/-- The reads in flight but those of the operation in progress at a site. -/
def State.readsBut (s : State) (site : ReadSite) : List BusRead := s.bus.reads.filter fun r => !r.isLive site

/-- The record of frame `k`, opened on line `n` (R83, R126, R127). -/
def frameOpened (o : ScanOrder) (k n : Nat) (crop : Columns) (flags : RosterFlags) : FrameRecord :=
  { number := k, closed := false, top := n, cropTop := n + o.insetTop, last := none, cropBottom := none, crop := crop,
    outWidth := (crop.right - crop.left) / o.decimation + 1,
    outBytes := ((crop.right - crop.left) / o.decimation + 1) * 3 * (o.depth / 8), openFlags := flags, flags := flags,
    damage := none, outLines := 0, lostLines := 0, mergedLines := 0, defect := 0, filled := 0, unfilled := 0,
    plateList := [], fillingWritten := false, doomed := false }

/-- The FILLING write of a record (R154). -/
def fillingEntry (o : ScanOrder) (r : FrameRecord) : List BusWrite :=
  [(0x02, half r.number), (0x04, word r.openFlags.value), (0x08, word r.top), (0x10, word r.cropTop),
    (0x18, half r.crop.left), (0x1A, half r.crop.right), (0x1C, half r.outWidth), (0x0C, word 0), (0x14, word 0),
    (0x20, word 0), (0x24, word 0), (0x28, word 0), (0x2C, word 0), (0x30, word 0), (0x34, word 0), (0x1E, half 0),
    (0x00, half 1)].map fun field => rosterField o r.number field.1 field.2

/-- The records once the leading one has its FILLING write, and that write where it had still to be issued (R154). -/
def leadingFilled : List FrameRecord → List FrameRecord
  | [] => []
  | r :: rest => { r with fillingWritten := true } :: rest
def leadingEntry (o : ScanOrder) : List FrameRecord → List BusWrite
  | [] => []
  | r :: _ => if r.fillingWritten then [] else fillingEntry o r

/-- A frame opened on line `n` with the next frame number (R58, R127, R154): the tracker holds it, the writer has its record,
and its FILLING write is issued if it is the leading record. The store has no lost line of it. -/
def State.opened (s : State) (o : ScanOrder) (n : Nat) (crop : Columns) (flags : RosterFlags) : State :=
  let k := s.tracker.nextFrame
  let records := s.writer.records ++ [frameOpened o k n crop flags]
  ({ s with
      tracker := { s.tracker with openFrame := some { number := k, top := n, crop := crop, flags := flags } }
      store := { s.store with lostFrames := s.store.lostFrames.filter (· != k) }
      writer := { s.writer with records := leadingFilled records } }).withWrites (leadingEntry o records)

/-- The frame flags that come from a base source (R55). -/
def BaseSource.flags : BaseSource → RosterFlags
  | .leader => {}
  | .short => { baseShort := true }
  | .fallback => { baseFallback := true }

/-- A gap run resolved into frame `k` (R60, R61, R99): its merged lines are reported to the frame. -/
def State.runResolved (s : State) (k : Nat) : State :=
  { s with
    writer := s.writer.onRecord k fun r =>
      { r with
        mergedLines := r.mergedLines + s.mapper.runMerge.length
        flags := { r.flags with spansMerged := r.flags.spansMerged || !s.mapper.runMerge.isEmpty } }
    mapper := { s.mapper with runMerge := [] }
    tracker := { s.tracker with gapStart := none, runCount := 0 } }

/-- The next line of a SCAN order has been taken and extends the open frame `fr` short of the forced cut (R59, R60, R69), before any
line is decided: its entry with the span list of the mapper (R97), the run begun, continued or resolved, the IR reference moved
(R91), and a merged line reported to the frame, or kept in the run merge list while the run lasts (R98, R99). -/
def State.lineExtended (s : State) (o : ScanOrder) (fr : OpenFrame) (params : MapParams) (b : LineBuffer)
    (next : Option LineBuffer) : State :=
  let n := s.intake.arrival
  let corrected := shadeLine s.intake.copy (lengthCorrect o.width b.pixels)
  let gap := s.tracker.outcome o (some corrected)
  let merged := isMergedLine params fr.crop s.mapper.faults s.mapper.ref corrected
  let running := decide (s.tracker.state = .gapRun)
  let before := if running && !gap then s.runResolved fr.number else s
  { s with
    intake := s.intake.taken o.width b.count next
    bus := { s.bus with
      credit := if o.credit = 0 then s.bus.credit else min (s.bus.credit + o.credit) (4 * s.writer.lineBytes.getD 0) }
    store := { s.store with
      pending := s.store.pending ++
        [{ line := n, samples := corrected, cls := .image, frame := some fr.number, fate := .undecided,
           spans := some (lineSpans params fr.crop s.mapper.faults s.mapper.ref corrected), complete := true }]
      hold := holdAfter s.store.levels s.store.hold (s.store.pending.length + 1) }
    tracker :=
      if gap then
        { s.tracker with
          lastGap := some true, state := .gapRun, gapStart := if running then s.tracker.gapStart else some n
          runCount := if running then s.tracker.runCount + 1 else 1 }
      else { before.tracker with lastGap := some false, state := .image }
    mapper := { before.mapper with
      ref := updateReference params.thr fr.crop s.mapper.faults 0 corrected s.mapper.ref
      runMerge := if gap && merged then before.mapper.runMerge ++ [n] else before.mapper.runMerge }
    writer :=
      if !gap && merged then
        before.writer.onRecord fr.number fun r =>
          { r with mergedLines := r.mergedLines + 1, flags := { r.flags with spansMerged := true } }
      else before.writer }

/-- The writer's work is done in the step that ends the write of the last line (R142, R181): the results that the order of `s` ends
with, the writer's two counts given. -/
def State.finalResults (s : State) (base : Base) (ready damaged : Nat) : Results :=
  { reason := .none, source := base.source.code, ready := ready, damaged := damaged, slivers := s.tracker.slivers
    lost := s.store.lost, excess := s.tracker.excess, malformed := s.intake.malformed
    platesRefused := s.writer.platesRefused, baseR := base.r, baseG := base.g, baseB := base.b, hot := s.intake.hot
    dead := s.intake.dead }

/-- A scan has ended with no usable plate (R148, R151): from READY the wait begins with its flag and its cause, in a wait it goes on;
a recorded request is cleared and its rescan begins. -/
def State.scanEnded (s : State) : State :=
  let first := decide (s.writer.state = .ready)
  { s with
    reg := { s.reg with cause := if first then s.reg.cause ||| 0x04#6 else s.reg.cause }
    writer := { s.writer with
      state := .plateWait, waitFlag := first || s.writer.waitFlag
      scan := if s.writer.rescan then some .count else none, rescan := false } }.withReads
    (if s.writer.rescan then [s.madeRead .plateCount 0x24 4] else [])

/-- The bursts of line `lw` that were issued have all ended: what is done in the same step with the line and after it. In ABORTING no
head is removed (R143). In WRITING the head is removed, the discard writes that waited for the line are made (R128), completion points
are tested, and the writer, READY, goes on (R138, R139). -/
def State.afterLine (s : State) (o : ScanOrder) (lw : LineWrite) : State :=
  if s.writer.state = .aborting then { s with writer := { s.writer with write := none } }
  else
    let removed := { s with store := s.store.removeHead lw.discarded }
    let tested := (if lw.discarded then removed.discardRecords o FrameRecord.doomed else removed).completeFrames o
    { tested with writer := { tested.writer with state := .ready, write := none } }.writerGo o

/-- A line write begun (R107, R115, R133, R136): the credit spent where it suffices, the plate's room, the line's place, and
the fill request with the store's lines as they stand. -/
def State.writeBegun (s : State) (o : ScanOrder) (e : Entry) (r : FrameRecord) (p : CurrentPlate) : State :=
  { s with
    bus := { s.bus with
      credit := if o.credit ≠ 0 ∧ r.outBytes ≤ s.bus.credit then s.bus.credit - r.outBytes else s.bus.credit }
    writer := { s.writer with
      state := .writing
      plate := some { p with room := p.room - r.outBytes }
      write := some
        { frame := r.number, plate := p.index, place := p.address + p.size - p.room, errored := false,
          discarded := false, cut := false } }
    fill := { s.fill with
      state := .filling
      line := some
        { line := e.line, frame := r.number, top := r.top, last := r.last, crop := r.crop, decimation := o.decimation,
          samples := e.samples, spans := e.spans.getD [],
          sources := (s.store.context ++ s.store.pending).filter Entry.complete }
      pixel := some r.crop.left, defect := 0, filled := 0, unfilled := 0 } }

/-- The conditions under which a WRITE head with a plate passes the throttle (R133). -/
def State.Passes (s : State) (o : ScanOrder) (bytes : Nat) : Prop :=
  bytes ≤ s.bus.credit ∨ o.credit = 0 ∨ 48 - o.rv ≤ s.store.pending.length ∨ s.store.hold = true
    ∨ s.order.part = .finishing

/-- A plate taken for the head's frame `f` (R149): its list entry, the scan position, the current plate, and the two writes. -/
def State.plateTaken (s : State) (o : ScanOrder) (f k address size : Nat) : State :=
  ({ s with
      bus := { s.bus with reads := s.readsBut .plateEntry }
      writer := { s.writer with
        records := s.writer.records.map fun (r : FrameRecord) =>
          if r.number = f ∧ r.doomed = false then
            ({ r with plateList := r.plateList ++ [({ index := k, firstLine := r.outLines, count := 0 } : PlateListEntry)] } :
              FrameRecord)
          else r
        scanPos := some k
        plate := some { index := k, address := address, size := size, room := size, frame := f }
        scan := none, rescan := false, waitFlag := false, state := .ready
        owners := setOwner s.writer.owners k .taken } }).withWrites
    [s.plateField k 0xC f (half o.sequence ++ half f) .grouped, s.plateField k 0x8 f (word 2) .grouped]

/-- Entry `z` of the store view is a vertical source line, number `line`, of column `x` of the line in hand (R112). -/
def LineInHand.IsSource (l : LineInHand) (x line : Nat) (z : Entry) : Prop :=
  z ∈ l.sources ∧ z.line = line ∧ z.complete = true ∧ z.frame = some l.frame ∧ l.top ≤ line
    ∧ (∀ last, l.last = some last → line ≤ last) ∧ ∃ spans, z.spans = some spans ∧ ∀ p ∈ spans, p.covers x = false

/-- What the search of R113 finds: the source at the least distance from 1 to `rv`, or none. `lineAt` is the line number at
a distance. -/
def LineInHand.Finds (l : LineInHand) (rv x : Nat) (lineAt : Nat → Option Nat) : Option Estimate → Prop
  | none => ∀ d n z, 1 ≤ d → d ≤ rv → lineAt d = some n → ¬ l.IsSource x n z
  | some found =>
    1 ≤ found.distance ∧ found.distance ≤ rv
      ∧ (∃ n z, lineAt found.distance = some n ∧ l.IsSource x n z ∧ found.value = rgbAt z.samples x)
      ∧ ∀ d n z, 1 ≤ d → d < found.distance → lineAt d = some n → ¬ l.IsSource x n z

/-- The estimate of two sources, of one, or of none (R111, R114). -/
def meanOf : Option Estimate → Option Estimate → Option Estimate
  | some u, some v => some { value := blend u.value u.distance v.value v.distance, distance := min u.distance v.distance }
  | some u, none => some u
  | none, v => v

/-- A column is a film column of a profile (R78). -/
def filmAt (width level : Nat) (profile : List ProfileRecord) (c : Nat) : Prop :=
  c < width ∧ level ≤ (profile.map fun record => record.greens.getD c 0).sum / profile.length

/-- The fields of the roster entry of a record but its state (R156 step 1). -/
def entryFields (o : ScanOrder) (r : FrameRecord) : List BusWrite :=
  ([(0x02, half r.number), (0x04, word r.flags.value), (0x08, word r.top), (0x0C, word (r.last.getD 0)),
    (0x10, word r.cropTop), (0x14, word (r.cropBottom.getD 0)), (0x18, half r.crop.left), (0x1A, half r.crop.right),
    (0x1C, half r.outWidth), (0x20, word r.outLines), (0x24, word r.defect), (0x28, word r.filled), (0x2C, word r.unfilled),
    (0x30, word r.mergedLines), (0x34, word r.lostLines), (0x1E, half r.plateList.length)]
    ++ (r.plateList.zipIdx.flatMap fun (p : PlateListEntry × Nat) =>
      [(0x80 + 8 * p.2, half p.1.index), (0x82 + 8 * p.2, half p.1.count), (0x84 + 8 * p.2, word p.1.firstLine)])).map
    fun (field : Nat × List Byte) => rosterField o r.number field.1 field.2

/-- The plates of a list that the part last wrote TAKEN, in list order, each once, without those of `gone`. -/
def takenPlates (owners : List (Nat × Owner)) : List Nat → List PlateListEntry → List Nat
  | _, [] => []
  | gone, p :: ps =>
    if lastOwner owners p.index = some .taken ∧ p.index ∉ gone then
      p.index :: takenPlates owners (p.index :: gone) ps
    else takenPlates owners gone ps

/-- The write of an owner word for each plate of a list, in list order, that the part last wrote TAKEN (R155, R156, R158). -/
def State.plateReturns (s : State) (gone : List Nat) (r : FrameRecord) (value : Nat) : List BusWrite :=
  (takenPlates s.writer.owners gone r.plateList).map fun k => s.plateField k 0x8 r.number (word value) .grouped

/-- The abort writes of records, the first first (R158): the fields, GIVEN for the plates last written TAKEN and not returned by
an earlier record, and the state ABORTED. -/
def State.abortEntries (s : State) (o : ScanOrder) : List Nat → List FrameRecord → List BusWrite
  | _, [] => []
  | gone, r :: rs =>
    entryFields o r ++ s.plateReturns gone r 1 ++ rosterField o r.number 0x00 (half 4)
      :: s.abortEntries o (takenPlates s.writer.owners gone r.plateList ++ gone) rs

/-- The writes in flight and the memory when the writes that `own` chooses have ended, and with them every earlier write (R183):
of the earlier ones those whose end is reported by a command of its own stay to be reported (log 3). -/
def State.DrainsTo (s : State) (own : BusWrite → Bool) (ws : List BusWrite) (mem : Memory) : Prop :=
  ∃ early late, s.bus.inFlight = early ++ late ∧ (∀ w ∈ late, own w = false)
    ∧ (early = [] ∨ ∃ (init : List BusWrite) (w : BusWrite), early = init ++ [w] ∧ own w = true)
    ∧ ws = stillTracked (early.filter fun w => !own w) ++ late ∧ mem = landAll s.mem early

/-- The completion writes of a record (R156, R157). -/
def State.completion (s : State) (o : ScanOrder) (r : FrameRecord) : List BusWrite :=
  entryFields o r ++ s.plateReturns [] r 3
    ++ [rosterField o r.number 0x00 (half (if r.damage.isSome then 3 else 2)),
      s.blockField 0x04 (word (s.order.framesTally + 1).toNat) .framesTally .grouped]

end Sys2Proof.Machine
end

