-- ==== Sys2Proof/Certificates/Slice0/Obligations.lean ====
section
/-! DEFINITION. The statements for the provers. Each equation `exec c s = .next { s with … }` says both what the command
changes and that every other field of the state is as before. -/

open Sys2Proof Sys2Proof.Machine

/-! ### The step, the queue, and when a command stops -/

/-- The step runs the command at the front of the queue (the model's own convention, log 1), and idles on an empty one. -/
def Obligations.StepTakesFront : Prop :=
  (∀ (c : Instr) (rest : List Instr) (s : State),
    step { s with pending := c :: rest } = exec c { s with pending := rest })
  ∧ ∀ s : State, step { s with pending := [] } = .next { s with pending := [] }

/-- A command whose operands spell an event runs, in every state; the data of a shading load must have the length that the
load reads. A command whose operands spell no event stops (log 7). -/
def Obligations.EventsRun : Prop :=
  (∀ (c : Instr) (s : State), c.wellFormed = true →
    (∀ table o, c = .shadingLoadComplete table → s.scanOrder = some o → table.length = 20 * o.width) →
    ∃ t, exec c s = .next t)
  ∧ ∀ (c : Instr) (s : State), c.wellFormed = false → exec c s = .fault .illFormed

/-- No command touches the queue. -/
def Obligations.QueueUntouched : Prop :=
  ∀ (c : Instr) (s t : State), exec c s = .next t → t.pending = s.pending

/-! ### Resets -/

/-- POWER_ON: every block takes its power-on state (R186 and the reset rule of each block). Host memory is not the part's, and
the queue is the model's own. (The values of the model's own fields, and of the tracker's last outcome, are log 16.) -/
def Obligations.PowerOnResets : Prop :=
  ∀ s : State, ∃ t, exec .powerOn s = .next t
    ∧ t = { State.reset with mem := t.mem, free := t.free, pending := s.pending }
    ∧ t.order.part = .parked ∧ t.readRegister 0x00 = 0 ∧ t.readRegister 0x08 = 0 ∧ t.readRegister 0x0C = 0x3F
    ∧ t.readRegister 0x10 = 1 ∧ t.readRegister 0x14 = 0 ∧ t.int = false ∧ t.holdOut = false

/-- RESET_HOLD written (R163): with bit 0 set the hold reset outside IN_RESET, with bit 0 clear the part leaves IN_RESET for
PARKED; each does nothing in the other case. (The values of the model's own fields, and of the tracker's last outcome, are
log 16.) -/
def Obligations.HoldReset : Prop :=
  ∀ (value : Word) (s : State), s.Settled →
    (bitZero value = true → s.order.part ≠ .inReset → ∃ t, exec (.resetHoldEnter value) s = .next t
      ∧ t = { State.reset with
              reg := { State.reset.reg with
                blockBase := s.reg.blockBase, mask := s.reg.mask, readData := s.reg.readData }
              order := { State.reset.order with part := .inReset }
              mem := t.mem, free := t.free, pending := s.pending }
      ∧ t.readRegister 0x08 = 0 ∧ t.readRegister 0x10 = 0x10 ∧ t.readRegister 0x14 = 1 ∧ t.bus.windows.all Option.isNone)
    ∧ (bitZero value = true → s.order.part = .inReset → exec (.resetHoldEnter value) s = .next s)
    ∧ (bitZero value = false → s.order.part = .inReset →
      exec (.resetHoldLeave value) s = .next { s with order := { s.order with part := .parked } })
    ∧ (bitZero value = false → s.order.part ≠ .inReset → exec (.resetHoldLeave value) s = .next s)

/-! ### The register window -/

/-- BLOCK_BASE written (R162). Of the reads of a window load and of a selection that had still to be made, each has by now been
made at the old address (which of them is free, log 30) or is made at the new one; every other read in flight stands. The writes
in flight keep their addresses (log 5). -/
def Obligations.BlockBaseWritten : Prop :=
  ∀ (value : Word) (s : State), s.Settled →
    let base := value &&& 0xFFFFE000#32
    (s.order.part = .parked ∨ s.order.part = .idle →
      ((∀ r ∈ s.bus.reads, r.stage ≠ .waiting) →
        exec (.blockBaseWrite value) s = .next { s with reg := { s.reg with blockBase := base } })
      ∧ ∃ reads free, exec (.blockBaseWrite value) s =
            .next { s with
              reg := { s.reg with blockBase := base }, bus := { s.bus with reads := reads }, free := free }
          ∧ reads.length = s.bus.reads.length
          ∧ ∀ (k : Nat) (r : BusRead), s.bus.reads[k]? = some r →
            (r.stage ≠ .waiting → reads[k]? = some r)
            ∧ (r.stage = .waiting → r.site ∈ [.windowSource, .slotWord] →
              reads[k]? = some { r with stage := .made }
                ∨ reads[k]? = some { r with address := r.address - s.blockBase + base.toNat }))
    ∧ (s.order.part ≠ .parked ∧ s.order.part ≠ .idle →
      exec (.blockBaseWrite value) s = .next { s with reg := { s.reg with cause := s.reg.cause ||| 0x10#6 } })

/-- A read of CAUSE returns the flags as they stand and clears exactly those (R164), so INT falls; a write of CAUSE_MASK sets
the mask from bits 0 to 5; INT is asserted exactly when a cause is set whose mask flag is 0 (R165). A read of STATE shows, field by
field, the part state, HOLD, the four hold conditions, windows loaded and fixed and the writer's wait (R166). What the other
registers read as is R161. -/
def Obligations.CauseRegisters : Prop :=
  ∀ s : State, s.Settled →
    exec .causeRead s =
      .next { s with reg := { s.reg with readData := s.reg.cause.zeroExtend 32, cause := 0 } }
    ∧ (∀ t, exec .causeRead s = .next t → t.int = false ∧ ∀ c, t.causeSet c = false)
    ∧ (∀ value : Word,
      exec (.causeMaskWrite value) s = .next { s with reg := { s.reg with mask := value.extractLsb' 0 6 } })
    ∧ (s.int = true ↔ ∃ c, s.causeSet c = true ∧ s.causeMasked c = false)
    ∧ (let word := s.readRegister 0x10
      (word.extractLsb' 0 4).toNat =
          (match s.order.part with
            | .inReset => 0
            | .parked => 1
            | .idle => 2
            | .starting => 3
            | .running => 4
            | .suspended => 5
            | .finishing => 6
            | .fault => 7)
        ∧ word.getLsbD 4 = s.holdOut ∧ word.getLsbD 5 = s.reg.hostHold ∧ word.getLsbD 6 = s.store.hold
        ∧ word.getLsbD 7 = s.order.suspendHold ∧ word.getLsbD 8 = s.order.faultHold
        ∧ (word.getLsbD 9 = true ↔ ∃ w ∈ s.bus.windows, w.isSome = true) ∧ word.getLsbD 10 = s.bus.fixed
        ∧ word.getLsbD 11 = s.writer.waitFlag ∧ ∀ k, 12 ≤ k → word.getLsbD k = false)
    ∧ s.readRegister 0x00 = s.reg.blockBase ∧ s.readRegister 0x04 = 0
    ∧ s.readRegister 0x08 = s.reg.cause.zeroExtend 32 ∧ s.readRegister 0x0C = s.reg.mask.zeroExtend 32
    ∧ s.readRegister 0x14 = (if s.order.part = .inReset then 1 else 0)

/-- The accesses of the window that change nothing (R161). A narrow read answers 0, which the model keeps in its own field
readData (log 2, log 16); an offset of a narrow access lies inside the 24 bytes of the window (log 7). -/
def Obligations.IgnoredAccesses : Prop :=
  ∀ s : State, s.Settled →
    (∀ value, exec (.registerWriteIgnored (.causeWrite value)) s = .next s)
    ∧ (∀ value, exec (.registerWriteIgnored (.stateWrite value)) s = .next s)
    ∧ (∀ offset value, offset < 24 → exec (.registerWriteIgnored (.narrowWrite offset value)) s = .next s)
    ∧ ∀ offset, offset < 24 →
        exec (.registerWriteIgnored (.narrowRead offset)) s = .next { s with reg := { s.reg with readData := 0 } }

/-! ### Attention codes -/

/-- A value that is not one of the eleven codes is refused in every state (R168, R170): REFUSED is raised; in IDLE, STARTING,
RUNNING, SUSPENDED and FINISHING the refusal record is advanced and issued in one write. -/
def Obligations.UnknownValueRefused : Prop :=
  ∀ (value : Word) (s : State), attentionCodes.contains value.toNat = false → s.Settled →
    (s.order.part ∈ [.inReset, .parked, .fault] →
      exec (.unknownAttentionValue value) s = .next { s with reg := { s.reg with cause := s.reg.cause ||| 0x10#6 } })
    ∧ (s.order.part ∉ [.inReset, .parked, .fault] →
      exec (.unknownAttentionValue value) s = .next (s.refusing value))

/-- The refusals of the eleven codes (R168, R170, R184). In FAULT, PARKED and IN_RESET a code that is not accepted raises REFUSED
and does nothing else. In IDLE, STARTING, RUNNING, SUSPENDED and FINISHING a code that is not accepted is refused with its
refusal record: SUSPEND outside RUNNING and FINISHING, RESUME outside SUSPENDED, ABORT in IDLE, WINDOWS outside IDLE, with the
windows fixed or a load in progress, FIX_WINDOWS outside IDLE, with no window in use or a load in progress, PARK outside IDLE,
and WAKE. -/
def Obligations.CodesOutsideOrders : Prop :=
  (∀ (c : Instr) (s : State), s.Settled →
    (s.order.part = .fault ∧ c ∈ [.look, .plates, .suspend, .resume, .abort, .windows, .fixWindows, .park, .wake])
      ∨ (s.order.part = .parked ∧ c ∈ [.look, .plates, .suspend, .resume, .abort, .windows, .fixWindows, .park])
      ∨ (s.order.part = .inReset
        ∧ c ∈ [.look, .plates, .holdOn, .holdOff, .suspend, .resume, .abort, .windows, .fixWindows, .park, .wake]) →
    exec c s = .next { s with reg := { s.reg with cause := s.reg.cause ||| 0x10#6 } })
  ∧ ∀ s : State, s.Settled → s.order.part ∈ [.idle, .starting, .running, .suspended, .finishing] →
    (s.order.part ∉ [.running, .finishing] → exec .suspend s = .next (s.refusing 0x31))
    ∧ (s.order.part ≠ .suspended → exec .resume s = .next (s.refusing 0x32))
    ∧ (s.order.part = .idle → exec .abort s = .next (s.refusing 0x33))
    ∧ (s.order.part ≠ .idle ∨ s.bus.fixed = true ∨ s.bus.loading = true → exec .windows s = .next (s.refusing 0x41))
    ∧ (s.order.part ≠ .idle ∨ (∀ w ∈ s.bus.windows, w = none) ∨ s.bus.loading = true →
      exec .fixWindows s = .next (s.refusing 0x42))
    ∧ (s.order.part ≠ .idle → exec .park s = .next (s.refusing 0x51))
    ∧ exec .wake s = .next (s.refusing 0x52)

/-- HOLD_ON and HOLD_OFF in every state but IN_RESET; HOLD is asserted exactly when one of its four conditions is set or the
part is IN_RESET (R167). -/
def Obligations.HostHold : Prop :=
  ∀ s : State,
    (s.Settled → s.order.part ≠ .inReset →
      exec .holdOn s = .next { s with reg := { s.reg with hostHold := true } }
      ∧ exec .holdOff s = .next { s with reg := { s.reg with hostHold := false } })
    ∧ (s.holdOut = true ↔
      s.reg.hostHold = true ∨ s.store.hold = true ∨ s.order.suspendHold = true ∨ s.order.faultHold = true
        ∨ s.order.part = .inReset)

/-- LOOK (R177): in IDLE a selection begins and its reads are made, or the request is set; in the other accepting states
nothing. -/
def Obligations.LookTaken : Prop :=
  ∀ s : State, s.Settled →
    (s.order.part = .idle ∧ s.order.selecting = false ∧ s.order.endWrites = false →
      exec .look s =
        .next ({ s with order := { s.order with selecting := true, follows := false } }.withReads s.selectionReads))
    ∧ (s.order.part = .idle ∧ (s.order.selecting = true ∨ s.order.endWrites = true) →
      exec .look s = .next { s with order := { s.order with selectionRequest := true } })
    ∧ (s.order.part ∈ [.starting, .running, .suspended, .finishing] → exec .look s = .next s)

/-- PLATES (R151): a rescan begins in a plate wait, or is recorded; in the other writer states, and with no SCAN order in progress,
nothing (R168: it is accepted in IDLE, in STARTING and during a CALIBRATE order too). The first clause asks that the head's frame has
room in its plate list, as R150 leaves it in every wait. -/
def Obligations.PlatesTaken : Prop :=
  (∀ (s : State) (o : ScanOrder), s.Settled → s.order.part ∈ [.running, .suspended, .finishing] → s.scanOrder = some o →
    (s.writer.state = .plateWait ∧ s.writer.scan = none
        ∧ (∀ k r, s.headFrame = some k → s.writer.record k = some r → r.plateList.length < 64) →
      exec .plates s =
        .next ({ s with writer := { s.writer with scan := some .count } }.withReads [s.madeRead .plateCount 0x24 4]))
    ∧ ((s.writer.state = .plateWait ∨ s.writer.state = .ready) ∧ s.writer.scan.isSome →
      exec .plates s = .next { s with writer := { s.writer with rescan := true } }))
  ∧ ∀ s : State, s.Settled → s.order.part ∈ [.idle, .starting, .running, .suspended, .finishing] →
    s.scanOrder = none ∨ s.writer.state ∈ [.throttled, .writing, .off, .aborting]
      ∨ (s.writer.state = .ready ∧ s.writer.scan = none) →
    exec .plates s = .next s

/-- SUSPEND (R141, R182). -/
def Obligations.SuspendTaken : Prop :=
  ∀ (s : State) (i : Fin 4), s.Settled → s.order.aborting = false → s.order.chosen = some i →
    s.order.part = .running ∨ s.order.part = .finishing →
    exec .suspend s =
      .next ({ s with
          order := { s.order with
            part := .suspended, suspendHold := true,
            origin := some (if s.order.part = PartState.running then Origin.running else Origin.finishing) }
          writer := { s.writer with
            stop := true, state := if s.writer.state = WriterState.throttled then WriterState.ready else s.writer.state } }.withWrites
        [s.blockField (0x200 + 256 * i) (word 3) .silent])

/-- RESUME (R20, R135, R141, R181, R182). The slot word RUNNING is issued, the suspend hold and the stop flag are cleared and the
part returns to its origin. Then: a CALIBRATE order whose passes are not complete, or whose origin is FINISHING, goes on; one
whose passes are complete enters FINISHING and issues its table (whole, in this step: log 5); a SCAN order whose writer waits for
a plate or writes a line goes on. Where its writer is READY and no frame is closed, an undecided head waits; a head that is a drop
goes, and if it was the last line of a FINISHING order with no frame left the order ends; a WRITE head with room in its frame's
plate meets the throttle test, one without begins a scan, and one whose frame is damaged, or becomes so because its plate list is
full, goes as DROP_IMAGE (R36, R150). An order whose end was held ends. (That an order that has ended has no record copy is
log 24, the order of the result area's fields log 18.) -/
def Obligations.ResumeTaken : Prop :=
  ∀ (s : State) (i : Fin 4), s.Settled → s.order.part = .suspended → s.order.aborting = false → s.order.chosen = some i →
    let slot := s.slotWrite i 2 .silent
    let resumed := fun (part : PartState) =>
      { s with
        order := { s.order with part := part, origin := none, suspendHold := false }
        writer := { s.writer with stop := false } }
    let ended := fun (t : State) (results : Results) (word : Nat) =>
      t.order.part = .idle ∧ t.order.heldEnd = false ∧ t.order.suspendHold = false ∧ t.order.current = none
        ∧ t.order.ordersTally = s.order.ordersTally + 1 ∧ t.order.endWrites = true ∧ t.order.follows = true
        ∧ t.bus.inFlight =
          s.bus.inFlight ++ [slot] ++ s.resultArea i results .grouped
            ++ [s.slotWrite i word .silent .grouped, s.tallyWrite .grouped]
        ∧ t.reg = s.reg ∧ t.mem = s.mem
    (∀ o, s.order.origin = some .running → s.order.heldEnd = false → s.order.current = some (.calibrate o) →
      (s.cal.pass ≠ .passesComplete → exec .resume s = .next ((resumed .running).withWrites [slot]))
      ∧ (s.cal.pass = .passesComplete → insideWindow s.bus.windows o.tableAddress (o.width * 20) = true →
        let columns := List.zipWith (columnEntry o) (s.cal.darkSums.take o.width) (s.cal.brightSums.take o.width)
        exec .resume s =
          .next ({ resumed .finishing with
            cal := { s.cal with
              pass := .writing, columnInHand := none, hot := countHot columns, dead := countDead columns,
              faulted := countFaulted columns } }.withWrites (slot :: tableWrites o 0 columns))))
    ∧ (∀ o, s.order.origin = some .finishing → s.order.heldEnd = false → s.order.current = some (.calibrate o) →
      exec .resume s = .next ((resumed .finishing).withWrites [slot]))
    ∧ (∀ o origin, s.order.origin = some origin → s.order.heldEnd = false → s.order.current = some (.scan o) →
      s.writer.state = .plateWait ∨ s.writer.state = .writing →
      exec .resume s =
        .next ((resumed (if origin = Origin.running then PartState.running else PartState.finishing)).withWrites [slot]))
    ∧ (∀ o origin, s.order.origin = some origin → s.order.heldEnd = false → s.order.current = some (.scan o) →
      s.writer.state = .ready →
      let on := (resumed (if origin = Origin.running then PartState.running else PartState.finishing)).withWrites [slot]
      ((∀ e ∈ s.store.pending, e.fate = .undecided) →
        origin = .running ∨ s.store.pending ≠ [] ∨ s.writer.records ≠ [] → exec .resume s = .next on)
      ∧ ∀ e entries, s.store.pending = e :: entries → s.writer.scan = none →
        ((∀ e' ∈ entries, e'.fate = .undecided) → (∀ r ∈ s.writer.records, r.closed = false) →
          e.fate = .dropImage ∨ e.fate = .dropOther →
          (origin = .running ∨ entries ≠ [] ∨ s.writer.records ≠ [] →
            exec .resume s = .next { on with store := s.store.removeHead false }
            ∧ (s.store.removeHead false).pending = entries)
          ∧ (origin = .finishing → entries = [] → s.writer.records = [] →
            ∃ t, exec .resume s = .next t ∧ ended t (s.scanResults o .none) 4))
        ∧ ∀ k r, e.fate = .write → e.frame = some k → s.writer.record k = some r →
          let dropped := { s.store with pending := { e with fate := .dropImage } :: entries }.removeHead false
          (r.damage = none →
            (∀ p, s.writer.plate = some p → p.frame = r.number → r.outBytes ≤ p.room →
              (on.Passes o r.outBytes → exec .resume s = .next (on.writeBegun o e r p))
              ∧ (¬ on.Passes o r.outBytes →
                exec .resume s = .next { on with writer := { on.writer with state := .throttled } }))
            ∧ ((∀ p, s.writer.plate = some p → p.frame ≠ r.number ∨ p.room < r.outBytes) →
              (r.plateList.length < 64 →
                exec .resume s =
                  .next ({ on with writer := { on.writer with scan := some .count } }.withReads
                    [s.madeRead .plateCount 0x24 4]))
              ∧ (64 ≤ r.plateList.length → (∀ e' ∈ entries, e'.fate = .undecided) →
                (∀ r' ∈ s.writer.records, r'.closed = false) →
                exec .resume s = .next { on with
                  store := dropped
                  writer := on.writer.onRecord k fun r' =>
                    { r' with damage := some .plateListFull, flags := { r'.flags with plateListFull := true } } })))
          ∧ (r.damage.isSome → (∀ e' ∈ entries, e'.fate = .undecided) → (∀ r' ∈ s.writer.records, r'.closed = false) →
            exec .resume s = .next { on with store := dropped }))
    ∧ (∀ o, s.order.origin = some .finishing → s.order.heldEnd = true → s.order.current = some (.scan o) →
      ∃ t, exec .resume s = .next t ∧ ended t (s.scanResults o .none) 4)
    ∧ ∀ o g, s.order.origin = some .finishing → s.order.heldEnd = true → s.order.current = some (.calibrate o) →
      s.order.gathered = some g →
      ∃ t, exec .resume s = .next t
        ∧ ended t
          { Results.only (if g.sensorFailed then .sensor else .none) with
            source := 2, excess := g.excess, malformed := s.intake.malformed, hot := g.hot, dead := g.dead }
          (if g.sensorFailed then 5 else 4)

/-- ABORT (R28, R71, R102, R123, R143, R183).
Of a SCAN order from RUNNING, SUSPENDED or FINISHING: the order is marked, the tracker is OFF, the fill is abandoned, the writer
is ABORTING; the part keeps its state, and memory, registers, records, plates and store stand. Of the writes in flight only
bursts whose issue was not settled may go, and the reads of a scan lose their data (how many is free, log 5, log 30).
In STARTING: the work stops where it stands and waits for its accesses, but with the validation waiting for a window load the
order ends at once (log 8). Of a CALIBRATE order in its passes, or with its end held: it ends at once (log 8), with the counts
of R28. In WRITING: no further entry is issued, and the counts are those of the columns issued. The tracker hands over its counts
and its base, formed from the window where it was still in LEADER (R55, R71). (The order of the result area's fields is log 18; what
the tracker holds once it is OFF, and that abandoned sums and the unit's own counts stay, is log 24.)
An ABORT, SUSPEND or RESUME accepted while the order is aborting has no effect. -/
def Obligations.AbortTaken : Prop :=
  (∀ (s : State) (o : ScanOrder), s.Settled → s.order.part ∈ [.running, .suspended, .finishing] →
      s.order.aborting = false → s.order.current = some (.scan o) →
      ∃ t, exec .abort s = .next t
        ∧ t.order.part = s.order.part ∧ t.order.aborting = true
        ∧ (∃ g, t.order.gathered = some g ∧ g.slivers = s.tracker.slivers ∧ g.excess = s.tracker.excess
          ∧ ∀ base,
            s.tracker.base = some base ∨ (s.tracker.base = none ∧ (s.tracker.withBase o).base = some base) →
            g.baseR = base.r ∧ g.baseG = base.g ∧ g.baseB = base.b ∧ g.source = base.source)
        ∧ t.tracker = Tracker.reset ∧ t.mapper = { s.mapper with runMerge := [], inHand := none }
        ∧ t.fill.state = .idle ∧ t.fill.line = none
        ∧ t.writer.state = .aborting ∧ t.writer.stop = false ∧ t.writer.waitFlag = false ∧ t.writer.scan = none
        ∧ t.writer.records = s.writer.records ∧ t.writer.plate = s.writer.plate
        ∧ t.store = s.store ∧ t.reg = s.reg ∧ t.intake = s.intake ∧ t.cal = s.cal ∧ t.mem = s.mem
        ∧ (∀ w ∈ s.bus.inFlight, w.mark ≠ .burst ∨ w.landed = true ∨ w.pace = .issued → w ∈ t.bus.inFlight)
        ∧ (∀ w ∈ t.bus.inFlight, ∃ v ∈ s.bus.inFlight, sameAccess v w)
        ∧ ∀ r ∈ t.bus.reads, r.site ∈ [.plateCount, .plateEntry] → r.stage = .dropped)
  ∧ (∀ (s : State) (i : Fin 4), s.Settled → s.order.part = .starting → s.order.aborting = false →
    s.order.chosen = some i →
    (s.order.waiting = none →
      ∃ t, exec .abort s = .next t
        ∧ t.order = { s.order with aborting := true } ∧ t.reg = s.reg ∧ t.mem = s.mem ∧ t.writer = s.writer
        ∧ t.intake = { s.intake with
            shading := if s.intake.shading = .loading then ShadingState.empty else s.intake.shading }
        ∧ (∀ w ∈ s.bus.inFlight, w.kind ≠ .roster ∨ w.landed = true ∨ w.pace = .issued → w ∈ t.bus.inFlight)
        ∧ (∀ w ∈ t.bus.inFlight, ∃ v ∈ s.bus.inFlight, sameAccess v w)
        ∧ ∀ r ∈ t.bus.reads, r.site ∈ [.orderRecord, .shadingEntry] → r.stage = .dropped)
    ∧ (s.order.waiting.isSome →
      ∃ t, exec .abort s = .next t
        ∧ t.order.part = .idle ∧ t.order.chosen = none ∧ t.order.waiting = none
        ∧ t.order.ordersTally = s.order.ordersTally + 1 ∧ t.order.endWrites = true ∧ t.order.follows = true
        ∧ t.reg = s.reg ∧ t.mem = s.mem
        ∧ t.bus.inFlight =
          s.bus.inFlight
            ++ s.resultArea i
              { Results.only .aborted with
                source := 2, hot := if s.intake.shading = .loaded then s.intake.hot else 0
                dead := if s.intake.shading = .loaded then s.intake.dead else 0 } .sequel
            ++ [s.slotWrite i 5 .silent .sequel, s.tallyWrite .sequel]))
  ∧ (∀ (s : State) (o : CalOrder) (i : Fin 4), s.Settled → s.order.part ∈ [.running, .suspended, .finishing] →
    s.order.aborting = false → s.order.current = some (.calibrate o) → s.order.chosen = some i →
    let ended := fun (t : State) (excess hot dead : Nat) =>
      t.order.part = .idle ∧ t.order.chosen = none ∧ t.order.suspendHold = false ∧ t.order.heldEnd = false
        ∧ t.order.ordersTally = s.order.ordersTally + 1 ∧ t.order.endWrites = true ∧ t.order.follows = true
        ∧ t.cal = { s.cal with pass := .idle } ∧ t.reg = s.reg ∧ t.mem = s.mem
        ∧ t.bus.inFlight =
          s.bus.inFlight
            ++ s.resultArea i
              { Results.only .aborted with
                source := 2, excess := excess, malformed := s.intake.malformed, hot := hot, dead := dead } .sequel
            ++ [s.slotWrite i 5 .silent .sequel, s.tallyWrite .sequel]
    (s.cal.pass ∈ [.darkPass, .brightPass, .passesComplete] →
      ∃ t, exec .abort s = .next t ∧ ended t s.cal.excess 0 0)
    ∧ (∀ g, s.cal.pass = .idle → s.order.gathered = some g →
      ∃ t, exec .abort s = .next t ∧ ended t g.excess g.hot g.dead)
    ∧ (s.cal.pass = .writing →
      let columns := List.zipWith (columnEntry o) (s.cal.darkSums.take o.width) (s.cal.brightSums.take o.width)
      ∃ t g, exec .abort s = .next t
        ∧ t.order = { s.order with aborting := true, gathered := some g } ∧ t.cal = s.cal ∧ t.reg = s.reg ∧ t.mem = s.mem
        ∧ (∀ w ∈ s.bus.inFlight, w.kind ≠ .shading ∨ w.landed = true ∨ w.pace = .issued → w ∈ t.bus.inFlight)
        ∧ (∀ w ∈ t.bus.inFlight, ∃ v ∈ s.bus.inFlight, sameAccess v w)
        ∧ g.excess = s.cal.excess
        ∧ let issued := columns.take (columns.length - (s.countWrites isTableWrite - t.countWrites isTableWrite))
          g.hot = (issued.filter ShadingColumn.hot).length ∧ g.dead = (issued.filter ShadingColumn.dead).length))
  ∧ ∀ s : State, s.Settled → s.order.aborting = true →
    (s.order.part ∈ [.starting, .running, .suspended, .finishing] → exec .abort s = .next s)
    ∧ (s.order.part ∈ [.running, .finishing] → exec .suspend s = .next s)
    ∧ (s.order.part = .suspended → exec .resume s = .next s)

/-- WINDOWS, whose four source reads begin, and FIX_WINDOWS, where they are accepted (R168, R171, R172). -/
def Obligations.WindowCodes : Prop :=
  ∀ s : State, s.Settled → s.order.part = .idle → s.bus.loading = false →
    (s.bus.fixed = false →
      exec .windows s =
        .next ({ s with bus := { s.bus with loading := true } }.withReads
          [s.madeRead .windowSource 0x100 8, s.blockRead .windowSource 0x108 8, s.blockRead .windowSource 0x110 8,
            s.blockRead .windowSource 0x118 8]))
    ∧ ((∃ w ∈ s.bus.windows, w.isSome) → exec .fixWindows s = .next { s with bus := { s.bus with fixed := true } })

/-- PARK in IDLE (R14, R176): a selection in progress is given up, no further read of it is made (how many had been made is free,
log 30) and the data of those that were is discarded; a window load runs on. WAKE in PARKED (R175), the refusal record in one
write. -/
def Obligations.ParkAndWake : Prop :=
  ∀ s : State, s.Settled →
    (s.order.part = .idle →
      ∃ reads free, exec .park s =
          .next { s with
            order := { s.order with part := .parked, selecting := false, selectionRequest := false, follows := false }
            bus := { s.bus with reads := reads }
            free := free
            intake := { s.intake with shading := .empty, copy := [], hot := 0, dead := 0 }
            mapper := { s.mapper with faults := [] } }
        ∧ (∀ r, r.site ≠ .slotWord → (r ∈ reads ↔ r ∈ s.bus.reads))
        ∧ (∀ r ∈ reads, r.site = .slotWord → r.stage = .dropped)
        ∧ (∀ r ∈ s.bus.reads, r.site = .slotWord → r.stage ≠ .waiting → { r with stage := .dropped } ∈ reads)
        ∧ ((∀ r ∈ s.bus.reads, r.site ≠ .slotWord) → reads = s.bus.reads ∧ free = s.free))
    ∧ (s.order.part = .parked →
      exec .wake s =
        .next ({ s with order := { s.order with part := .idle } }.withWrites
          ([(0x00, half 2410), (0x02, half 3), (0x04, word s.order.framesTally.toNat),
            (0x08, word s.order.ordersTally.toNat), (0x0C, word s.intake.stray),
            (0x10, word s.order.refusal.code.toNat ++ half s.order.refusal.state
              ++ half s.order.refusal.count)].map fun (field : Nat × List Byte) =>
                s.blockField field.1 field.2 .silent .grouped)))

/-! ### The Sensor Link and the Line Intake -/

/-- A pixel, and a mark with no line in progress, outside IN_RESET; in IN_RESET every mark and pixel is discarded (R1, R2). -/
def Obligations.LinkEvents : Prop :=
  ∀ (s : State) (p : Pixel), s.Settled →
    (s.order.part ≠ .inReset →
      (∀ b, s.intake.line = some b →
        exec (.pixel p) s = .next { s with intake := { s.intake with
          line := some { pixels := if b.count < 6144 then b.pixels ++ [p] else b.pixels, count := b.count + 1 } } })
      ∧ (s.intake.line = none → exec (.pixel p) s = .next s)
      ∧ (s.intake.line = none → exec .endOfLineMark s = .next s)
      ∧ (s.intake.line = none →
        exec .startOfLineMark s =
          .next { s with intake := { s.intake with line := some { pixels := [], count := 0 } } }))
    ∧ (s.order.part = .inReset →
      exec (.pixel p) s = .next s ∧ exec .endOfLineMark s = .next s ∧ exec .startOfLineMark s = .next s)

/-- A line that arrives outside an order (R3, R5): counted stray and written to the header, counted stray without a write in
FAULT, discarded in PARKED; at saturation the arrival changes nothing more. -/
def Obligations.LinesOutsideAnOrder : Prop :=
  ∀ (s : State) (b : LineBuffer) (c : Instr) (next : Option LineBuffer), s.Settled → s.intake.line = some b →
    (c, next) ∈ lineMarks →
    (s.Strays → s.intake.stray < 4294967295 →
      exec c s =
        .next ({ s with intake := { s.intake with line := next, stray := s.intake.stray + 1 } }.withWrites
          [s.blockField 0x0C (word (s.intake.stray + 1)) .silent]))
    ∧ (s.order.part = .fault → s.intake.stray < 4294967295 →
      exec c s = .next { s with intake := { s.intake with line := next, stray := s.intake.stray + 1 } })
    ∧ (s.Strays ∨ s.order.part = .fault → s.intake.stray = 4294967295 →
      exec c s = .next { s with intake := { s.intake with line := next } })
    ∧ (s.order.part = .parked → exec c s = .next { s with intake := { s.intake with line := next } })

/-- A line of any length becomes a line of the order's width (R6): the intake keeps its first 6144 pixels. -/
def Obligations.LengthCorrected : Prop :=
  ∀ (w : Nat) (row : List Pixel), 256 ≤ w → w ≤ 6144 →
    (lengthCorrect w (row.take 6144)).length = w
    ∧ ∀ c, c < w →
      (lengthCorrect w (row.take 6144))[c]? =
        if c < row.length then row[c]?
        else if 0 < row.length then row[row.length - 1]? else some { r := 0, g := 0, b := 0, ir := 0 }

/-- Every sample of a corrected line (R8). The shading copy holds 16-bit levels and gains. -/
def Obligations.ShadingApplied : Prop :=
  ∀ (row : List Pixel) (copy : List ShadingColumn) (c : Nat) (p : Pixel) (col : ShadingColumn),
    row[c]? = some p → copy[c]? = some col →
    ∃ q, (shadeLine copy row)[c]? = some q
      ∧ ∀ ch ∈ [(p.r, col.dark.r, col.gain.r, q.r), (p.g, col.dark.g, col.gain.g, q.g), (p.b, col.dark.b, col.gain.b, q.b),
          (p.ir, col.dark.ir, col.gain.ir, q.ir)],
        ch.2.2.2.toNat =
          if ch.1.toNat ≤ ch.2.1 then 0
          else if 65535 < (ch.1.toNat - ch.2.1) * ch.2.2.1 / 16384 then 65535
          else (ch.1.toNat - ch.2.1) * ch.2.2.1 / 16384

/-- A gap-like line in the leader, before the first decision falls due (R4, R7, R8, R15, R31, R33, R53, R56, R76, R132): it is
numbered, corrected, stored as an undecided LEADER line, joins the leader window and is offered to the column profile, and the
writer earns its credit. What joining does: the window keeps the newest leader_lines records, the profile, in EDGE mode, the
newest 16. -/
def Obligations.LeaderLine : Prop :=
  (∀ (o : ScanOrder) (window : List LeaderRecord) (profile : List ProfileRecord) (n : Nat) (line : List Pixel),
    let band := (line.drop o.bandLeft).take (o.bandRight + 1 - o.bandLeft)
    let record := leaderRecord o n line
    let column := profileRecord n line
    record =
        { line := n, sumR := (band.map fun p => p.r.toNat).sum, sumG := (band.map fun p => p.g.toNat).sum
          sumB := (band.map fun p => p.b.toNat).sum }
    ∧ column = { line := n, greens := line.map fun p => p.g.toNat }
    ∧ (window.length < o.leaderLines → joinWindow o window record = window ++ [record])
    ∧ (window.length = o.leaderLines → joinWindow o window record = (window ++ [record]).tail)
    ∧ (o.cropMode = .fixed → joinProfile o profile column = profile)
    ∧ (o.cropMode = .edge → profile.length < 16 → joinProfile o profile column = profile ++ [column])
    ∧ (o.cropMode = .edge → profile.length = 16 → joinProfile o profile column = (profile ++ [column]).tail))
  ∧ ∀ (s : State) (o : ScanOrder) (b : LineBuffer) (c : Instr) (next : Option LineBuffer) (l : StoreLevels), s.Settled →
    s.intake.line = some b → (c, next) ∈ lineMarks → s.Takes → s.order.current = some (.scan o) →
    s.tracker.state = .leader → s.tracker.heldLost = [] → s.writer.state = .ready → s.store.levels = some l →
    (∀ e ∈ s.store.pending, e.fate = .undecided ∧ e.line < s.intake.arrival) →
    s.store.pending.length + s.store.context.length < 64 → s.intake.arrival < l.delay →
    s.intake.arrival + 1 ≠ o.stripLines →
    let n := s.intake.arrival
    let corrected := shadeLine s.intake.copy (lengthCorrect o.width b.pixels)
    s.tracker.outcome o (some corrected) = true →
    exec c s = .next { s with
      intake := s.intake.taken o.width b.count next
      bus := { s.bus with
        credit := if o.credit = 0 then s.bus.credit
          else min (s.bus.credit + o.credit) (4 * s.writer.lineBytes.getD 0) }
      store := { s.store with
        pending := s.store.pending ++
          [{ line := n, samples := corrected, cls := .leader, frame := none, fate := .undecided, spans := none,
             complete := true }]
        hold := holdAfter s.store.levels s.store.hold (s.store.pending.length + 1) }
      tracker := { s.tracker with
        lastGap := some true
        window := joinWindow o s.tracker.window (leaderRecord o n corrected)
        profile := joinProfile o s.tracker.profile (profileRecord n corrected) } }

/-! ### Calibration -/

/-- A line of a CALIBRATE order (R9, R19 to R22): added to the sums of the pass, or counted excess. The last bright line of a
RUNNING order is the next statement. The last clause says what adding a line to sums does to each column. -/
def Obligations.PassLines : Prop :=
  (∀ (s : State) (o : CalOrder) (b : LineBuffer) (c : Instr) (next : Option LineBuffer), s.Settled →
    s.intake.line = some b → (c, next) ∈ lineMarks → s.Takes → s.order.current = some (.calibrate o) →
    (s.cal.pass = .darkPass →
      exec c s = .next { s with
        intake := s.intake.taken o.width b.count next
        cal := { s.cal with
          darkSums := addLine s.cal.darkSums (lengthCorrect o.width b.pixels)
          passLines := if o.darkLines ≤ s.cal.passLines + 1 then 0 else s.cal.passLines + 1
          pass := if o.darkLines ≤ s.cal.passLines + 1 then PassState.brightPass else PassState.darkPass } })
    ∧ (s.cal.pass = .brightPass → s.cal.passLines + 1 < o.brightLines ∨ s.order.part = .suspended →
      exec c s = .next { s with
        intake := s.intake.taken o.width b.count next
        cal := { s.cal with
          brightSums := addLine s.cal.brightSums (lengthCorrect o.width b.pixels)
          passLines := s.cal.passLines + 1
          pass := if o.brightLines ≤ s.cal.passLines + 1 then PassState.passesComplete else PassState.brightPass } })
    ∧ (s.cal.pass = .passesComplete → s.order.part = .suspended →
      exec c s = .next { s with
        intake := s.intake.taken o.width b.count next
        cal := { s.cal with excess := min (s.cal.excess + 1) 4294967295 } }))
  ∧ ∀ (sums : List Quad) (row : List Pixel) (c : Nat),
    (addLine sums row)[c]? =
      match sums[c]?, row[c]? with
      | some q, some p =>
        some { r := q.r + p.r.toNat, g := q.g + p.g.toNat, b := q.b + p.b.toNat, ir := q.ir + p.ir.toNat }
      | some q, none => some q
      | none, _ => none

/-- The last bright line of a RUNNING order (R20, R26): the part enters FINISHING, the unit WRITING, and the entries of all
columns are issued in column order, 20 bytes each from the table address on. -/
def Obligations.LastBrightLine : Prop :=
  ∀ (s : State) (o : CalOrder) (b : LineBuffer) (c : Instr) (next : Option LineBuffer), s.Settled →
    s.intake.line = some b → (c, next) ∈ lineMarks → s.order.aborting = false → s.order.part = .running →
    s.order.current = some (.calibrate o) → s.cal.pass = .brightPass → o.brightLines ≤ s.cal.passLines + 1 →
    insideWindow s.bus.windows o.tableAddress (o.width * 20) = true →
    let sums := addLine s.cal.brightSums (lengthCorrect o.width b.pixels)
    let columns := List.zipWith (columnEntry o) (s.cal.darkSums.take o.width) (sums.take o.width)
    exec c s =
      .next ({ s with
          intake := s.intake.taken o.width b.count next
          order := { s.order with part := .finishing }
          cal := { s.cal with
            brightSums := sums, passLines := s.cal.passLines + 1, pass := .writing, columnInHand := none,
            hot := countHot columns, dead := countDead columns, faulted := countFaulted columns } }.withWrites
        (tableWrites o 0 columns))
    ∧ ∀ k col, columns[k]? = some col → ∃ w, (tableWrites o 0 columns)[k]? = some w
        ∧ w.kind = .shading ∧ w.address = o.tableAddress + 20 * k ∧ w.data = col.toBytes
        ∧ (w.mark = .tableLast ↔ k + 1 = columns.length)

/-- The dark level, the gain and the HOT and DEAD conditions (R23 to R25), in the entry that a column's two sums give. -/
def Obligations.GainAndDead : Prop :=
  ∀ (o : CalOrder) (darkSum brightSum : Quad),
    let span := fun (ch : Quad → Nat) =>
      if ch darkSum / o.darkLines < ch brightSum / o.brightLines
        then ch brightSum / o.brightLines - ch darkSum / o.darkLines else 0
    let entry := columnEntry o darkSum brightSum
    (∀ ch ∈ quadChannels,
      ch entry.dark = ch darkSum / o.darkLines
      ∧ (span ch = 0 → ch entry.gain = 16384)
      ∧ (0 < span ch → span ch < o.deadLimit → ch entry.gain = 16384)
      ∧ (0 < span ch → o.deadLimit ≤ span ch →
        ch entry.gain =
          if 65535 < o.white * 16384 / span ch then 65535 else o.white * 16384 / span ch))
    ∧ (entry.dead = true ↔ ∃ ch ∈ quadChannels, span ch = 0 ∨ (0 < span ch ∧ span ch < o.deadLimit))
    ∧ (entry.hot = true ↔ ∃ ch ∈ quadChannels, o.hotLimit < ch darkSum / o.darkLines)

/-! ### The Strip Tracker -/

/-- The band mean and the spread of a line (R48), and when a line with samples is gap-like (R49 to R51). -/
def Obligations.GapLikeTests : Prop :=
  (∀ (o : ScanOrder) (line : List Pixel),
    let greens := ((line.drop o.bandLeft).take (o.bandRight + 1 - o.bandLeft)).map fun p => p.g.toNat
    bandMean o line = greens.sum / (o.bandRight - o.bandLeft + 1)
    ∧ ∀ most ∈ greens, ∀ few ∈ greens, (∀ g ∈ greens, few ≤ g ∧ g ≤ most) → bandSpread o line = most - few)
  ∧ ∀ (o : ScanOrder) (t : Tracker) (line : List Pixel), t.state.judges = true →
    (o.film = .positive →
      (t.outcome o (some line) = true ↔ bandMean o line ≤ o.darkGapLevel ∧ bandSpread o line ≤ o.spreadLimit))
    ∧ (o.film = .negative → t.state = .leader →
      (t.outcome o (some line) = true ↔ bandSpread o line ≤ o.spreadLimit))
    ∧ (∀ level, o.film = .negative → t.state ≠ .leader → t.gapLevel = some level →
      (t.outcome o (some line) = true ↔ level ≤ bandMean o line ∧ bandSpread o line ≤ o.spreadLimit))

/-- The base formed from the leader window, and the gap level it gives (R49, R54). -/
def Obligations.BaseFormed : Prop :=
  ∀ (o : ScanOrder) (t : Tracker), 4 ≤ o.leaderLines → t.window.length ≤ o.leaderLines →
    ∃ base, (t.withBase o).base = some base ∧ (t.withBase o).window = []
      ∧ (o.film = .negative → (t.withBase o).gapLevel = some (base.g * o.gapRatio / 256))
      ∧ base.source =
        (if t.window.length = o.leaderLines then BaseSource.leader
          else if 4 ≤ t.window.length then BaseSource.short else BaseSource.fallback)
      ∧ (4 ≤ t.window.length →
        base.r = max 256 ((t.window.map LeaderRecord.sumR).sum / (t.window.length * (o.bandRight - o.bandLeft + 1)))
        ∧ base.g = max 256 ((t.window.map LeaderRecord.sumG).sum / (t.window.length * (o.bandRight - o.bandLeft + 1)))
        ∧ base.b = max 256 ((t.window.map LeaderRecord.sumB).sum / (t.window.length * (o.bandRight - o.bandLeft + 1))))
      ∧ (t.window.length < 4 →
        base.r = max 256 o.fallbackR ∧ base.g = max 256 o.fallbackG ∧ base.b = max 256 o.fallbackB)

/-- How a line, received or lost, moves the tracker (R56 to R62, R65, R66).
An image-like line in SEEK, GAP or LEADER opens a frame with the crop columns of R74 and R80, but a LEADER whose base falls back
goes to SEEK; any line in CUT opens one with the carried crop; in GAP and SEEK a gap-like line is offered to the profile, in TRAIL
a line is excess. In IMAGE and GAP_RUN a line short of the forced cut extends the frame, starts or continues a run, or ends it,
the merged lines of the run going to the frame (R99); the line that completes the run confirms the gap, and a line at the
length of the forced cut cuts the frame, whose crop columns are carried, also where the cut closes the last expected frame
(log 33). That the gap start is cleared and the run count 0 once a run has left its frame, and the run count at a forced cut, is log
39. What opening does is R127 and R154; what closing does is the next statement. (The order of the fields in the
FILLING write is log 18.) -/
def Obligations.TrackerTransitions : Prop :=
  ∀ (s : State) (o : ScanOrder) (n : Nat) (line : Option (List Pixel)) (gap : Bool),
    let opens := fun (u t : State) (crop : Columns) (flags : RosterFlags) (after : Tracker → Tracker) =>
      let made := u.opened o n crop flags
      t = { made with tracker := after made.tracker }
    let outside : Verdict := { cls := .gap, frame := none, band := none }
    let image := fun (crop : Columns) =>
      ({ cls := .image, frame := some s.tracker.nextFrame, band := some crop } : Verdict)
    (s.tracker.state = .seek ∨ s.tracker.state = .gap → s.transition o n line true = (s.offer o n line, outside))
    ∧ (s.tracker.state = .trail →
      s.transition o n line gap =
        ({ s with tracker := { s.tracker with excess := s.tracker.excess + 1 } },
          { cls := .trail, frame := none, band := none }))
    ∧ (s.Settled → s.Active → 1 ≤ s.tracker.nextFrame → s.tracker.nextFrame ≤ o.expectedFrames →
      insideWindow s.bus.windows o.rosterAddress (o.expectedFrames * 640) = true →
      (∀ r ∈ s.writer.records, 1 ≤ r.number ∧ r.number ≤ o.expectedFrames) →
      let fresh := fun (u t : State) (base : BaseSource) =>
        opens u t (openingCrop o u.tracker).1 { base.flags with edgeFallback := (openingCrop o u.tracker).2 }
          fun tr => { tr with state := .image }
      (∀ base, s.tracker.state = .seek ∨ s.tracker.state = .gap → s.tracker.base = some base →
        fresh s (s.transition o n line false).1 base.source
        ∧ (s.transition o n line false).2 = image (openingCrop o s.tracker).1)
      ∧ (∀ base, s.tracker.state = .leader → (s.tracker.withBase o).base = some base →
        let formed := { s with tracker := s.tracker.withBase o }
        (base.source = .fallback →
          s.transition o n line false =
            ({ s with tracker := { s.tracker.withBase o with state := .seek } },
              { cls := .leader, frame := none, band := none }))
        ∧ (base.source ≠ .fallback →
          fresh formed (s.transition o n line false).1 base.source
          ∧ (s.transition o n line false).2 = image (openingCrop o formed.tracker).1))
      ∧ ∀ base crop, s.tracker.state = .cut → s.tracker.base = some base → s.tracker.carried = some crop →
        (opens s (s.transition o n line gap).1 crop { base.source.flags with forcedCut := true, edgeCarried := true }
          fun tr =>
            if gap then { tr with state := .gapRun, gapStart := some n, runCount := 1, carried := none }
            else { tr with state := .image, carried := none })
        ∧ (s.transition o n line gap).2 = image crop)
    ∧ ∀ fr, s.tracker.openFrame = some fr →
      let inside : Verdict := { cls := .image, frame := some fr.number, band := some fr.crop }
      let resolved := s.runResolved fr.number
      (n + 1 - fr.top < o.pitch + o.tol →
        (s.tracker.state = .image →
          s.transition o n line true =
            ({ s with tracker := { s.tracker with state := .gapRun, gapStart := some n, runCount := 1 } }, inside)
          ∧ s.transition o n line false = (s, inside))
        ∧ (s.tracker.state = .gapRun → s.tracker.runCount + 1 < o.minGap →
          s.transition o n line true =
            ({ s with tracker := { s.tracker with runCount := s.tracker.runCount + 1 } }, inside))
        ∧ (s.tracker.state = .gapRun →
          s.transition o n line false =
            ({ resolved with tracker := { resolved.tracker with state := .image } }, inside)))
      ∧ (o.pitch + o.tol ≤ n + 1 - fr.top → o.minFrame ≤ n + 1 - fr.top →
        s.tracker.state = .image ∨ (s.tracker.state = .gapRun ∧ (gap = false ∨ s.tracker.runCount + 1 < o.minGap)) →
        let closed := resolved.closeFrame o n { forcedCut := true } line.isSome
        s.transition o n line gap =
          ({ closed with tracker := { closed.tracker with
              state := if fr.number = o.expectedFrames then TrackerState.trail else TrackerState.cut
              carried := some fr.crop } }, inside))
      ∧ ∀ start, s.tracker.state = .gapRun → o.minGap ≤ s.tracker.runCount + 1 → s.tracker.gapStart = some start →
        let inRun := fun (e : Entry) => decide (start ≤ e.line)
        let offered := (s.store.pending.filter fun e => e.complete && inRun e).foldl
          (fun profile e => joinProfile o profile (profileRecord e.line e.samples)) s.tracker.profile
        let left : State := { s with
          store := { s.store with
            pending := s.store.pending.map fun e => if inRun e then { e with cls := .gap, frame := none } else e }
          mapper := { s.mapper with runMerge := [] }
          tracker := { s.tracker with
            gapStart := none, runCount := 0
            profile := match line with
              | none => offered
              | some samples => joinProfile o offered (profileRecord n samples) } }
        let closed := left.closeFrame o (start - 1) {} false
        s.transition o n line true =
          ({ closed with tracker := { closed.tracker with
              state := if o.minFrame ≤ start - 1 + 1 - fr.top ∧ fr.number = o.expectedFrames then TrackerState.trail
                else TrackerState.gap } }, outside)

/-- A frame that closes is reported closed and the next frame takes the next number (R63, R128), and its completion point is
tested, but not in the handling of a line that is to belong to the frame (R129; `held`, log 14). One of fewer lines than min_frame
is a sliver: it is counted and its number is used again; every pending line of it becomes DROP_OTHER with frame none but the head
while that is being written, every context line of it loses its frame, and the writer holds it no longer but for that line
(R36, R64, R128). While one of its lines is being written nothing more happens (its plate stays with its record, log 32).
Otherwise the discard writes follow (R155): GIVEN for its plates last written TAKEN, the free form where it was leading (in two
writes, log 18); the record goes, its current plate is none, a wait, a throttle hold or a scan for a head of it is over (R135,
R152), a rescan request recorded in it too (log 12), and the next record becomes leading (R154). -/
def Obligations.FrameCloses : Prop :=
  ∀ (s : State) (o : ScanOrder) (fr : OpenFrame) (last : Nat) (closing : RosterFlags) (held : Bool),
    s.tracker.openFrame = some fr →
    (o.minFrame ≤ last + 1 - fr.top →
      let closed := { s with
        writer := s.writer.onRecord fr.number fun r =>
          { r with
            closed := true, last := some last, cropBottom := some (last - o.insetBottom), flags := r.flags.union closing }
        tracker := { s.tracker with nextFrame := s.tracker.nextFrame + 1, openFrame := none } }
      s.closeFrame o last closing held = (if held then closed else closed.completeFrames o)
      ∧ ((∀ r ∈ closed.writer.records, r.closed = true → r.doomed = false →
          ∃ e ∈ s.store.pending, e.frame = some r.number ∧ (e.fate = .undecided ∨ e.fate = .write)) →
        s.closeFrame o last closing held = closed))
    ∧ (last + 1 - fr.top < o.minFrame →
      let t := s.closeFrame o last closing held
      let written := decide (s.writer.state = .writing) && s.writer.write.any fun lw => lw.frame == fr.number
      t.tracker = { s.tracker with slivers := s.tracker.slivers + 1, openFrame := none }
      ∧ t.store = { s.store with
          pending := s.store.pending.mapIdx fun k e =>
            if e.frame = some fr.number ∧ ¬(k = 0 ∧ written = true) then
              { e with fate := Fate.dropOther, frame := none }
            else e
          context := s.store.context.map fun e => if e.frame = some fr.number then { e with frame := none } else e
          lostFrames := s.store.lostFrames.filter (· != fr.number) }
      ∧ (∀ r ∈ t.writer.records, r.number = fr.number → r.doomed = true)
      ∧ t.mem = s.mem ∧ t.reg = s.reg ∧ t.intake = s.intake ∧ t.order = s.order ∧ t.cal = s.cal ∧ t.fill = s.fill
      ∧ t.mapper = s.mapper
      ∧ ∀ before r after, s.writer.records = before ++ r :: after → r.number = fr.number → r.doomed = false →
        (∀ r' ∈ before ++ after, r'.number = fr.number → r'.doomed = true) →
        (∀ lw, s.writer.state = .writing → s.writer.write = some lw → lw.frame = fr.number → lw.discarded = false →
          t.bus = s.bus
          ∧ t.writer = { s.writer with
              records := before ++ { r with doomed := true } :: after, write := some { lw with discarded := true } })
        ∧ (s.Settled → s.Active →
          s.writer.state ≠ .writing ∨ (∀ lw, s.writer.write = some lw → lw.frame ≠ fr.number ∨ lw.discarded = true) →
          insideWindow s.bus.windows o.rosterAddress (o.expectedFrames * 640) = true →
          (∀ r' ∈ s.writer.records, 1 ≤ r'.number ∧ r'.number ≤ o.expectedFrames) → (∀ p ∈ r.plateList, p.index < 256) →
          t.writer.records = leadingFilled (before ++ after)
          ∧ t.writer.plate = (if s.writer.plate.any fun p => p.frame == fr.number then none else s.writer.plate)
          ∧ t.bus.inFlight =
            s.bus.inFlight ++ s.plateReturns [] r 1
              ++ (if r.fillingWritten then
                  [rosterField o r.number 0x02 (List.replicate 638 0), rosterField o r.number 0x00 (half 0)] else [])
              ++ leadingEntry o (before ++ after)
          ∧ (∀ k, lastOwner t.writer.owners k =
            if (∃ p ∈ r.plateList, p.index = k) ∧ lastOwner s.writer.owners k = some .taken then some .given
            else lastOwner s.writer.owners k)
          ∧ (s.headFrame ≠ some fr.number →
            t.writer.state = s.writer.state ∧ t.writer.waitFlag = s.writer.waitFlag ∧ t.writer.scan = s.writer.scan
              ∧ t.writer.rescan = s.writer.rescan ∧ t.bus.reads = s.bus.reads)
          ∧ (s.headFrame = some fr.number →
            (t.writer.state =
              if s.writer.state = .plateWait ∨ s.writer.state = .throttled then WriterState.ready else s.writer.state)
            ∧ t.writer.waitFlag = (if s.writer.state = .plateWait then false else s.writer.waitFlag)
            ∧ (s.writer.state = .plateWait ∨ s.writer.state = .ready → t.writer.scan = none ∧ t.writer.rescan = false)
            ∧ (∀ q ∈ t.bus.reads, q.site ∈ [.plateCount, .plateEntry] → q.stage = .dropped)
            ∧ ∀ q, q.site ∉ [.plateCount, .plateEntry] → (q ∈ t.bus.reads ↔ q ∈ s.bus.reads))))

/-- The fates (R34, R35, R70, R84). A line that is not an IMAGE line of a frame on record, or whose frame is damaged, is
DROP_OTHER; an image line of a frame that is not damaged is WRITE or DROP_IMAGE by its row. The arrival of line N decides line
N - Dl; the strip end decides every undecided line, and the part enters FINISHING, or the origin does. The course of a line: a line
of a SCAN order is announced (R15), handled by the tracker in the five steps of R69, its last the strip-end closing of R67 on line
strip_lines - 1, then the decisions, then the writer. What that closing does, by the tracker's state: the base formed in LEADER, the
open frame closed TRUNCATED in IMAGE, in GAP_RUN before the run, whose lines leave it, and the carried crop dropped in CUT. Two
arrivals are stated whole, while the writer waits for a plate: a line in TRAIL (R66, R67, R181), and the last line of the strip
where it extends a frame of at least min_frame lines, no frame being closed, which closes it TRUNCATED. (The model's own: that an
image line without a record is DROP_OTHER is log 27; the order of the actions inside an arrival is log 28; that a line in TRAIL
records no last outcome, in the course of a line and in the TRAIL arrival, where R69 step 1 speaks of every line, is log 14; that the
strip-end closing in GAP_RUN clears the gap start and the run count is log 39.) -/
def Obligations.RowFate : Prop :=
  (∀ (o : ScanOrder) (r : FrameRecord) (line : Nat),
    (line < r.cropTop → rowFate o r line = .dropImage)
    ∧ (∀ bottom, r.closed = true → r.cropBottom = some bottom → bottom < line → rowFate o r line = .dropImage)
    ∧ (r.cropTop ≤ line → (line - r.cropTop) % o.decimation ≠ 0 → rowFate o r line = .dropImage)
    ∧ (r.cropTop ≤ line → (r.closed = false ∨ ∃ bottom, r.cropBottom = some bottom ∧ line ≤ bottom) →
      (line - r.cropTop) % o.decimation = 0 → rowFate o r line = .write))
  ∧ (∀ (s : State) (o : ScanOrder) (e : Entry),
    (e.cls ≠ .image → s.fateOf o e = .dropOther)
    ∧ (e.cls = .image → e.frame = none → s.fateOf o e = .dropOther)
    ∧ ∀ k r, e.cls = .image → e.frame = some k → s.writer.record k = some r →
      (r.damage.isSome → s.fateOf o e = .dropOther) ∧ (r.damage = none → s.fateOf o e = rowFate o r e.line))
  ∧ (∀ (s : State) (o : ScanOrder) (n : Nat) (l : StoreLevels), s.store.levels = some l →
    let decided := fun (which : Entry → Bool) =>
      { s.store with
        pending := s.store.pending.map fun e =>
          if which e && e.fate == .undecided then { e with fate := s.fateOf o e } else e }
    (n < l.delay → s.decideDelayed o n = s)
    ∧ (l.delay ≤ n → s.decideDelayed o n = { s with store := decided fun e => e.line == n - l.delay })
    ∧ (s.order.part = .running →
      s.stripEnd o = { s with store := decided fun _ => true, order := { s.order with part := .finishing } })
    ∧ (s.order.part = .suspended →
      s.stripEnd o = { s with store := decided fun _ => true, order := { s.order with origin := some .finishing } }))
  ∧ (∀ (s : State) (o : ScanOrder) (b : LineBuffer) (c : Instr) (next : Option LineBuffer), s.intake.line = some b →
    (c, next) ∈ lineMarks → s.Takes → s.order.current = some (.scan o) →
    let n := s.intake.arrival
    let corrected := shadeLine s.intake.copy (lengthCorrect o.width b.pixels)
    let announced := { s with
      intake := s.intake.taken o.width b.count none
      bus := { s.bus with
        credit := if o.credit = 0 then s.bus.credit
          else min (s.bus.credit + o.credit) (4 * s.writer.lineBytes.getD 0) }
      store := s.store.announce n }.rethrottle o
    let handled := (announced.trackLine o n
      (if s.store.pending.length + s.store.context.length < 64 then some corrected else none)).decideDelayed o n
    let t := (if n + 1 = o.stripLines then handled.stripEnd o else handled).writerGo o
    exec c s = .next { t with intake := { t.intake with line := next } }.settle)
  ∧ (∀ (s : State) (o : ScanOrder) (n : Nat) (samples : Option (List Pixel)),
    let gap := s.tracker.outcome o samples
    let judged :=
      if s.tracker.state ∈ [.leader, .seek, .image, .gapRun, .gap, .cut] then
        { s with tracker := { s.tracker with lastGap := some gap } } else s
    let moved := judged.transition o n samples gap
    let handed := (moved.1.attribute n samples.isNone moved.2.frame).handOn n samples moved.2
    s.trackLine o n samples = if n + 1 = o.stripLines then handed.endStrip o else handed)
  ∧ (∀ (s : State) (o : ScanOrder),
    let ended := fun (t : State) => { t with tracker := { t.tracker with state := TrackerState.ended } }
    (s.tracker.state ∈ [.seek, .gap, .trail] → s.endStrip o = ended s)
    ∧ (s.tracker.state = .leader → s.endStrip o = ended { s with tracker := s.tracker.withBase o })
    ∧ (s.tracker.state = .cut → s.endStrip o = ended { s with tracker := { s.tracker with carried := none } })
    ∧ (s.tracker.state = .image →
      s.endStrip o = ended (s.closeFrame o (o.stripLines - 1) { truncated := true } false))
    ∧ ∀ start, s.tracker.state = .gapRun → s.tracker.gapStart = some start →
      let left : State := { s with
        store := { s.store with
          pending := s.store.pending.map fun e => if start ≤ e.line then { e with cls := .gap, frame := none } else e }
        mapper := { s.mapper with runMerge := [] }
        tracker := { s.tracker with gapStart := none, runCount := 0 } }
      let closed := left.closeFrame o (start - 1) { truncated := true } false
      let settled := { closed with tracker := { closed.tracker with heldLost := [] } }
      (s.tracker.heldLost = [] ∨ s.store.outsideRaised = true → s.endStrip o = ended settled)
      ∧ (s.tracker.heldLost ≠ [] → s.store.outsideRaised = false →
        s.endStrip o = ended { settled with
          store := { settled.store with outsideRaised := true }
          reg := { settled.reg with cause := settled.reg.cause ||| 0x08#6 } }))
  ∧ (∀ (s : State) (o : ScanOrder) (b : LineBuffer) (c : Instr) (next : Option LineBuffer) (l : StoreLevels)
      (fr : OpenFrame) (params : MapParams), s.Settled →
    s.intake.line = some b → (c, next) ∈ lineMarks → s.Takes → s.order.current = some (.scan o) →
    s.tracker.openFrame = some fr → s.tracker.state = .image ∨ s.tracker.state = .gapRun → s.tracker.heldLost = [] →
    s.writer.state = .plateWait → s.store.levels = some l → s.mapper.params = some params →
    (∀ e ∈ s.store.pending, e.line < s.intake.arrival) → s.store.pending.length + s.store.context.length < 64 →
    let n := s.intake.arrival
    n + 1 - fr.top < o.pitch + o.tol → n + 1 = o.stripLines → o.minFrame ≤ n + 1 - fr.top →
    (∀ r ∈ s.writer.records, r.closed = false) →
    s.tracker.outcome o (some (shadeLine s.intake.copy (lengthCorrect o.width b.pixels))) = false →
    let u := s.lineExtended o fr params b next
    let v := { u with
      tracker := { u.tracker with state := .ended, nextFrame := u.tracker.nextFrame + 1, openFrame := none }
      writer := u.writer.onRecord fr.number fun r =>
        { r with
          closed := true, last := some n, cropBottom := some (n - o.insetBottom)
          flags := r.flags.union { truncated := true } } }
    exec c s = .next { v with
      store := { v.store with
        pending := v.store.pending.map fun e => if e.fate = .undecided then { e with fate := v.fateOf o e } else e }
      order := if s.order.part = .suspended then { s.order with origin := some .finishing }
        else { s.order with part := .finishing } })
  ∧ ∀ (s : State) (o : ScanOrder) (b : LineBuffer) (c : Instr) (next : Option LineBuffer) (l : StoreLevels), s.Settled →
    s.intake.line = some b → (c, next) ∈ lineMarks → s.Takes → s.order.current = some (.scan o) →
    s.tracker.state = .trail → s.tracker.heldLost = [] → s.writer.state = .plateWait → s.store.levels = some l →
    (∀ e ∈ s.store.pending, e.line < s.intake.arrival) → s.store.pending.length + s.store.context.length < 64 →
    let n := s.intake.arrival
    let ends := decide (n + 1 = o.stripLines)
    let arrived := s.store.pending ++
      [({ line := n, samples := shadeLine s.intake.copy (lengthCorrect o.width b.pixels), cls := .trail, frame := none,
          fate := .undecided, spans := none, complete := true } : Entry)]
    exec c s = .next { s with
      intake := s.intake.taken o.width b.count next
      bus := { s.bus with
        credit := if o.credit = 0 then s.bus.credit
          else min (s.bus.credit + o.credit) (4 * s.writer.lineBytes.getD 0) }
      store := { s.store with
        pending := arrived.map fun e =>
          if e.fate = .undecided ∧ (ends = true ∨ (l.delay ≤ n ∧ e.line = n - l.delay)) then
            { e with fate := s.fateOf o e }
          else e
        hold := holdAfter s.store.levels s.store.hold (s.store.pending.length + 1) }
      tracker := { s.tracker with
        excess := s.tracker.excess + 1, state := if ends then TrackerState.ended else TrackerState.trail }
      order := if ends then
          (if s.order.part = .suspended then { s.order with origin := some .finishing }
            else { s.order with part := .finishing })
        else s.order }

/-! ### The Line Store -/

/-- The announcement of a line (R33, R39 step 1), the occupancy hold it and every removal leave (R40), and the attribution of lost
lines (R39 steps 2 to 4, R68): in GAP_RUN a lost line is held; outside it the held lines, and the line itself if it was lost, are
settled alike, into a frame, whose count and flag they advance and whose first raises LINES_LOST, or into none, of which the
order's first raises it. A removal (R36, R37): a line of fate WRITE or DROP_IMAGE joins the tail of the context list, whose oldest
line leaves when it then holds Rv + 1; any other line leaves the store. (What an entry just begun holds beside its line number and
its fate is log 36.) -/
def Obligations.StoreAnnounce : Prop :=
  (∀ (st : LineStore) (n : Nat),
    (st.pending.length + st.context.length < 64 →
      st.announce n =
        { st with
          pending := st.pending ++
            [{ line := n, samples := [], cls := .gap, frame := none, fate := .undecided, spans := none, complete := false }]
          hold := holdAfter st.levels st.hold (st.pending.length + 1) })
    ∧ (64 ≤ st.pending.length + st.context.length → st.announce n = { st with lost := st.lost + 1 })
    ∧ ∀ (l : StoreLevels) (hold : Bool) (count : Nat), l.clearLevel < l.setLevel →
      (l.setLevel ≤ count → holdAfter (some l) hold count = true)
      ∧ (count ≤ l.clearLevel → holdAfter (some l) hold count = false)
      ∧ (l.clearLevel < count → count < l.setLevel → holdAfter (some l) hold count = hold))
  ∧ (∀ (st : LineStore) (l : StoreLevels) (e : Entry) (entries : List Entry) (clear : Bool), st.levels = some l →
    st.pending = e :: entries → st.context.length ≤ l.rv →
    let joined := st.context ++ [if clear then { e with frame := none } else e]
    st.removeHead clear =
      { st with
        pending := entries
        context :=
          if e.fate = .write ∨ e.fate = .dropImage then (if st.context.length < l.rv then joined else joined.tail)
          else st.context
        hold := holdAfter st.levels st.hold entries.length })
  ∧ ∀ (s : State) (n : Nat) (lost : Bool) (frame : Option Nat),
    (s.tracker.state = .gapRun →
      s.attribute n lost frame =
        if lost then { s with tracker := { s.tracker with heldLost := s.tracker.heldLost ++ [n] } } else s)
    ∧ (s.tracker.state ≠ .gapRun →
      let settled := s.tracker.heldLost.length + if lost then 1 else 0
      let emptied := { s.tracker with heldLost := [] }
      let raised := { s.reg with cause := s.reg.cause ||| 0x08#6 }
      (settled = 0 → s.attribute n lost frame = s)
      ∧ (0 < settled →
        (∀ k, frame = some k →
          let counted := s.writer.onRecord k fun r =>
            { r with lostLines := r.lostLines + settled, flags := { r.flags with linesLost := true } }
          (k ∈ s.store.lostFrames →
            s.attribute n lost frame = { s with tracker := emptied, writer := counted })
          ∧ (k ∉ s.store.lostFrames →
            s.attribute n lost frame =
              { s with
                tracker := emptied, writer := counted, reg := raised
                store := { s.store with lostFrames := s.store.lostFrames ++ [k] } }))
        ∧ (frame = none →
          (s.store.outsideRaised = true → s.attribute n lost frame = { s with tracker := emptied })
          ∧ (s.store.outsideRaised = false →
            s.attribute n lost frame =
              { s with
                tracker := emptied, reg := raised, store := { s.store with outsideRaised := true } }))))

/-! ### The crop and the Defect Mapper -/

/-- The crop columns of a frame that opens from LEADER, SEEK or GAP. The FIXED columns (R74, R75): at least 16 columns inside the
width, exact when the pair is that wide, else 16 centred on the pair. The EDGE search (R78 to R80): the outermost runs of edge_run
film columns of the profile, or FIXED with EDGE_FALLBACK. -/
def Obligations.FixedCropInside : Prop :=
  (∀ o : ScanOrder, 256 ≤ o.width → o.defaultLeft ≤ o.defaultRight → o.defaultRight < o.width →
    (fixedCrop o).left + 15 ≤ (fixedCrop o).right ∧ (fixedCrop o).right < o.width
    ∧ (o.defaultLeft + o.insetLeft + 15 + o.insetRight ≤ o.defaultRight →
      fixedCrop o = { left := o.defaultLeft + o.insetLeft, right := o.defaultRight - o.insetRight })
    ∧ (o.defaultRight < o.defaultLeft + o.insetLeft + 15 + o.insetRight →
      let sum : Int := ((o.defaultLeft + o.insetLeft : Nat) : Int) + ((o.defaultRight : Int) - (o.insetRight : Int))
      let start : Nat := if sum < 15 then 0 else ((sum - 15) / 2).toNat
      fixedCrop o =
        if o.width - 1 < start + 15 then { left := o.width - 16, right := o.width - 1 }
        else { left := start, right := start + 15 }))
  ∧ ∀ (o : ScanOrder) (t : Tracker),
    (o.cropMode = .fixed → openingCrop o t = (fixedCrop o, false))
    ∧ (∀ level, o.cropMode = .edge → t.gapLevel = some level → 1 ≤ o.edgeRun →
      (∀ record ∈ t.profile, record.greens.length = o.width) →
      let film := filmAt o.width level t.profile
      let run := fun (c : Nat) => ∀ k, k < o.edgeRun → film (c + k)
      (t.profile.length < 4 ∨ (∀ c, ¬ run c) → openingCrop o t = (fixedCrop o, true))
      ∧ ∀ left first, 4 ≤ t.profile.length → run left → (∀ c, c < left → ¬ run c) → run first →
        (∀ c, first < c → ¬ run c) →
        let right := first + o.edgeRun - 1
        (left + o.insetLeft + 15 + o.insetRight ≤ right →
          openingCrop o t = ({ left := left + o.insetLeft, right := right - o.insetRight }, false))
        ∧ (right < left + o.insetLeft + 15 + o.insetRight → openingCrop o t = (fixedCrop o, true)))

/-- The defect test (R90, R92) and the span list it gives (R93 to R97): at most 24 spans inside the band, in rising order, no two
touching, and every defect candidate and every faulted column of the band lies in one of them. A line that is not merged has in
its spans exactly the candidates' columns grown by the growth and clipped to the band, and the faulted columns; a list of more
than 24 spans is capped by joining, again and again, the leftmost of the neighbours with the smallest gap. -/
def Obligations.SpanListShape : Prop :=
  (∀ (params : MapParams) (band : Columns) (faults ref : List Nat) (samples : List Pixel),
    let spans := lineSpans params band faults ref samples
    let candidates := defectColumns params.thr band faults 0 samples ref
    spans.length ≤ 24
    ∧ spans.Pairwise (fun p q => p.start + p.length < q.start)
    ∧ (∀ p ∈ spans, 0 < p.length ∧ band.left ≤ p.start ∧ p.start + p.length ≤ band.right + 1)
    ∧ (∀ c, c ∈ candidates ↔ band.left ≤ c ∧ c ≤ band.right ∧ c ∉ faults
        ∧ ∃ p, samples[c]? = some p ∧ p.ir.toNat * 256 < ref.getD c 0 * params.thr)
    ∧ (∀ c, (c ∈ candidates ∨ (c ∈ faults ∧ band.left ≤ c ∧ c ≤ band.right)) → ∃ p ∈ spans, p.covers c = true)
    ∧ (isMergedLine params band faults ref samples = false → ∀ c,
      (∃ p ∈ spans, p.covers c = true) ↔
        band.left ≤ c ∧ c ≤ band.right
          ∧ ((∃ d ∈ candidates, d ≤ c + params.growth ∧ c ≤ d + params.growth) ∨ c ∈ faults))
    ∧ (isMergedLine params band faults ref samples = true ↔ 24 < (lineUnion params band faults ref samples).length)
    ∧ spans = capSpans (lineUnion params band faults ref samples).length (lineUnion params band faults ref samples))
  ∧ ∀ (ps : List Span) (fuel : Nat),
    (ps.length ≤ 24 → capSpans fuel ps = ps)
    ∧ (24 < ps.length →
      ∃ i p q, ps[i]? = some p ∧ ps[i + 1]? = some q
        ∧ (∀ j p' q', ps[j]? = some p' → ps[j + 1]? = some q' →
          q.start - (p.start + p.length) ≤ q'.start - (p'.start + p'.length)
          ∧ (j < i → q.start - (p.start + p.length) < q'.start - (p'.start + p'.length)))
        ∧ capSpans (fuel + 1) ps =
          capSpans fuel
            (ps.take i ++ { start := p.start, length := q.start + q.length - p.start } :: ps.drop (i + 2)))

/-- The IR reference after a mapped line, column by column (R90 to R92), and the arrival of a mapped line that extends the open frame
short of the forced cut and of the confirmation, while the writer waits for a plate: its entry has the span list of the mapper (R69,
R97), the reference is moved (R91), and a merged line is reported to the frame, or kept for the run (R98, R99). -/
def Obligations.ReferenceUpdated : Prop :=
  (∀ (s : State) (o : ScanOrder) (b : LineBuffer) (c : Instr) (next : Option LineBuffer) (l : StoreLevels)
      (fr : OpenFrame) (params : MapParams), s.Settled →
    s.intake.line = some b → (c, next) ∈ lineMarks → s.Takes → s.order.current = some (.scan o) →
    s.tracker.openFrame = some fr → s.tracker.state = .image ∨ s.tracker.state = .gapRun → s.tracker.heldLost = [] →
    s.writer.state = .plateWait → s.store.levels = some l → s.mapper.params = some params →
    (∀ e ∈ s.store.pending, e.line < s.intake.arrival) → s.store.pending.length + s.store.context.length < 64 →
    let n := s.intake.arrival
    n + 1 - fr.top < o.pitch + o.tol → n + 1 ≠ o.stripLines →
    (s.tracker.state = .gapRun →
      s.tracker.outcome o (some (shadeLine s.intake.copy (lengthCorrect o.width b.pixels))) = true →
      s.tracker.runCount + 1 < o.minGap) →
    let u := s.lineExtended o fr params b next
    exec c s = .next { u with
      store := { u.store with
        pending := u.store.pending.map fun e =>
          if e.fate = .undecided ∧ l.delay ≤ n ∧ e.line = n - l.delay then { e with fate := u.fateOf o e } else e } })
  ∧ ∀ (thr : Nat) (band : Columns) (faults ref : List Nat) (row : List Pixel) (c : Nat) (p : Pixel), row[c]? = some p →
    let old := ref.getD c 0
    let i := p.ir.toNat
    (updateReference thr band faults 0 row ref)[c]? =
      some (if band.left ≤ c ∧ c ≤ band.right ∧ c ∉ faults ∧ old * thr ≤ i * 256
        then (if old ≤ i then old + (i - old) / 16 else old - (old - i) / 16) else old)

/-! ### The Fill Unit and the output -/

/-- The values of a fill. The weighted mean of two sources, which lies between them (R111, R114, R116); the horizontal sources, the
columns beside the span (R110, R111); the vertical sources, the nearest source lines above and below within Rv (R112 to R114); how
the two estimates make the value (R116 to R118); which columns of the line are computed (R108); and the counts (R118, R119). -/
def Obligations.FillValues : Prop :=
  (∀ (u v : Rgb) (du dv : Nat), 0 < du → 0 < dv → ∀ ch ∈ rgbChannels,
    ch (blend u du v dv) = (dv * ch u + du * ch v + (du + dv) / 2) / (du + dv)
    ∧ min (ch u) (ch v) ≤ ch (blend u du v dv) ∧ ch (blend u du v dv) ≤ max (ch u) (ch v))
  ∧ (∀ (hmax : Nat) (l : LineInHand) (p : Span) (x : Nat), 0 < p.length →
    (hmax < p.length → horizontalEstimate hmax l p x = none)
    ∧ (p.length ≤ hmax →
      horizontalEstimate hmax l p x = meanOf
        (if l.crop.left + 1 ≤ p.start then
          some { value := rgbAt l.samples (p.start - 1), distance := x - p.start + 1 } else none)
        (if p.start + p.length ≤ l.crop.right then
          some { value := rgbAt l.samples (p.start + p.length), distance := p.start + p.length - x } else none)))
  ∧ (∀ (rv : Nat) (l : LineInHand) (x : Nat),
    ∃ upper lower, l.Finds rv x (fun d => if d ≤ l.line then some (l.line - d) else none) upper
      ∧ l.Finds rv x (fun d => some (l.line + d)) lower ∧ verticalEstimate rv l x = meanOf upper lower)
  ∧ (∀ (params : FillParams) (l : LineInHand) (p : Span) (x : Nat) (original : Rgb),
    let h := horizontalEstimate params.hmax l p x
    let v := verticalEstimate params.rv l x
    (params.enable = false ∨ (h = none ∧ v = none) → fillPixel params l p x original = (original, false))
    ∧ (params.enable = true → ∀ e f,
      (h = some e → v = some f → fillPixel params l p x original = (blend e.value e.distance f.value f.distance, true))
      ∧ (h = some e → v = none → fillPixel params l p x original = (e.value, true))
      ∧ (h = none → v = some f → fillPixel params l p x original = (f.value, true))))
  ∧ ∀ (params : FillParams) (l : LineInHand), 0 < l.decimation →
    let ps := fillLine params l
    (∀ k pixel, l.crop.left + k * l.decimation ≤ l.crop.right →
      l.samples[l.crop.left + k * l.decimation]? = some pixel →
      let x := l.crop.left + k * l.decimation
      ps[k]? = some
        (match l.spans.find? fun p => p.covers x with
          | none => { value := rgbOf pixel, defect := none }
          | some p =>
            { value := (fillPixel params l p x (rgbOf pixel)).1, defect := some (fillPixel params l p x (rgbOf pixel)).2 }))
    ∧ countFilled ps + countUnfilled ps = countDefect ps ∧ (params.enable = false → countFilled ps = 0)

/-- The output line (R130, R131): the red, green and blue samples of its pixels in that order, on NEGATIVE film each inverted
against its own channel of the base that the tracker formed, on POSITIVE film as they are, each brought to the depth. It occupies
exactly its output line bytes, at most 36,864 of them (R126). The inversion (R130) and the depth (R131) of a value. -/
def Obligations.OutputLine : Prop :=
  (∀ (film : Film) (base : Base) (depth : Nat) (ps : List FilledPixel),
    let out := fun (level v : Nat) => sampleBytes depth (if film = .negative then invertSample level v else v)
    convertLine film base depth ps =
      ps.flatMap fun p => out base.r p.value.r ++ out base.g p.value.g ++ out base.b p.value.b)
  ∧ (∀ (s : State) (base : Base), s.tracker.base = some base → s.conversionBase = base) ∧
  (∀ (film : Film) (base : Base) (depth : Nat) (params : FillParams) (l : LineInHand), depth = 8 ∨ depth = 16 →
    0 < l.decimation → l.crop.left ≤ l.crop.right → l.crop.right < l.samples.length →
    (convertLine film base depth (fillLine params l)).length = outputBytes l.crop l.decimation depth
    ∧ (l.samples.length ≤ 6144 → outputBytes l.crop l.decimation depth ≤ 36864))
  ∧ (∀ base v, 256 ≤ base →
    (v < base → invertSample base v = 65535 - min ((v * 65535 + base / 2) / base) 65535)
    ∧ (base ≤ v → invertSample base v = 0) ∧ invertSample base 0 = 65535 ∧ invertSample base v ≤ 65535)
  ∧ ∀ w, w < 65536 →
    leValue (sampleBytes 16 w) = w ∧ (sampleBytes 16 w).length = 2
    ∧ leValue (sampleBytes 8 w) = w / 256 ∧ (sampleBytes 8 w).length = 1

/-- The bursts of a line (R137): together its bytes, one after the other from its place on, each of 1 to 256 bytes and none
across a 256-byte boundary. -/
def Obligations.BurstsSplit : Prop :=
  ∀ (address : Nat) (bytes : List Byte),
    let bursts := splitBursts bytes.length address bytes
    bursts.flatMap Prod.snd = bytes
    ∧ (∀ b ∈ bursts, 0 < b.2.length ∧ b.1 % 256 + b.2.length ≤ 256)
    ∧ (∀ k b, bursts[k]? = some b → b.1 = address + ((bursts.take k).flatMap Prod.snd).length)
    ∧ (address % 256 = 0 → bursts.length = (bytes.length + 255) / 256)

/-- The throttle test and what a write spends (R133): a head that passes begins its write (R107, R136), one that does not leaves the
writer THROTTLED. -/
def Obligations.ThrottleTest : Prop :=
  ∀ (s : State) (o : ScanOrder) (e : Entry) (r : FrameRecord) (p : CurrentPlate),
    (∀ bytes, s.throttlePasses o bytes = true ↔ s.Passes o bytes)
    ∧ (s.Passes o r.outBytes → s.throttle o e r p = s.writeBegun o e r p)
    ∧ (¬ s.Passes o r.outBytes → s.throttle o e r p = { s with writer := { s.writer with state := .throttled } })
    ∧ (∀ bytes, o.credit ≠ 0 → bytes ≤ s.bus.credit → creditAfter o s.bus.credit bytes = s.bus.credit - bytes)
    ∧ ∀ bytes, o.credit = 0 ∨ s.bus.credit < bytes → creditAfter o s.bus.credit bytes = s.bus.credit

/-! ### Plate scans -/

/-- The reads of a plate table scan as they complete (R147, R148, R151, R174), their bytes little-endian: plate_count 0 ends the scan,
and so does the last entry where it is not usable: the first scan of a need ends in a plate wait, a rescan in the wait that it was made
in, and a recorded request begins a further one; another count fixes the start entry and its read begins; an entry that is not GIVEN, or whose
size is malformed, is passed over; one outside the windows is written REFUSED. An entry that the part holds TAKEN is passed over,
whatever word was read (R149; that its entry is read at all is log 37). (The model's own: the frame number that the entry read and the
REFUSED write carry, the head's, is log 22; the reads in flight are log 30.) -/
def Obligations.PlateScanGoes : Prop :=
  ∀ (s : State) (o : ScanOrder), s.Settled → s.order.part ∈ [.running, .suspended, .finishing] →
    s.order.current = some (.scan o) →
    (∀ data : List Byte, data.length = 4 → s.writer.scan = some .count →
      let value := leValue data
      let s' := { s with bus := { s.bus with reads := s.readsBut .plateCount } }
      (value = 0 → s.writer.state ∈ [.ready, .plateWait] →
        exec (.plateScanReadComplete [.count data]) s = .next s'.scanEnded)
      ∧ (value ≠ 0 →
        let n := min value 256
        let start := match s.writer.scanPos with
          | none => 0
          | some p => if p = 255 ∨ n ≤ p + 1 then 0 else p + 1
        exec (.plateScanReadComplete [.count data]) s =
          .next ({ s' with writer := { s.writer with scan := some (.entries n start n) } }.withReads
            [s.entryRead start])))
    ∧ ∀ (n k left : Nat) (data : List Byte), data.length = 12 → s.writer.scan = some (.entries n k left) →
      let address := leValue (data.take 4)
      let size := leValue ((data.drop 4).take 4)
      let owner := leValue (data.drop 8)
      let following := if k + 1 < n then k + 1 else 0
      let after : Scan := .entries n following (left - 1)
      let s' := { s with bus := { s.bus with reads := s.readsBut .plateEntry } }
      let read : Instr := .plateScanReadComplete [.entry data]
      let refused := { s' with
        writer := { s.writer with
          platesRefused := s.writer.platesRefused + 1, owners := setOwner s.writer.owners k .refused } }.withWrites
        [s.plateField k 0x8 (s.headFrame.getD 0) (word 4)]
      let goesOn := fun (u t : State) =>
        (1 < left → t = { u with writer := { u.writer with scan := some after } }.withReads [s.entryRead following])
          ∧ (left ≤ 1 → s.writer.state ∈ [.ready, .plateWait] → t = u.scanEnded)
      (owner ≠ 1 ∨ lastOwner s.writer.owners k = some .taken ∨ size < 65536 ∨ 16777216 < size ∨ size % 4096 ≠ 0 →
        ∃ t, exec read s = .next t ∧ goesOn s' t)
      ∧ (owner = 1 → 65536 ≤ size → size ≤ 16777216 → size % 4096 = 0 →
        insideWindow s.bus.windows address size = false → k < 256 → lastOwner s.writer.owners k ≠ some .taken →
        ∃ t, exec read s = .next t ∧ goesOn refused t)

/-- A usable plate is taken for the frame of the head (R149, R151). While the stop flag is set no line write follows (R141); in
RUNNING and FINISHING with the flag clear the throttle test follows (R133, R135): the head's write begins, or the writer is
THROTTLED. A plate that the part holds TAKEN is not usable: the statement before. (The model's own: a plate that the part wrote REFUSED
after a bus error and that reads GIVEN again in the same order is taken too, log 40.) -/
def Obligations.PlateTaken : Prop :=
  ∀ (s : State) (o : ScanOrder) (f n k left : Nat) (data : List Byte), s.Settled →
    s.order.current = some (.scan o) → s.headFrame = some f → data.length = 12 →
    s.writer.scan = some (.entries n k left) → k < 256 → lastOwner s.writer.owners k ≠ some .taken →
    let address := leValue (data.take 4)
    let size := leValue ((data.drop 4).take 4)
    let taken := s.plateTaken o f k address size
    leValue (data.drop 8) = 1 → 65536 ≤ size → size ≤ 16777216 → size % 4096 = 0 →
    insideWindow s.bus.windows address size = true →
    (s.order.part ∈ [.running, .suspended, .finishing] → s.writer.stop = true →
      exec (.plateScanReadComplete [.entry data]) s = .next taken)
    ∧ (∀ e entries r, s.order.part ∈ [.running, .finishing] → s.writer.stop = false →
      s.store.pending = e :: entries → s.writer.record f = some r →
      (s.Passes o r.outBytes →
        exec (.plateScanReadComplete [.entry data]) s =
          .next (taken.writeBegun o e r
            { index := k, address := address, size := size, room := size, frame := f }))
      ∧ (¬ s.Passes o r.outBytes →
        exec (.plateScanReadComplete [.entry data]) s =
          .next { taken with writer := { taken.writer with state := .throttled } }))

/-! ### Windows, selection, start -/

/-- The window load ends (R171): all four entries are replaced at once, from the little-endian sources (R174). A validation that
waited for it is made against the new table (R178): a CALIBRATE order that passes has its slot written RUNNING, an order that fails
ends REFUSED (its result area field by field, log 18). -/
def Obligations.WindowsLoaded : Prop :=
  ∀ (s : State) (data : List Byte), s.Settled → data.length = 32 → s.bus.loading = true → s.order.part ≠ .fault →
    ∃ windows, windows.length = 4
      ∧ (∀ i, i < 4 →
        let base := leValue ((data.drop (8 * i)).take 4)
        let size := leValue ((data.drop (8 * i + 4)).take 4)
        windows[i]? = some (if size = 0 then none else some { first := base, last := min (base + size - 1) 4294967295 }))
      ∧ let loaded := { s with
          bus := { s.bus with windows := windows, loading := false, reads := s.readsBut .windowSource } }
        (s.order.waiting = none → exec (.windowLoadComplete data) s = .next loaded)
        ∧ ∀ (r : OrderRecord) (i : Fin 4), s.order.waiting = some r → s.order.part = .starting →
          s.order.chosen = some i →
          (∀ o, validate windows r = .accepted (.calibrate o) →
            exec (.windowLoadComplete data) s =
              .next ({ loaded with
                order := { s.order with waiting := none, current := some (.calibrate o) } }.withWrites
                [s.slotWrite i 2 .startLast]))
          ∧ ∀ reason, validate windows r = .refused reason →
            ∃ t, exec (.windowLoadComplete data) s = .next t
              ∧ t.order.part = .idle ∧ t.order.waiting = none ∧ t.order.chosen = none
              ∧ t.order.ordersTally = s.order.ordersTally + 1 ∧ t.order.endWrites = true ∧ t.bus.windows = windows
              ∧ t.bus.inFlight =
                s.bus.inFlight ++ s.resultArea i (Results.only reason) .grouped
                  ++ [s.slotWrite i 6 .silent .grouped, s.tallyWrite .grouped]

/-- A selection chooses the POSTED slot of smallest sequence number, of lowest index among equals (R177), from the little-endian
state words and sequence numbers read (R174), and its order record is read; with none POSTED a request begins another selection, else
the part stays IDLE. -/
def Obligations.SelectionDone : Prop :=
  ∀ (s : State) (data : List Byte), s.Settled → data.length = 32 → s.order.selecting = true → s.order.part = .idle →
    let state := fun (i : Nat) => leValue ((data.drop (8 * i)).take 4)
    let sequence := fun (i : Nat) => leValue ((data.drop (8 * i + 4)).take 4)
    let s' := { s with bus := { s.bus with reads := s.readsBut .slotWord } }
    (∀ i : Fin 4, state i = 1 →
      (∀ j : Fin 4, state j = 1 → sequence i < sequence j ∨ (sequence i = sequence j ∧ i.val ≤ j.val)) →
      exec (.selectionReadsComplete data) s =
        .next ({ s' with
          order := { s.order with
            part := .starting, chosen := some i, recordRead := true, selecting := false,
            selectionRequest := false } }.withReads
          [s.madeRead .orderRecord (0x204 + 256 * i) 86, s.blockRead .orderRecord (0x25C + 256 * i) 10]))
    ∧ ((∀ i : Fin 4, state i ≠ 1) →
      (s.order.selectionRequest = false →
        exec (.selectionReadsComplete data) s = .next { s' with order := { s.order with selecting := false } })
      ∧ (s.order.selectionRequest = true →
        exec (.selectionReadsComplete data) s =
          .next ({ s' with
            order := { s.order with
              selecting := true, selectionRequest := false, follows := false } }.withReads s.selectionReads)))

/-- Validation (R17, R47, R72, R87, R106, R126, R179): the checks in their order, of which the first that fails gives the reason, and
the validated values, clamped, of an order that passes them all. -/
def Obligations.OrderChecks : Prop :=
  ∀ (windows : List (Option Window)) (r : OrderRecord),
    let tol := min r.tol (r.pitch / 4)
    let start : List (Prop × Reason) :=
      [(r.kind = 1 ∨ r.kind = 2, .badKind), (256 ≤ r.width ∧ r.width ≤ 6144, .badWidth)]
    let calibrate : List (Prop × Reason) :=
      [(4 ≤ r.darkLines ∧ r.darkLines ≤ 64, .badGeometry), (4 ≤ r.brightLines ∧ r.brightLines ≤ 64, .badGeometry),
        ((∃ w ∈ windows, w.isSome = true), .noWindows),
        (insideWindow windows r.shadingAddress (r.width * 20) = true, .window)]
    let scan : List (Prop × Reason) :=
      [(r.film ≤ 1, .badKind), (r.bandLeft + 31 ≤ r.bandRight ∧ r.bandRight < r.width, .badBand),
        ((2 ≤ r.minGap ∧ r.minGap ≤ 12) ∧ r.insetTop ≤ 8 ∧ r.insetBottom ≤ 8 ∧ (4 ≤ r.leaderLines ∧ r.leaderLines ≤ 64)
          ∧ (64 ≤ r.pitch ∧ r.pitch ≤ 32767)
          ∧ (r.insetTop + r.insetBottom + 16 ≤ r.minFrame ∧ r.minFrame ≤ r.pitch - tol)
          ∧ 64 ≤ r.stripLines ∧ r.stripLines ≤ 16777215, .badGeometry),
        (1 ≤ r.expectedFrames ∧ r.expectedFrames ≤ 40, .badFrames),
        (r.decimation ∈ [1, 2, 4] ∧ r.depth ∈ [8, 16], .badOutput),
        ((r.cropMode = 0 ∨ (r.cropMode = 1 ∧ r.film = 0)) ∧ r.defaultLeft ≤ r.defaultRight ∧ r.defaultRight < r.width
          ∧ r.insetLeft ≤ 64 ∧ r.insetRight ≤ 64, .badCrop),
        ((∃ w ∈ windows, w.isSome = true), .noWindows),
        (insideWindow windows r.rosterAddress (r.expectedFrames * 640) = true, .window),
        (r.shadingAddress = 0 ∨ insideWindow windows r.shadingAddress (r.width * 20) = true, .window)]
    let checks := start ++ if r.kind = 1 then calibrate else scan
    (∀ reason, validate windows r = .refused reason ↔
      ∃ (k : Nat) (check : Prop), checks[k]? = some (check, reason) ∧ ¬ check ∧ ∀ j (p : Prop × Reason), j < k → checks[j]? = some p → p.1)
    ∧ ∀ order, validate windows r = .accepted order ↔
      (∀ p : Prop × Reason, p ∈ checks → p.1)
      ∧ order =
        if r.kind = 1 then
          .calibrate
            { sequence := r.sequence, width := r.width, tableAddress := r.shadingAddress, darkLines := r.darkLines,
              brightLines := r.brightLines, white := max 4096 (min 65535 r.white), hotLimit := r.hotLimit,
              deadLimit := r.deadLimit }
        else
          .scan
            { sequence := r.sequence, film := if r.film = 0 then .negative else .positive, width := r.width,
              bandLeft := r.bandLeft, bandRight := r.bandRight, expectedFrames := r.expectedFrames,
              stripLines := r.stripLines, pitch := r.pitch, tol := tol, minGap := r.minGap, minFrame := r.minFrame,
              leaderLines := r.leaderLines, gapRatio := max 128 (min 255 r.gapRatio), spreadLimit := r.spreadLimit,
              darkGapLevel := r.darkGapLevel, insetTop := r.insetTop, insetBottom := r.insetBottom,
              insetLeft := r.insetLeft, insetRight := r.insetRight,
              cropMode := if r.cropMode = 0 then .fixed else .edge, defaultLeft := r.defaultLeft,
              defaultRight := r.defaultRight, edgeRun := max 4 (min 32 r.edgeRun),
              irSeed := max 1024 (min 65535 r.irSeed), thr := max 64 (min 250 r.thr), growth := min 3 r.growth,
              fillEnable := decide (r.fillEnable ≠ 0), rv := max 1 (min 8 r.rv), hmax := max 4 (min 64 r.hmax),
              decimation := r.decimation, depth := r.depth, credit := r.credit, shadingAddress := r.shadingAddress,
              rosterAddress := r.rosterAddress, fallbackR := r.fallbackR, fallbackG := r.fallbackG,
              fallbackB := r.fallbackB }

/-- An order that passes validation (R178): the slot is written RUNNING; a SCAN order with a shading table begins to load it
column by column (R10), one with shading address 0 takes unity values and its roster is written in the free form at once (R11,
R153; the split of the free form into writes is log 18). While a window load is in progress the validation waits. -/
def Obligations.OrderAccepted : Prop :=
  ∀ (s : State) (i : Fin 4) (record : List Byte), s.Settled → record.length = 96 → s.order.part = .starting →
    s.order.recordRead = true → s.order.aborting = false → s.order.chosen = some i →
    let s' := { s with bus := { s.bus with reads := s.readsBut .orderRecord } }
    (∀ o, s.bus.loading = false →
      validate s.bus.windows (OrderRecord.ofBytes record) = .accepted (.calibrate o) →
      exec (.orderRecordReadComplete record) s =
        .next ({ s' with
            order := { s.order with recordRead := false, waiting := none, current := some (.calibrate o) } }.withWrites
          [s.slotWrite i 2 .startLast]))
    ∧ (∀ o, s.bus.loading = false → o.shadingAddress ≠ 0 →
      validate s.bus.windows (OrderRecord.ofBytes record) = .accepted (.scan o) →
      ∃ reads : List BusRead,
        exec (.orderRecordReadComplete record) s =
          .next (({ s' with
              order := { s.order with
                recordRead := false, waiting := none, current := some (.scan o), shadingReads := true }
              intake := { s.intake with shading := .loading } }.withWrites
            [s.slotWrite i 2 .silent]).withReads reads)
        ∧ reads.length = o.width
        ∧ ∀ c, c < o.width → reads[c]? = some
            { site := .shadingEntry, address := o.shadingAddress + 20 * c, bytes := 20, plate := 0xFFFF, frame := 0,
              stage := if c = 0 then ReadStage.made else ReadStage.waiting })
    ∧ (∀ o, s.bus.loading = false → o.shadingAddress = 0 →
      validate s.bus.windows (OrderRecord.ofBytes record) = .accepted (.scan o) →
      exec (.orderRecordReadComplete record) s =
        .next ({ s' with
            order := { s.order with recordRead := false, waiting := none, current := some (.scan o) }
            intake := { s.intake with
              shading := .loaded, hot := 0, dead := 0
              copy := List.replicate o.width
                { dark := { r := 0, g := 0, b := 0, ir := 0 }
                  gain := { r := 16384, g := 16384, b := 16384, ir := 16384 }, hot := false, dead := false } }
            mapper := { s.mapper with faults := [] } }.withWrites
          (s.slotWrite i 2 .silent :: rosterFreeForms o o.expectedFrames 1)))
    ∧ (s.bus.loading = true →
      exec (.orderRecordReadComplete record) s = .next { s' with
        order := { s.order with recordRead := false, waiting := some (OrderRecord.ofBytes record) } })

/-- An order that fails validation (R180): the part is IDLE, and the result area with the reason (field by field, log 18), the slot
word REFUSED and the advanced orders tally are issued in that order. -/
def Obligations.OrderRefused : Prop :=
  ∀ (s : State) (i : Fin 4) (record : List Byte) (reason : Reason), s.Settled → record.length = 96 →
    s.order.part = .starting → s.order.recordRead = true → s.order.aborting = false → s.order.chosen = some i →
    s.bus.loading = false → validate s.bus.windows (OrderRecord.ofBytes record) = .refused reason →
    ∃ t, exec (.orderRecordReadComplete record) s = .next t
      ∧ t.order.part = .idle ∧ t.order.chosen = none ∧ t.order.recordRead = false
      ∧ t.order.ordersTally = s.order.ordersTally + 1 ∧ t.order.endWrites = true ∧ t.order.follows = true
      ∧ t.bus.inFlight =
        s.bus.inFlight ++ s.resultArea i (Results.only reason) .grouped
          ++ [s.slotWrite i 6 .silent .grouped, s.tallyWrite .grouped]
      ∧ t.reg = s.reg ∧ t.mem = s.mem ∧ t.cal = s.cal

/-- The shading copy is LOADED (R10, R88): its columns, the column fault list, and the free-form writes of the roster (R153, R178),
each free form one write of 638 bytes and one of its state (log 18), all put in flight in this step (log 5). -/
def Obligations.ShadingLoaded : Prop :=
  ∀ (s : State) (o : ScanOrder) (table : List Byte), s.Settled → s.order.part = .starting → s.intake.shading = .loading →
    s.order.current = some (.scan o) → table.length = 20 * o.width →
    insideWindow s.bus.windows o.rosterAddress (o.expectedFrames * 640) = true →
    ∃ copy faults, exec (.shadingLoadComplete table) s =
        .next ({ s with
            order := { s.order with shadingReads := false }
            bus := { s.bus with reads := s.readsBut .shadingEntry }
            intake := { s.intake with
              shading := .loaded, copy := copy, hot := (copy.filter ShadingColumn.hot).length,
              dead := (copy.filter ShadingColumn.dead).length }
            mapper := { s.mapper with faults := faults } }.withWrites (rosterFreeForms o o.expectedFrames 1))
      ∧ copy.length = o.width
      ∧ (∀ c, c < o.width → copy[c]? = some (ShadingColumn.ofBytes ((table.drop (20 * c)).take 20)))
      ∧ faults.Pairwise (· < ·)
      ∧ ∀ c, c ∈ faults ↔ ∃ col, copy[c]? = some col ∧ (col.hot = true ∨ col.dead = true)

/-- The start's last write ends (R178 step 5): the part enters RUNNING and the blocks take up the order (R4, R7, R18, R32, R46,
R89, R106, R126, R132). (The model's own: the writes before it land with its reported end, and those whose end is reported by a
command of its own stay to be reported, log 3.) The order line bytes B0 are those of the FIXED crop columns, or in EDGE mode of
the whole width (R126). -/
def Obligations.StartCompletes : Prop :=
  (∀ o : ScanOrder,
    orderLineBytes o =
      (if o.cropMode = .fixed then ((fixedCrop o).right - (fixedCrop o).left) / o.decimation + 1
        else (o.width - 1) / o.decimation + 1) * 3 * (o.depth / 8))
  ∧ ∀ (s : State) (early late : List BusWrite) (w : BusWrite), s.Settled → s.order.part = .starting →
    s.order.aborting = false → s.bus.inFlight = early ++ w :: late → w.mark = .startLast →
    (∀ v ∈ early, v.mark ≠ .startLast) →
    ∃ t, exec .startWritesComplete s = .next t
      ∧ t.order = { s.order with part := .running, gathered := none }
      ∧ t.intake = { s.intake with arrival := 0, malformed := 0 } ∧ t.reg = s.reg
      ∧ t.bus.inFlight = stillTracked early ++ late ∧ t.mem = landAll s.mem (early ++ [w])
      ∧ (∀ o, s.order.current = some (.calibrate o) →
        t.cal.pass = .darkPass ∧ t.cal.passLines = 0 ∧ t.cal.hot = 0 ∧ t.cal.dead = 0 ∧ t.cal.faulted = 0
          ∧ t.cal.excess = 0
          ∧ (∀ c, c < o.width → t.cal.darkSums[c]? = some zeroQuad ∧ t.cal.brightSums[c]? = some zeroQuad)
          ∧ ∀ c, o.width ≤ c → t.cal.darkSums.getD c zeroQuad = s.cal.darkSums.getD c zeroQuad
            ∧ t.cal.brightSums.getD c zeroQuad = s.cal.brightSums.getD c zeroQuad)
      ∧ ∀ o, s.order.current = some (.scan o) →
        t.tracker = { Tracker.reset with state := .leader }
          ∧ t.store = { LineStore.reset with
              levels := some
                { rv := o.rv, delay := max o.rv (o.insetBottom + o.minGap), setLevel := 56 - o.rv,
                  clearLevel := 40 - o.rv } }
          ∧ t.mapper.params = some { irSeed := o.irSeed, thr := o.thr, growth := o.growth }
          ∧ (∀ c, c < o.width → t.mapper.ref[c]? = some o.irSeed)
          ∧ t.fill.params = some { rv := o.rv, hmax := o.hmax, enable := o.fillEnable }
          ∧ t.writer.state = .ready ∧ t.writer.stop = false ∧ t.writer.waitFlag = false ∧ t.writer.framesReady = 0
          ∧ t.writer.framesDamaged = 0 ∧ t.writer.platesRefused = 0
          ∧ t.writer.lineBytes = some (orderLineBytes o) ∧ t.bus.credit = 4 * orderLineBytes o

/-! ### Line writes -/

/-- A fill ends (R121, R127, R130, R137): the filled line's counts join its frame's, and the converted line's bursts are issued
in order. (Issuing them all in this step is log 5; that the unit keeps the three counts in IDLE is log 24.) -/
def Obligations.FillEnds : Prop :=
  ∀ (s : State) (o : ScanOrder) (params : FillParams) (l : LineInHand) (lw : LineWrite), s.Settled →
    s.fill.state = .filling → s.fill.line = some l → s.fill.params = some params → s.writer.write = some lw →
    s.order.current = some (.scan o) → lw.discarded = false →
    let ps := fillLine params l
    let bytes := convertLine o.film s.conversionBase o.depth ps
    bytes ≠ [] → insideWindow s.bus.windows lw.place bytes.length = true →
    exec .fillComplete s =
      .next ({ s with
          fill := { s.fill with
            state := .idle, line := none, pixel := none, defect := countDefect ps, filled := countFilled ps,
            unfilled := countUnfilled ps }
          writer := s.writer.onRecord lw.frame fun r =>
            { r with
              defect := r.defect + countDefect ps, filled := r.filled + countFilled ps,
              unfilled := r.unfilled + countUnfilled ps } }.withWrites
        ((splitBursts bytes.length lw.place bytes).map (plateBurst lw)))

/-- A burst completes (R137, R138): its bytes, and those of every write before it, are in memory. The last of a line counts it, if
no burst of it failed, was left unissued (R143) or is of a frame that is gone, and `afterLine` says what follows. Written out: in
RUNNING, an undecided new head being left waiting, and suspended from RUNNING, the head is removed and the line counted in its frame and
in the last entry of its plate list. Where that leaves the leading
record, closed, at its completion point (R129), its completion writes follow (R156, R157): the fields of its entry, FILLED for the
plates last written TAKEN, READY or DAMAGED, and the advanced frames tally; the record and its plate go, and the next record becomes
leading (R154). In FINISHING, where no line and no other frame is left, the order then ends DONE (R142, R181): the result area, the
slot word and the advanced orders tally follow; while it is suspended from FINISHING the end is held. (The order of the fields of
an entry and of the result area is log 18; that memory changes with the reported end is log 3; that an order that has ended has no
record copy is log 24.) -/
def Obligations.BurstCompletes : Prop :=
  ∀ (s : State) (early late : List BusWrite) (w : BusWrite), s.Settled → s.bus.inFlight = early ++ w :: late →
    w.mark = .burst → (∀ v ∈ early, v.mark ≠ .burst) →
    let rest := stillTracked early ++ late
    let landed := landAll s.mem (early ++ [w])
    ((∃ v ∈ late, v.mark = .burst) →
      exec .burstComplete s = .next { s with bus := { s.bus with inFlight := rest }, mem := landed })
    ∧ (∀ o lw, (∀ v ∈ late, v.mark ≠ .burst) → s.order.part ∈ [.running, .suspended, .finishing] →
      s.order.current = some (.scan o) → s.writer.state ∈ [.writing, .aborting] → s.writer.write = some lw →
      exec .burstComplete s = .next ({ s with
        bus := { s.bus with inFlight := rest }
        mem := landed
        writer := { s.writer with
          records :=
            if lw.errored = true ∨ lw.discarded = true ∨ lw.cut = true then s.writer.records
            else s.writer.records.map fun (r : FrameRecord) =>
              if r.number = lw.frame ∧ r.doomed = false then
                ({ r with outLines := r.outLines + 1, plateList := countOnLast r.plateList } : FrameRecord) else r } }.afterLine
        o lw).settle)
    ∧ (∀ o lw e entries, (∀ v ∈ late, v.mark ≠ .burst) →
      (s.order.part = .running ∧ ∀ e' ∈ entries, e'.fate = .undecided)
        ∨ (s.order.part = .suspended ∧ s.order.origin = some .running) → s.order.current = some (.scan o) →
      s.writer.state = .writing → s.writer.write = some lw → lw.errored = false → lw.discarded = false → lw.cut = false →
      s.store.pending = e :: entries →
      let counted := s.writer.records.map fun (r : FrameRecord) =>
        if r.number = lw.frame ∧ r.doomed = false then
          ({ r with outLines := r.outLines + 1, plateList := countOnLast r.plateList } : FrameRecord) else r
      ((∀ r ∈ s.writer.records, r.closed = false) →
        exec .burstComplete s = .next { s with
          bus := { s.bus with inFlight := rest }
          mem := landed
          store := s.store.removeHead false
          writer := { s.writer with state := .ready, write := none, records := counted } }
        ∧ (s.store.removeHead false).pending = entries)
      ∧ ∀ r others, counted = r :: others → r.closed = true → r.doomed = false →
        (∀ e' ∈ entries, e'.frame ≠ some r.number) → (∀ r' ∈ others, r'.closed = false) →
        insideWindow s.bus.windows o.rosterAddress (o.expectedFrames * 640) = true →
        (∀ r' ∈ r :: others, 1 ≤ r'.number ∧ r'.number ≤ o.expectedFrames) → r.plateList.length ≤ 64 →
        (∀ p ∈ r.plateList, p.index < 256) →
        ∃ t owners, exec .burstComplete s = .next t
          ∧ t = { s with
              order := { s.order with framesTally := s.order.framesTally + 1 }
              mem := landed
              store := s.store.removeHead false
              writer := { s.writer with
                state := .ready, write := none
                records := leadingFilled others
                plate := if s.writer.plate.any fun p => p.frame == r.number then none else s.writer.plate
                framesReady := if r.damage.isSome then s.writer.framesReady else s.writer.framesReady + 1
                framesDamaged := if r.damage.isSome then s.writer.framesDamaged + 1 else s.writer.framesDamaged
                owners := owners }
              bus := { s.bus with inFlight := rest ++ s.completion o r ++ leadingEntry o others } }
          ∧ ∀ k, lastOwner owners k =
              if (∃ p ∈ r.plateList, p.index = k) ∧ lastOwner s.writer.owners k = some .taken then some .filled
              else lastOwner s.writer.owners k)
    ∧ ∀ o lw e r base (i : Fin 4), (∀ v ∈ late, v.mark ≠ .burst) → s.order.current = some (.scan o) →
      s.order.chosen = some i → s.writer.state = .writing → s.writer.write = some lw → lw.errored = false →
      lw.discarded = false → lw.cut = false → s.store.pending = [e] → s.tracker.base = some base →
      (s.writer.records.map fun (r : FrameRecord) =>
        if r.number = lw.frame ∧ r.doomed = false then
          ({ r with outLines := r.outLines + 1, plateList := countOnLast r.plateList } : FrameRecord) else r) = [r] →
      r.closed = true → r.doomed = false → 1 ≤ r.number → r.number ≤ o.expectedFrames → r.plateList.length ≤ 64 →
      (∀ p ∈ r.plateList, p.index < 256) → insideWindow s.bus.windows o.rosterAddress (o.expectedFrames * 640) = true →
      let ready := if r.damage.isSome then s.writer.framesReady else s.writer.framesReady + 1
      let damaged := if r.damage.isSome then s.writer.framesDamaged + 1 else s.writer.framesDamaged
      let completed := rest ++ s.completion o r
      (s.order.part = .finishing →
        ∃ t, exec .burstComplete s = .next t
          ∧ t.order.part = .idle ∧ t.order.chosen = none ∧ t.order.current = none ∧ t.order.heldEnd = false
          ∧ t.order.framesTally = s.order.framesTally + 1 ∧ t.order.ordersTally = s.order.ordersTally + 1
          ∧ t.order.endWrites = true ∧ t.order.follows = true
          ∧ t.bus.inFlight =
            completed ++ s.resultArea i (s.finalResults base ready damaged) .grouped
              ++ [s.slotWrite i 4 .silent .grouped, s.tallyWrite .grouped]
          ∧ t.mem = landed ∧ t.reg = s.reg ∧ t.intake.shading = .empty
          ∧ t.tracker = Tracker.reset ∧ t.store.pending = [] ∧ t.store.context = [] ∧ t.store.hold = false
          ∧ t.writer.state = .off ∧ t.writer.records = [] ∧ t.writer.plate = none)
      ∧ (s.order.part = .suspended → s.order.origin = some .finishing →
        ∃ t, exec .burstComplete s = .next t
          ∧ t.order = { s.order with heldEnd := true, framesTally := s.order.framesTally + 1 }
          ∧ t.bus.inFlight = completed ∧ t.mem = landed ∧ t.reg = s.reg
          ∧ t.store.pending = [] ∧ t.writer.state = .ready ∧ t.writer.records = []
          ∧ t.writer.framesReady = ready ∧ t.writer.framesDamaged = damaged)

/-- A burst ends in a bus error (R139, R140, R185). The first error of a line: of its bursts those that had been issued stay in flight
(a free number, log 5); the plate is written REFUSED, is counted and is no longer current, the fault record is replaced and written, and
the frame, if it has not been discarded, is damaged; no cause is raised and the part state stays. A further error of the line changes
nothing. When no burst is left the line, not counted, ends: `afterLine`. Written out: the head removed in RUNNING and FINISHING, an
undecided new head being left waiting, and in SUSPENDED; and the last line of an order, whose frame then completes DAMAGED and whose
order ends DONE (R142, R156, R181), or has its end held. Of memory only the failed burst's bytes may change beside those of the writes
before it (which of them is free, log 4; log 3). (The order of fields is log 18, that an order that has ended has no record copy and its
tracker the reset values log 24.) -/
def Obligations.BurstFails : Prop :=
  ∀ (s : State) (early late : List BusWrite) (w : BusWrite) (o : ScanOrder) (lw : LineWrite),
    s.Settled → s.bus.inFlight = early ++ w :: late → w.mark = .burst → w.landed = false → (∀ v ∈ early, v.mark ≠ .burst) →
    s.order.part ∈ [.running, .suspended, .finishing] → s.order.current = some (.scan o) →
    s.writer.state ∈ [.writing, .aborting] → s.writer.write = some lw → lw.plate < 256 →
    let rest := stillTracked early ++ late
    let around := fun (m : Memory) => ∀ a, ¬ w.covers a → Memory.get m a = Memory.get (landAll s.mem early) a
    let ends := fun (u t : State) =>
      ((∃ v ∈ u.bus.inFlight, v.mark = .burst) → t = u)
        ∧ ((∀ v ∈ u.bus.inFlight, v.mark ≠ .burst) → t = (u.afterLine o lw).settle)
    let refusal := [s.plateField lw.plate 0x8 lw.frame (word 4),
      s.blockField 0x18 (half 4 ++ half 0 ++ word w.address ++ half lw.plate ++ half lw.frame) .silent]
    let record : FaultRecord := { kind := .plate, address := w.address, plate := lw.plate, frame := lw.frame, repeats := 0 }
    let damaged := s.writer.records.map fun (r : FrameRecord) =>
      if r.number = lw.frame ∧ r.doomed = false then
        ({ r with damage := some .busError, flags := { r.flags with busError := true } } : FrameRecord) else r
    (lw.errored = true →
      ∃ t mem free, exec .plateBurstBusError s = .next t ∧ around mem
        ∧ ends { s with bus := { s.bus with inFlight := rest }, mem := mem, free := free } t)
    ∧ (lw.errored = false →
      (∃ t mem free quota, exec .plateBurstBusError s = .next t ∧ around mem
        ∧ ends { s with
            order := { s.order with faultRec := record }
            bus := { s.bus with inFlight := keepIssued isBurst quota rest ++ refusal }
            mem := mem, free := free
            writer := { s.writer with
              plate := none, platesRefused := s.writer.platesRefused + 1
              owners := setOwner s.writer.owners lw.plate .refused, write := some { lw with errored := true }
              records := if lw.discarded then s.writer.records else damaged } } t)
      ∧ (∀ e entries, (∀ v ∈ late, v.mark ≠ .burst) → s.writer.state = .writing → lw.discarded = false →
        s.store.pending = e :: entries → s.order.part = .suspended ∨ (∀ e' ∈ entries, e'.fate = .undecided) →
        s.order.part = .running ∨ s.writer.records ≠ [] → (∀ r ∈ s.writer.records, r.closed = false) →
        ∃ t, exec .plateBurstBusError s = .next t
          ∧ t.order = { s.order with faultRec := record } ∧ t.bus.inFlight = rest ++ refusal ∧ t.bus.reads = s.bus.reads
          ∧ t.reg = s.reg ∧ t.store = s.store.removeHead false ∧ t.tracker = s.tracker ∧ t.intake = s.intake
          ∧ t.writer = { s.writer with
              state := .ready, write := none, plate := none, platesRefused := s.writer.platesRefused + 1
              owners := setOwner s.writer.owners lw.plate .refused, records := damaged }
          ∧ around t.mem)
      ∧ ∀ e r base (i : Fin 4), (∀ v ∈ late, v.mark ≠ .burst) → s.writer.state = .writing → lw.discarded = false →
        s.store.pending = [e] → s.order.chosen = some i → s.tracker.base = some base → damaged = [r] → r.closed = true →
        r.doomed = false → r.damage.isSome → 1 ≤ r.number → r.number ≤ o.expectedFrames → r.plateList.length ≤ 64 →
        (∀ p ∈ r.plateList, p.index < 256) →
        insideWindow s.bus.windows o.rosterAddress (o.expectedFrames * 640) = true →
        let returned := { s with
          writer := { s.writer with owners := setOwner s.writer.owners lw.plate .refused } }.completion o r
        let completed := rest ++ refusal ++ returned
        let results :=
          { s.finalResults base s.writer.framesReady (s.writer.framesDamaged + 1) with
            platesRefused := s.writer.platesRefused + 1 }
        (s.order.part = .finishing →
          ∃ t, exec .plateBurstBusError s = .next t
            ∧ t.order.part = .idle ∧ t.order.chosen = none ∧ t.order.faultRec = record
            ∧ t.order.framesTally = s.order.framesTally + 1 ∧ t.order.ordersTally = s.order.ordersTally + 1
            ∧ t.bus.inFlight =
              completed ++ s.resultArea i results .grouped ++ [s.slotWrite i 4 .silent .grouped, s.tallyWrite .grouped]
            ∧ around t.mem ∧ t.reg = s.reg ∧ t.writer.state = .off ∧ t.writer.records = [])
        ∧ (s.order.part = .suspended → s.order.origin = some .finishing →
          ∃ t, exec .plateBurstBusError s = .next t
            ∧ t.order =
              { s.order with faultRec := record, heldEnd := true, framesTally := s.order.framesTally + 1 }
            ∧ t.bus.inFlight = completed ∧ around t.mem ∧ t.reg = s.reg ∧ t.store.pending = []
            ∧ t.writer.state = .ready ∧ t.writer.records = []))

/-! ### Ends of orders -/

/-- The tallies written, and with them every write before them: FRAME_DONE, in every part state, FAULT included (R157; in FAULT that is
the model's reading, log 11); ORDER_DONE, but in FAULT (R184; log 11), and a selection follows in IDLE where the end of an order or a
LOOK asks for one and none is in progress (R177, R181; log 13). (Memory changes with the reported end, and writes whose end is reported
by a command of its own stay to be reported, log 3.) -/
def Obligations.TalliesEnd : Prop :=
  ∀ (s : State) (early late : List BusWrite) (w : BusWrite), s.Settled → s.bus.inFlight = early ++ w :: late →
    let landed := { s with
      bus := { s.bus with inFlight := stillTracked early ++ late }
      mem := landAll s.mem (early ++ [w]) }
    (w.mark = .framesTally → (∀ v ∈ early, v.mark ≠ .framesTally) →
      exec .framesTallyWriteComplete s = .next { landed with reg := { s.reg with cause := s.reg.cause ||| 0x01#6 } })
    ∧ (w.mark = .ordersTally → (∀ v ∈ early, v.mark ≠ .ordersTally) →
      let ended := { landed with order := { s.order with endWrites := false } }
      let raised := { ended with reg := { s.reg with cause := s.reg.cause ||| 0x02#6 } }
      let follows := s.order.part = .idle ∧ (s.order.follows = true ∨ s.order.selectionRequest = true)
        ∧ s.order.selecting = false
      (s.order.part = .fault → exec .orderTallyWriteComplete s = .next ended)
      ∧ (follows →
        exec .orderTallyWriteComplete s =
          .next ({ raised with
            order := { s.order with endWrites := false, selecting := true, follows := false } }.withReads s.selectionReads))
      ∧ (¬ follows → s.order.part ∉ [.fault, .inReset] → exec .orderTallyWriteComplete s = .next raised))

/-- The last entry of a shading table is written, and with it every entry and every write before it (R25, R26, R181): the order ends
DONE, or FAILED with SENSOR when more than 64 columns are faulted; while it is suspended from FINISHING its end is held; in an abort
sequence and in FAULT the unit makes no report (R27, R28). (The model's own: the entries of a table are in flight together, log 5, and
land with the reported end, log 3; the result area goes field by field, log 18; a malformed count above 2^32 - 1 reads a free value,
log 23; an order that has ended has no record copy, log 24.) -/
def Obligations.TableWritten : Prop :=
  ∀ (s : State) (early late : List BusWrite) (w : BusWrite) (o : CalOrder) (i : Fin 4), s.Settled →
    s.bus.inFlight = early ++ w :: late → w.mark = .tableLast → (∀ v ∈ early, v.mark ≠ .tableLast) →
    s.order.current = some (.calibrate o) → s.order.chosen = some i →
    let rest := stillTracked early ++ late
    let landed := landAll s.mem (early ++ [w])
    (s.cal.pass = .writing → s.order.part ∈ [.finishing, .suspended] → s.order.aborting = false →
      ∃ t, exec .shadingTableWritten s = .next t
        ∧ t.cal = { s.cal with pass := .idle } ∧ t.mem = landed ∧ t.reg = s.reg
        ∧ (s.order.part = .finishing →
          let sensor := decide (64 < s.cal.faulted)
          let results : Results :=
            { Results.only (if sensor then .sensor else .none) with
              source := 2, excess := s.cal.excess, malformed := s.intake.malformed, hot := s.cal.hot, dead := s.cal.dead }
          t.order.part = .idle ∧ t.order.current = none ∧ t.order.ordersTally = s.order.ordersTally + 1
          ∧ t.bus.inFlight =
            rest ++ s.resultArea i results .grouped
              ++ [s.slotWrite i (if sensor then 5 else 4) .silent .grouped, s.tallyWrite .grouped])
        ∧ (s.order.part = .suspended →
          t.order.part = .suspended ∧ t.order.heldEnd = true ∧ t.order.current = s.order.current
          ∧ t.bus.inFlight = rest))
    ∧ (s.order.aborting = true ∨ s.order.part = .fault →
      exec .shadingTableWritten s = .next { s with bus := { s.bus with inFlight := rest }, mem := landed })

/-- The drain of an abort (R28, R43, R143, R158, R183): an order aborted in STARTING, a CALIBRATE order aborted in WRITING, and a
SCAN order aborted later, whose records are written ABORTED and whose store is emptied. Each ends with the result area, the slot
word FAILED and the advanced orders tally, the sequel of the sequence (log 31). (The model's own: which aborts wait for this drain
is log 8; that every record is written ABORTED, one whose discard waited for its line included, is log 9; what memory holds and which
earlier writes stay in flight after it is log 3; the order of the result area's and of an entry's fields is log 18.) -/
def Obligations.AbortDrains : Prop :=
  ∀ (s : State) (i : Fin 4), s.Settled → s.order.aborting = true → s.order.chosen = some i →
    (∀ w ∈ s.bus.inFlight, w.mark ≠ .burst) →
    let ended := fun (t : State) =>
      t.order.part = .idle ∧ t.order.aborting = false ∧ t.order.chosen = none ∧ t.order.suspendHold = false
        ∧ t.order.ordersTally = s.order.ordersTally + 1 ∧ t.order.endWrites = true ∧ t.intake.shading = .empty
        ∧ t.reg = s.reg
    let ends := fun (results : Results) =>
      s.resultArea i results .sequel ++ [s.slotWrite i 5 .silent .sequel, s.tallyWrite .sequel]
    let drained := fun (t : State) (own : BusWrite → Bool) (results : Results) =>
      ended t ∧ ∃ ws, s.DrainsTo own ws t.mem ∧ t.bus.inFlight = ws ++ ends results
    (s.order.part = .starting →
      ∃ t, exec .abortDrainComplete s = .next t
        ∧ drained t
          (fun w => w.kind == .roster || w.mark == .startLast
            || (w.kind == .block && w.address == s.blockBase + (0x200 + 256 * i.val)))
          { Results.only .aborted with
            source := 2, hot := if s.intake.shading = .loaded then s.intake.hot else 0
            dead := if s.intake.shading = .loaded then s.intake.dead else 0 })
    ∧ (∀ o g, s.order.part ∈ [.running, .suspended, .finishing] → s.order.current = some (.calibrate o) →
      s.order.gathered = some g →
      ∃ t, exec .abortDrainComplete s = .next t
        ∧ drained t (fun w => w.kind == .shading)
          { Results.only .aborted with
            source := 2, excess := g.excess, malformed := s.intake.malformed, hot := g.hot, dead := g.dead }
        ∧ t.cal = { s.cal with pass := .idle } ∧ (∀ w ∈ t.bus.inFlight, w.kind ≠ .shading))
    ∧ ∀ o g, s.order.part ∈ [.running, .suspended, .finishing] → s.order.current = some (.scan o) →
      s.order.gathered = some g → insideWindow s.bus.windows o.rosterAddress (o.expectedFrames * 640) = true →
      (∀ r ∈ s.writer.records, 1 ≤ r.number ∧ r.number ≤ o.expectedFrames ∧ r.plateList.length ≤ 64
        ∧ ∀ p ∈ r.plateList, p.index < 256) →
      ∃ t, exec .abortDrainComplete s = .next t
        ∧ ended t ∧ t.bus.inFlight = s.bus.inFlight ++ s.abortEntries o [] s.writer.records ++ ends
          { reason := .aborted, source := g.source.code, ready := s.writer.framesReady, damaged := s.writer.framesDamaged,
            slivers := g.slivers, lost := s.store.lost, excess := g.excess, malformed := s.intake.malformed,
            platesRefused := s.writer.platesRefused, baseR := g.baseR, baseG := g.baseG, baseB := g.baseB,
            hot := s.intake.hot, dead := s.intake.dead }
        ∧ t.mem = s.mem
        ∧ t.store.pending = [] ∧ t.store.context = [] ∧ t.store.hold = false
        ∧ t.writer.state = .off ∧ t.writer.records = [] ∧ t.writer.plate = none ∧ t.writer.stop = false
        ∧ t.writer.scanPos = s.writer.scanPos
        ∧ ∀ k, lastOwner t.writer.owners k =
            if (∃ r ∈ s.writer.records, ∃ p ∈ r.plateList, p.index = k) ∧ lastOwner s.writer.owners k = some .taken
            then some .given else lastOwner s.writer.owners k

/-! ### Bus errors and FAULT -/

/-- A bus error on the exchange with the host (R184): the part enters FAULT with the fault hold and the cause set and the record
of the failed access, whatever its state was but IN_RESET; tracker and store keep their state; during a SCAN order, its start
included, the writer is HALTED (R144; before validation no order is a SCAN order, log 38). Every write and read that had been
issued stays in flight, the reads with their data discarded; no end write of an abort sequence stays (R183, log 31), and of the other
writes of a group those that had been issued (a free number, log 5). The suspend hold and the writer's stop flag stay as they stand
(R182, R144), and where the slot word FAILED of an abort sequence had not been issued, as they stood before it (log 31). A bus error on a read that is not in flight changes nothing
(log 6). (Also the model's own: what memory holds is log 3; the place a failed address names is log 17; the frame number of a failed
plate entry read, which its read carries, is log 22; the failed address of a write, its first, is log 35.) -/
def Obligations.ErrorEntersFault : Prop :=
  ∀ s : State, s.Settled → s.Active →
    let faulted := fun (t : State) (record : FaultRecord) (behind : List BusWrite) =>
      let withheld := ∃ w ∈ behind, w.pace = .sequel ∧ w.landed = false ∧ w.mark = .silent
      (withheld → t.order.suspendHold = s.order.atEnd.hold ∧ t.writer.stop = s.order.atEnd.stop)
        ∧ (¬ withheld → t.order.suspendHold = s.order.suspendHold ∧ t.writer.stop = s.writer.stop)
        ∧ t.order.part = .fault ∧ t.order.origin = none ∧ t.order.aborting = false ∧ t.order.faultHold = true
        ∧ t.order.faultRec = record ∧ t.holdOut = true
        ∧ t.reg = { s.reg with cause := s.reg.cause ||| 0x20#6 } ∧ t.tracker = s.tracker ∧ t.store = s.store
        ∧ (t.writer.state =
          if s.writer.state = WriterState.off ∧ s.scanOrder = none ∧ ¬ (withheld ∧ s.order.atEnd.scan = true)
          then WriterState.off else WriterState.halted)
        ∧ t.writer.waitFlag = s.writer.waitFlag ∧ t.writer.records = s.writer.records
        ∧ (∀ w ∈ t.bus.inFlight, w.landed = true ∨ w.pace = .issued) ∧ (∀ r ∈ t.bus.reads, r.stage = .dropped)
    (∀ (k : Nat) (r : BusRead) (address : Word), s.bus.reads[k]? = some r → r.address ≤ address.toNat →
      address.toNat < r.address + r.bytes →
      (∀ j q, j < k → s.bus.reads[j]? = some q → q.site = r.site →
        address.toNat < q.address ∨ q.address + q.bytes ≤ address.toNat) →
      ∃ t, exec (.exchangeBusError (.read r.site address)) s = .next t
        ∧ faulted t
          { kind := if r.site = .shadingEntry then FaultKind.shading else FaultKind.block, address := address.toNat
            plate := r.plate, frame := r.frame, repeats := 0 } s.bus.inFlight
        ∧ (r.site = .windowSource → t.bus.loading = false)
        ∧ t.mem = s.mem ∧ (∀ w ∈ t.bus.inFlight, ∃ v ∈ s.bus.inFlight, sameAccess v w)
        ∧ ∀ w ∈ s.bus.inFlight, w.landed = true ∨ w.pace = .issued → w ∈ t.bus.inFlight)
    ∧ (∀ (site : ReadSite) (address : Word),
      (∀ r ∈ s.bus.reads, r.site = site → address.toNat < r.address ∨ r.address + r.bytes ≤ address.toNat) →
      exec (.exchangeBusError (.read site address)) s = .next s)
    ∧ ∀ (k : Nat) (w : BusWrite), s.bus.inFlight[k]? = some w → w.landed = false → w.mark ≠ .burst →
      ∃ t, exec (.exchangeBusError (.write k)) s = .next t
        ∧ faulted t
          { kind := w.kind.fault, address := w.address, plate := w.plate, frame := w.frame, repeats := 0 }
          (s.bus.inFlight.drop (k + 1))
        ∧ (w.kind = .shading → t.cal.pass = .idle)
        ∧ (∀ v ∈ s.bus.inFlight.drop (k + 1), v.landed = true ∨ v.pace = .issued → v ∈ t.bus.inFlight)
        ∧ ∀ a, ¬ w.covers a → Memory.get t.mem a = Memory.get (landAll s.mem (s.bus.inFlight.take k)) a

/-- FAULT until its last access (R184, R157): a further bus error on a write or a read in flight counts, up to 255; when every access
has ended the fault record is written, once, and a frames tally among them raises FRAME_DONE (log 11). (The model's own: what counts
as a further error is log 29, what memory holds after one and after the drain log 3; that a failed entry write of a shading table
leaves the pass state as it is, a failed shading read the copy and a failed source read the window load, is log 34.) -/
def Obligations.FaultDrains : Prop :=
  ∀ s : State, s.Settled → s.order.part = .fault →
    let counted := { s.order with
      faultRec := { s.order.faultRec with repeats := min (s.order.faultRec.repeats + 1) 255 } }
    (∀ (k : Nat) (w : BusWrite), s.bus.inFlight[k]? = some w → w.landed = false →
      ∃ t, exec (.busErrorInFault (.write k)) s = .next t
        ∧ t.order = counted ∧ t.reg = s.reg ∧ t.writer = s.writer ∧ t.cal = s.cal
        ∧ ∀ a, ¬ w.covers a → Memory.get t.mem a = Memory.get (landAll s.mem (s.bus.inFlight.take k)) a)
    ∧ (∀ (site : ReadSite) (address : Word),
      let covers := fun (r : BusRead) => r.site = site ∧ r.address ≤ address.toNat ∧ address.toNat < r.address + r.bytes
      ((∃ r ∈ s.bus.reads, covers r) →
        ∃ reads, exec (.busErrorInFault (.read site address)) s =
            .next { s with order := counted, bus := { s.bus with reads := reads } }
          ∧ reads.length + 1 = s.bus.reads.length)
      ∧ ((∀ r ∈ s.bus.reads, ¬ covers r) → exec (.busErrorInFault (.read site address)) s = .next s))
    ∧ (s.order.faultDrained = false →
      let f := s.order.faultRec
      exec .faultDrainComplete s = .next { s with
        order := { s.order with faultDrained := true }
        reg := { s.reg with
          cause := if ∃ w ∈ s.bus.inFlight, w.mark = .framesTally then s.reg.cause ||| 0x01#6 else s.reg.cause }
        mem := landAll s.mem s.bus.inFlight
        bus := { s.bus with
          reads := []
          inFlight :=
            [s.blockField 0x18 (half f.kind.code ++ half f.repeats ++ word f.address ++ half f.plate ++ half f.frame)
              .silent] } })
    ∧ (s.order.faultDrained = true → exec .faultDrainComplete s = .next s)

/-! ### Invariants -/

/-- The machine after power-on has the invariant of the model. -/
def Obligations.ResetSound : Prop := State.reset.Sound

/-- Every step keeps the invariant: memory's canonical form, four Window Table entries (R171), BLOCK_BASE on its boundary
(R162), at most 64 lines in the store (R30). -/
def Obligations.StepKeepsSound : Prop :=
  ∀ s t : State, s.Sound → step s = .next t → t.Sound

/-- Every write that a step puts in flight lies inside the Exchange Block or inside one loaded window (R173). -/
def Obligations.StepIssuesChecked : Prop :=
  ∀ s t : State, step s = .next t → s.IssuesChecked t

/-- A byte of memory changes only under a write that was in flight before the step and had not landed. -/
def Obligations.MemoryUnderWrites : Prop :=
  ∀ (s t : State) (a : Nat), step s = .next t → Memory.get t.mem a ≠ Memory.get s.mem a →
    ∃ w ∈ s.bus.inFlight, w.landed = false ∧ w.covers a
end

