-- ==== Sys2Proof/Laws/State.lean ====
section
/-! SUPPORT. What each one-block update changes and what it leaves: one lemma per field. -/
namespace Sys2Proof.Machine

/-! onReg -/

@[simp] theorem State.onReg_reg (s : State) (f : RegisterPort → RegisterPort) : (s.onReg f).reg = f s.reg := rfl
@[simp] theorem State.onReg_order (s : State) (f : RegisterPort → RegisterPort) : (s.onReg f).order = s.order := rfl
@[simp] theorem State.onReg_bus (s : State) (f : RegisterPort → RegisterPort) : (s.onReg f).bus = s.bus := rfl
@[simp] theorem State.onReg_intake (s : State) (f : RegisterPort → RegisterPort) : (s.onReg f).intake = s.intake := rfl
@[simp] theorem State.onReg_cal (s : State) (f : RegisterPort → RegisterPort) : (s.onReg f).cal = s.cal := rfl
@[simp] theorem State.onReg_tracker (s : State) (f : RegisterPort → RegisterPort) : (s.onReg f).tracker = s.tracker := rfl
@[simp] theorem State.onReg_store (s : State) (f : RegisterPort → RegisterPort) : (s.onReg f).store = s.store := rfl
@[simp] theorem State.onReg_mapper (s : State) (f : RegisterPort → RegisterPort) : (s.onReg f).mapper = s.mapper := rfl
@[simp] theorem State.onReg_fill (s : State) (f : RegisterPort → RegisterPort) : (s.onReg f).fill = s.fill := rfl
@[simp] theorem State.onReg_writer (s : State) (f : RegisterPort → RegisterPort) : (s.onReg f).writer = s.writer := rfl
@[simp] theorem State.onReg_mem (s : State) (f : RegisterPort → RegisterPort) : (s.onReg f).mem = s.mem := rfl
@[simp] theorem State.onReg_free (s : State) (f : RegisterPort → RegisterPort) : (s.onReg f).free = s.free := rfl
@[simp] theorem State.onReg_pending (s : State) (f : RegisterPort → RegisterPort) : (s.onReg f).pending = s.pending := rfl

/-! onOrder -/

@[simp] theorem State.onOrder_reg (s : State) (f : OrderUnit → OrderUnit) : (s.onOrder f).reg = s.reg := rfl
@[simp] theorem State.onOrder_order (s : State) (f : OrderUnit → OrderUnit) : (s.onOrder f).order = f s.order := rfl
@[simp] theorem State.onOrder_bus (s : State) (f : OrderUnit → OrderUnit) : (s.onOrder f).bus = s.bus := rfl
@[simp] theorem State.onOrder_intake (s : State) (f : OrderUnit → OrderUnit) : (s.onOrder f).intake = s.intake := rfl
@[simp] theorem State.onOrder_cal (s : State) (f : OrderUnit → OrderUnit) : (s.onOrder f).cal = s.cal := rfl
@[simp] theorem State.onOrder_tracker (s : State) (f : OrderUnit → OrderUnit) : (s.onOrder f).tracker = s.tracker := rfl
@[simp] theorem State.onOrder_store (s : State) (f : OrderUnit → OrderUnit) : (s.onOrder f).store = s.store := rfl
@[simp] theorem State.onOrder_mapper (s : State) (f : OrderUnit → OrderUnit) : (s.onOrder f).mapper = s.mapper := rfl
@[simp] theorem State.onOrder_fill (s : State) (f : OrderUnit → OrderUnit) : (s.onOrder f).fill = s.fill := rfl
@[simp] theorem State.onOrder_writer (s : State) (f : OrderUnit → OrderUnit) : (s.onOrder f).writer = s.writer := rfl
@[simp] theorem State.onOrder_mem (s : State) (f : OrderUnit → OrderUnit) : (s.onOrder f).mem = s.mem := rfl
@[simp] theorem State.onOrder_free (s : State) (f : OrderUnit → OrderUnit) : (s.onOrder f).free = s.free := rfl
@[simp] theorem State.onOrder_pending (s : State) (f : OrderUnit → OrderUnit) : (s.onOrder f).pending = s.pending := rfl

/-! onBus -/

@[simp] theorem State.onBus_reg (s : State) (f : BusPort → BusPort) : (s.onBus f).reg = s.reg := rfl
@[simp] theorem State.onBus_order (s : State) (f : BusPort → BusPort) : (s.onBus f).order = s.order := rfl
@[simp] theorem State.onBus_bus (s : State) (f : BusPort → BusPort) : (s.onBus f).bus = f s.bus := rfl
@[simp] theorem State.onBus_intake (s : State) (f : BusPort → BusPort) : (s.onBus f).intake = s.intake := rfl
@[simp] theorem State.onBus_cal (s : State) (f : BusPort → BusPort) : (s.onBus f).cal = s.cal := rfl
@[simp] theorem State.onBus_tracker (s : State) (f : BusPort → BusPort) : (s.onBus f).tracker = s.tracker := rfl
@[simp] theorem State.onBus_store (s : State) (f : BusPort → BusPort) : (s.onBus f).store = s.store := rfl
@[simp] theorem State.onBus_mapper (s : State) (f : BusPort → BusPort) : (s.onBus f).mapper = s.mapper := rfl
@[simp] theorem State.onBus_fill (s : State) (f : BusPort → BusPort) : (s.onBus f).fill = s.fill := rfl
@[simp] theorem State.onBus_writer (s : State) (f : BusPort → BusPort) : (s.onBus f).writer = s.writer := rfl
@[simp] theorem State.onBus_mem (s : State) (f : BusPort → BusPort) : (s.onBus f).mem = s.mem := rfl
@[simp] theorem State.onBus_free (s : State) (f : BusPort → BusPort) : (s.onBus f).free = s.free := rfl
@[simp] theorem State.onBus_pending (s : State) (f : BusPort → BusPort) : (s.onBus f).pending = s.pending := rfl

/-! onIntake -/

@[simp] theorem State.onIntake_reg (s : State) (f : LineIntake → LineIntake) : (s.onIntake f).reg = s.reg := rfl
@[simp] theorem State.onIntake_order (s : State) (f : LineIntake → LineIntake) : (s.onIntake f).order = s.order := rfl
@[simp] theorem State.onIntake_bus (s : State) (f : LineIntake → LineIntake) : (s.onIntake f).bus = s.bus := rfl
@[simp] theorem State.onIntake_intake (s : State) (f : LineIntake → LineIntake) : (s.onIntake f).intake = f s.intake := rfl
@[simp] theorem State.onIntake_cal (s : State) (f : LineIntake → LineIntake) : (s.onIntake f).cal = s.cal := rfl
@[simp] theorem State.onIntake_tracker (s : State) (f : LineIntake → LineIntake) : (s.onIntake f).tracker = s.tracker := rfl
@[simp] theorem State.onIntake_store (s : State) (f : LineIntake → LineIntake) : (s.onIntake f).store = s.store := rfl
@[simp] theorem State.onIntake_mapper (s : State) (f : LineIntake → LineIntake) : (s.onIntake f).mapper = s.mapper := rfl
@[simp] theorem State.onIntake_fill (s : State) (f : LineIntake → LineIntake) : (s.onIntake f).fill = s.fill := rfl
@[simp] theorem State.onIntake_writer (s : State) (f : LineIntake → LineIntake) : (s.onIntake f).writer = s.writer := rfl
@[simp] theorem State.onIntake_mem (s : State) (f : LineIntake → LineIntake) : (s.onIntake f).mem = s.mem := rfl
@[simp] theorem State.onIntake_free (s : State) (f : LineIntake → LineIntake) : (s.onIntake f).free = s.free := rfl
@[simp] theorem State.onIntake_pending (s : State) (f : LineIntake → LineIntake) : (s.onIntake f).pending = s.pending := rfl

/-! onCal -/

@[simp] theorem State.onCal_reg (s : State) (f : CalibrationUnit → CalibrationUnit) : (s.onCal f).reg = s.reg := rfl
@[simp] theorem State.onCal_order (s : State) (f : CalibrationUnit → CalibrationUnit) : (s.onCal f).order = s.order := rfl
@[simp] theorem State.onCal_bus (s : State) (f : CalibrationUnit → CalibrationUnit) : (s.onCal f).bus = s.bus := rfl
@[simp] theorem State.onCal_intake (s : State) (f : CalibrationUnit → CalibrationUnit) : (s.onCal f).intake = s.intake := rfl
@[simp] theorem State.onCal_cal (s : State) (f : CalibrationUnit → CalibrationUnit) : (s.onCal f).cal = f s.cal := rfl
@[simp] theorem State.onCal_tracker (s : State) (f : CalibrationUnit → CalibrationUnit) : (s.onCal f).tracker = s.tracker := rfl
@[simp] theorem State.onCal_store (s : State) (f : CalibrationUnit → CalibrationUnit) : (s.onCal f).store = s.store := rfl
@[simp] theorem State.onCal_mapper (s : State) (f : CalibrationUnit → CalibrationUnit) : (s.onCal f).mapper = s.mapper := rfl
@[simp] theorem State.onCal_fill (s : State) (f : CalibrationUnit → CalibrationUnit) : (s.onCal f).fill = s.fill := rfl
@[simp] theorem State.onCal_writer (s : State) (f : CalibrationUnit → CalibrationUnit) : (s.onCal f).writer = s.writer := rfl
@[simp] theorem State.onCal_mem (s : State) (f : CalibrationUnit → CalibrationUnit) : (s.onCal f).mem = s.mem := rfl
@[simp] theorem State.onCal_free (s : State) (f : CalibrationUnit → CalibrationUnit) : (s.onCal f).free = s.free := rfl
@[simp] theorem State.onCal_pending (s : State) (f : CalibrationUnit → CalibrationUnit) : (s.onCal f).pending = s.pending := rfl

/-! onTracker -/

@[simp] theorem State.onTracker_reg (s : State) (f : Tracker → Tracker) : (s.onTracker f).reg = s.reg := rfl
@[simp] theorem State.onTracker_order (s : State) (f : Tracker → Tracker) : (s.onTracker f).order = s.order := rfl
@[simp] theorem State.onTracker_bus (s : State) (f : Tracker → Tracker) : (s.onTracker f).bus = s.bus := rfl
@[simp] theorem State.onTracker_intake (s : State) (f : Tracker → Tracker) : (s.onTracker f).intake = s.intake := rfl
@[simp] theorem State.onTracker_cal (s : State) (f : Tracker → Tracker) : (s.onTracker f).cal = s.cal := rfl
@[simp] theorem State.onTracker_tracker (s : State) (f : Tracker → Tracker) : (s.onTracker f).tracker = f s.tracker := rfl
@[simp] theorem State.onTracker_store (s : State) (f : Tracker → Tracker) : (s.onTracker f).store = s.store := rfl
@[simp] theorem State.onTracker_mapper (s : State) (f : Tracker → Tracker) : (s.onTracker f).mapper = s.mapper := rfl
@[simp] theorem State.onTracker_fill (s : State) (f : Tracker → Tracker) : (s.onTracker f).fill = s.fill := rfl
@[simp] theorem State.onTracker_writer (s : State) (f : Tracker → Tracker) : (s.onTracker f).writer = s.writer := rfl
@[simp] theorem State.onTracker_mem (s : State) (f : Tracker → Tracker) : (s.onTracker f).mem = s.mem := rfl
@[simp] theorem State.onTracker_free (s : State) (f : Tracker → Tracker) : (s.onTracker f).free = s.free := rfl
@[simp] theorem State.onTracker_pending (s : State) (f : Tracker → Tracker) : (s.onTracker f).pending = s.pending := rfl

/-! onStore -/

@[simp] theorem State.onStore_reg (s : State) (f : LineStore → LineStore) : (s.onStore f).reg = s.reg := rfl
@[simp] theorem State.onStore_order (s : State) (f : LineStore → LineStore) : (s.onStore f).order = s.order := rfl
@[simp] theorem State.onStore_bus (s : State) (f : LineStore → LineStore) : (s.onStore f).bus = s.bus := rfl
@[simp] theorem State.onStore_intake (s : State) (f : LineStore → LineStore) : (s.onStore f).intake = s.intake := rfl
@[simp] theorem State.onStore_cal (s : State) (f : LineStore → LineStore) : (s.onStore f).cal = s.cal := rfl
@[simp] theorem State.onStore_tracker (s : State) (f : LineStore → LineStore) : (s.onStore f).tracker = s.tracker := rfl
@[simp] theorem State.onStore_store (s : State) (f : LineStore → LineStore) : (s.onStore f).store = f s.store := rfl
@[simp] theorem State.onStore_mapper (s : State) (f : LineStore → LineStore) : (s.onStore f).mapper = s.mapper := rfl
@[simp] theorem State.onStore_fill (s : State) (f : LineStore → LineStore) : (s.onStore f).fill = s.fill := rfl
@[simp] theorem State.onStore_writer (s : State) (f : LineStore → LineStore) : (s.onStore f).writer = s.writer := rfl
@[simp] theorem State.onStore_mem (s : State) (f : LineStore → LineStore) : (s.onStore f).mem = s.mem := rfl
@[simp] theorem State.onStore_free (s : State) (f : LineStore → LineStore) : (s.onStore f).free = s.free := rfl
@[simp] theorem State.onStore_pending (s : State) (f : LineStore → LineStore) : (s.onStore f).pending = s.pending := rfl

/-! onMapper -/

@[simp] theorem State.onMapper_reg (s : State) (f : DefectMapper → DefectMapper) : (s.onMapper f).reg = s.reg := rfl
@[simp] theorem State.onMapper_order (s : State) (f : DefectMapper → DefectMapper) : (s.onMapper f).order = s.order := rfl
@[simp] theorem State.onMapper_bus (s : State) (f : DefectMapper → DefectMapper) : (s.onMapper f).bus = s.bus := rfl
@[simp] theorem State.onMapper_intake (s : State) (f : DefectMapper → DefectMapper) : (s.onMapper f).intake = s.intake := rfl
@[simp] theorem State.onMapper_cal (s : State) (f : DefectMapper → DefectMapper) : (s.onMapper f).cal = s.cal := rfl
@[simp] theorem State.onMapper_tracker (s : State) (f : DefectMapper → DefectMapper) : (s.onMapper f).tracker = s.tracker := rfl
@[simp] theorem State.onMapper_store (s : State) (f : DefectMapper → DefectMapper) : (s.onMapper f).store = s.store := rfl
@[simp] theorem State.onMapper_mapper (s : State) (f : DefectMapper → DefectMapper) : (s.onMapper f).mapper = f s.mapper := rfl
@[simp] theorem State.onMapper_fill (s : State) (f : DefectMapper → DefectMapper) : (s.onMapper f).fill = s.fill := rfl
@[simp] theorem State.onMapper_writer (s : State) (f : DefectMapper → DefectMapper) : (s.onMapper f).writer = s.writer := rfl
@[simp] theorem State.onMapper_mem (s : State) (f : DefectMapper → DefectMapper) : (s.onMapper f).mem = s.mem := rfl
@[simp] theorem State.onMapper_free (s : State) (f : DefectMapper → DefectMapper) : (s.onMapper f).free = s.free := rfl
@[simp] theorem State.onMapper_pending (s : State) (f : DefectMapper → DefectMapper) : (s.onMapper f).pending = s.pending := rfl

/-! onFill -/

@[simp] theorem State.onFill_reg (s : State) (f : FillUnit → FillUnit) : (s.onFill f).reg = s.reg := rfl
@[simp] theorem State.onFill_order (s : State) (f : FillUnit → FillUnit) : (s.onFill f).order = s.order := rfl
@[simp] theorem State.onFill_bus (s : State) (f : FillUnit → FillUnit) : (s.onFill f).bus = s.bus := rfl
@[simp] theorem State.onFill_intake (s : State) (f : FillUnit → FillUnit) : (s.onFill f).intake = s.intake := rfl
@[simp] theorem State.onFill_cal (s : State) (f : FillUnit → FillUnit) : (s.onFill f).cal = s.cal := rfl
@[simp] theorem State.onFill_tracker (s : State) (f : FillUnit → FillUnit) : (s.onFill f).tracker = s.tracker := rfl
@[simp] theorem State.onFill_store (s : State) (f : FillUnit → FillUnit) : (s.onFill f).store = s.store := rfl
@[simp] theorem State.onFill_mapper (s : State) (f : FillUnit → FillUnit) : (s.onFill f).mapper = s.mapper := rfl
@[simp] theorem State.onFill_fill (s : State) (f : FillUnit → FillUnit) : (s.onFill f).fill = f s.fill := rfl
@[simp] theorem State.onFill_writer (s : State) (f : FillUnit → FillUnit) : (s.onFill f).writer = s.writer := rfl
@[simp] theorem State.onFill_mem (s : State) (f : FillUnit → FillUnit) : (s.onFill f).mem = s.mem := rfl
@[simp] theorem State.onFill_free (s : State) (f : FillUnit → FillUnit) : (s.onFill f).free = s.free := rfl
@[simp] theorem State.onFill_pending (s : State) (f : FillUnit → FillUnit) : (s.onFill f).pending = s.pending := rfl

/-! onWriter -/

@[simp] theorem State.onWriter_reg (s : State) (f : FrameWriter → FrameWriter) : (s.onWriter f).reg = s.reg := rfl
@[simp] theorem State.onWriter_order (s : State) (f : FrameWriter → FrameWriter) : (s.onWriter f).order = s.order := rfl
@[simp] theorem State.onWriter_bus (s : State) (f : FrameWriter → FrameWriter) : (s.onWriter f).bus = s.bus := rfl
@[simp] theorem State.onWriter_intake (s : State) (f : FrameWriter → FrameWriter) : (s.onWriter f).intake = s.intake := rfl
@[simp] theorem State.onWriter_cal (s : State) (f : FrameWriter → FrameWriter) : (s.onWriter f).cal = s.cal := rfl
@[simp] theorem State.onWriter_tracker (s : State) (f : FrameWriter → FrameWriter) : (s.onWriter f).tracker = s.tracker := rfl
@[simp] theorem State.onWriter_store (s : State) (f : FrameWriter → FrameWriter) : (s.onWriter f).store = s.store := rfl
@[simp] theorem State.onWriter_mapper (s : State) (f : FrameWriter → FrameWriter) : (s.onWriter f).mapper = s.mapper := rfl
@[simp] theorem State.onWriter_fill (s : State) (f : FrameWriter → FrameWriter) : (s.onWriter f).fill = s.fill := rfl
@[simp] theorem State.onWriter_writer (s : State) (f : FrameWriter → FrameWriter) : (s.onWriter f).writer = f s.writer := rfl
@[simp] theorem State.onWriter_mem (s : State) (f : FrameWriter → FrameWriter) : (s.onWriter f).mem = s.mem := rfl
@[simp] theorem State.onWriter_free (s : State) (f : FrameWriter → FrameWriter) : (s.onWriter f).free = s.free := rfl
@[simp] theorem State.onWriter_pending (s : State) (f : FrameWriter → FrameWriter) : (s.onWriter f).pending = s.pending := rfl

/-! The next free value -/

@[simp] theorem State.stepFree_reg (s : State) : s.stepFree.reg = s.reg := rfl
@[simp] theorem State.stepFree_order (s : State) : s.stepFree.order = s.order := rfl
@[simp] theorem State.stepFree_bus (s : State) : s.stepFree.bus = s.bus := rfl
@[simp] theorem State.stepFree_intake (s : State) : s.stepFree.intake = s.intake := rfl
@[simp] theorem State.stepFree_cal (s : State) : s.stepFree.cal = s.cal := rfl
@[simp] theorem State.stepFree_tracker (s : State) : s.stepFree.tracker = s.tracker := rfl
@[simp] theorem State.stepFree_store (s : State) : s.stepFree.store = s.store := rfl
@[simp] theorem State.stepFree_mapper (s : State) : s.stepFree.mapper = s.mapper := rfl
@[simp] theorem State.stepFree_fill (s : State) : s.stepFree.fill = s.fill := rfl
@[simp] theorem State.stepFree_writer (s : State) : s.stepFree.writer = s.writer := rfl
@[simp] theorem State.stepFree_mem (s : State) : s.stepFree.mem = s.mem := rfl
@[simp] theorem State.stepFree_free (s : State) : s.stepFree.free = s.free + 1 := rfl
@[simp] theorem State.stepFree_pending (s : State) : s.stepFree.pending = s.pending := rfl

/-! A cause raised (R164) -/

@[simp] theorem State.raise_order (s : State) (c : Cause) : (s.raise c).order = s.order := rfl
@[simp] theorem State.raise_bus (s : State) (c : Cause) : (s.raise c).bus = s.bus := rfl
@[simp] theorem State.raise_intake (s : State) (c : Cause) : (s.raise c).intake = s.intake := rfl
@[simp] theorem State.raise_cal (s : State) (c : Cause) : (s.raise c).cal = s.cal := rfl
@[simp] theorem State.raise_tracker (s : State) (c : Cause) : (s.raise c).tracker = s.tracker := rfl
@[simp] theorem State.raise_store (s : State) (c : Cause) : (s.raise c).store = s.store := rfl
@[simp] theorem State.raise_mapper (s : State) (c : Cause) : (s.raise c).mapper = s.mapper := rfl
@[simp] theorem State.raise_fill (s : State) (c : Cause) : (s.raise c).fill = s.fill := rfl
@[simp] theorem State.raise_writer (s : State) (c : Cause) : (s.raise c).writer = s.writer := rfl
@[simp] theorem State.raise_mem (s : State) (c : Cause) : (s.raise c).mem = s.mem := rfl
@[simp] theorem State.raise_free (s : State) (c : Cause) : (s.raise c).free = s.free := rfl
@[simp] theorem State.raise_pending (s : State) (c : Cause) : (s.raise c).pending = s.pending := rfl
@[simp] theorem State.raise_blockBase (s : State) (c : Cause) : (s.raise c).reg.blockBase = s.reg.blockBase := rfl
@[simp] theorem State.raise_mask (s : State) (c : Cause) : (s.raise c).reg.mask = s.reg.mask := rfl
@[simp] theorem State.raise_hostHold (s : State) (c : Cause) : (s.raise c).reg.hostHold = s.reg.hostHold := rfl
@[simp] theorem State.raise_readData (s : State) (c : Cause) : (s.raise c).reg.readData = s.reg.readData := rfl

/-! A write put in flight -/

@[simp] theorem State.push_reg (s : State) (w : BusWrite) : (s.push w).reg = s.reg := rfl
@[simp] theorem State.push_order (s : State) (w : BusWrite) : (s.push w).order = s.order := rfl
@[simp] theorem State.push_intake (s : State) (w : BusWrite) : (s.push w).intake = s.intake := rfl
@[simp] theorem State.push_cal (s : State) (w : BusWrite) : (s.push w).cal = s.cal := rfl
@[simp] theorem State.push_tracker (s : State) (w : BusWrite) : (s.push w).tracker = s.tracker := rfl
@[simp] theorem State.push_store (s : State) (w : BusWrite) : (s.push w).store = s.store := rfl
@[simp] theorem State.push_mapper (s : State) (w : BusWrite) : (s.push w).mapper = s.mapper := rfl
@[simp] theorem State.push_fill (s : State) (w : BusWrite) : (s.push w).fill = s.fill := rfl
@[simp] theorem State.push_writer (s : State) (w : BusWrite) : (s.push w).writer = s.writer := rfl
@[simp] theorem State.push_mem (s : State) (w : BusWrite) : (s.push w).mem = s.mem := rfl
@[simp] theorem State.push_free (s : State) (w : BusWrite) : (s.push w).free = s.free := rfl
@[simp] theorem State.push_pending (s : State) (w : BusWrite) : (s.push w).pending = s.pending := rfl
@[simp] theorem State.push_inFlight (s : State) (w : BusWrite) : (s.push w).bus.inFlight = s.bus.inFlight ++ [w] := rfl
@[simp] theorem State.push_windows (s : State) (w : BusWrite) : (s.push w).bus.windows = s.bus.windows := rfl

end Sys2Proof.Machine
end

