-- ==== Sys2Proof/Laws/Memory.lean ====
section
/-! SUPPORT. Host memory: every operation keeps the canonical form, and what one byte reads after a write. -/
namespace Sys2Proof.Machine

/-- Every listed address is above `a`. -/
def Memory.above (a : Nat) (m : Memory) : Prop := ∀ x ∈ m, a < x.1

theorem Memory.wf_cons (x : Nat) (b : Byte) (m : Memory) :
    Memory.wf ((x, b) :: m) = true ↔ Memory.above x m ∧ Memory.wf m = true := by
  induction m generalizing x b with
  | nil => simp [Memory.wf, Memory.above]
  | cons y m ih =>
    obtain ⟨y, c⟩ := y
    simp only [Memory.wf, Bool.and_eq_true, decide_eq_true_eq, Memory.above, List.forall_mem_cons]
    constructor
    · rintro ⟨hxy, hm⟩
      exact ⟨⟨hxy, fun z hz => Nat.lt_trans hxy (((ih y c).1 hm).1 z hz)⟩, hm⟩
    · rintro ⟨⟨hxy, _⟩, hm⟩
      exact ⟨hxy, hm⟩

theorem Memory.above_set {a x : Nat} {b : Byte} {m : Memory} (hx : a < x) (hm : Memory.above a m) :
    Memory.above a (Memory.set m x b) := by
  induction m with
  | nil => simpa [Memory.set, Memory.above] using hx
  | cons y m ih =>
    obtain ⟨y, c⟩ := y
    have hy : a < y := hm (y, c) (by simp)
    have hr : Memory.above a m := fun z hz => hm z (by simp [hz])
    unfold Memory.set
    split
    · intro z hz
      rcases List.mem_cons.1 hz with rfl | hz
      · exact hx
      · exact hm z hz
    · split
      · intro z hz
        rcases List.mem_cons.1 hz with rfl | hz
        · exact hx
        · exact hr z hz
      · intro z hz
        rcases List.mem_cons.1 hz with rfl | hz
        · exact hy
        · exact ih hr z hz

theorem Memory.wf_set {m : Memory} (x : Nat) (b : Byte) (hm : Memory.wf m = true) : Memory.wf (Memory.set m x b) = true := by
  induction m with
  | nil => rfl
  | cons y m ih =>
    obtain ⟨y, c⟩ := y
    have h := (Memory.wf_cons y c m).1 hm
    unfold Memory.set
    split
    · rename_i hxy
      exact (Memory.wf_cons _ _ _).2 ⟨fun z hz => by
        rcases List.mem_cons.1 hz with rfl | hz
        · exact hxy
        · exact Nat.lt_trans hxy (h.1 z hz), hm⟩
    · split
      · rename_i hxy
        subst hxy
        exact (Memory.wf_cons _ _ _).2 h
      · rename_i h1 h2
        exact (Memory.wf_cons _ _ _).2 ⟨Memory.above_set (by omega) h.1, ih h.2⟩

theorem Memory.wf_store (bs : List Byte) {m : Memory} (a : Nat) (hm : Memory.wf m = true) :
    Memory.wf (Memory.store m a bs) = true := by
  induction bs generalizing m a with
  | nil => exact hm
  | cons b bs ih => exact ih (a + 1) (Memory.wf_set a b hm)

theorem Memory.wf_storeSome (lands : Nat → Bool) (bs : List Byte) {m : Memory} (a j : Nat) (hm : Memory.wf m = true) :
    Memory.wf (Memory.storeSome lands m a bs j) = true := by
  induction bs generalizing m a j with
  | nil => exact hm
  | cons b bs ih =>
    refine ih (a + 1) (j + 1) ?_
    split
    · exact Memory.wf_set a b hm
    · exact hm

theorem wf_landAll (ws : List BusWrite) {m : Memory} (hm : Memory.wf m = true) : Memory.wf (landAll m ws) = true := by
  unfold landAll
  induction ws generalizing m with
  | nil => exact hm
  | cons w ws ih =>
    refine ih ?_
    dsimp only
    split
    · exact hm
    · exact Memory.wf_store _ _ hm

/-! ### What one byte reads -/

theorem Memory.get_eq_none_of_above {a : Nat} {m : Memory} (hm : Memory.above a m) : Memory.get m a = none := by
  induction m with
  | nil => rfl
  | cons y m ih =>
    obtain ⟨y, c⟩ := y
    have hy : a < y := hm (y, c) (by simp)
    have hr : Memory.above a m := fun z hz => hm z (by simp [hz])
    simp [Memory.get, Nat.ne_of_lt hy, ih hr]

theorem Memory.get_set {m : Memory} (x : Nat) (b : Byte) (a : Nat) :
    Memory.get (Memory.set m x b) a = if a = x then some b else Memory.get m a := by
  induction m with
  | nil => simp [Memory.set, Memory.get]
  | cons y m ih =>
    obtain ⟨y, c⟩ := y
    unfold Memory.set
    split
    · simp [Memory.get]
    · split
      · rename_i h
        subst h
        simp only [Memory.get]
        split <;> rfl
      · rename_i h1 h2
        simp only [Memory.get, ih]
        split
        · rename_i h
          subst h
          simp [Ne.symm h2]
        · rfl

/-- A byte outside the stored ones reads as before. -/
theorem Memory.get_store_outside (bs : List Byte) (m : Memory) (x a : Nat) (h : a < x ∨ x + bs.length ≤ a) :
    Memory.get (Memory.store m x bs) a = Memory.get m a := by
  induction bs generalizing m x with
  | nil => rfl
  | cons b bs ih =>
    simp only [List.length_cons] at h
    simp only [Memory.store]
    rw [ih (Memory.set m x b) (x + 1) (by omega), Memory.get_set, if_neg (by omega)]

/-! ### The operations of the Bus Port -/

theorem State.wf_endWrite {s : State} (k : Nat) (h : Memory.wf s.mem = true) : Memory.wf (s.endWrite k).mem = true :=
  wf_landAll _ h

theorem State.wf_endAllWrites {s : State} (h : Memory.wf s.mem = true) : Memory.wf s.endAllWrites.mem = true :=
  wf_landAll _ h

theorem State.wf_endWritesThrough {s : State} (own : BusWrite → Bool) (h : Memory.wf s.mem = true) :
    Memory.wf (s.endWritesThrough own).mem = true :=
  wf_landAll _ h

theorem State.wf_failWrite {s : State} (k : Nat) (h : Memory.wf s.mem = true) : Memory.wf (s.failWrite k).mem = true := by
  unfold State.failWrite
  split
  · exact h
  · exact Memory.wf_storeSome _ _ _ _ (wf_landAll _ h)

theorem wf_dropAll (lands : Nat → Bool) (ws : List BusWrite) (acc : Memory × Nat) (h : Memory.wf acc.1 = true) :
    Memory.wf (ws.foldl (fun (acc : Memory × Nat) w =>
      (if w.landed then acc.1 else Memory.storeSome lands acc.1 w.address w.data acc.2, acc.2 + w.data.length)) acc).1
      = true := by
  induction ws generalizing acc with
  | nil => exact h
  | cons w ws ih =>
    refine ih _ ?_
    dsimp only
    split
    · exact h
    · exact Memory.wf_storeSome _ _ _ _ h

theorem State.wf_dropWrites {s : State} (h : Memory.wf s.mem = true) : Memory.wf s.dropWrites.mem = true :=
  wf_dropAll _ _ _ h

end Sys2Proof.Machine
end

