-- ==== Sys2Proof/Laws/Lands.lean ====
section
/-! SUPPORT. What the ends of writes do: a byte of memory changes only under a write that was in flight and had not landed,
and a write that stays in flight is one that was in flight (log 3). -/
namespace Sys2Proof.Machine

/-! ### Memory -/

theorem not_covers {w : BusWrite} {a : Nat} (h : ¬ w.covers a) : a < w.address ∨ w.address + w.data.length ≤ a := by
  by_cases h1 : a < w.address
  · exact .inl h1
  · exact .inr (Nat.le_of_not_lt fun h2 => h ⟨Nat.le_of_not_lt h1, h2⟩)

theorem Memory.get_storeSome_outside (lands : Nat → Bool) (bs : List Byte) (m : Memory) (x j a : Nat)
    (h : a < x ∨ x + bs.length ≤ a) : Memory.get (Memory.storeSome lands m x bs j) a = Memory.get m a := by
  induction bs generalizing m x j with
  | nil => rfl
  | cons b bs ih =>
    rw [List.length_cons] at h
    rw [Memory.storeSome, ih _ _ _ (by omega)]
    split
    · rw [Memory.get_set, if_neg (by omega)]
    · rfl

/-- Landing writes changes only bytes under a write that had not landed. -/
theorem get_landAll (ws : List BusWrite) (m : Memory) (a : Nat) (h : ∀ w ∈ ws, w.landed = false → ¬ w.covers a) :
    Memory.get (landAll m ws) a = Memory.get m a := by
  unfold landAll
  induction ws generalizing m with
  | nil => rfl
  | cons w ws ih =>
    rw [List.foldl_cons, ih _ fun v hv => h v (List.mem_cons_of_mem _ hv)]
    split
    · rfl
    · rename_i hl
      exact Memory.get_store_outside _ _ _ _ (not_covers (h w List.mem_cons_self (by simpa using hl)))

/-- Writes dropped at a reset change only bytes under them (R186). -/
theorem get_dropAll (lands : Nat → Bool) (ws : List BusWrite) (acc : Memory × Nat) (a : Nat)
    (h : ∀ w ∈ ws, w.landed = false → ¬ w.covers a) :
    Memory.get (ws.foldl (fun (acc : Memory × Nat) w =>
      (if w.landed then acc.1 else Memory.storeSome lands acc.1 w.address w.data acc.2, acc.2 + w.data.length)) acc).1 a
      = Memory.get acc.1 a := by
  induction ws generalizing acc with
  | nil => rfl
  | cons w ws ih =>
    rw [List.foldl_cons, ih _ fun v hv => h v (List.mem_cons_of_mem _ hv)]
    dsimp only
    split
    · rfl
    · rename_i hl
      exact Memory.get_storeSome_outside _ _ _ _ _ _ (not_covers (h w List.mem_cons_self (by simpa using hl)))

/-! ### Ends of writes -/

/-- What the end of writes leaves as it was, and what it may change. -/
structure Lands (s t : State) : Prop where
  queue : t.pending = s.pending
  reg : t.reg = s.reg
  windows : t.bus.windows = s.bus.windows
  barred : t.bus.barred = s.bus.barred
  store : t.store = s.store
  order : t.order = s.order
  kept : ∀ w ∈ t.bus.inFlight, ∃ v ∈ s.bus.inFlight, sameAccess v w
  under : ∀ a, Memory.get t.mem a ≠ Memory.get s.mem a → ∃ w ∈ s.bus.inFlight, w.landed = false ∧ w.covers a
  form : Memory.wf s.mem = true → Memory.wf t.mem = true

theorem Lands.refl (s : State) : Lands s s :=
  ⟨rfl, rfl, rfl, rfl, rfl, rfl, fun w hw => ⟨w, hw, rfl⟩, fun _ h => absurd rfl h, id⟩

/-- The ends of reads change nothing of what the ends of writes are about. -/
theorem Lands.of_endDropped {s t : State} {site : ReadSite} (h : Lands (s.endDropped site) t) : Lands s t :=
  ⟨h.1, h.2, h.3, h.4, h.5, h.6, h.7, h.8, h.9⟩

theorem Lands.of_endAbortedReads {s t : State} (h : Lands s.endAbortedReads t) : Lands s t :=
  h.of_endDropped.of_endDropped.of_endDropped.of_endDropped

theorem mem_stillTracked {ws : List BusWrite} {w : BusWrite} (h : w ∈ stillTracked ws) : ∃ v ∈ ws, sameAccess v w := by
  simp only [stillTracked, List.mem_map, List.mem_filter] at h
  obtain ⟨v, ⟨hv, -⟩, rfl⟩ := h
  exact ⟨v, hv, rfl⟩

/-- A byte that differs after writes have landed lies under one of them. -/
theorem exists_of_get_ne {ws : List BusWrite} {m n : Memory} {a : Nat}
    (hn : (∀ w ∈ ws, w.landed = false → ¬ w.covers a) → Memory.get n a = Memory.get m a)
    (h : Memory.get n a ≠ Memory.get m a) : ∃ w ∈ ws, w.landed = false ∧ w.covers a := by
  by_contra hc
  exact h (hn fun w hw hl hcov => hc ⟨w, hw, hl, hcov⟩)

theorem lands_endWrite (s : State) (k : Nat) : Lands s (s.endWrite k) := by
  refine ⟨rfl, rfl, rfl, rfl, rfl, rfl, ?_, ?_, State.wf_endWrite k⟩
  · intro w hw
    rcases List.mem_append.1 hw with hw | hw
    · obtain ⟨v, hv, h⟩ := mem_stillTracked hw
      exact ⟨v, List.mem_of_mem_take hv, h⟩
    · exact ⟨w, List.mem_of_mem_drop hw, rfl⟩
  · intro a h
    obtain ⟨w, hw, hl, hc⟩ := exists_of_get_ne (get_landAll _ s.mem a) h
    exact ⟨w, List.mem_of_mem_take hw, hl, hc⟩

theorem lands_endAllWrites (s : State) : Lands s s.endAllWrites :=
  ⟨rfl, rfl, rfl, rfl, rfl, rfl, fun _ hw => absurd hw List.not_mem_nil, fun a h => exists_of_get_ne (get_landAll _ s.mem a) h,
    State.wf_endAllWrites⟩

theorem lands_endWritesThrough (s : State) (own : BusWrite → Bool) : Lands s (s.endWritesThrough own) := by
  refine ⟨rfl, rfl, rfl, rfl, rfl, rfl, ?_, ?_, State.wf_endWritesThrough own⟩
  · intro w hw
    rcases List.mem_append.1 hw with hw | hw
    · obtain ⟨v, hv, h⟩ := mem_stillTracked hw
      exact ⟨v, List.mem_of_mem_take (List.mem_of_mem_filter hv), h⟩
    · exact ⟨w, List.mem_of_mem_drop hw, rfl⟩
  · intro a h
    obtain ⟨w, hw, hl, hc⟩ := exists_of_get_ne (get_landAll _ s.mem a) h
    exact ⟨w, List.mem_of_mem_take hw, hl, hc⟩

/-- The memory after the write at place `k` has failed, outside that write's bytes. -/
theorem get_failWrite {s : State} {k : Nat} {w : BusWrite} (h : s.bus.inFlight[k]? = some w) {a : Nat} (ha : ¬ w.covers a) :
    Memory.get (s.failWrite k).mem a = Memory.get (landAll s.mem (s.bus.inFlight.take k)) a := by
  simp only [State.failWrite, h]
  exact Memory.get_storeSome_outside _ _ _ _ _ _ (not_covers ha)

/-- The write at place `k`, which has not landed, fails. -/
theorem lands_failWrite {s : State} {k : Nat} {w : BusWrite} (h : s.openWrite k = some w) : Lands s (s.failWrite k) := by
  obtain ⟨hk, hl⟩ := Option.filter_eq_some_iff.1 h
  have e : s.failWrite k = { s with
      bus := { s.bus with inFlight := stillTracked (s.bus.inFlight.take k) ++ s.bus.inFlight.drop (k + 1) }
      mem := (s.failWrite k).mem, free := s.free + 1 } := by
    simp [State.failWrite, hk]
  have hw : w ∈ s.bus.inFlight := List.mem_of_getElem? hk
  rw [e]
  refine ⟨rfl, rfl, rfl, rfl, rfl, rfl, ?_, ?_, fun hm => State.wf_failWrite k hm⟩
  · intro v hv
    rcases List.mem_append.1 hv with hv | hv
    · obtain ⟨x, hx, h'⟩ := mem_stillTracked hv
      exact ⟨x, List.mem_of_mem_take hx, h'⟩
    · exact ⟨v, List.mem_of_mem_drop hv, rfl⟩
  · intro a ha
    by_cases hc : w.covers a
    · exact ⟨w, hw, by simpa using hl, hc⟩
    · have := get_failWrite hk hc
      obtain ⟨v, hv, h1, h2⟩ := exists_of_get_ne (get_landAll _ s.mem a) (this ▸ ha)
      exact ⟨v, List.mem_of_mem_take hv, h1, h2⟩

/-- The writes in flight end at a reset (R186). -/
theorem lands_dropWrites (s : State) : Lands s s.dropWrites :=
  ⟨rfl, rfl, rfl, rfl, rfl, rfl, fun _ hw => absurd hw List.not_mem_nil,
    fun a h => exists_of_get_ne (get_dropAll _ s.bus.inFlight (s.mem, 0) a) h, State.wf_dropWrites⟩

end Sys2Proof.Machine
end

