-- ==== Sys2Proof/Laws/Keeps.lean ====
section
/-! SUPPORT. What every piece of work inside a step keeps: host memory, the queue, BLOCK_BASE and the Window Table stay, a
write that joins the writes in flight passes the window check (R173), and the Line Store stays within its 64 slots (R30).
One lemma per operation, in the form "a state that keeps `s` still does after the operation". -/
namespace Sys2Proof.Machine

/-- Lines in the store (R30). -/
def LineStore.size (st : LineStore) : Nat := st.pending.length + st.context.length

/-- A write in flight that was in flight in `s`, or that passes its window check (R173). -/
def State.Issued (s : State) (w : BusWrite) : Prop :=
  (∃ v ∈ s.bus.inFlight, sameAccess v w) ∨ s.passesCheck w = true

structure Keeps (s t : State) : Prop where
  mem : t.mem = s.mem
  queue : t.pending = s.pending
  base : t.reg.blockBase = s.reg.blockBase
  windows : t.bus.windows = s.bus.windows
  issued : ∀ w ∈ t.bus.inFlight, s.Issued w
  room : s.store.size ≤ Config.storeSlots → t.store.size ≤ Config.storeSlots

theorem sameAccess_refl (w : BusWrite) : sameAccess w w := rfl

theorem State.Issued.of_mem {s : State} {w : BusWrite} (h : w ∈ s.bus.inFlight) : s.Issued w := .inl ⟨w, h, rfl⟩

theorem Keeps.refl (s : State) : Keeps s s := ⟨rfl, rfl, rfl, rfl, fun _ h => .of_mem h, id⟩

/-- The window check depends on BLOCK_BASE and the Window Table alone. -/
theorem passesCheck_congr {s t : State} (hb : t.reg.blockBase = s.reg.blockBase) (hw : t.bus.windows = s.bus.windows)
    (w : BusWrite) : t.passesCheck w = s.passesCheck w := by
  unfold State.passesCheck State.blockBase
  rw [hb, hw]

/-- The window check looks at the access alone. -/
theorem passesCheck_of_sameAccess {s : State} {v w : BusWrite} (h : sameAccess v w) (hv : s.passesCheck v = true) :
    s.passesCheck w = true := by
  rw [← h]
  exact hv

/-- The same access is issued alike. -/
theorem State.Issued.of_same {s : State} {v w : BusWrite} (hv : s.Issued v) (h : sameAccess v w) : s.Issued w := by
  rcases hv with ⟨u, hu, hs⟩ | hp
  · refine .inl ⟨u, hu, ?_⟩
    rw [← h, ← hs]
    rfl
  · exact .inr (passesCheck_of_sameAccess h hp)

theorem Keeps.trans {s t u : State} (h : Keeps s t) (g : Keeps t u) : Keeps s u where
  mem := g.mem.trans h.mem
  queue := g.queue.trans h.queue
  base := g.base.trans h.base
  windows := g.windows.trans h.windows
  issued w hw := by
    rcases g.issued w hw with ⟨v, hv, h1⟩ | h1
    · exact (h.issued v hv).of_same h1
    · exact .inr ((passesCheck_congr h.base h.windows w).symm.trans h1)
  room := g.room ∘ h.room

/-! ### One block at a time -/

variable {s t : State}

theorem Keeps.onOrder {f} (h : Keeps s t) : Keeps s (t.onOrder f) := ⟨h.1, h.2, h.3, h.4, h.5, h.6⟩
theorem Keeps.onIntake {f} (h : Keeps s t) : Keeps s (t.onIntake f) := ⟨h.1, h.2, h.3, h.4, h.5, h.6⟩
theorem Keeps.onCal {f} (h : Keeps s t) : Keeps s (t.onCal f) := ⟨h.1, h.2, h.3, h.4, h.5, h.6⟩
theorem Keeps.onTracker {f} (h : Keeps s t) : Keeps s (t.onTracker f) := ⟨h.1, h.2, h.3, h.4, h.5, h.6⟩
theorem Keeps.onMapper {f} (h : Keeps s t) : Keeps s (t.onMapper f) := ⟨h.1, h.2, h.3, h.4, h.5, h.6⟩
theorem Keeps.onFill {f} (h : Keeps s t) : Keeps s (t.onFill f) := ⟨h.1, h.2, h.3, h.4, h.5, h.6⟩
theorem Keeps.onWriter {f} (h : Keeps s t) : Keeps s (t.onWriter f) := ⟨h.1, h.2, h.3, h.4, h.5, h.6⟩
theorem Keeps.stepFree (h : Keeps s t) : Keeps s t.stepFree := ⟨h.1, h.2, h.3, h.4, h.5, h.6⟩
theorem Keeps.raise {c} (h : Keeps s t) : Keeps s (t.raise c) := ⟨h.1, h.2, h.3, h.4, h.5, h.6⟩

theorem Keeps.onReg {f} (h : Keeps s t) (hf : ∀ r, (f r).blockBase = r.blockBase) : Keeps s (t.onReg f) :=
  ⟨h.1, h.2, (hf t.reg).trans h.3, h.4, h.5, h.6⟩

theorem Keeps.onStore {f} (h : Keeps s t) (hf : t.store.size ≤ Config.storeSlots → (f t.store).size ≤ Config.storeSlots) :
    Keeps s (t.onStore f) :=
  ⟨h.1, h.2, h.3, h.4, h.5, hf ∘ h.6⟩

theorem Keeps.onBus {f} (h : Keeps s t) (hw : ∀ b, (f b).windows = b.windows)
    (hi : ∀ b, ∀ w ∈ (f b).inFlight, w ∈ b.inFlight) : Keeps s (t.onBus f) :=
  ⟨h.1, h.2, h.3, (hw t.bus).trans h.4, fun w hm => h.5 w (hi t.bus w hm), h.6⟩

/-! ### Issuing -/

theorem Keeps.push {w} (h : Keeps s t) (hw : t.passesCheck w = true) : Keeps s (t.push w) :=
  ⟨h.1, h.2, h.3, h.4, fun v hv => by
    rcases List.mem_append.1 hv with hv | hv
    · exact h.5 v hv
    · rw [List.mem_singleton.1 hv]
      exact .inr ((passesCheck_congr h.3 h.4 w).symm.trans hw), h.6⟩

theorem Keeps.issue {w} (h : Keeps s t) : Keeps s (t.issue w) := by
  unfold State.issue
  split
  · exact h
  · split
    · exact h.push (by assumption)
    · exact h.onBus (fun _ => rfl) (fun _ _ hw => hw)

theorem Keeps.foldl {α : Type} {op : State → α → State} (hop : ∀ u a, Keeps s u → Keeps s (op u a)) (xs : List α)
    (h : Keeps s t) : Keeps s (xs.foldl op t) := by
  induction xs generalizing t with
  | nil => exact h
  | cons x xs ih => exact ih (hop t x h)

theorem Keeps.issueAll {ws} (h : Keeps s t) : Keeps s (t.issueAll ws) := h.foldl (fun _ _ hu => hu.issue) ws

theorem Keeps.issueBlock {k d} (h : Keeps s t) : Keeps s (t.issueBlock k d) := h.issue

theorem Keeps.issueSlotWord {v m} (h : Keeps s t) : Keeps s (t.issueSlotWord v m) := by
  unfold State.issueSlotWord
  split
  · exact h
  · exact h.issue

/-- A stop of the issuing leaves writes that were in flight, and settles which were issued. -/
theorem mem_keepIssued {own : BusWrite → Bool} {ws : List BusWrite} {q : Nat} {w : BusWrite}
    (h : w ∈ keepIssued own q ws) : ∃ v ∈ ws, sameAccess v w := by
  induction ws generalizing q with
  | nil => simp [keepIssued] at h
  | cons x ws ih =>
    have tail : ∀ {q}, w ∈ keepIssued own q ws → ∃ v ∈ x :: ws, sameAccess v w := fun h =>
      let ⟨v, hv, hs⟩ := ih h
      ⟨v, List.mem_cons_of_mem _ hv, hs⟩
    unfold keepIssued at h
    split at h
    · split at h
      · exact tail h
      · rcases List.mem_cons.1 h with rfl | h
        · exact ⟨x, List.mem_cons_self .., rfl⟩
        · exact tail h
    · rcases List.mem_cons.1 h with rfl | h
      · exact ⟨w, List.mem_cons_self .., rfl⟩
      · exact tail h

theorem Keeps.cutUnissued {own} (h : Keeps s t) : Keeps s (t.cutUnissued own) :=
  ⟨h.1, h.2, h.3, h.4, fun _ hw =>
    let ⟨_, hv, hs⟩ := mem_keepIssued hw
    (h.5 _ hv).of_same hs, h.6⟩

theorem Keeps.withdrawSequels (h : Keeps s t) : Keeps s t.withdrawSequels := by
  refine h.onBus ?_ ?_
  · exact fun _ => rfl
  · exact fun _ _ => List.mem_of_mem_filter

/-! ### Reads -/

theorem Keeps.onReads {f : BusPort → List BusRead} (h : Keeps s t) :
    Keeps s (t.onBus fun b => { b with reads := f b }) := ⟨h.1, h.2, h.3, h.4, h.5, h.6⟩

theorem Keeps.startReads {rs} (h : Keeps s t) : Keeps s (t.startReads rs) := by
  unfold State.startReads
  split
  · exact h
  · exact h.onReads

theorem Keeps.endReads {k} (h : Keeps s t) : Keeps s (t.endReads k) := h.onReads

theorem Keeps.endDropped {k} (h : Keeps s t) : Keeps s (t.endDropped k) := h.onReads

theorem Keeps.failRead {k site} (h : Keeps s t) : Keeps s (t.failRead k site) := h.onReads

theorem Keeps.reachReads {k} (h : Keeps s t) : Keeps s (t.reachReads k) := by
  unfold State.reachReads
  split
  · exact h
  · exact ⟨h.1, h.2, h.3, h.4, h.5, h.6⟩

theorem reachReads_inFlight (s : State) (k : ReadSite) : (s.reachReads k).bus.inFlight = s.bus.inFlight := by
  unfold State.reachReads
  split <;> rfl

theorem Keeps.stopReads {k} (h : Keeps s t) : Keeps s (t.stopReads k) := h.reachReads.onReads

theorem Keeps.stopAllReads (h : Keeps s t) : Keeps s t.stopAllReads := h.foldl (fun _ _ hu => hu.stopReads) _

theorem Keeps.stopScan (h : Keeps s t) : Keeps s t.stopScan := h.stopReads.stopReads

/-! ### The Line Store (R30, R33, R36, R37) -/

theorem LineStore.size_withPending (st : LineStore) (p : List Entry) :
    (st.withPending p).size = p.length + st.context.length := rfl

theorem LineStore.size_announce {st : LineStore} (n : Nat) (h : st.size ≤ Config.storeSlots) :
    (st.announce n).size ≤ Config.storeSlots := by
  unfold LineStore.announce
  split
  · rename_i hr
    have : st.pending.length + st.context.length < Config.storeSlots := by
      simpa [LineStore.hasRoom] using hr
    rw [LineStore.size_withPending, List.length_append]
    simp only [List.length_singleton]
    omega
  · exact h

theorem LineStore.size_mapPending (st : LineStore) (which : Entry → Bool) (f : Entry → Entry) :
    (st.mapPending which f).size = st.size := by
  simp [LineStore.mapPending, LineStore.size]

theorem length_trimContext (rv : Nat) (c : List Entry) : (trimContext rv c).length ≤ c.length := by
  simp [trimContext]

theorem LineStore.size_removeHead {st : LineStore} (clear : Bool) (h : st.size ≤ Config.storeSlots) :
    (st.removeHead clear).size ≤ Config.storeSlots := by
  unfold LineStore.removeHead
  split
  · exact h
  · rename_i e rest heq
    have hs : rest.length + 1 + st.context.length ≤ Config.storeSlots := by
      have := h
      rw [LineStore.size, heq, List.length_cons] at this
      exact this
    show rest.length + _ ≤ _
    dsimp only [LineStore.withPending]
    split
    · refine Nat.le_trans (Nat.add_le_add_left (length_trimContext _ _) _) ?_
      simp only [List.length_append, List.length_singleton]
      omega
    · omega

theorem LineStore.size_discardFrame (st : LineStore) (k : Nat) (b : Bool) : (st.discardFrame k b).size = st.size := by
  unfold LineStore.discardFrame LineStore.size
  cases st.pending <;> simp

theorem LineStore.size_emptied (st : LineStore) : st.emptied.size = 0 := rfl

/-! ### The end of an order -/

theorem Keeps.issueEnd {r v p} (h : Keeps s t) : Keeps s (t.issueEnd r v p) := by
  unfold State.issueEnd
  split
  · exact h
  · exact h.onOrder.issueAll

theorem Keeps.discardShading (h : Keeps s t) : Keeps s t.discardShading := (h.onIntake).onMapper

theorem Keeps.leaveOrder (h : Keeps s t) : Keeps s t.leaveOrder :=
  (((((((h.onOrder).discardShading).onTracker).onStore fun _ => Nat.zero_le _).onMapper).onFill).onWriter)

theorem Keeps.endScan {o} (h : Keeps s t) : Keeps s (t.endScan o) := (h.issueEnd).leaveOrder

theorem Keeps.endCalibrate {g} (h : Keeps s t) : Keeps s (t.endCalibrate g) := by
  unfold State.endCalibrate
  split <;> exact (h.issueEnd).leaveOrder

/-! ### The Frame Writer -/

theorem Keeps.writeOwner {i k w p} (h : Keeps s t) : Keeps s (t.writeOwner i k w p) := (h.issue).onWriter

theorem Keeps.releasePlates {k w ps} (h : Keeps s t) : Keeps s (t.releasePlates k w ps) :=
  h.foldl (fun u e hu => by
    split
    · exact hu.writeOwner
    · exact hu) ps

theorem Keeps.issueRosterState {o k v} (h : Keeps s t) : Keeps s (t.issueRosterState o k v) := h.issue

theorem Keeps.fillLeading {o} (h : Keeps s t) : Keeps s (t.fillLeading o) := by
  unfold State.fillLeading
  split
  · exact h
  · split
    · exact h
    · exact (h.issueAll).onWriter

theorem Keeps.issueFramesTally (h : Keeps s t) : Keeps s t.issueFramesTally := (h.onOrder).issue

theorem Keeps.completeRecord {o r rest} (h : Keeps s t) : Keeps s (t.completeRecord o r rest) :=
  (((((h.issueAll).releasePlates).issueRosterState).issueFramesTally).onWriter).fillLeading

theorem Keeps.completeFrom {o} (n : Nat) (h : Keeps s t) : Keeps s (completeFrom o n t) := by
  induction n generalizing t with
  | zero => exact h
  | succ n ih =>
    unfold Machine.completeFrom
    split
    · exact h
    · split
      · exact ih h.completeRecord
      · exact h

theorem Keeps.completeFrames {o} (h : Keeps s t) : Keeps s (t.completeFrames o) := h.completeFrom _

theorem Keeps.openRecord {o fr} (h : Keeps s t) : Keeps s (t.openRecord o fr) := (h.onWriter).fillLeading

theorem Keeps.discardWrites {o r} (h : Keeps s t) : Keeps s (t.discardWrites o r) := by
  unfold State.discardWrites
  dsimp only
  split
  · exact (h.releasePlates).issueAll
  · exact h.releasePlates

theorem Keeps.discardRecords {o which} (h : Keeps s t) : Keeps s (t.discardRecords o which) :=
  ((h.foldl (fun _ _ hu => (hu.discardWrites).onWriter) _).onWriter).fillLeading

theorem Keeps.discardReport {o k} (h : Keeps s t) : Keeps s (t.discardReport o k) := by
  unfold State.discardReport
  split
  · exact h.onWriter
  · dsimp only
    split
    · exact (h.onWriter).stopScan.discardRecords
    · exact h.discardRecords

theorem Keeps.dropHead {o} (h : Keeps s t) : Keeps s (t.dropHead o) :=
  (h.onStore (LineStore.size_removeHead false)).completeFrames

theorem Keeps.dropImageHead (h : Keeps s t) : Keeps s t.dropImageHead :=
  h.onStore fun hs => by
    split
    · exact hs
    · rename_i heq
      simpa [LineStore.size, heq] using hs

theorem Keeps.beginWrite {o e r p} (h : Keeps s t) : Keeps s (t.beginWrite o e r p) := by
  unfold State.beginWrite
  refine Keeps.onFill (Keeps.onWriter (Keeps.onBus h ?_ ?_))
  · exact fun _ => rfl
  · exact fun _ _ hw => hw

theorem Keeps.throttle {o e r p} (h : Keeps s t) : Keeps s (t.throttle o e r p) := by
  unfold State.throttle
  split
  · exact h.beginWrite
  · exact h.onWriter

theorem Keeps.throttleHead {o} (h : Keeps s t) : Keeps s (t.throttleHead o) := by
  unfold State.throttleHead
  split
  · exact h
  · exact h.throttle

theorem Keeps.rethrottle {o} (h : Keeps s t) : Keeps s (t.rethrottle o) := by
  unfold State.rethrottle
  split
  · exact h.throttleHead
  · exact h

theorem Keeps.beginScan (h : Keeps s t) : Keeps s t.beginScan := h.onWriter.startReads

theorem Keeps.placeHead {o e r u} (h : Keeps s t) (hu : t.placeHead o e r = some u) : Keeps s u := by
  unfold State.placeHead at hu
  split at hu
  · rw [← Option.some.inj hu]
    exact h.throttle
  · split at hu
    · cases hu
    · rw [← Option.some.inj hu]
      exact h.beginScan

theorem Keeps.plateListFull {k} (h : Keeps s t) : Keeps s (t.plateListFull k) := (h.onWriter).dropImageHead

theorem Keeps.handleHeads {o} (n : Nat) (h : Keeps s t) : Keeps s (handleHeads o n t) := by
  induction n generalizing t with
  | zero => exact h
  | succ n ih =>
    unfold Machine.handleHeads
    split
    · exact h
    · split
      · exact h
      · split
        · exact h
        · exact ih h.dropHead
        · exact ih h.dropHead
        · split
          · exact ih (h.dropImageHead).dropHead
          · split
            · exact ih (h.dropImageHead).dropHead
            · split
              · rename_i hp
                exact h.placeHead hp
              · exact ih (h.plateListFull).dropHead

theorem Keeps.workDone {o} (h : Keeps s t) : Keeps s (t.workDone o) := by
  unfold State.workDone
  split
  · split
    · exact h.endScan
    · split
      · exact h.onOrder
      · exact h
  · exact h

theorem Keeps.writerGo {o} (h : Keeps s t) : Keeps s (t.writerGo o) := ((h.rethrottle).handleHeads _).workDone

theorem Keeps.plateError {lw a} (h : Keeps s t) : Keeps s (t.plateError lw a) := by
  unfold State.plateError
  exact Keeps.onWriter (Keeps.issue (Keeps.onOrder (Keeps.onWriter h.writeOwner)))

theorem Keeps.issueBursts {lw} (bs : List (Nat × List Byte)) (h : Keeps s t) : Keeps s (issueBursts lw bs t) := by
  induction bs generalizing t with
  | nil => exact h
  | cons b bs ih =>
    unfold Machine.issueBursts
    split
    · rename_i hb
      refine ih (h.push ?_)
      simp [State.passesCheck, plateBurst, hb]
    · exact h.plateError

theorem Keeps.countLine {lw} (h : Keeps s t) : Keeps s (t.countLine lw) := by
  unfold State.countLine
  split
  · exact h
  · exact h.onWriter

theorem Keeps.lineWritten {o lw} (h : Keeps s t) : Keeps s (t.lineWritten o lw) := by
  unfold State.lineWritten
  dsimp only
  have h1 : Keeps s ((t.countLine lw).onStore fun st => st.removeHead lw.discarded) :=
    (h.countLine).onStore (LineStore.size_removeHead lw.discarded)
  split
  · exact ((h1.discardRecords.completeFrames).onWriter).writerGo
  · exact ((h1.completeFrames).onWriter).writerGo

theorem Keeps.lineEnds {o} (h : Keeps s t) : Keeps s (t.lineEnds o) := by
  unfold State.lineEnds
  split
  · exact h
  · split
    · exact h.lineWritten
    · exact (h.countLine).onWriter
    all_goals exact h

theorem Keeps.burstEnds {o} (h : Keeps s t) : Keeps s (t.burstEnds o) := by
  unfold State.burstEnds
  split
  · exact h
  · exact h.lineEnds

theorem Keeps.fillEnds {o p l lw} (h : Keeps s t) : Keeps s (t.fillEnds o p l lw) := by
  unfold State.fillEnds
  dsimp only
  split
  · exact ((h.onFill).issueBursts _).burstEnds
  · exact (((h.onFill).onWriter).issueBursts _).burstEnds

theorem Keeps.scanFails (h : Keeps s t) : Keeps s t.scanFails := by
  unfold State.scanFails
  dsimp only
  split
  · split
    · exact h.onWriter.beginScan
    · exact h.onWriter
  · split
    · exact h.onWriter.raise.onWriter.beginScan
    · exact h.onWriter.raise.onWriter

theorem Keeps.readEntry {c n l} (h : Keeps s t) : Keeps s (t.readEntry c n l) := h.onWriter.startReads

theorem Keeps.takePlate {o i a n} (h : Keeps s t) : Keeps s (t.takePlate o i a n) := by
  unfold State.takePlate
  exact Keeps.onWriter (Keeps.writeOwner h.issue)

theorem Keeps.scanPast {c n l} (h : Keeps s t) : Keeps s (t.scanPast c n l) := by
  unfold State.scanPast
  split
  · exact h.scanFails
  · exact h.readEntry

theorem Keeps.scanCount {c} (h : Keeps s t) : Keeps s (t.scanCount c) := by
  unfold State.scanCount
  split
  · exact h.scanFails
  · exact h.readEntry

theorem Keeps.scanEntry {o c n l e} (h : Keeps s t) : Keeps s (t.scanEntry o c n l e) := by
  unfold State.scanEntry
  dsimp only
  split
  · exact h.scanPast
  · split
    · split
      · exact h.takePlate
      · exact (h.takePlate).throttleHead
    · exact ((h.writeOwner).onWriter).scanPast

theorem Keeps.dropScanRead {r} (h : Keeps s t) : Keeps s (t.dropScanRead r) := by
  cases r <;> exact h.endDropped

theorem Keeps.scanRead {o r} (h : Keeps s t) : Keeps s (State.scanRead o t r) := by
  unfold State.scanRead
  split
  · exact h.endReads.scanCount
  · exact h.endReads.scanEntry
  all_goals exact h.dropScanRead

theorem Keeps.beginRescan {o} (h : Keeps s t) : Keeps s (t.beginRescan o) := by
  unfold State.beginRescan
  split
  · exact h.beginScan
  · split
    · exact (((h.onWriter).plateListFull).dropHead).writerGo
    · exact h.beginScan

/-! ### The Strip Tracker, the Defect Mapper and the decisions -/

theorem Keeps.openFrameAt {o n c f} (h : Keeps s t) : Keeps s (t.openFrameAt o n c f) :=
  ((h.onTracker).onStore id).openRecord

theorem Keeps.openFresh {o n} (h : Keeps s t) : Keeps s (t.openFresh o n) := by
  unfold State.openFresh
  exact Keeps.onTracker h.openFrameAt

theorem Keeps.closeFrame {o l c b} (h : Keeps s t) : Keeps s (t.closeFrame o l c b) := by
  unfold State.closeFrame
  split
  · exact h
  · split
    · exact ((h.discardReport).onStore fun hs => (LineStore.size_discardFrame _ _ _).le.trans hs).onTracker
    · dsimp only
      split
      · exact (h.onWriter).onTracker
      · exact ((h.onWriter).onTracker).completeFrames

theorem Keeps.reportRunMerge {k} (h : Keeps s t) : Keeps s (t.reportRunMerge k) := (h.onWriter).onMapper

theorem Keeps.runStays (h : Keeps s t) : Keeps s t.runStays := by
  unfold State.runStays
  dsimp only
  split
  · exact h.onTracker
  · exact (h.reportRunMerge).onTracker

theorem Keeps.mapPending {which f} (h : Keeps s t) : Keeps s (t.onStore fun st => st.mapPending which f) :=
  h.onStore fun hs => (LineStore.size_mapPending _ _ _).le.trans hs

theorem Keeps.runLeaves {k} (h : Keeps s t) : Keeps s (t.runLeaves k) := by
  unfold State.runLeaves
  exact Keeps.onTracker (Keeps.onMapper h.mapPending)

theorem Keeps.offer {o n ps} (h : Keeps s t) : Keeps s (t.offer o n ps) := by
  unfold State.offer
  split
  · exact h
  · exact h.onTracker

theorem Keeps.offerRun {o k} (h : Keeps s t) : Keeps s (t.offerRun o k) := h.foldl (fun _ _ hu => hu.offer) _

theorem Keeps.confirmGap {o n ps} (h : Keeps s t) : Keeps s (t.confirmGap o n ps) := by
  unfold State.confirmGap
  exact Keeps.onTracker (Keeps.closeFrame (Keeps.offer (Keeps.offerRun h.runLeaves)))

theorem Keeps.cutTest {o n b} (h : Keeps s t) : Keeps s (t.cutTest o n b) := by
  unfold State.cutTest
  split
  · exact h
  · split
    · exact ((h.runStays).closeFrame).onTracker
    · exact h

theorem Keeps.inLeader {o n ps g} (h : Keeps s t) : Keeps s (t.inLeader o n ps g).1 := by
  unfold State.inLeader
  split
  · dsimp only
    split
    · exact h.offer
    · exact (h.onTracker).offer
  · dsimp only
    split
    · dsimp only
      exact Keeps.onTracker h.onTracker
    · exact (h.onTracker).openFresh

theorem Keeps.betweenFrames {o n ps g} (h : Keeps s t) : Keeps s (t.betweenFrames o n ps g).1 := by
  unfold State.betweenFrames
  split
  · exact h.offer
  · exact h.openFresh

theorem Keeps.inImage {o n b g} (h : Keeps s t) : Keeps s (t.inImage o n b g).1 := by
  unfold State.inImage
  dsimp only
  split
  · exact (h.onTracker).cutTest
  · exact h.cutTest

theorem Keeps.inGapRun {o n ps b g} (h : Keeps s t) : Keeps s (t.inGapRun o n ps b g).1 := by
  unfold State.inGapRun
  dsimp only
  split
  · split
    · exact h.confirmGap
    · exact (h.onTracker).cutTest
  · exact ((h.runStays).onTracker).cutTest

theorem Keeps.inCut {o n g} (h : Keeps s t) : Keeps s (t.inCut o n g).1 := by
  unfold State.inCut
  dsimp only
  exact Keeps.onTracker h.openFrameAt

theorem Keeps.transition {o n ps g} (h : Keeps s t) : Keeps s (t.transition o n ps g).1 := by
  unfold State.transition
  dsimp only
  split
  · exact h.inLeader
  · exact h.betweenFrames
  · exact h.betweenFrames
  · exact h.inImage
  · exact h.inGapRun
  · exact h.inCut
  · dsimp only
    exact Keeps.onTracker h
  · exact h
  · exact h

theorem Keeps.settleLost {k} (h : Keeps s t) : Keeps s (t.settleLost k) := by
  unfold State.settleLost
  split
  · dsimp only
    split
    · exact h.onWriter
    · exact ((h.onWriter).onStore id).raise
  · split
    · exact h
    · exact (h.onStore id).raise

theorem Keeps.settleHeld {k} (h : Keeps s t) : Keeps s (t.settleHeld k) :=
  (h.foldl (fun _ _ hu => hu.settleLost) _).onTracker

theorem Keeps.attribute {n b k} (h : Keeps s t) : Keeps s (t.attribute n b k) := by
  unfold State.attribute
  split
  · split
    · exact h.onTracker
    · exact h
  · dsimp only
    split
    · exact (h.settleHeld).settleLost
    · exact h.settleHeld

theorem Keeps.mapLine {n k p b ps} (h : Keeps s t) : Keeps s (t.mapLine n k p b ps) := by
  unfold State.mapLine
  dsimp only
  split
  · exact h.onMapper
  · split
    · exact (h.onMapper).onMapper
    · exact (h.onMapper).onWriter

theorem Keeps.handOn {n ps v} (h : Keeps s t) : Keeps s (t.handOn n ps v) := by
  unfold State.handOn
  split
  · exact h
  · dsimp only
    split
    · exact (h.mapLine).mapPending
    · exact h.mapPending

theorem Keeps.endStrip {o} (h : Keeps s t) : Keeps s (t.endStrip o) := by
  unfold State.endStrip
  dsimp only
  split
  · exact (h.onTracker).onTracker
  · exact (h.closeFrame).onTracker
  · exact ((((h.runLeaves).closeFrame).settleHeld).onTracker)
  · exact (h.onTracker).onTracker
  all_goals exact h.onTracker

theorem Keeps.trackLine {o n ps} (h : Keeps s t) : Keeps s (t.trackLine o n ps) := by
  unfold State.trackLine
  dsimp only
  split
  · split
    · exact ((((h.onTracker).transition).attribute).handOn).endStrip
    · exact (((h.transition).attribute).handOn).endStrip
  · split
    · exact (((h.onTracker).transition).attribute).handOn
    · exact ((h.transition).attribute).handOn

theorem Keeps.decideLines {o which} (h : Keeps s t) : Keeps s (t.decideLines o which) := h.mapPending

theorem Keeps.decideDelayed {o n} (h : Keeps s t) : Keeps s (t.decideDelayed o n) := by
  unfold State.decideDelayed
  split
  · exact h
  · split
    · exact h.decideLines
    · exact h

/-! ### The Calibration Unit and the Line Intake -/

theorem Keeps.enterTable {o} (h : Keeps s t) : Keeps s (t.enterTable o) := (h.onCal).issueAll

theorem Keeps.finishPasses {o} (h : Keeps s t) : Keeps s (t.finishPasses o) := by
  unfold State.finishPasses
  split
  · exact (h.onOrder).enterTable
  · exact h

theorem Keeps.calibrateLine {o ps} (h : Keeps s t) : Keeps s (t.calibrateLine o ps) := (h.onCal).finishPasses

theorem Keeps.tableWritten (h : Keeps s t) : Keeps s t.tableWritten := by
  unfold State.tableWritten
  dsimp only
  split
  · exact ((h.onCal).onOrder).endCalibrate
  · exact ((h.onCal).onOrder).onOrder

theorem Keeps.strayLine (h : Keeps s t) : Keeps s t.strayLine := by
  unfold State.strayLine
  split
  · exact (h.onIntake).issueBlock
  · exact h

theorem Keeps.announce {o n} (h : Keeps s t) : Keeps s (t.announce o n) := by
  unfold State.announce
  refine Keeps.rethrottle (Keeps.onStore (Keeps.onBus h ?_ ?_) ?_)
  · exact fun _ => rfl
  · exact fun _ _ hw => hw
  · exact LineStore.size_announce n

theorem Keeps.stripEnd {o} (h : Keeps s t) : Keeps s (t.stripEnd o) := (h.decideLines).onOrder

theorem Keeps.scanLine {o n ps} (h : Keeps s t) : Keeps s (t.scanLine o n ps) := by
  unfold State.scanLine
  dsimp only
  split
  · exact ((((h.announce).trackLine).decideDelayed).stripEnd).writerGo
  · exact (((h.announce).trackLine).decideDelayed).writerGo

theorem Keeps.takeLine {b} (h : Keeps s t) : Keeps s (t.takeLine b) := by
  unfold State.takeLine
  dsimp only
  split
  · exact h
  · exact (h.onIntake).scanLine
  · exact (h.onIntake).calibrateLine

theorem Keeps.lineArrives {b} (h : Keeps s t) : Keeps s (t.lineArrives b) := by
  unfold State.lineArrives
  split
  · exact h
  · exact h
  · exact h.strayLine
  · exact h.strayLine
  · split
    · exact h.takeLine
    · exact h.strayLine
  · split
    · exact h.takeLine
    · exact h.strayLine
  · exact h.strayLine
  · exact h.strayLine

theorem Keeps.endLine {b} (h : Keeps s t) : Keeps s (t.endLine b) := by
  unfold State.endLine
  split
  · exact h.onIntake
  · exact ((h.onIntake).lineArrives).onIntake

/-! ### Selection and start -/

theorem Keeps.beginSelection (h : Keeps s t) : Keeps s t.beginSelection := h.onOrder.startReads

theorem Keeps.endSelection {xs} (h : Keeps s t) : Keeps s (t.endSelection xs) := by
  unfold State.endSelection
  split
  · exact h.onOrder.startReads
  · split
    · exact h.onOrder.beginSelection
    · exact h.onOrder

theorem Keeps.refuseOrder {r} (h : Keeps s t) : Keeps s (t.refuseOrder r) := (h.issueEnd).leaveOrder

theorem Keeps.shadingLoaded {c} (h : Keeps s t) : Keeps s (t.shadingLoaded c) := (h.onIntake).onMapper

theorem Keeps.startShading {o} (h : Keeps s t) : Keeps s (t.startShading o) := by
  unfold State.startShading
  split
  · exact (h.shadingLoaded).issueAll
  · exact (h.onIntake).onOrder.startReads

theorem Keeps.startOrder {o} (h : Keeps s t) : Keeps s (t.startOrder o) := by
  unfold State.startOrder
  dsimp only
  split
  · exact (h.onOrder).issueSlotWord
  · exact ((h.onOrder).issueSlotWord).startShading

theorem Keeps.validateRecord {r} (h : Keeps s t) : Keeps s (t.validateRecord r) := by
  unfold State.validateRecord
  dsimp only
  split
  · exact (h.onOrder).refuseOrder
  · exact (h.onOrder).startOrder

theorem Keeps.recordArrives {r} (h : Keeps s t) : Keeps s (t.recordArrives r) := by
  unfold State.recordArrives
  dsimp only
  split
  · exact (h.onOrder).onOrder
  · exact (h.onOrder).validateRecord

theorem Keeps.startScan {o} (h : Keeps s t) : Keeps s (t.startScan o) := by
  unfold State.startScan
  refine Keeps.onBus (Keeps.onWriter (Keeps.onFill (Keeps.onMapper (Keeps.onTracker (Keeps.onStore h ?_))))) ?_ ?_
  · exact fun _ => Nat.zero_le _
  · exact fun _ => rfl
  · exact fun _ _ hw => hw

theorem Keeps.enterRunning (h : Keeps s t) : Keeps s t.enterRunning := by
  unfold State.enterRunning
  dsimp only
  split
  · exact ((h.onOrder).onIntake).startScan
  · exact ((h.onOrder).onIntake).onCal
  · exact (h.onOrder).onIntake

/-! ### FAULT and ABORT -/

theorem Keeps.haltFill (h : Keeps s t) : Keeps s t.haltFill := by
  unfold State.haltFill
  split
  · exact (h.onFill).stepFree
  · exact h

theorem Keeps.keepSuspension (h : Keeps s t) : Keeps s t.keepSuspension := (h.onOrder).onWriter

theorem Keeps.stopBlocks (h : Keeps s t) : Keeps s t.stopBlocks :=
  h.keepSuspension.withdrawSequels.cutUnissued.stopAllReads.haltFill.onWriter

theorem Keeps.enterFault {r} (h : Keeps s t) : Keeps s (t.enterFault r) := by
  unfold State.enterFault
  refine Keeps.raise (Keeps.onBus (Keeps.onOrder h.stopBlocks) ?_ ?_)
  · exact fun _ => rfl
  · exact fun _ _ hw => hw

theorem Keeps.repeatFault (h : Keeps s t) : Keeps s t.repeatFault := h.onOrder

theorem Keeps.afterFailedWrite {w} (h : Keeps s t) : Keeps s (t.afterFailedWrite w) := by
  unfold State.afterFailedWrite
  split
  · exact h.onCal
  · exact h

theorem Keeps.afterFailedRead {r} (h : Keeps s t) : Keeps s (t.afterFailedRead r) := by
  unfold State.afterFailedRead
  split
  · split
    · exact h.onIntake
    · exact h
  · exact h.onBus (fun _ => rfl) (fun _ _ hw => hw)
  all_goals exact h

theorem Keeps.settle (h : Keeps s t) : Keeps s t.settle := by
  unfold State.settle
  split
  · exact h
  · exact (h.enterFault).afterFailedWrite

theorem Keeps.readFails {k r a} (h : Keeps s t) : Keeps s (t.readFails k r a) := (h.failRead.enterFault).afterFailedRead

theorem Keeps.endAborted {r} (h : Keeps s t) : Keeps s (t.endAborted r) := (((h.issueEnd).onOrder).onWriter).leaveOrder

theorem Keeps.abortStarting (h : Keeps s t) : Keeps s t.abortStarting := by
  unfold State.abortStarting
  split
  · exact h.endAborted
  · dsimp only
    split
    · exact (h.cutUnissued.stopReads.stopReads.onOrder).onIntake
    · exact h.cutUnissued.stopReads.stopReads.onOrder

theorem Keeps.abortPasses {g} (h : Keeps s t) : Keeps s (t.abortPasses g) := (h.onCal).endAborted

theorem Keeps.abortTable {o} (h : Keeps s t) : Keeps s (t.abortTable o) := by
  unfold State.abortTable State.markAborting
  exact Keeps.onOrder (Keeps.onOrder h.cutUnissued)

theorem Keeps.abortCalibrate {o} (h : Keeps s t) : Keeps s (t.abortCalibrate o) := by
  unfold State.abortCalibrate
  split
  · exact h.abortPasses
  · exact h.abortPasses
  · exact h.abortPasses
  · exact h.abortTable
  · exact h.abortPasses

theorem Keeps.stopLine (h : Keeps s t) : Keeps s t.stopLine := by
  unfold State.stopLine
  exact Keeps.onWriter h.cutUnissued

theorem Keeps.abortWriter (h : Keeps s t) : Keeps s t.abortWriter := by
  unfold State.abortWriter
  dsimp only
  split
  · split
    · exact h.onWriter
    · exact Keeps.onWriter h.stopLine
  · split
    · exact h.onWriter
    · exact Keeps.onWriter h.stopLine

theorem Keeps.abortScan {o} (h : Keeps s t) : Keeps s (t.abortScan o) := by
  unfold State.abortScan State.markAborting
  exact Keeps.onOrder (Keeps.onOrder (Keeps.stopScan (Keeps.abortWriter (Keeps.onFill (Keeps.onMapper (Keeps.onTracker h))))))

theorem Keeps.abortOrder (h : Keeps s t) : Keeps s t.abortOrder := by
  unfold State.abortOrder
  split
  · exact h.abortStarting
  · split
    · exact h.abortScan
    · exact h.abortCalibrate
    · exact h

theorem Keeps.endAbortedReads (h : Keeps s t) : Keeps s t.endAbortedReads := h.foldl (fun _ _ hu => hu.endDropped) _

theorem Keeps.abortRecords {o} (h : Keeps s t) : Keeps s (t.abortRecords o) :=
  h.foldl (fun _ _ hu => ((hu.issueAll).releasePlates).issueRosterState) _

theorem Keeps.drainScan {o g} (h : Keeps s t) : Keeps s (t.drainScan o g) := by
  unfold State.drainScan
  dsimp only
  split
  · exact h.abortRecords
  · exact (((h.abortRecords).onWriter).onStore fun _ => Nat.zero_le _).endAborted

end Sys2Proof.Machine
end

