-- ==== Sys2Proof/Laws/Ops.lean ====
section
/-! SUPPORT. What the shared operations do: little-endian fields, raising a cause, issuing writes, the end of a step, and the
answer to an attention code. -/
namespace Sys2Proof.Machine

/-! ### Fields -/

theorem length_leBytes (n v : Nat) : (leBytes n v).length = n := by
  induction n generalizing v with
  | zero => rfl
  | succ n ih => simp [leBytes, ih]

theorem leValue_leBytes (n v : Nat) : leValue (leBytes n v) = v % 256 ^ n := by
  induction n generalizing v with
  | zero => simp [leBytes, leValue, Nat.mod_one]
  | succ n ih =>
    show (BitVec.ofNat 8 v).toNat + 256 * leValue (leBytes n (v / 256)) = _
    have hp : 256 ^ (n + 1) = 256 * 256 ^ n := Nat.pow_succ'
    rw [BitVec.toNat_ofNat, ih, hp, Nat.mod_mul]

theorem length_half (v : Nat) : (half v).length = 2 := length_leBytes 2 v
theorem length_word (v : Nat) : (word v).length = 4 := length_leBytes 4 v

/-! ### Causes (R164) -/

theorem causeSet_raise (s : State) (c : Cause) : (s.raise c).causeSet c = true := by
  cases c <;> simp [State.causeSet, State.raise, State.onReg, Cause.place]

theorem causeSet_raise_of_ne (s : State) {c d : Cause} (h : c ≠ d) : (s.raise c).causeSet d = s.causeSet d := by
  cases c <;> cases d <;> first | exact absurd rfl h | simp [State.causeSet, State.raise, State.onReg, Cause.place]

/-! ### Issuing -/

theorem accessBarred_eq_false {s : State} (hf : s.order.part ≠ .fault) (hr : s.order.part ≠ .inReset)
    (hb : s.bus.barred = none) : s.accessBarred = false := by
  simp [State.accessBarred, hf, hr, hb]

/-- A write that passes the check joins the writes in flight. -/
theorem issue_eq_push {s : State} {w : BusWrite} (ha : s.accessBarred = false) (hp : s.passesCheck w = true) :
    s.issue w = s.push w := by
  simp [State.issue, ha, hp]

/-- Where access is barred nothing is issued. -/
theorem issue_eq_self {s : State} {w : BusWrite} (ha : s.accessBarred = true) : s.issue w = s := by
  simp [State.issue, ha]

/-- A field of the Exchange Block passes the check. -/
theorem passesCheck_blockField (s t : State) {offset : Nat} {data : List Byte} (mark : Mark) {pace : Pace}
    (hb : t.blockBase = s.blockBase) (h : offset + data.length ≤ Config.blockBytes) :
    t.passesCheck (s.blockField offset data mark pace) = true := by
  simp only [State.passesCheck, State.blockField, insideBlock, hb, Bool.or_eq_true, Bool.and_eq_true, decide_eq_true_eq]
  left
  omega

theorem issueBlock_eq {s : State} {offset : Nat} {data : List Byte} (ha : s.accessBarred = false)
    (h : offset + data.length ≤ Config.blockBytes) :
    s.issueBlock offset data = s.push (s.blockField offset data .silent) :=
  issue_eq_push ha (passesCheck_blockField s s _ rfl h)

theorem slotOffset_lt (i : Fin 4) : slotOffset i ≤ 1280 := by
  unfold slotOffset
  omega

theorem issueSlotWord_eq {s : State} {i : Fin 4} (value : Nat) (mark : Mark) (hc : s.order.chosen = some i)
    (ha : s.accessBarred = false) :
    s.issueSlotWord value mark = s.push (s.blockField (slotOffset i) (word value) mark) := by
  unfold State.issueSlotWord
  rw [hc]
  refine issue_eq_push ha (passesCheck_blockField s s _ rfl ?_)
  rw [length_word]
  have := slotOffset_lt i
  unfold Config.blockBytes
  omega

/-- Writes that all pass the check join the writes in flight in order. -/
theorem issueAll_eq {ws : List BusWrite} {s : State} (ha : s.accessBarred = false)
    (hp : ∀ w ∈ ws, s.passesCheck w = true) :
    s.issueAll ws = s.onBus fun b => { b with inFlight := b.inFlight ++ ws } := by
  unfold State.issueAll
  induction ws generalizing s with
  | nil => simp [State.onBus]
  | cons w ws ih =>
    rw [List.foldl_cons, issue_eq_push ha (hp w (by simp)), ih (s := s.push w) ha]
    · simp [State.push, State.onBus]
    · intro v hv
      exact (passesCheck_congr (s := s) (t := s.push w) rfl rfl v).trans (hp v (by simp [hv]))

/-! ### The end of a step -/

theorem settle_of_none {s : State} (h : s.bus.barred = none) : s.settle = s := by
  simp [State.settle, h]

theorem done_of_none {s : State} (h : s.bus.barred = none) : done s = .next s := by
  rw [done, settle_of_none h]

/-- A meaning that leaves no failed write waiting answers the state it made. -/
theorem done_eq {t u : State} (hb : t.bus.barred = none) (h : t = u) : done t = .next u := h ▸ done_of_none hb

/-- Every step leaves no write waiting for its bus error. -/
theorem settle_barred (s : State) : s.settle.bus.barred = none := by
  unfold State.settle
  split
  · assumption
  · unfold State.afterFailedWrite
    split <;> rfl

/-! ### Attention codes (R168) -/

theorem judged_accepted {accepted : Bool} {value : Word} {effect : State → State} {s : State} (h : accepted = true)
    (hb : (effect s).bus.barred = none) : judged accepted value effect s = .next (effect s) := by
  unfold judged
  rw [if_pos h, done_of_none hb]

theorem judged_refused {accepted : Bool} {value : Word} {effect : State → State} {s : State} (h : accepted = false)
    (hb : (s.refuseCode value).bus.barred = none) : judged accepted value effect s = .next (s.refuseCode value) := by
  unfold judged
  rw [if_neg (by simp [h]), done_of_none hb]

end Sys2Proof.Machine
end

