-- ==== Sys2Proof/Laws/Exec.lean ====
section
/-! SUPPORT. What a command can do to memory, to the writes in flight, to the queue, to BLOCK_BASE and to the Window Table:
writes end (`Lands`), and then work inside the step keeps the rest (`Keeps`). One lemma per meaning; the four commands that
reset the part, move BLOCK_BASE or load the table have lemmas of their own. -/
namespace Sys2Proof.Machine

/-- Writes end, then work inside the step. -/
def Reaches (s t : State) : Prop := ∃ u, Lands s u ∧ Keeps u t

variable {s t : State}

theorem Reaches.of (h : Keeps s t) : Reaches s t := ⟨s, Lands.refl s, h⟩

theorem Reaches.self (s : State) : Reaches s s := .of (.refl s)

theorem Reaches.done {u : State} (h : Reaches s t) (e : done t = .next u) : Reaches s u := by
  cases e
  obtain ⟨v, h1, h2⟩ := h
  exact ⟨v, h1, h2.settle⟩

theorem Reaches.ite {c : Prop} [Decidable c] {a b : State} (ha : Reaches s a) (hb : Reaches s b) :
    Reaches s (if c then a else b) := by
  split
  · exact ha
  · exact hb

theorem keeps_refuseCode (s : State) (v : Word) : Keeps s (s.refuseCode v) := by
  have h : Keeps s (s.raise .refused) := (Keeps.refl s).raise
  unfold State.refuseCode
  dsimp only
  split
  · exact h.onOrder.issueBlock
  · exact h

theorem Reaches.judged {accepted : Bool} {v : Word} {effect : State → State} {u : State} (h : Keeps s (effect s))
    (e : judged accepted v effect s = .next u) : Reaches s u := by
  unfold Machine.judged at e
  refine Reaches.done (Reaches.ite (.of h) (.of (keeps_refuseCode s v))) e

theorem reaches_onEnd {mark : Mark} {follow : State → State} (h : ∀ u, Keeps u (follow u)) :
    Reaches s (s.onEnd mark follow) := by
  unfold State.onEnd
  split
  · exact .self s
  · exact ⟨_, lands_endWrite s _, h _⟩

theorem keeps_reg {f : RegisterPort → RegisterPort} (hf : ∀ r, (f r).blockBase = r.blockBase) : Keeps s (s.onReg f) :=
  (Keeps.refl s).onReg hf

/-! ### The Sensor Link and the register window -/

theorem reaches_startOfLineMark (e : execStartOfLineMark s = .next t) : Reaches s t :=
  .done (.ite (.self s) (.of (Keeps.refl s).endLine)) e

theorem reaches_pixel {p : Pixel} (e : execPixel p s = .next t) : Reaches s t :=
  .done (.ite (.self s) (.of (Keeps.refl s).onIntake)) e

theorem reaches_endOfLineMark (e : execEndOfLineMark s = .next t) : Reaches s t :=
  .done (.ite (.self s) (.of (Keeps.refl s).endLine)) e

theorem reaches_causeRead (e : execCauseRead s = .next t) : Reaches s t := by
  refine .done (.of (keeps_reg ?_)) e
  intro r
  rfl

theorem reaches_causeMaskWrite {v : Word} (e : execCauseMaskWrite v s = .next t) : Reaches s t := by
  refine .done (.of (keeps_reg ?_)) e
  intro r
  rfl

theorem reaches_resetHoldLeave {v : Word} (e : execResetHoldLeave v s = .next t) : Reaches s t := by
  unfold execResetHoldLeave at e
  split at e
  · cases e
  · exact .done (.ite (.of (Keeps.refl s).onOrder) (.self s)) e

theorem reaches_registerWriteIgnored {a : IgnoredAccess} (e : execRegisterWriteIgnored a s = .next t) : Reaches s t := by
  unfold execRegisterWriteIgnored at e
  split at e
  · split at e
    · exact .done (.self s) e
    · exact .done (.self s) e
    · refine .done (.of (keeps_reg ?_)) e
      intro r
      rfl
    · exact .done (.self s) e
  · cases e

/-! ### Attention codes -/

theorem reaches_look (e : execLook s = .next t) : Reaches s t := by
  refine .judged ?_ e
  unfold State.look
  split
  · split
    · exact (Keeps.refl s).onOrder
    · exact (Keeps.refl s).beginSelection
  · exact .refl s

theorem reaches_plates (e : execPlates s = .next t) : Reaches s t := by
  refine .judged ?_ e
  unfold State.plates
  split
  · exact (Keeps.refl s).beginRescan
  · exact (Keeps.refl s).onWriter
  · exact (Keeps.refl s).onWriter
  · exact .refl s

theorem reaches_holdOn (e : execHoldOn s = .next t) : Reaches s t := by
  refine .judged (keeps_reg ?_) e
  intro r
  rfl

theorem reaches_holdOff (e : execHoldOff s = .next t) : Reaches s t := by
  refine .judged (keeps_reg ?_) e
  intro r
  rfl

theorem reaches_suspend (e : execSuspend s = .next t) : Reaches s t := by
  refine .judged ?_ e
  unfold State.suspend
  split
  · exact .refl s
  · exact ((Keeps.refl s).onOrder.onWriter).issueSlotWord

theorem Keeps.goOn {held : Bool} (h : Keeps s t) : Keeps s (t.goOn held) := by
  unfold State.goOn
  split
  · split
    · exact h.endScan
    · exact h.writerGo
  · split
    · exact h.endCalibrate
    · exact h.finishPasses
  · exact h

theorem reaches_resume (e : execResume s = .next t) : Reaches s t := by
  refine .judged ?_ e
  unfold State.resume
  split
  · exact .refl s
  · exact (((Keeps.refl s).issueSlotWord).onOrder.onWriter).goOn

theorem reaches_abort (e : execAbort s = .next t) : Reaches s t := by
  refine .judged ?_ e
  unfold State.abort
  split
  · exact .refl s
  · exact (Keeps.refl s).abortOrder

theorem reaches_windows (e : execWindows s = .next t) : Reaches s t :=
  .judged (effect := fun s => (s.onBus fun b => { b with loading := true }).startReads s.windowReads)
    (Keeps.startReads ⟨rfl, rfl, rfl, rfl, fun _ h => .of_mem h, fun h => h⟩) e

theorem reaches_fixWindows (e : execFixWindows s = .next t) : Reaches s t :=
  .judged (effect := fun s => s.onBus fun b => { b with fixed := true })
    ⟨rfl, rfl, rfl, rfl, fun _ h => .of_mem h, fun h => h⟩ e

theorem reaches_park (e : execPark s = .next t) : Reaches s t :=
  .judged ((Keeps.refl s).onOrder.stopReads.discardShading) e

theorem keeps_wake (s : State) : Keeps s s.wake := (Keeps.refl s).onOrder.issueAll

theorem reaches_wake (e : execWake s = .next t) : Reaches s t := .judged (keeps_wake s) e

theorem reaches_unknownAttentionValue {v : Word} (e : execUnknownAttentionValue v s = .next t) : Reaches s t := by
  unfold execUnknownAttentionValue at e
  split at e
  · cases e
  · exact .judged (effect := id) (.refl s) e

/-! ### Ends of reads -/

theorem reaches_selectionReadsComplete {xs : List Byte} (e : execSelectionReadsComplete xs s = .next t) :
    Reaches s t := by
  unfold execSelectionReadsComplete at e
  split at e
  · exact .done (.ite (.of (Keeps.refl s).endReads.endSelection) (.of (Keeps.refl s).endDropped)) e
  · cases e

theorem reaches_orderRecordReadComplete {r : List Byte} (e : execOrderRecordReadComplete r s = .next t) :
    Reaches s t := by
  unfold execOrderRecordReadComplete at e
  split at e
  · exact .done (.ite (.of (Keeps.refl s).endReads.recordArrives) (.of (Keeps.refl s).endDropped)) e
  · cases e

theorem reaches_shadingLoadComplete {r : List Byte} (e : execShadingLoadComplete r s = .next t) : Reaches s t := by
  unfold execShadingLoadComplete at e
  split at e
  · split at e
    · split at e
      · split at e
        · exact .done (.of (((Keeps.refl s).endReads.onOrder.shadingLoaded).issueAll)) e
        · cases e
      · exact .done (.of (Keeps.refl s).endDropped) e
    · exact .done (.of (Keeps.refl s).endDropped) e
  · cases e

theorem reaches_plateScanReadComplete {rs : List ScanRead} (e : execPlateScanReadComplete rs s = .next t) :
    Reaches s t := by
  unfold execPlateScanReadComplete at e
  have dropped : Keeps s (rs.foldl State.dropScanRead s) := (Keeps.refl s).foldl (fun _ _ h => h.dropScanRead) _
  split at e
  · split at e
    · exact .done (.ite (.of dropped) (.of ((Keeps.refl s).foldl (fun _ _ h => h.scanRead) _))) e
    · exact .done (.of dropped) e
  · cases e

/-! ### Ends of writes and of work -/

theorem reaches_startWritesComplete (e : execStartWritesComplete s = .next t) : Reaches s t := by
  refine .done (reaches_onEnd fun u => ?_) e
  split
  · exact (Keeps.refl u).enterRunning
  · exact .refl u

theorem reaches_fillComplete (e : execFillComplete s = .next t) : Reaches s t := by
  unfold execFillComplete at e
  split at e
  · exact .done (.of (Keeps.refl s).fillEnds) e
  · exact .done (.self s) e

theorem reaches_burstComplete (e : execBurstComplete s = .next t) : Reaches s t := by
  refine .done (reaches_onEnd fun u => ?_) e
  unfold State.afterBurst
  split
  · split
    · exact .refl u
    · exact (Keeps.refl u).burstEnds
  · exact .refl u

theorem reaches_framesTallyWriteComplete (e : execFramesTallyWriteComplete s = .next t) : Reaches s t :=
  .done (reaches_onEnd fun u => (Keeps.refl u).raise) e

theorem reaches_orderTallyWriteComplete (e : execOrderTallyWriteComplete s = .next t) : Reaches s t := by
  refine .done (reaches_onEnd fun u => ?_) e
  unfold State.ordersTallied
  dsimp only
  split
  · exact (Keeps.refl u).onOrder
  · split
    · exact (((Keeps.refl u).onOrder).raise).beginSelection
    · exact ((Keeps.refl u).onOrder).raise

theorem reaches_shadingTableWritten (e : execShadingTableWritten s = .next t) : Reaches s t := by
  refine .done (reaches_onEnd fun u => ?_) e
  split
  · exact (Keeps.refl u).tableWritten
  · exact .refl u

theorem reaches_abortDrainComplete (e : execAbortDrainComplete s = .next t) : Reaches s t := by
  refine .done (.ite ?_ (.self s)) e
  unfold State.drainAbort
  dsimp only
  split
  · exact ⟨_, (lands_endWritesThrough s.endAbortedReads _).of_endAbortedReads, (Keeps.refl _).endAborted⟩
  · split
    · exact .of (Keeps.refl s).endAbortedReads.drainScan
    · exact ⟨_, (lands_endWritesThrough s.endAbortedReads _).of_endAbortedReads, (Keeps.refl _).onCal.endAborted⟩
    · exact .of (Keeps.refl s).endAbortedReads

/-! ### Bus errors and the drain in FAULT -/

theorem reaches_plateBurstBusError (e : execPlateBurstBusError s = .next t) : Reaches s t := by
  unfold execPlateBurstBusError at e
  split at e
  · exact .done (.self s) e
  · split at e
    · exact .done (.self s) e
    · rename_i k _ _ w hw
      refine .done ⟨_, lands_failWrite hw, ?_⟩ e
      have h := Keeps.refl (s.failWrite k)
      unfold State.afterBurstError
      split
      · exact h.repeatFault
      · split
        · unfold State.burstFails
          split
          · exact h.burstEnds
          · exact (h.cutUnissued.plateError).burstEnds
        · exact h

theorem reaches_failsInFault (s : State) (a : FailedAccess) : Reaches s (s.failsInFault a) := by
  unfold State.failsInFault
  split
  · split
    · exact .self s
    · exact .of (Keeps.refl s).failRead.repeatFault
  · split
    · rename_i h
      obtain ⟨w, hw⟩ := Option.isSome_iff_exists.1 h
      exact ⟨_, lands_failWrite hw, (Keeps.refl _).repeatFault⟩
    · exact .self s

theorem reaches_failsOutside (s : State) (a : FailedAccess) : Reaches s (s.failsOutside a) := by
  unfold State.failsOutside
  split
  · split
    · exact .self s
    · exact .of (Keeps.refl s).readFails
  · split
    · exact .self s
    · split
      · exact .self s
      · rename_i w hw _
        exact ⟨_, lands_failWrite hw, ((Keeps.refl _).enterFault).afterFailedWrite⟩

theorem reaches_exchangeBusError {a : FailedAccess} (e : execExchangeBusError a s = .next t) : Reaches s t :=
  .done (.ite (.self s) (.ite (reaches_failsInFault s a) (reaches_failsOutside s a))) e

theorem reaches_busErrorInFault {a : FailedAccess} (e : execBusErrorInFault a s = .next t) : Reaches s t :=
  .done (.ite (reaches_failsInFault s a) (.self s)) e

theorem reaches_faultDrainComplete (e : execFaultDrainComplete s = .next t) : Reaches s t := by
  refine .done (.ite ?_ (.self s)) e
  refine ⟨_, lands_endAllWrites s, ?_⟩
  unfold State.drainFault
  dsimp only
  refine Keeps.onOrder (Keeps.push ?_ (passesCheck_blockField _ _ _ rfl (by simp [length_word, length_half, Config.blockBytes])))
  split
  · exact (Keeps.refl _).raise.onReads
  · exact (Keeps.refl _).onReads

/-! ### The four commands that are not of that form -/

theorem blockBaseWrite_next {v : Word} (e : execBlockBaseWrite v s = .next t) :
    ∃ b, Keeps { s with reg := { s.reg with blockBase := b } } t ∧ (b = s.reg.blockBase ∨ b = blockAddress v) := by
  unfold execBlockBaseWrite at e
  split at e
  · cases e
    refine ⟨blockAddress v, Keeps.settle ?_, .inr rfl⟩
    have h : Keeps s ((s.reachReads .windowSource).reachReads .slotWord) := (Keeps.refl s).reachReads.reachReads
    refine ⟨h.1, h.2, rfl, h.4, fun w hw => .of_mem ?_, h.6⟩
    have hw : w ∈ ((s.reachReads .windowSource).reachReads .slotWord).bus.inFlight := hw
    rwa [reachReads_inFlight, reachReads_inFlight] at hw
  · cases e
    exact ⟨s.reg.blockBase, ((Keeps.refl s).raise).settle, .inl rfl⟩

theorem windowLoadComplete_next {data : List Byte} (e : execWindowLoadComplete data s = .next t) :
    Keeps s t ∨ Keeps { s with bus := { s.bus with windows := windowsOfBytes data, loading := false } } t := by
  unfold execWindowLoadComplete at e
  split at e
  · split at e
    · right
      cases e
      refine Keeps.settle ?_
      have h : Keeps { s with bus := { s.bus with windows := windowsOfBytes data, loading := false } }
          ((s.endReads .windowSource).onBus fun b => { b with windows := windowsOfBytes data, loading := false }) :=
        ⟨rfl, rfl, rfl, rfl, fun _ h => .of_mem h, id⟩
      unfold State.windowsArrive
      dsimp only
      split
      · split
        · exact h.validateRecord
        · exact h
      · exact h
    · left
      cases e
      exact (Keeps.refl s).endDropped.settle
  · cases e

/-- A reset: the writes in flight end, and the part is as `State.reset` but for what a hold reset keeps. -/
theorem powerOn_next (e : execPowerOn s = .next t) : t = s.powerOn := by
  cases e
  exact settle_of_none rfl

theorem resetHoldEnter_next {v : Word} (e : execResetHoldEnter v s = .next t) : t = s.holdReset ∨ t = s.settle := by
  unfold execResetHoldEnter at e
  split at e
  · split at e
    · right
      cases e
      rfl
    · left
      cases e
      exact settle_of_none rfl
  · cases e

end Sys2Proof.Machine
end

