-- ==== Sys2Proof/Laws/Orders.lean ====
section
/-! SUPPORT. What the operations of an order's start and end do where their writes pass the window check: the end writes, the
roster's free forms, plate table and roster writes, the discard and the abort of records, the head handling of the writer,
and the entry to FAULT. -/
namespace Sys2Proof.Machine

/-! ### Writes that pass the check -/

theorem insideWindow_sub {ws : List (Option Window)} {a n b m : Nat} (h : insideWindow ws a n = true) (h1 : a ≤ b)
    (h2 : b + m ≤ a + n) : insideWindow ws b m = true := by
  simp only [insideWindow, List.any_eq_true] at h ⊢
  obtain ⟨w, hw, h⟩ := h
  refine ⟨w, hw, ?_⟩
  cases w with
  | none => cases h
  | some w =>
    simp only [Bool.and_eq_true, decide_eq_true_eq] at h ⊢
    omega

theorem passesCheck_of_insideWindow {s : State} {w : BusWrite} {a n : Nat} (h : insideWindow s.bus.windows a n = true)
    (h1 : a ≤ w.address) (h2 : w.address + w.data.length ≤ a + n) : s.passesCheck w = true :=
  Bool.or_eq_true_iff.2 (.inr (insideWindow_sub h h1 h2))

theorem passesCheck_slotField (s : State) (i : Fin 4) (offset : Nat) (data : List Byte) (mark : Mark) {pace : Pace}
    (h : offset + data.length ≤ 256) : s.passesCheck (s.blockField (slotOffset i + offset) data mark pace) = true := by
  have := slotOffset_lt i
  exact passesCheck_blockField s s mark rfl (by simp only [Config.blockBytes]; omega)

theorem passesCheck_plateField (s t : State) (k offset frame : Nat) (data : List Byte) {pace : Pace} (hk : k < 256)
    (h : offset + data.length ≤ 16) (hb : t.blockBase = s.blockBase) :
    t.passesCheck (s.plateField k offset frame data pace) = true := by
  refine Bool.or_eq_true_iff.2 (.inl ?_)
  show insideBlock t.blockBase (s.blockBase + plateOffset k + offset) data.length = true
  simp only [insideBlock, plateOffset, Config.blockBytes, hb, Bool.and_eq_true, decide_eq_true_eq]
  omega

theorem passesCheck_resultWrites (s : State) (i : Fin 4) (r : Results) :
    ∀ w ∈ s.resultWrites i r, s.passesCheck w = true := by
  intro w hw
  simp only [State.resultWrites, List.mem_map, List.mem_cons, List.not_mem_nil, or_false] at hw
  obtain ⟨f, hf, rfl⟩ := hw
  rcases hf with rfl | rfl | rfl | rfl | rfl | rfl | rfl | rfl | rfl | rfl | rfl | rfl | rfl | rfl <;>
    exact passesCheck_slotField _ _ _ _ _ (by simp [length_word, length_half, wideCount])

theorem passesCheck_rosterFreeForms {s : State} {o : ScanOrder}
    (h : insideWindow s.bus.windows o.rosterAddress (o.expectedFrames * 640) = true) (n k : Nat) (h1 : 1 ≤ k)
    (h2 : k + n ≤ o.expectedFrames + 1) : ∀ w ∈ rosterFreeForms o n k, s.passesCheck w = true := by
  induction n generalizing k with
  | zero => intro w hw; cases hw
  | succ n ih =>
    intro w hw
    simp only [rosterFreeForms, List.mem_append, List.mem_map] at hw
    rcases hw with ⟨v, hv, rfl⟩ | hw
    · have hp : s.passesCheck v = true := by
        simp only [freeForm, List.mem_cons, List.not_mem_nil, or_false] at hv
        rcases hv with rfl | rfl <;> refine passesCheck_of_insideWindow h ?_ ?_ <;>
          simp only [rosterField, rosterEntry, List.length_replicate, length_half] <;> omega
      split
      · exact hp
      · exact hp
    · exact ih (k + 1) (by omega) (by omega) w hw

/-! ### The end of an order -/

/-- The end writes of an order (R180, R181, R183): the result area, the slot state word, the advanced orders tally. -/
theorem endWrites_eq (s : State) (i : Fin 4) (r : Results) (v : Nat) (pace : Pace) :
    s.endWrites i r v pace = s.resultArea i r pace ++ [s.slotWrite i v .silent pace, s.tallyWrite pace] := by
  simp [State.endWrites, State.resultArea, State.slotWrite, State.tallyWrite, State.blockField, slotOffset]

theorem passesCheck_endWrites (s : State) (i : Fin 4) (r : Results) (v : Nat) (pace : Pace) :
    ∀ w ∈ s.endWrites i r v pace, s.passesCheck w = true := by
  intro w hw
  simp only [State.endWrites, List.mem_map, List.mem_append] at hw
  obtain ⟨u, hu | hu, rfl⟩ := hw
  · exact passesCheck_resultWrites s i r u hu
  · simp only [List.mem_cons, List.not_mem_nil, or_false] at hu
    rcases hu with rfl | rfl
    · exact passesCheck_slotField s i 0 (word v) .silent (by simp [length_word])
    · exact passesCheck_blockField s s (data := word (s.order.ordersTally + 1).toNat) .ordersTally rfl
        (by simp [length_word, Config.blockBytes])

theorem issueEnd_eq {s : State} {i : Fin 4} (r : Results) (v : Nat) (pace : Pace) (hc : s.order.chosen = some i)
    (ha : s.accessBarred = false) :
    s.issueEnd r v pace =
      ({ s with
          order := { s.order with
            ordersTally := s.order.ordersTally + 1, endWrites := true, follows := true } }).withWrites
        (s.resultArea i r pace ++ [s.slotWrite i v .silent pace, s.tallyWrite pace]) := by
  unfold State.issueEnd
  rw [hc]
  dsimp only
  rw [issueAll_eq, endWrites_eq]
  · rfl
  · exact ha
  · exact fun w hw => passesCheck_endWrites s i r v pace w hw

theorem leaveOrder_bus (s : State) : s.leaveOrder.bus = s.bus := rfl
theorem leaveOrder_mem (s : State) : s.leaveOrder.mem = s.mem := rfl
theorem leaveOrder_reg (s : State) : s.leaveOrder.reg = s.reg := rfl
theorem leaveOrder_cal (s : State) : s.leaveOrder.cal = s.cal := rfl
theorem leaveOrder_order (s : State) :
    s.leaveOrder.order =
      { s.order with
        part := .idle, origin := none, aborting := false, chosen := none, current := none, recordRead := false
        waiting := none, shadingReads := false, heldEnd := false, gathered := none } := rfl

/-! ### The end of the oldest write with a mark -/

/-- The oldest write with a mark stands behind the writes `early`, none of which carries it. -/
theorem placeOf_split {s : State} {early late : List BusWrite} {w : BusWrite} {mark : Mark}
    (hi : s.bus.inFlight = early ++ w :: late) (hm : w.mark = mark) (he : ∀ v ∈ early, v.mark ≠ mark) :
    s.placeOf mark = some early.length := by
  have hn : early.findIdx? (fun v => v.mark == mark) = none := by
    rw [List.findIdx?_eq_none_iff]
    intro v hv
    simpa using he v hv
  rw [State.placeOf, hi, List.findIdx?_append, hn]
  simp [List.findIdx?_cons, hm]

/-- A write ends without error: it and every write before it have landed. -/
theorem endWrite_split {s : State} {early late : List BusWrite} {w : BusWrite} (hi : s.bus.inFlight = early ++ w :: late) :
    s.endWrite early.length =
      { s with
        bus := { s.bus with inFlight := stillTracked early ++ late }, mem := landAll s.mem (early ++ [w]) } := by
  have h1 : (early ++ w :: late).take (early.length + 1) = early ++ [w] := by rw [List.take_append]; simp
  have h2 : (early ++ w :: late).drop (early.length + 1) = late := by rw [List.drop_append]; simp
  simp only [State.endWrite, hi, List.take_left, h1, h2]

/-- The oldest write with a mark ends. -/
theorem onEnd_split {s : State} {early late : List BusWrite} {w : BusWrite} {mark : Mark} {follow : State → State}
    (hi : s.bus.inFlight = early ++ w :: late) (hm : w.mark = mark) (he : ∀ v ∈ early, v.mark ≠ mark) :
    s.onEnd mark follow =
      follow { s with
        bus := { s.bus with inFlight := stillTracked early ++ late }, mem := landAll s.mem (early ++ [w]) } := by
  simp only [State.onEnd, placeOf_split hi hm he, endWrite_split hi]

/-- A write ends in a bus error: the writes before it have landed, and of its own bytes a free choice (log 4). -/
theorem failWrite_split {s : State} {early late : List BusWrite} {w : BusWrite} (hi : s.bus.inFlight = early ++ w :: late) :
    s.failWrite early.length =
      { s with
        bus := { s.bus with inFlight := stillTracked early ++ late }
        mem := Memory.storeSome (Config.freeByteLands s.free) (landAll s.mem early) w.address w.data 0
        free := s.free + 1 } := by
  have h1 : (early ++ w :: late).drop (early.length + 1) = late := by rw [List.drop_append]; simp
  have h2 : (early ++ w :: late)[early.length]? = some w := by simp
  unfold State.failWrite
  rw [hi, h2]
  simp only [List.take_left, h1]

/-! ### Issuing that stops (log 5, log 31) -/

/-- Where no write is a queued one of the work's, all of them stay in flight as they are. -/
theorem keepIssued_of_none {own : BusWrite → Bool} {q : Nat} {ws : List BusWrite}
    (h : ∀ w ∈ ws, own w = false ∨ w.isQueued = false) : keepIssued own q ws = ws := by
  induction ws generalizing q with
  | nil => rfl
  | cons w ws ih =>
    have hw : (own w && w.isQueued) = false := by
      rcases h w (by simp) with h | h <;> simp [h]
    unfold keepIssued
    rw [if_neg (by simp [hw]), ih fun v hv => h v (List.mem_cons_of_mem _ hv)]

/-- A write that stays in flight when issuing stops is as it was, or was queued and is known to be issued. -/
theorem keepIssued_spec {own : BusWrite → Bool} {q : Nat} {ws : List BusWrite} {w : BusWrite} (h : w ∈ keepIssued own q ws) :
    (w ∈ ws ∧ (own w && w.isQueued) = false) ∨ ∃ v ∈ ws, v.isQueued = true ∧ w = { v with pace := .issued } := by
  induction ws generalizing q with
  | nil => simp [keepIssued] at h
  | cons x ws ih =>
    have tail : ∀ {q}, w ∈ keepIssued own q ws →
        (w ∈ x :: ws ∧ (own w && w.isQueued) = false)
          ∨ ∃ v ∈ x :: ws, v.isQueued = true ∧ w = { v with pace := .issued } := fun h => by
      rcases ih h with ⟨h1, h2⟩ | ⟨v, hv, h2⟩
      · exact .inl ⟨List.mem_cons_of_mem _ h1, h2⟩
      · exact .inr ⟨v, List.mem_cons_of_mem _ hv, h2⟩
    unfold keepIssued at h
    split at h
    · rename_i hx
      split at h
      · exact tail h
      · rcases List.mem_cons.1 h with rfl | h
        · exact .inr ⟨x, List.mem_cons_self .., (Bool.and_eq_true_iff.1 hx).2, rfl⟩
        · exact tail h
    · rename_i hx
      rcases List.mem_cons.1 h with rfl | h
      · exact .inl ⟨List.mem_cons_self .., by simpa using hx⟩
      · exact tail h

/-- A write that is not a queued one of the work's stays in flight. -/
theorem mem_keepIssued_of_not {own : BusWrite → Bool} {q : Nat} {ws : List BusWrite} {w : BusWrite} (h : w ∈ ws)
    (hw : (own w && w.isQueued) = false) : w ∈ keepIssued own q ws := by
  induction ws generalizing q with
  | nil => cases h
  | cons x ws ih =>
    unfold keepIssued
    rcases List.mem_cons.1 h with rfl | h
    · simp [hw]
    · split
      · split
        · exact ih h
        · exact List.mem_cons_of_mem _ (ih h)
      · exact List.mem_cons_of_mem _ (ih h)

/-! ### Reads (log 30) -/

/-- Where access is not barred, an operation's reads join the reads in flight. -/
theorem startReads_eq {s : State} (rs : List BusRead) (ha : s.accessBarred = false) :
    s.startReads rs = s.withReads (firstMade rs) := by
  simp [State.startReads, ha, State.withReads, State.onBus]

theorem stage_makeReads {k : ReadSite} {q : Nat} {rs : List BusRead} {r : BusRead} (h : r ∈ rs) (hr : r.isWaiting k = false) :
    r ∈ makeReads k q rs := by
  induction rs generalizing q with
  | nil => cases h
  | cons x rs ih =>
    unfold makeReads
    rcases List.mem_cons.1 h with rfl | h
    · simp [hr]
    · split
      · split
        · exact List.mem_cons_of_mem _ (ih h)
        · exact List.mem_cons_of_mem _ (ih h)
      · exact List.mem_cons_of_mem _ (ih h)

theorem mem_makeReads {k : ReadSite} {q : Nat} {rs : List BusRead} {r : BusRead} (h : r ∈ makeReads k q rs) :
    r ∈ rs ∨ r.site = k := by
  induction rs generalizing q with
  | nil => simp [makeReads] at h
  | cons x rs ih =>
    have tail : ∀ {q}, r ∈ makeReads k q rs → r ∈ x :: rs ∨ r.site = k := fun h => by
      rcases ih h with h | h
      · exact .inl (List.mem_cons_of_mem _ h)
      · exact .inr h
    unfold makeReads at h
    split at h
    · rename_i hx
      have hs : x.site = k := by simpa using (Bool.and_eq_true_iff.1 hx).1
      split at h
      · rcases List.mem_cons.1 h with rfl | h
        · exact .inl (List.mem_cons_self ..)
        · exact tail h
      · rcases List.mem_cons.1 h with rfl | h
        · exact .inr hs
        · exact tail h
    · rcases List.mem_cons.1 h with rfl | h
      · exact .inl (List.mem_cons_self ..)
      · exact tail h

/-- What giving up the operation that reads at a site leaves of the reads in flight. -/
theorem stopReads_eq (s : State) (k : ReadSite) :
    ∃ n rs, s.stopReads k = { s with bus := { s.bus with reads := rs }, free := n }
      ∧ (∀ r ∈ rs, (r ∈ s.bus.reads ∧ r.site ≠ k) ∨ (r.site = k ∧ r.stage = .dropped))
      ∧ ∀ r ∈ s.bus.reads, r.stage ≠ .waiting → r ∈ rs ∨ { r with stage := .dropped } ∈ rs := by
  have key : ∀ mid : List BusRead, (∀ r ∈ mid, r ∈ s.bus.reads ∨ r.site = k) →
      (∀ r ∈ s.bus.reads, r.stage ≠ .waiting → r ∈ mid) →
      (∀ r ∈ dropReads k mid, (r ∈ s.bus.reads ∧ r.site ≠ k) ∨ (r.site = k ∧ r.stage = .dropped))
        ∧ ∀ r ∈ s.bus.reads, r.stage ≠ .waiting → r ∈ dropReads k mid ∨ { r with stage := .dropped } ∈ dropReads k mid := by
    intro mid h1 h2
    constructor
    · intro r hr
      simp only [dropReads, List.mem_map, List.mem_filter] at hr
      obtain ⟨x, ⟨hx, -⟩, rfl⟩ := hr
      by_cases hs : x.site = k
      · exact .inr (by simp [hs])
      · rw [if_neg hs]
        exact .inl ⟨(h1 x hx).resolve_right hs, hs⟩
    · intro r hr hw
      have hf : r ∈ mid.filter fun r => !r.isWaiting k :=
        List.mem_filter.2 ⟨h2 r hr hw, by simp [BusRead.isWaiting, hw]⟩
      have hm := List.mem_map_of_mem (f := fun r : BusRead => if r.site = k then { r with stage := .dropped } else r) hf
      by_cases hs : r.site = k
      · rw [if_pos hs] at hm
        exact .inr hm
      · rw [if_neg hs] at hm
        exact .inl hm
  unfold State.stopReads State.reachReads
  split
  · obtain ⟨h1, h2⟩ := key s.bus.reads (fun _ h => .inl h) (fun _ h _ => h)
    exact ⟨s.free, _, rfl, h1, h2⟩
  · obtain ⟨h1, h2⟩ := key (makeReads k (Config.freeProgress s.free % (s.countWaiting k + 1)) s.bus.reads)
      (fun _ h => mem_makeReads h) (fun r h hw => stage_makeReads h (by simp [BusRead.isWaiting, hw]))
    exact ⟨s.free + 1, _, rfl, h1, h2⟩

theorem foldl_stopReads_eq (sites : List ReadSite) (s : State) :
    ∃ n rs, sites.foldl State.stopReads s = { s with bus := { s.bus with reads := rs }, free := n }
      ∧ (∀ r ∈ rs, (r ∈ s.bus.reads ∧ r.site ∉ sites) ∨ (r.site ∈ sites ∧ r.stage = .dropped))
      ∧ ∀ r ∈ s.bus.reads, r.stage ≠ .waiting → r ∈ rs ∨ { r with stage := .dropped } ∈ rs := by
  induction sites generalizing s with
  | nil => exact ⟨s.free, s.bus.reads, rfl, fun r h => .inl ⟨h, List.not_mem_nil⟩, fun r h _ => .inl h⟩
  | cons k sites ih =>
    obtain ⟨n, rs, e, h1, h2⟩ := stopReads_eq s k
    obtain ⟨m, qs, e', g1, g2⟩ := ih (s.stopReads k)
    rw [e] at e' g1 g2
    refine ⟨m, qs, ?_, ?_, ?_⟩
    · rw [List.foldl_cons, e, e']
    · intro r hr
      rcases g1 r hr with ⟨hm, hs⟩ | ⟨hs, hd⟩
      · rcases h1 r hm with ⟨hm, hk⟩ | ⟨hk, hd⟩
        · exact .inl ⟨hm, by simp [hk, hs]⟩
        · exact .inr ⟨by simp [hk], hd⟩
      · exact .inr ⟨List.mem_cons_of_mem _ hs, hd⟩
    · intro r hr hw
      rcases h2 r hr hw with h | h
      · exact g2 r h hw
      · rcases g2 _ h (by simp) with h | h
        · exact .inr h
        · exact .inr h

/-- What giving up the scan of the plate table leaves of the reads in flight (R143, R152). -/
theorem stopScan_eq (s : State) :
    ∃ n rs, s.stopScan = { s with bus := { s.bus with reads := rs }, free := n }
      ∧ (∀ q ∈ rs, q.site ∈ [ReadSite.plateCount, .plateEntry] → q.stage = .dropped)
      ∧ ∀ q : BusRead, q.site ∉ [ReadSite.plateCount, .plateEntry] → (q ∈ rs → q ∈ s.bus.reads) := by
  obtain ⟨n, rs, e, h1, _⟩ := foldl_stopReads_eq [ReadSite.plateCount, .plateEntry] s
  refine ⟨n, rs, e, ?_, ?_⟩
  · intro q hq hs
    rcases h1 q hq with ⟨_, h⟩ | h
    · exact absurd hs h
    · exact h.2
  · intro q hs hq
    rcases h1 q hq with h | h
    · exact h.1
    · exact absurd h.1 hs

/-- Every read that stays in flight when all operations are given up has its data discarded, and every read that had been made
stays. -/
theorem stopAllReads_eq (s : State) :
    ∃ n rs, s.stopAllReads = { s with bus := { s.bus with reads := rs }, free := n }
      ∧ (∀ r ∈ rs, r.stage = .dropped)
      ∧ ∀ r ∈ s.bus.reads, r.stage ≠ .waiting → { r with stage := .dropped } ∈ rs := by
  obtain ⟨n, rs, e, h1, h2⟩ := foldl_stopReads_eq
    [ReadSite.windowSource, .slotWord, .orderRecord, .shadingEntry, .plateCount, .plateEntry] s
  have hd : ∀ r ∈ rs, r.stage = .dropped := by
    intro r hr
    rcases h1 r hr with ⟨-, hs⟩ | ⟨-, hd⟩
    · exact absurd (by cases r.site <;> simp) hs
    · exact hd
  refine ⟨n, rs, e, hd, fun r hr hw => ?_⟩
  rcases h2 r hr hw with h | h
  · have := hd r h
    rwa [← this]
  · exact h

/-! ### A line that ends, a burst that fails, a scan that fails -/

theorem burstsLeft_iff (s : State) : s.burstsLeft = true ↔ ∃ w ∈ s.bus.inFlight, w.mark = .burst := by
  simp [State.burstsLeft, isBurst]

/-- The line in progress ends: it is counted where it counts, and `afterLine` follows (R138, R139, R143). -/
theorem lineEnds_eq {s : State} {o : ScanOrder} {lw : LineWrite} (hw : s.writer.write = some lw)
    (hs : s.writer.state ∈ [WriterState.writing, .aborting]) : s.lineEnds o = (s.countLine lw).afterLine o lw := by
  have hc : (s.countLine lw).writer.state = s.writer.state := by
    unfold State.countLine
    split <;> rfl
  unfold State.lineEnds State.afterLine
  rw [hc, hw]
  simp only [List.mem_cons, List.not_mem_nil, or_false] at hs
  rcases hs with h | h
  · rw [h, if_neg (by simp)]; rfl
  · rw [h, if_pos rfl]; rfl

/-- The first bus error of a line (R139, R140, R185). -/
theorem plateError_eq {s : State} {lw : LineWrite} {address : Nat} (ha : s.accessBarred = false) (hp : lw.plate < 256) :
    s.plateError lw address =
      { s with
        order := { s.order with
          faultRec := { kind := .plate, address := address, plate := lw.plate, frame := lw.frame, repeats := 0 } }
        bus := { s.bus with
          inFlight := s.bus.inFlight ++
            [s.plateField lw.plate 0x8 lw.frame (word 4),
              s.blockField 0x18 (half 4 ++ half 0 ++ word address ++ half lw.plate ++ half lw.frame) .silent] }
        writer := { s.writer with
          plate := none, platesRefused := s.writer.platesRefused + 1
          owners := setOwner s.writer.owners lw.plate .refused, write := some { lw with errored := true }
          records :=
            if lw.discarded then s.writer.records
            else s.writer.records.map fun (r : FrameRecord) =>
              if r.number = lw.frame ∧ r.doomed = false then
                ({ r with damage := some .busError, flags := { r.flags with busError := true } } : FrameRecord) else r } } := by
  have h1 : s.issue (s.plateField lw.plate 0x8 lw.frame (word Owner.refused.code)) =
      s.push (s.plateField lw.plate 0x8 lw.frame (word 4)) :=
    issue_eq_push ha (passesCheck_plateField s s _ _ _ _ hp (by simp [length_word]) rfl)
  have h2 : ∀ u : State, u.accessBarred = false → u.issue u.faultRecordWrite = u.push u.faultRecordWrite := fun u hu =>
    issue_eq_push hu (passesCheck_blockField u u _ rfl (by simp [length_word, length_half, Config.blockBytes]))
  unfold State.plateError State.writeOwner
  rw [h1]
  dsimp only
  rw [h2 _ (by exact ha)]
  cases hd : lw.discarded <;>
    simp only [Bool.false_eq_true, if_false, if_true, State.push, State.onBus, State.onWriter, State.onOrder,
      List.append_assoc, List.cons_append, List.nil_append] <;> rfl

theorem beginScan_eq {s : State} (ha : s.accessBarred = false) :
    s.beginScan =
      ({ s with writer := { s.writer with scan := some .count } } : State).withReads [s.madeRead .plateCount 0x24 4] :=
  startReads_eq _ ha

/-- A scan ends with no usable plate (R148, R151). -/
theorem scanFails_eq {s : State} (ha : s.accessBarred = false) (h : s.writer.state ∈ [WriterState.ready, .plateWait]) :
    s.scanFails = s.scanEnded := by
  simp only [List.mem_cons, List.not_mem_nil, or_false] at h
  unfold State.scanFails State.scanEnded
  rcases h with h | h
  · have hn : ¬ s.writer.state = .plateWait := by rw [h]; simp
    rw [if_neg hn]
    cases hr : s.writer.rescan
    · simp only [h, State.onWriter, State.raise, State.onReg, hr, decide_true, if_true, Bool.true_or, Bool.false_eq_true,
        if_false]
      show _ = State.withReads _ []
      simp only [State.withReads, List.append_nil]
      rfl
    · simp only [h, State.onWriter, State.raise, State.onReg, hr, decide_true, if_true, Bool.true_or]
      rw [beginScan_eq (by exact ha)]
      rfl
  · rw [if_pos h]
    cases hr : s.writer.rescan
    · simp [h, State.onWriter, hr, State.withReads]
    · simp only [h, State.onWriter, hr, if_true]
      rw [beginScan_eq (by exact ha)]
      simp [State.withReads, State.madeRead, State.blockRead, State.blockBase]

/-! ### A writer with nothing to do -/

/-- No record has reached its completion point while no frame has closed (R129). -/
theorem completeFrames_of_open {s : State} {o : ScanOrder} (h : ∀ r ∈ s.writer.records, r.closed = false) :
    s.completeFrames o = s := by
  unfold State.completeFrames
  cases hr : s.writer.records with
  | nil => rfl
  | cons r rs =>
    have hc := h r (by simp [hr])
    simp [completeFrom, hr, FrameRecord.isComplete, hc]

/-- An undecided head waits (R135). -/
theorem handleHeads_of_undecided {s : State} {o : ScanOrder} {n : Nat}
    (h : ∀ e ∈ s.store.pending, e.fate = .undecided) : handleHeads o n s = s := by
  cases n with
  | zero => rfl
  | succ n =>
    unfold handleHeads
    split
    · rfl
    · cases hp : s.store.pending with
      | nil => rfl
      | cons e es => simp [h e (by simp [hp])]

theorem writerGo_of_undecided {s : State} {o : ScanOrder} (h : ∀ e ∈ s.store.pending, e.fate = .undecided)
    (hp : s.Takes) (hw : s.writer.state = .ready) : s.writerGo o = s := by
  unfold State.writerGo State.rethrottle
  simp only [hw, reduceCtorEq, if_false]
  rw [handleHeads_of_undecided h]
  obtain ⟨-, h1 | ⟨h1, h2⟩⟩ := hp
  · simp [State.workDone, h1]
  · simp [State.workDone, h1, h2]

theorem pending_removeHead {st : LineStore} {e : Entry} {es : List Entry} (clear : Bool) (h : st.pending = e :: es) :
    (st.removeHead clear).pending = es := by
  simp [LineStore.removeHead, h, LineStore.withPending]

/-! ### A head to be written -/

/-- The throttle test (R133, R135, R136). -/
theorem throttle_eq (u : State) (o : ScanOrder) (e : Entry) (r : FrameRecord) (p : CurrentPlate) :
    (u.Passes o r.outBytes → u.throttle o e r p = u.writeBegun o e r p)
    ∧ (¬ u.Passes o r.outBytes → u.throttle o e r p = { u with writer := { u.writer with state := .throttled } }) := by
  have hp : u.throttlePasses o r.outBytes = true ↔ u.Passes o r.outBytes := by
    simp [State.throttlePasses, State.Passes, or_assoc]
  constructor
  · intro h
    rw [State.throttle, if_pos (hp.2 h)]
    rfl
  · intro h
    rw [State.throttle, if_neg (fun x => h (hp.1 x))]
    rfl

/-- The handling of a WRITE head (R135, R150). -/
theorem handleHeads_of_write (u : State) (o : ScanOrder) (n : Nat) (e : Entry) (entries : List Entry) (k : Nat) (r : FrameRecord)
    (hh : u.handlesHead = true) (hp : u.store.pending = e :: entries) (hf : e.fate = .write) (hk : e.frame = some k)
    (hr : u.writer.record k = some r) :
    handleHeads o (n + 1) u =
      if r.damage.isSome then handleHeads o n (u.dropImageHead.dropHead o)
      else (u.placeHead o e r).getD (handleHeads o n ((u.plateListFull r.number).dropHead o)) := by
  rw [handleHeads]
  simp only [hh, hp, hf, hk, hr, Bool.not_true, Bool.false_eq_true, if_false, Option.bind_some]
  split
  · rfl
  · cases u.placeHead o e r <;> rfl

/-- A writer with work left does not end the order (R142). -/
theorem workDone_of_busy (u : State) (o : ScanOrder)
    (h : u.store.pending ≠ [] ∨ u.writer.records ≠ [] ∨ u.writer.state ≠ .ready ∨ u.order.part = .running) :
    u.workDone o = u := by
  unfold State.workDone
  rcases h with h | h | h | h
  · rw [if_neg]; simp [h]
  · rw [if_neg]; simp [h]
  · rw [if_neg]; simp [h]
  · simp [h]

/-! ### Plates returned (R155, R156, R158) -/

theorem lastOwner_setOwner (owners : List (Nat × Owner)) (i k : Nat) (w : Owner) :
    lastOwner (setOwner owners i w) k = if k = i then some w else lastOwner owners k := by
  induction owners with
  | nil =>
    by_cases h : k = i
    · simp [setOwner, lastOwner, h]
    · simp [setOwner, lastOwner, h, Ne.symm h]
  | cons x rest ih =>
    obtain ⟨j, v⟩ := x
    have first : ∀ tail : List (Nat × Owner), lastOwner ((i, w) :: tail) k = if k = i then some w else lastOwner tail k := by
      intro tail
      by_cases h : k = i
      · simp [lastOwner, h]
      · simp [lastOwner, h, Ne.symm h]
    unfold setOwner
    split
    · exact first _
    · split
      · rename_i _ hij
        subst hij
        rw [first]
        by_cases h : k = i
        · simp [h]
        · simp [h, lastOwner, Ne.symm h]
      · rename_i _ hij
        by_cases h : j = k
        · subst h
          simp [lastOwner, Ne.symm hij]
        · simp only [lastOwner, List.find?_cons, beq_eq_false_iff_ne.2 h] at ih ⊢
          exact ih

/-- Owner words written for the plates of a list that the part last wrote TAKEN: one write each, in list order. `gone` are the
plates that have been returned since the owner words were `owners`. -/
theorem releasePlates_eq (k : Nat) (w : Owner) (hw : w ≠ .taken) (owners : List (Nat × Owner)) (plates : List PlateListEntry)
    (gone : List Nat) (s : State) (ha : s.accessBarred = false) (hi : ∀ p ∈ plates, p.index < 256)
    (ho : ∀ j, lastOwner s.writer.owners j = some .taken ↔ lastOwner owners j = some .taken ∧ j ∉ gone) :
    ∃ owners', s.releasePlates k w plates =
        { s with
          bus := { s.bus with inFlight := s.bus.inFlight ++
            (takenPlates owners gone plates).map fun j => s.plateField j 0x8 k (word w.code) .grouped }
          writer := { s.writer with owners := owners' } }
      ∧ ∀ j, lastOwner owners' j =
          if (∃ p ∈ plates, p.index = j) ∧ lastOwner s.writer.owners j = some .taken then some w
          else lastOwner s.writer.owners j := by
  induction plates generalizing s gone with
  | nil => exact ⟨s.writer.owners, by simp [State.releasePlates, takenPlates], by simp⟩
  | cons p ps ih =>
    have hs : s.releasePlates k w (p :: ps) =
        (if lastOwner s.writer.owners p.index = some .taken then s.writeOwner p.index k w .grouped else s).releasePlates k w
          ps := rfl
    rw [hs]
    by_cases hp : lastOwner s.writer.owners p.index = some .taken
    · rw [if_pos hp]
      have hpass := passesCheck_plateField s s p.index 0x8 k (word w.code) (pace := .grouped) (hi p (by simp))
        (by simp [length_word]) rfl
      have he : s.writeOwner p.index k w .grouped =
          { s with
            bus := { s.bus with inFlight := s.bus.inFlight ++ [s.plateField p.index 0x8 k (word w.code) .grouped] }
            writer := { s.writer with owners := setOwner s.writer.owners p.index w } } := by
        unfold State.writeOwner
        rw [issue_eq_push ha hpass]
        rfl
      rw [he]
      obtain ⟨owners', h1, h2⟩ := ih (p.index :: gone)
        { s with
          bus := { s.bus with inFlight := s.bus.inFlight ++ [s.plateField p.index 0x8 k (word w.code) .grouped] }
          writer := { s.writer with owners := setOwner s.writer.owners p.index w } } ha (fun q hq => hi q (by simp [hq]))
        (by
          intro j
          simp only [lastOwner_setOwner, List.mem_cons, not_or]
          by_cases hj : j = p.index
          · simp [hj, hw]
          · simp [hj, ho])
      refine ⟨owners', ?_, ?_⟩
      · rw [h1]
        rw [takenPlates, if_pos ((ho _).1 hp)]
        simp only [List.map_cons, List.append_assoc, List.singleton_append]
        rfl
      · intro j
        rw [h2]
        simp only [lastOwner_setOwner, List.mem_cons, exists_eq_or_imp]
        by_cases hj : j = p.index
        · subst hj; simp [hw, hp]
        · simp [hj, Ne.symm hj]
    · rw [if_neg hp]
      obtain ⟨owners', h1, h2⟩ := ih gone s ha (fun q hq => hi q (by simp [hq])) ho
      refine ⟨owners', ?_, ?_⟩
      · rw [h1]
        rw [takenPlates, if_neg (fun h => hp ((ho _).2 h))]
      · intro j
        rw [h2]
        simp only [List.mem_cons, exists_eq_or_imp]
        by_cases hj : p.index = j
        · subst hj; simp [hp]
        · simp [hj]

theorem plateListFields_eq (m : Nat) (ps : List PlateListEntry) :
    plateListFields m ps = (ps.zipIdx m).flatMap fun (p : PlateListEntry × Nat) =>
      [(0x80 + 8 * p.2, half p.1.index), (0x82 + 8 * p.2, half p.1.count), (0x84 + 8 * p.2, word p.1.firstLine)] := by
  induction ps generalizing m with
  | nil => rfl
  | cons p ps ih =>
    have e1 : 0x80 + 8 * m + 2 = 0x82 + 8 * m := by omega
    have e2 : 0x80 + 8 * m + 4 = 0x84 + 8 * m := by omega
    simp only [plateListFields, ih, List.zipIdx_cons, List.flatMap_cons, List.cons_append, List.nil_append, e1, e2]

/-- The fields of a roster entry, written out. -/
theorem recordWrites_eq (o : ScanOrder) (r : FrameRecord) : recordWrites o r = entryFields o r := by
  unfold recordWrites entryFields
  rw [plateListFields_eq]

/-- A field of a roster entry of the order passes the check. -/
theorem passesCheck_rosterField {s : State} {o : ScanOrder} {k offset : Nat} {data : List Byte}
    (h : insideWindow s.bus.windows o.rosterAddress (o.expectedFrames * 640) = true) (h1 : 1 ≤ k) (h2 : k ≤ o.expectedFrames)
    (hd : offset + data.length ≤ 640) : s.passesCheck (rosterField o k offset data) = true := by
  refine passesCheck_of_insideWindow h ?_ ?_ <;> simp only [rosterField, rosterEntry] <;> omega

theorem passesCheck_recordWrites {s : State} {o : ScanOrder} {r : FrameRecord}
    (h : insideWindow s.bus.windows o.rosterAddress (o.expectedFrames * 640) = true) (h1 : 1 ≤ r.number)
    (h2 : r.number ≤ o.expectedFrames) (hl : r.plateList.length ≤ 64) : ∀ w ∈ recordWrites o r, s.passesCheck w = true := by
  intro w hw
  rw [recordWrites_eq] at hw
  simp only [entryFields, List.mem_map, List.mem_append, List.mem_flatMap] at hw
  obtain ⟨f, hf, rfl⟩ := hw
  rcases hf with hf | ⟨⟨p, m⟩, hp, hf⟩
  · simp only [List.mem_cons, List.not_mem_nil, or_false] at hf
    rcases hf with rfl | rfl | rfl | rfl | rfl | rfl | rfl | rfl | rfl | rfl | rfl | rfl | rfl | rfl | rfl | rfl <;>
      exact passesCheck_rosterField h h1 h2 (by simp [length_word, length_half])
  · have hm : m < r.plateList.length := by
      have := List.snd_lt_of_mem_zipIdx hp
      simpa using this
    simp only [List.mem_cons, List.not_mem_nil, or_false] at hf
    rcases hf with rfl | rfl | rfl <;>
      exact passesCheck_rosterField h h1 h2 (by simp [length_word, length_half]; omega)

theorem passesCheck_fillingWrites {s : State} {o : ScanOrder} {r : FrameRecord}
    (h : insideWindow s.bus.windows o.rosterAddress (o.expectedFrames * 640) = true) (h1 : 1 ≤ r.number)
    (h2 : r.number ≤ o.expectedFrames) : ∀ w ∈ fillingWrites o r, s.passesCheck w = true := by
  intro w hw
  simp only [fillingWrites, List.mem_map, List.mem_cons, List.not_mem_nil, or_false] at hw
  obtain ⟨f, hf, rfl⟩ := hw
  rcases hf with rfl | rfl | rfl | rfl | rfl | rfl | rfl | rfl | rfl | rfl | rfl | rfl | rfl | rfl | rfl | rfl | rfl <;>
    exact passesCheck_rosterField h h1 h2 (by simp [length_word, length_half])

/-- The next record becomes leading (R154). -/
theorem fillLeading_eq {s : State} {o : ScanOrder} (ha : s.accessBarred = false)
    (h : insideWindow s.bus.windows o.rosterAddress (o.expectedFrames * 640) = true)
    (hn : ∀ r ∈ s.writer.records, 1 ≤ r.number ∧ r.number ≤ o.expectedFrames) :
    s.fillLeading o =
      ({ s with writer := { s.writer with records := leadingFilled s.writer.records } }).withWrites
        (leadingEntry o s.writer.records) := by
  unfold State.fillLeading
  cases hr : s.writer.records with
  | nil =>
    simp only [leadingFilled, leadingEntry, State.withWrites, List.append_nil]
    rw [← hr]
  | cons r rest =>
    obtain ⟨h1, h2⟩ := hn r (by simp [hr])
    dsimp only
    by_cases hf : r.fillingWritten = true
    · rw [if_pos hf]
      have : ({ r with fillingWritten := true } : FrameRecord) = r := by rw [← hf]
      simp only [leadingFilled, leadingEntry, State.withWrites, hf, if_true, List.append_nil, this]
      rw [← hr]
    · rw [if_neg hf, issueAll_eq ha (passesCheck_fillingWrites h h1 h2)]
      simp only [leadingFilled, leadingEntry, State.withWrites, hf]
      rfl

/-- The discard of the one record of a frame that no line holds (R155). -/
theorem discardRecords_eq {s : State} {o : ScanOrder} {which : FrameRecord → Bool} {before after : List FrameRecord}
    {r : FrameRecord} (ha : s.accessBarred = false)
    (h : insideWindow s.bus.windows o.rosterAddress (o.expectedFrames * 640) = true)
    (hn : ∀ r ∈ s.writer.records, 1 ≤ r.number ∧ r.number ≤ o.expectedFrames)
    (hr : s.writer.records = before ++ r :: after) (hw : which r = true) (ho : ∀ r' ∈ before ++ after, which r' = false)
    (hi : ∀ p ∈ r.plateList, p.index < 256) :
    ∃ owners, s.discardRecords o which =
        ({ s with
            writer := { s.writer with
              records := leadingFilled (before ++ after), plate := plateAfter s.writer.plate r.number
              owners := owners } }).withWrites
          (s.plateReturns [] r 1 ++ (if r.fillingWritten then freeForm o r.number else []) ++ leadingEntry o (before ++ after))
      ∧ ∀ j, lastOwner owners j =
          if (∃ p ∈ r.plateList, p.index = j) ∧ lastOwner s.writer.owners j = some .taken then some .given
          else lastOwner s.writer.owners j := by
  obtain ⟨owners, h1, h2⟩ := releasePlates_eq r.number .given (by decide) s.writer.owners r.plateList [] s ha hi (by simp)
  refine ⟨owners, ?_, h2⟩
  have hb : before.filter which = [] := List.filter_eq_nil_iff.2 fun x hx => by simp [ho x (by simp [hx])]
  have hf : after.filter which = [] := List.filter_eq_nil_iff.2 fun x hx => by simp [ho x (by simp [hx])]
  have hb' : before.filter (fun r => !which r) = before := List.filter_eq_self.2 fun x hx => by simp [ho x (by simp [hx])]
  have hf' : after.filter (fun r => !which r) = after := List.filter_eq_self.2 fun x hx => by simp [ho x (by simp [hx])]
  obtain ⟨g1, g2⟩ := hn r (by simp [hr])
  have hfree : ∀ (t : State), t.bus.windows = s.bus.windows → ∀ w ∈ freeForm o r.number, t.passesCheck w = true := by
    intro t ht w hw'
    simp only [freeForm, List.mem_cons, List.not_mem_nil, or_false] at hw'
    rcases hw' with rfl | rfl <;>
      exact passesCheck_rosterField (by rw [ht]; exact h) g1 g2 (by simp only [List.length_replicate, length_half]; omega)
  unfold State.discardRecords
  simp only [hr, List.filter_append, List.filter_cons, hw, if_true, hb, hf, List.nil_append, List.foldl_cons, List.foldl_nil]
  unfold State.discardWrites
  rw [h1]
  by_cases hfw : r.fillingWritten = true
  · simp only [hfw, if_true]
    rw [issueAll_eq (by exact ha) (hfree _ (by rfl))]
    rw [fillLeading_eq (by exact ha) (by exact h) ?_]
    · simp [State.onBus, State.onWriter, State.withWrites, hr, hb', hf', hw, State.plateReturns, Owner.code]
    · intro x hx
      refine hn x ?_
      simp only [State.onWriter, State.onBus, List.mem_filter] at hx
      exact hx.1
  · simp only [hfw]
    simp only [Bool.false_eq_true, if_false]
    rw [fillLeading_eq (by exact ha) (by exact h) ?_]
    · simp [State.onWriter, State.withWrites, hr, hb', hf', hw, State.plateReturns, Owner.code]
    · intro x hx
      refine hn x ?_
      simp only [State.onWriter, List.mem_filter] at hx
      exact hx.1

/-- The state of a roster entry. -/
theorem issueRosterState_eq {s : State} {o : ScanOrder} {k v : Nat} (ha : s.accessBarred = false)
    (h : insideWindow s.bus.windows o.rosterAddress (o.expectedFrames * 640) = true) (h1 : 1 ≤ k) (h2 : k ≤ o.expectedFrames) :
    s.issueRosterState o k v = s.push (rosterField o k 0x00 (half v)) :=
  issue_eq_push ha (passesCheck_rosterField h h1 h2 (by simp [length_half]))

/-- The plates that are returned. -/
theorem mem_takenPlates {owners : List (Nat × Owner)} {gone : List Nat} {ps : List PlateListEntry} {j : Nat} :
    j ∈ takenPlates owners gone ps ↔ j ∉ gone ∧ lastOwner owners j = some .taken ∧ ∃ p ∈ ps, p.index = j := by
  induction ps generalizing gone with
  | nil => simp [takenPlates]
  | cons p ps ih =>
    simp only [takenPlates, List.mem_cons, exists_eq_or_imp]
    by_cases hp : p.index = j
    · subst hp
      by_cases hc : lastOwner owners p.index = some .taken ∧ p.index ∉ gone
      · simp [hc]
      · rw [if_neg hc, ih]
        tauto
    · split <;> simp [ih, hp, Ne.symm hp]

/-- The abort writes of records, in order (R158). -/
theorem foldl_abortRecord_eq {o : ScanOrder} (u : State) (rs : List FrameRecord) (gone : List Nat) (s : State)
    (ha : s.accessBarred = false)
    (h : insideWindow s.bus.windows o.rosterAddress (o.expectedFrames * 640) = true)
    (hn : ∀ r ∈ rs, 1 ≤ r.number ∧ r.number ≤ o.expectedFrames ∧ r.plateList.length ≤ 64 ∧ ∀ p ∈ r.plateList, p.index < 256)
    (hb : s.blockBase = u.blockBase)
    (ho : ∀ j, lastOwner s.writer.owners j = some .taken ↔ lastOwner u.writer.owners j = some .taken ∧ j ∉ gone) :
    ∃ owners, rs.foldl (State.abortRecord o) s =
        ({ s with writer := { s.writer with owners := owners } }).withWrites (u.abortEntries o gone rs)
      ∧ ∀ k, lastOwner owners k =
          if (∃ r ∈ rs, ∃ p ∈ r.plateList, p.index = k) ∧ lastOwner s.writer.owners k = some .taken then some .given
          else lastOwner s.writer.owners k := by
  induction rs generalizing s gone with
  | nil => exact ⟨s.writer.owners, by simp [State.abortEntries, State.withWrites], by simp⟩
  | cons r rs ih =>
    obtain ⟨g1, g2, g3, g4⟩ := hn r (by simp)
    obtain ⟨owners, e1, e2⟩ := releasePlates_eq r.number .given (by decide) u.writer.owners r.plateList gone
      (s.onBus fun b => { b with inFlight := b.inFlight ++ recordWrites o r }) ha g4 ho
    have e2 : ∀ j, lastOwner owners j =
        if (∃ p ∈ r.plateList, p.index = j) ∧ lastOwner s.writer.owners j = some .taken then some .given
        else lastOwner s.writer.owners j := e2
    have he : State.abortRecord o s r =
        ({ s with writer := { s.writer with owners := owners } }).withWrites
          (entryFields o r ++ u.plateReturns gone r 1 ++ [rosterField o r.number 0x00 (half 4)]) := by
      unfold State.abortRecord
      rw [issueAll_eq ha (passesCheck_recordWrites h g1 g2 g3), e1, issueRosterState_eq (by exact ha) (by exact h) g1 g2]
      simp only [State.push, State.onBus, State.withWrites, recordWrites_eq, State.plateReturns, Owner.code, rosterAborted,
        List.append_assoc, State.plateField]
      rw [show State.blockBase { s with bus := { s.bus with inFlight := s.bus.inFlight ++ entryFields o r } } =
        u.blockBase from hb]
    rw [List.foldl_cons, he]
    obtain ⟨owners', f1, f2⟩ := ih (takenPlates u.writer.owners gone r.plateList ++ gone)
      (({ s with writer := { s.writer with owners := owners } }).withWrites
          (entryFields o r ++ u.plateReturns gone r 1 ++ [rosterField o r.number 0x00 (half 4)])) ha h
      (fun x hx => hn x (by simp [hx])) hb (by
        intro j
        show lastOwner owners j = _ ↔ _
        rw [e2 j]
        have hj := ho j
        rw [List.mem_append, mem_takenPlates]
        by_cases hc : (∃ p ∈ r.plateList, p.index = j) ∧ lastOwner s.writer.owners j = some .taken
        · rw [if_pos hc]
          simp only [Option.some.injEq, reduceCtorEq, false_iff]
          exact fun ⟨hy, hn⟩ => hn (.inl ⟨fun hg => hn (.inr hg), hy, hc.1⟩)
        · rw [if_neg hc]
          exact ⟨fun hx => ⟨(hj.1 hx).1, fun hm => hm.elim (fun q => hc ⟨q.2.2, hx⟩) (hj.1 hx).2⟩,
            fun hx => hj.2 ⟨hx.1, fun hg => hx.2 (.inr hg)⟩⟩)
    refine ⟨owners', ?_, ?_⟩
    · rw [f1]
      simp [State.abortEntries, State.withWrites]
    · intro k
      rw [f2]
      have := e2 k
      simp only [State.withWrites, this, List.mem_cons, exists_eq_or_imp]
      by_cases hk : ∃ p ∈ r.plateList, p.index = k <;> by_cases ht : lastOwner s.writer.owners k = some .taken <;>
        simp [hk, ht]

/-! ### Bursts -/

/-- Bursts inside a window are all issued (R137). -/
theorem issueBursts_eq {s : State} {lw : LineWrite} {bs : List (Nat × List Byte)}
    (h : ∀ b ∈ bs, insideWindow s.bus.windows b.1 b.2.length = true) :
    issueBursts lw bs s = s.withWrites (bs.map (plateBurst lw)) := by
  induction bs generalizing s with
  | nil => simp [issueBursts, State.withWrites]
  | cons b bs ih =>
    rw [issueBursts, if_pos (h b (by simp)), ih]
    · simp [State.withWrites, State.push, State.onBus]
    · intro c hc
      exact h c (by simp [hc])

/-- Every burst lies inside its line. -/
theorem splitBursts_inside (n a : Nat) (bytes : List Byte) :
    ∀ b ∈ splitBursts n a bytes, a ≤ b.1 ∧ b.1 + b.2.length ≤ a + bytes.length := by
  induction n generalizing a bytes with
  | zero => intro b hb; cases hb
  | succ n ih =>
    intro b hb
    cases bytes with
    | nil => cases hb
    | cons x xs =>
      simp only [splitBursts, List.mem_cons] at hb
      rcases hb with rfl | hb
      · simp only [List.length_take, List.length_cons]
        omega
      · have hx := ih _ _ b hb
        simp only [List.length_drop, List.length_cons] at hx ⊢
        by_cases hl : 256 - a % 256 ≤ xs.length + 1
        · omega
        · have hnil : List.drop (256 - a % 256) (x :: xs) = [] :=
            List.drop_eq_nil_of_le (by simp only [List.length_cons]; omega)
          rw [hnil] at hb
          cases n <;> cases hb

/-! ### The entry to FAULT -/

theorem haltFill_eq (s : State) : ∃ f n, s.haltFill = { s with fill := f, free := n } := by
  unfold State.haltFill
  split
  · exact ⟨_, _, rfl⟩
  · exact ⟨s.fill, s.free, rfl⟩

/-- The slot word FAILED of an abort sequence waits behind other writes (log 31). -/
theorem slotWithheld_iff (s : State) :
    s.slotWithheld = true ↔ ∃ w ∈ s.bus.inFlight, w.pace = .sequel ∧ w.landed = false ∧ w.mark = .silent := by
  simp [State.slotWithheld, and_assoc]

/-- Where a write fails, it waits if it stands behind that write: the earlier ones have landed (log 3). -/
theorem slotWithheld_failWrite {s : State} {k : Nat} {w : BusWrite} (h : s.bus.inFlight[k]? = some w) :
    (s.failWrite k).slotWithheld = true ↔
      ∃ w ∈ s.bus.inFlight.drop (k + 1), w.pace = .sequel ∧ w.landed = false ∧ w.mark = .silent := by
  rw [slotWithheld_iff]
  simp only [State.failWrite, h, stillTracked, List.mem_append, List.mem_map, List.mem_filter]
  constructor
  · rintro ⟨v, ⟨u, -, rfl⟩ | hv, hp⟩
    · simp at hp
    · exact ⟨v, hv, hp⟩
  · rintro ⟨v, hv, hp⟩
    exact ⟨v, .inr hv, hp⟩

/-- What the writer holds when it stops (R144). -/
theorem halt_eq (scanning : Bool) (wr : FrameWriter) :
    (wr.halt scanning).state = (if wr.state = .off ∧ scanning = false then WriterState.off else .halted)
      ∧ (wr.halt scanning).stop = wr.stop ∧ (wr.halt scanning).waitFlag = wr.waitFlag
      ∧ (wr.halt scanning).records = wr.records := by
  unfold FrameWriter.halt
  split <;> simp_all
  split <;> simp_all
/-- What the entry to FAULT changes (R184). `ws` are the writes and `rs` the reads that had been issued. The suspend hold and the
stop flag are as they stood where the slot word of an abort sequence had not been issued (R182, R183; log 31). -/
theorem enterFault_eq (s : State) (record : FaultRecord) :
    ∃ f n ws rs,
      (∀ w ∈ ws, ∃ v ∈ s.bus.inFlight, sameAccess v w)
      ∧ (∀ w ∈ ws, w.landed = true ∨ w.pace = .issued)
      ∧ (∀ w ∈ s.bus.inFlight, w.landed = true ∨ w.pace = .issued → w ∈ ws)
      ∧ (∀ r ∈ rs, r.stage = .dropped)
      ∧ (∀ r ∈ s.bus.reads, r.stage ≠ .waiting → { r with stage := .dropped } ∈ rs)
      ∧ s.enterFault record = { s with
          order := { s.order with
            part := .fault, origin := none, aborting := false, faultHold := true, faultRec := record
            faultDrained := false, suspendHold := if s.slotWithheld then s.order.atEnd.hold else s.order.suspendHold }
          reg := { s.reg with cause := s.reg.cause ||| 0x20#6 }
          fill := f, free := n, bus := { s.bus with inFlight := ws, reads := rs, barred := none }
          writer := FrameWriter.halt s.duringScan
            { s.writer with stop := if s.slotWithheld then s.order.atEnd.stop else s.writer.stop } } := by
  obtain ⟨m, rs, hr, hd, hm⟩ := stopAllReads_eq (s.keepSuspension.withdrawSequels.cutUnissued fun _ => true)
  obtain ⟨f, n, h⟩ := haltFill_eq ((s.keepSuspension.withdrawSequels.cutUnissued fun _ => true).stopAllReads)
  have hin : ∀ w, w ∈ s.keepSuspension.withdrawSequels.bus.inFlight ↔
      w ∈ s.bus.inFlight ∧ (w.pace == .sequel && !w.landed) = false := by
    intro w
    simp only [State.withdrawSequels, State.keepSuspension, State.onOrder, State.onWriter, State.onBus, List.mem_filter,
      Bool.not_eq_true']
  refine ⟨f, n, (s.keepSuspension.withdrawSequels.cutUnissued fun _ => true).bus.inFlight, rs, ?_, ?_, ?_, hd, hm, ?_⟩
  · intro w hw
    obtain ⟨v, hv, hs⟩ := mem_keepIssued hw
    exact ⟨v, ((hin v).1 hv).1, hs⟩
  · intro w hw
    rcases keepIssued_spec hw with ⟨h1, h2⟩ | ⟨v, -, -, rfl⟩
    · have h3 := ((hin w).1 h1).2
      cases hp : w.pace <;> cases hl : w.landed <;> simp_all [BusWrite.isQueued]
    · exact .inr rfl
  · intro w hw hc
    refine mem_keepIssued_of_not ((hin w).2 ⟨hw, ?_⟩) ?_
    · rcases hc with h | h <;> simp [h]
    · rcases hc with h | h <;> simp [BusWrite.isQueued, h]
  · unfold State.enterFault State.stopBlocks
    rw [h, hr]
    rfl

end Sys2Proof.Machine
end

