-- ==== Sys2Proof/Laws/PerInstr.lean ====
section
/-! SUPPORT. Per-command statements about the commands as syntax: whose operands can fail to spell an event (log 7). -/
namespace Sys2Proof.Laws.Admits

/-- The rows whose operands can spell no event of the hardware. -/
def constrained : Instr → Bool
  | .resetHoldEnter _ => true
  | .resetHoldLeave _ => true
  | .registerWriteIgnored _ => true
  | .unknownAttentionValue _ => true
  | .windowLoadComplete _ => true
  | .selectionReadsComplete _ => true
  | .orderRecordReadComplete _ => true
  | .shadingLoadComplete _ => true
  | .plateScanReadComplete _ => true
  | _ => false

/-- Outside those rows every operand spells an event. -/
def Statement (i : Instr) : Prop := constrained i = false → i.wellFormed = true

theorem powerOn : Statement .powerOn := fun _ => rfl
theorem startOfLineMark : Statement .startOfLineMark := fun _ => rfl
theorem pixel (p : Pixel) : Statement (.pixel p) := fun _ => rfl
theorem endOfLineMark : Statement .endOfLineMark := fun _ => rfl
theorem blockBaseWrite (value : Word) : Statement (.blockBaseWrite value) := fun _ => rfl
theorem causeRead : Statement .causeRead := fun _ => rfl
theorem causeMaskWrite (value : Word) : Statement (.causeMaskWrite value) := fun _ => rfl
theorem resetHoldEnter (value : Word) : Statement (.resetHoldEnter value) := fun h => Bool.noConfusion h
theorem resetHoldLeave (value : Word) : Statement (.resetHoldLeave value) := fun h => Bool.noConfusion h
theorem registerWriteIgnored (access : IgnoredAccess) : Statement (.registerWriteIgnored access) := fun h => Bool.noConfusion h
theorem look : Statement .look := fun _ => rfl
theorem plates : Statement .plates := fun _ => rfl
theorem holdOn : Statement .holdOn := fun _ => rfl
theorem holdOff : Statement .holdOff := fun _ => rfl
theorem suspend : Statement .suspend := fun _ => rfl
theorem resume : Statement .resume := fun _ => rfl
theorem abort : Statement .abort := fun _ => rfl
theorem windows : Statement .windows := fun _ => rfl
theorem fixWindows : Statement .fixWindows := fun _ => rfl
theorem park : Statement .park := fun _ => rfl
theorem wake : Statement .wake := fun _ => rfl
theorem unknownAttentionValue (value : Word) : Statement (.unknownAttentionValue value) := fun h => Bool.noConfusion h
theorem windowLoadComplete (data : List Byte) : Statement (.windowLoadComplete data) := fun h => Bool.noConfusion h
theorem selectionReadsComplete (data : List Byte) : Statement (.selectionReadsComplete data) := fun h => Bool.noConfusion h
theorem orderRecordReadComplete (record : List Byte) : Statement (.orderRecordReadComplete record) := fun h => Bool.noConfusion h
theorem shadingLoadComplete (table : List Byte) : Statement (.shadingLoadComplete table) := fun h => Bool.noConfusion h
theorem startWritesComplete : Statement .startWritesComplete := fun _ => rfl
theorem fillComplete : Statement .fillComplete := fun _ => rfl
theorem burstComplete : Statement .burstComplete := fun _ => rfl
theorem plateBurstBusError : Statement .plateBurstBusError := fun _ => rfl
theorem plateScanReadComplete (reads : List ScanRead) : Statement (.plateScanReadComplete reads) := fun h => Bool.noConfusion h
theorem framesTallyWriteComplete : Statement .framesTallyWriteComplete := fun _ => rfl
theorem orderTallyWriteComplete : Statement .orderTallyWriteComplete := fun _ => rfl
theorem shadingTableWritten : Statement .shadingTableWritten := fun _ => rfl
theorem abortDrainComplete : Statement .abortDrainComplete := fun _ => rfl
theorem exchangeBusError (access : FailedAccess) : Statement (.exchangeBusError access) := fun _ => rfl
theorem busErrorInFault (access : FailedAccess) : Statement (.busErrorInFault access) := fun _ => rfl
theorem faultDrainComplete : Statement .faultDrainComplete := fun _ => rfl

end Sys2Proof.Laws.Admits
end

