-- ==== Sys2Proof/Tests/Slice0.lean ====
section
/-! SUPPORT. Tests: the well-formedness smoke test, one or two steps of every command on small states, and for every statement
that has hypotheses a state and operands that meet all of them. -/
namespace Sys2Proof.Tests
open Sys2Proof.Machine

/-! ### Helpers -/

/-- The answer is a next state with a property. -/
def after (answer : Host.Outcome State Fault Refusal) (p : State → Bool) : Bool :=
  match answer with
  | .next t => p t
  | .fault _ => false
  | .refused _ => false

/-- The answer is the fault of an ill-formed command. -/
def isIllFormed (answer : Host.Outcome State Fault Refusal) : Bool :=
  match answer with
  | .fault .illFormed => true
  | .fault .readLength => false
  | .next _ => false
  | .refused _ => false

/-- After power-on, but in a part state. -/
def inPart (part : PartState) : State := State.reset.onOrder fun u => { u with part := part }

/-- A pixel of one value in every channel. -/
def flat (v : Half) : Pixel := { r := v, g := v, b := v, ir := v }

/-- A window over addresses 0x100000 to 0x1FFFFF. -/
def oneWindow : List (Option Window) := [some { first := 0x100000, last := 0x1FFFFF }, none, none, none]

/-- A CALIBRATE order, narrower than a record could ask for, so that lines are short. -/
def cal : CalOrder :=
  { sequence := 7, width := 2, tableAddress := 0x100000, darkLines := 4, brightLines := 4, white := 60000, hotLimit := 4000,
    deadLimit := 2000 }

/-- A SCAN order, as narrow. -/
def scan : ScanOrder :=
  { sequence := 9, film := .positive, width := 4, bandLeft := 0, bandRight := 3, expectedFrames := 1, stripLines := 1000,
    pitch := 64, tol := 4, minGap := 2, minFrame := 16, leaderLines := 4, gapRatio := 200, spreadLimit := 100,
    darkGapLevel := 500, insetTop := 0, insetBottom := 0, insetLeft := 0, insetRight := 0, cropMode := .fixed,
    defaultLeft := 0, defaultRight := 3, edgeRun := 4, irSeed := 30000, thr := 128, growth := 1, fillEnable := true, rv := 2,
    hmax := 8, decimation := 1, depth := 8, credit := 0, shadingAddress := 0x108000, rosterAddress := 0x110000,
    fallbackR := 0, fallbackG := 0, fallbackB := 0 }

/-- An order in progress in slot 1, the window loaded. -/
def withOrder (part : PartState) (order : Order) : State :=
  (State.reset.onOrder fun u => { u with part := part, chosen := some 1, current := some order }).onBus fun b =>
    { b with windows := oneWindow }

/-- A line of two pixels in progress. -/
def withLine (s : State) : State :=
  s.onIntake fun i => { i with line := some { pixels := [flat 10, flat 20], count := 2 } }

/-- A write of four bytes in flight. -/
def aWrite (kind : AccessKind) (mark : Mark) : BusWrite :=
  { kind := kind, mark := mark, address := 0x180000, data := [1, 2, 3, 4], plate := 0xFFFF, frame := 0,
    pace := .issued, landed := false }

/-- A state with writes in flight. -/
def flying (s : State) (ws : List BusWrite) : State := s.onBus fun b => { b with inFlight := ws }

/-- A frame record that is open, and the head of the pending list being one of its lines. -/
def record1 : FrameRecord :=
  { number := 1, closed := false, top := 0, cropTop := 0, last := none, cropBottom := none, crop := { left := 0, right := 3 },
    outWidth := 4, outBytes := 12, openFlags := {}, flags := {}, damage := none, outLines := 0, lostLines := 0,
    mergedLines := 0, defect := 0, filled := 0, unfilled := 0, plateList := [{ index := 3, firstLine := 0, count := 0 }],
    fillingWritten := true, doomed := false }

def head1 : Entry :=
  { line := 0, samples := [flat 1000, flat 2000, flat 3000, flat 4000], cls := .image, frame := some 1, fate := .write,
    spans := some [], complete := true }

def write1 : LineWrite :=
  { frame := 1, plate := 3, place := 0x180000, errored := false, discarded := false, cut := false }

def levels : StoreLevels := { rv := 2, delay := 2, setLevel := 54, clearLevel := 38 }

/-- A SCAN order RUNNING, its head being written into plate 3. -/
def writing : State :=
  ((withOrder .running (.scan scan)).onStore fun st => { st with pending := [head1], levels := some levels }).onWriter
    fun wr => { wr with state := .writing, records := [record1], write := some write1, owners := [(3, .taken)] }

/-- The same, its head filling. -/
def filling : State :=
  writing.onFill fun f =>
    { f with
      state := .filling
      line := some
        { line := 0, frame := 1, top := 0, last := none, crop := { left := 0, right := 3 }, decimation := 1,
          samples := head1.samples, spans := [], sources := [] }
      pixel := some 0, params := some { rv := 2, hmax := 8, enable := true } }

/-- A SCAN order whose head waits for a plate, a scan in progress. -/
def scanning (part : PartState) (sc : Scan) : State :=
  ((withOrder part (.scan scan)).onStore fun st => { st with pending := [head1], levels := some levels }).onWriter
    fun wr => { wr with state := .ready, stop := part == .suspended, records := [record1], scan := some sc }

/-- A burst in flight. -/
def aBurst : BusWrite :=
  { kind := .plate, mark := .burst, address := 0x180000, data := [1, 2, 3, 4], plate := 3, frame := 1, pace := .grouped,
    landed := false }

/-- A read in flight, and a state with reads in flight. -/
def aRead (site : ReadSite) (stage : ReadStage) : BusRead :=
  { site := site, address := 0x620, bytes := 12, plate := 2, frame := 1, stage := stage }
def reading (s : State) (rs : List BusRead) : State := s.onBus fun b => { b with reads := rs }

/-- What a selection reads of a slot, and what a scan reads of a plate table entry. -/
def slotBytes (state sequence : Nat) : List Byte := word state ++ word sequence
def entryBytes (address size owner : Nat) : List Byte := word address ++ word size ++ word owner

/-- The bytes that the reads of an order record give: the fields that a CALIBRATE order of width 256 uses, and a kind. -/
def recordBytes (kind : Nat) : List Byte :=
  word 7 ++ half kind ++ half 0 ++ half 256 ++ List.replicate 62 0 ++ word 0x100000 ++ List.replicate 10 0 ++ half 4
    ++ half 4 ++ half 60000 ++ half 4000 ++ half 2000

/-! ### Well-formedness: one ill-formed command for each check, which exec refuses -/

theorem test_illFormed_resetHoldEnter :
    (Instr.resetHoldEnter 2).wellFormed = false ∧ isIllFormed (exec (.resetHoldEnter 2) State.reset) = true := by decide
theorem test_illFormed_resetHoldLeave :
    (Instr.resetHoldLeave 1).wellFormed = false ∧ isIllFormed (exec (.resetHoldLeave 1) State.reset) = true := by decide
theorem test_illFormed_narrowRead :
    (Instr.registerWriteIgnored (.narrowRead 24)).wellFormed = false
      ∧ isIllFormed (exec (.registerWriteIgnored (.narrowRead 24)) State.reset) = true := by decide
theorem test_illFormed_narrowWrite :
    (Instr.registerWriteIgnored (.narrowWrite 24 5)).wellFormed = false
      ∧ isIllFormed (exec (.registerWriteIgnored (.narrowWrite 24 5)) State.reset) = true := by decide
theorem test_illFormed_unknownAttentionValue :
    (Instr.unknownAttentionValue 0x33).wellFormed = false
      ∧ isIllFormed (exec (.unknownAttentionValue 0x33) State.reset) = true := by decide
theorem test_illFormed_windowLoadComplete :
    (Instr.windowLoadComplete [0]).wellFormed = false
      ∧ isIllFormed (exec (.windowLoadComplete [0]) State.reset) = true := by decide
theorem test_illFormed_selectionReadsComplete :
    (Instr.selectionReadsComplete []).wellFormed = false
      ∧ isIllFormed (exec (.selectionReadsComplete []) State.reset) = true := by decide
theorem test_illFormed_orderRecordReadComplete :
    (Instr.orderRecordReadComplete [0]).wellFormed = false
      ∧ isIllFormed (exec (.orderRecordReadComplete [0]) State.reset) = true := by decide
theorem test_illFormed_shadingLoadComplete :
    (Instr.shadingLoadComplete [0]).wellFormed = false
      ∧ isIllFormed (exec (.shadingLoadComplete [0]) State.reset) = true := by decide
theorem test_illFormed_plateScanReadComplete :
    (Instr.plateScanReadComplete []).wellFormed = false
      ∧ isIllFormed (exec (.plateScanReadComplete []) State.reset) = true := by decide
theorem test_illFormed_scanReads :
    (Instr.plateScanReadComplete [.count [0]]).wellFormed = false
      ∧ isIllFormed (exec (.plateScanReadComplete [.count [0]]) State.reset) = true
      ∧ (Instr.plateScanReadComplete [.entry [0]]).wellFormed = false
      ∧ isIllFormed (exec (.plateScanReadComplete [.entry [0]]) State.reset) = true := by decide

/-! ### One step of every command -/

theorem test_powerOn : after (exec .powerOn (inPart .fault)) (fun t => t.order.part == .parked) = true := by decide
theorem test_startOfLineMark :
    after (exec .startOfLineMark (inPart .idle)) (fun t => t.intake.line == some { pixels := [], count := 0 }) = true := by
  decide
theorem test_pixel :
    after (exec (.pixel (flat 7)) (withLine (inPart .idle)))
      (fun t => t.intake.line == some { pixels := [flat 10, flat 20, flat 7], count := 3 }) = true := by decide
theorem test_endOfLineMark_stray :
    after (exec .endOfLineMark (withLine (inPart .idle)))
      (fun t => t.intake.stray == 1 && t.bus.inFlight.map (fun w => (w.address, w.data)) == [(0x0C, [1, 0, 0, 0])]) = true := by
  decide
theorem test_blockBaseWrite :
    after (exec (.blockBaseWrite 0x12345678) State.reset) (fun t => t.reg.blockBase == 0x12344000) = true := by decide
theorem test_causeRead :
    after (exec .causeRead (State.reset.raise .fault)) (fun t => t.reg.readData == 0x20 && t.reg.cause == 0) = true := by
  decide
theorem test_causeMaskWrite :
    after (exec (.causeMaskWrite 0xFFFFFFC1) (State.reset.raise .orderDone))
      (fun t => t.reg.mask == 0x01 && t.int) = true := by decide
theorem test_resetHoldEnter :
    after (exec (.resetHoldEnter 1) (inPart .fault)) (fun t => t.order.part == .inReset && t.holdOut) = true := by decide
theorem test_resetHoldLeave :
    after (exec (.resetHoldLeave 0) (inPart .inReset)) (fun t => t.order.part == .parked && !t.holdOut) = true := by decide
theorem test_registerWriteIgnored :
    after (exec (.registerWriteIgnored (.stateWrite 5)) State.reset) (fun t => t == State.reset) = true := by decide
theorem test_look : after (exec .look (inPart .idle)) (fun t => t.order.selecting) = true := by decide
theorem test_look_refused :
    after (exec .look (inPart .parked)) (fun t => t.reg.cause == 0x10 && t.bus.inFlight == []) = true := by decide
theorem test_plates :
    after (exec .plates ((scanning .running .count).onWriter fun wr => { wr with state := .plateWait, scan := none }))
      (fun t => t.writer.scan == some .count) = true := by decide
theorem test_holdOn : after (exec .holdOn State.reset) (fun t => t.holdOut) = true := by decide
theorem test_holdOff :
    after (exec .holdOff (State.reset.onReg fun r => { r with hostHold := true })) (fun t => !t.holdOut) = true := by decide
theorem test_suspend :
    after (exec .suspend (withOrder .running (.calibrate cal)))
      (fun t => t.order.part == .suspended && t.bus.inFlight.map (fun w => (w.address, w.data)) == [(0x300, [3, 0, 0, 0])])
      = true := by decide
theorem test_resume :
    after (exec .resume ((withOrder .suspended (.calibrate cal)).onOrder fun u => { u with origin := some .running }))
      (fun t => t.order.part == .running && t.bus.inFlight.map (fun w => (w.address, w.data)) == [(0x300, [2, 0, 0, 0])])
      = true := by decide
theorem test_abort :
    after (exec .abort ((withOrder .running (.calibrate cal)).onCal fun u => { u with pass := .darkPass }))
      (fun t => t.order.part == .idle && t.bus.inFlight.length == 16) = true := by decide +kernel
theorem test_windows : after (exec .windows (inPart .idle)) (fun t => t.bus.loading) = true := by decide
theorem test_fixWindows :
    after (exec .fixWindows ((inPart .idle).onBus fun b => { b with windows := oneWindow })) (fun t => t.bus.fixed) = true := by
  decide
theorem test_park : after (exec .park (inPart .idle)) (fun t => t.order.part == .parked) = true := by decide
theorem test_wake :
    after (exec .wake State.reset)
      (fun t => t.order.part == .idle
        && t.bus.inFlight.map (fun w => w.address) == [0x00, 0x02, 0x04, 0x08, 0x0C, 0x10]) = true := by decide
theorem test_unknownAttentionValue :
    after (exec (.unknownAttentionValue 0xFF) (inPart .idle))
      (fun t => t.order.refusal == { code := 0xFF, state := 2, count := 1 }
        && t.bus.inFlight.map (fun w => (w.address, w.data)) == [(0x10, [0xFF, 0, 0, 0, 2, 0, 1, 0])]) = true := by decide
theorem test_windowLoadComplete :
    after
      (exec (.windowLoadComplete (word 0x1000 ++ word 0x200 ++ word 5 ++ word 0 ++ word 0xFFFFFFF0 ++ word 0x20
          ++ List.replicate 8 0)) ((inPart .idle).onBus fun b => { b with loading := true }))
      (fun t => t.bus.windows ==
        [some { first := 0x1000, last := 0x11FF }, none, some { first := 0xFFFFFFF0, last := 0xFFFFFFFF }, none]) = true := by
  decide
theorem test_selectionReadsComplete :
    after
      (exec (.selectionReadsComplete
          (slotBytes 4 0 ++ slotBytes 1 5 ++ slotBytes 1 3 ++ slotBytes 1 3))
        ((inPart .idle).onOrder fun u => { u with selecting := true }))
      (fun t => t.order.part == .starting && t.order.chosen == some 2
        && t.bus.reads.map (fun r => (r.site, r.address, r.bytes)) == [(.orderRecord, 0x404, 86), (.orderRecord, 0x45C, 10)]) = true := by decide
theorem test_orderRecordReadComplete :
    after
      (exec (.orderRecordReadComplete (recordBytes 1))
        ((withOrder .starting (.calibrate cal)).onOrder fun u => { u with recordRead := true, current := none }))
      (fun t => t.order.current == some (.calibrate { cal with width := 256 })
        && t.bus.inFlight.map (fun w => (w.address, w.data)) == [(0x300, [2, 0, 0, 0])]) = true := by decide +kernel
theorem test_shadingLoadComplete :
    after
      (exec (.shadingLoadComplete ((List.replicate 60 0 ++ List.replicate 16 0 ++ half 2 ++ half 0)))
        ((withOrder .starting (.scan scan)).onIntake fun i => { i with shading := .loading }))
      (fun t => t.intake.shading == .loaded && t.mapper.faults == [3] && t.intake.dead == 1
        && t.bus.inFlight.map (fun w => w.address) == [0x110002, 0x110000]) = true := by decide +kernel
theorem test_startWritesComplete :
    after (exec .startWritesComplete (flying (withOrder .starting (.calibrate cal)) [aWrite .block .startLast]))
      (fun t => t.order.part == .running && t.cal.pass == .darkPass && Memory.get t.mem 0x180001 == some 2) = true := by decide
theorem test_fillComplete :
    after (exec .fillComplete filling)
      (fun t => t.fill.state == .idle
        && t.bus.inFlight.map (fun w => (w.address, w.data)) == [(0x180000, [3, 3, 3, 7, 7, 7, 11, 11, 11, 15, 15, 15])])
      = true := by decide
theorem test_burstComplete :
    after (exec .burstComplete (flying writing [aBurst]))
      (fun t => t.writer.state == .ready && t.store.pending == [] && t.store.context.length == 1
        && t.writer.records.map (fun r => r.outLines) == [1] && Memory.get t.mem 0x180003 == some 4) = true := by decide
theorem test_plateBurstBusError :
    after (exec .plateBurstBusError (flying writing [aBurst]))
      (fun t => t.order.part == .running && t.order.faultRec.kind == .plate && t.order.faultRec.address == 0x180000
        && t.order.faultRec.plate == 3 && t.order.faultRec.frame == 1 && t.writer.platesRefused == 1
        && t.writer.owners == [(3, .refused)]) = true := by
  simp only [exec, execPlateBurstBusError]
  decide +kernel
theorem test_plateScanReadComplete :
    after (exec (.plateScanReadComplete [.count (word 2), .entry (entryBytes 0 0 0), .entry (entryBytes 0x180000 0x10000 1)])
        (scanning .suspended .count))
      (fun t => t.writer.plate.map (fun p => (p.index, p.room)) == some (1, 0x10000) && t.writer.scanPos == some 1
        && t.bus.inFlight.map (fun w => (w.address, w.data)) == [(0x61C, [9, 0, 1, 0]), (0x618, [2, 0, 0, 0])]) = true := by
  decide
theorem test_framesTallyWriteComplete :
    after (exec .framesTallyWriteComplete (flying (inPart .idle) [aWrite .block .framesTally]))
      (fun t => t.reg.cause == 1 && t.bus.inFlight == []) = true := by decide
theorem test_orderTallyWriteComplete :
    after (exec .orderTallyWriteComplete
        (flying ((inPart .idle).onOrder fun u => { u with endWrites := true, follows := true }) [aWrite .block .ordersTally]))
      (fun t => t.reg.cause == 2 && t.order.selecting && !t.order.endWrites) = true := by decide
theorem test_shadingTableWritten :
    after (exec .shadingTableWritten
        (flying ((withOrder .finishing (.calibrate cal)).onCal fun u => { u with pass := .writing })
          [aWrite .shading .tableLast]))
      (fun t => t.order.part == .idle && t.cal.pass == .idle
        && (t.bus.inFlight.map (fun w => (w.address, w.data))).contains (0x300, [4, 0, 0, 0])) = true := by decide +kernel
theorem test_abortDrainComplete :
    after (exec .abortDrainComplete
        ((writing.onOrder fun u => { u with aborting := true, gathered := some (Tracker.reset.handOver scan) }).onWriter fun wr =>
          { wr with state := .aborting, write := none }))
      (fun t => t.order.part == .idle && t.store.pending == [] && t.writer.state == .off
        && (t.bus.inFlight.map (fun w => (w.address, w.data))).contains (0x110000, [4, 0])
        && (t.bus.inFlight.map (fun w => (w.address, w.data))).contains (0x638, [1, 0, 0, 0])) = true := by decide +kernel
theorem test_exchangeBusError :
    after (exec (.exchangeBusError (.read .plateEntry 0x624)) (reading (inPart .idle) [aRead .plateEntry .made]))
      (fun t => t.order.part == .fault && t.holdOut && t.reg.cause == 0x20
        && t.order.faultRec == { kind := .block, address := 0x624, plate := 2, frame := 1, repeats := 0 }) = true := by
  decide +kernel
theorem test_busErrorInFault :
    after (exec (.busErrorInFault (.write 0)) (flying (inPart .fault) [aWrite .block .silent]))
      (fun t => t.order.faultRec.repeats == 1 && t.bus.inFlight == []) = true := by decide
theorem test_faultDrainComplete :
    after (exec .faultDrainComplete (flying (inPart .fault) [aWrite .block .silent]))
      (fun t => t.order.faultDrained && t.bus.inFlight.map (fun w => (w.address, w.data.length)) == [(0x18, 12)]
        && Memory.get t.mem 0x180000 == some 1) = true := by decide

/-! ### The hypotheses of the statements are met

One theorem per statement that has hypotheses: for each clause a state and operands that meet all its hypotheses together, at
the values where clauses meet. -/

/-- A CALIBRATE order in a pass, and one line of two pixels in progress. -/
def passing (part : PartState) (pass : PassState) (lines : Nat) : State :=
  withLine (((withOrder part (.calibrate cal)).onOrder fun u => { u with origin := some .running }).onCal fun u =>
    { u with pass := pass, passLines := lines, darkSums := [zeroQuad, zeroQuad], brightSums := [zeroQuad, zeroQuad] })

/-- A SCAN order in the leader, a line of two pixels in progress. -/
def leading : State :=
  withLine (((withOrder .running (.scan scan)).onTracker fun _ => Tracker.start).onStore fun st =>
    { st with levels := some levels } |>.withPending []) |>.onWriter fun wr => { wr with state := .ready }

/-- A SCAN order suspended from a state. -/
def suspendedFrom (origin : Origin) : State :=
  ((withOrder .suspended (.scan scan)).onOrder fun u => { u with origin := some origin }).onWriter fun wr =>
    { wr with state := .ready, stop := true }

/-- An order marked as aborting. -/
def aborting (part : PartState) : State :=
  (withOrder part (.scan scan)).onOrder fun u => { u with aborting := true, gathered := some (Tracker.reset.handOver scan) }

/-- The stray count at a value, a line in progress. -/
def strayAt (part : PartState) (n : Nat) : State := (withLine (inPart part)).onIntake fun i => { i with stray := n }

/-- A record of a SCAN order that passes every check, and one of a CALIBRATE order, at edges of the ranges. -/
def scanRecord : OrderRecord :=
  { sequence := 9, kind := 2, film := 0, width := 256, bandLeft := 224, bandRight := 255, expectedFrames := 40,
    stripLines := 64, pitch := 64, tol := 0xFFFF, minGap := 2, minFrame := 16, leaderLines := 4, gapRatio := 0,
    spreadLimit := 0, darkGapLevel := 0, insetTop := 0, insetBottom := 0, insetLeft := 64, insetRight := 64, cropMode := 1,
    defaultLeft := 255, defaultRight := 255, edgeRun := 0, irSeed := 0, thr := 0, growth := 9, fillEnable := 0, rv := 0,
    hmax := 0, decimation := 4, depth := 16, credit := 0, shadingAddress := 0, rosterAddress := 0x100000,
    fallbackR := 0, fallbackG := 0, fallbackB := 0, darkLines := 0, brightLines := 0, white := 0, hotLimit := 0,
    deadLimit := 0 }

def calRecord : OrderRecord :=
  { scanRecord with kind := 1, shadingAddress := 0x1FEC00, darkLines := 4, brightLines := 64 }

/-- The bytes of that SCAN record that its reads give, written out field by field (Formats), with a shading table
at 0x100000 and the roster at 0x110000. -/
def scanBytes : List Byte :=
  word 9 ++ [2, 0, 256, 224, 255, 40].flatMap half ++ word 64
    ++ [64, 0xFFFF, 2, 16, 4, 0, 0, 0, 0, 0, 64, 64, 1, 255, 255, 0, 0, 0, 9, 0, 0, 0, 4, 16].flatMap half
    ++ word 0 ++ word 0x100000 ++ word 0x110000 ++ List.replicate 16 0

theorem test_orderRecordLayout :
    OrderRecord.ofBytes scanBytes = { scanRecord with shadingAddress := 0x100000, rosterAddress := 0x110000 } := by
  decide +kernel

theorem witness_EventsRun :
    (Instr.shadingLoadComplete (List.replicate 80 0)).wellFormed = true
      ∧ (withOrder .starting (.scan scan)).scanOrder = some scan ∧ (List.replicate 80 (0 : Byte)).length = 20 * scan.width
      ∧ (Instr.resetHoldEnter 0).wellFormed = false := by decide
theorem witness_QueueUntouched : ∃ t, exec .holdOn { State.reset with pending := [.look] } = .next t := ⟨_, rfl⟩
theorem witness_HoldReset :
    (inPart .fault).Settled ∧ (inPart .inReset).Settled ∧ bitZero 1 = true ∧ bitZero 0 = false ∧ bitZero 2 = false
      ∧ (inPart .fault).order.part ≠ .inReset ∧ (inPart .inReset).order.part = .inReset :=
  ⟨rfl, rfl, by decide⟩
theorem witness_BlockBaseWritten :
    let s := reading (inPart .idle) [aRead .slotWord .made, aRead .slotWord .waiting]
    State.reset.Settled ∧ State.reset.order.part = .parked ∧ (∀ r ∈ State.reset.bus.reads, r.stage ≠ .waiting)
      ∧ s.Settled ∧ s.order.part = .idle ∧ s.bus.reads[0]? = some (aRead .slotWord .made)
      ∧ s.bus.reads[1]? = some (aRead .slotWord .waiting)
      ∧ ReadSite.slotWord ∈ [ReadSite.windowSource, .slotWord]
      ∧ writing.Settled ∧ writing.order.part ≠ .parked ∧ writing.order.part ≠ .idle :=
  ⟨rfl, rfl, by decide, rfl, rfl, rfl, rfl, by decide, rfl, by decide⟩
theorem witness_CauseRegisters :
    (State.reset.raise .fault).Settled ∧ (State.reset.raise .fault).causeSet .fault = true
      ∧ ∃ t, exec .causeRead (State.reset.raise .fault) = .next t := ⟨rfl, by decide, _, rfl⟩
theorem witness_IgnoredAccesses : State.reset.Settled ∧ 0 < 24 ∧ 23 < 24 := ⟨rfl, by decide⟩
theorem witness_UnknownValueRefused :
    attentionCodes.contains (0xFF : Word).toNat = false ∧ attentionCodes.contains (0x111 : Word).toNat = false
      ∧ (∀ p ∈ [PartState.inReset, .parked, .fault, .idle, .finishing], (inPart p).Settled)
      ∧ (inPart .fault).order.part ∈ [PartState.inReset, .parked, .fault]
      ∧ (inPart .idle).order.part ∉ [PartState.inReset, .parked, .fault] :=
  ⟨by decide, by decide, fun _ _ => rfl, by decide, by decide⟩
theorem witness_CodesOutsideOrders :
    (∀ p ∈ [PartState.inReset, .parked, .fault], (inPart p).Settled ∧ (inPart p).order.part = p)
      ∧ (∀ p ∈ [PartState.idle, .starting, .running, .suspended, .finishing],
        (inPart p).Settled ∧ (inPart p).order.part = p)
      ∧ (∀ w ∈ (inPart .idle).bus.windows, w = none)
      ∧ ((inPart .idle).onBus fun b => { b with fixed := true }).bus.fixed = true
      ∧ ((inPart .idle).onBus fun b => { b with loading := true }).bus.loading = true :=
  ⟨fun _ _ => ⟨rfl, rfl⟩, fun _ _ => ⟨rfl, rfl⟩, by decide, rfl, rfl⟩
theorem witness_HostHold : (inPart .fault).Settled ∧ (inPart .fault).order.part ≠ .inReset := ⟨rfl, by decide⟩
theorem witness_LookTaken :
    let busy := (inPart .idle).onOrder fun u => { u with selecting := true }
    let ending := (inPart .idle).onOrder fun u => { u with endWrites := true }
    (inPart .idle).Settled ∧ (inPart .idle).order.selecting = false ∧ (inPart .idle).order.endWrites = false
      ∧ busy.Settled ∧ busy.order.part = .idle ∧ busy.order.selecting = true
      ∧ ending.Settled ∧ ending.order.part = .idle ∧ ending.order.endWrites = true
      ∧ writing.Settled ∧ writing.order.part ∈ [PartState.starting, .running, .suspended, .finishing] :=
  ⟨rfl, rfl, rfl, rfl, rfl, rfl, rfl, rfl, rfl, rfl, by decide⟩
theorem witness_PlatesTaken :
    let waiting := (scanning .running .count).onWriter fun wr => { wr with state := .plateWait, scan := none }
    let rescanning := (scanning .running .count).onWriter fun wr => { wr with state := .plateWait }
    waiting.Settled ∧ waiting.order.part ∈ [PartState.running, .suspended, .finishing] ∧ waiting.scanOrder = some scan
      ∧ waiting.writer.state = .plateWait ∧ waiting.writer.scan = none
      ∧ waiting.headFrame = some 1 ∧ waiting.writer.record 1 = some record1 ∧ record1.plateList.length < 64
      ∧ rescanning.writer.state = .plateWait ∧ rescanning.writer.scan.isSome
      ∧ (scanning .running .count).writer.state = .ready ∧ (scanning .running .count).writer.scan.isSome
      ∧ writing.Settled ∧ writing.scanOrder = some scan ∧ writing.writer.state = .writing
      ∧ (suspendedFrom .running).writer.state = .ready ∧ (suspendedFrom .running).writer.scan = none :=
  ⟨rfl, by decide, rfl, rfl, rfl, rfl, rfl, by decide, rfl, rfl, rfl, rfl, rfl, rfl, rfl, rfl, rfl⟩
/-- PLATES with no SCAN order, in its start, and in the writer states in which it has no effect. -/
theorem witness_PlatesTaken_noEffect :
    let parts := [PartState.idle, .starting, .running, .suspended, .finishing]
    (inPart .idle).Settled ∧ (inPart .idle).order.part ∈ parts ∧ (inPart .idle).scanOrder = none
      ∧ (∀ part ∈ [PartState.starting, .running, .suspended, .finishing],
        (withOrder part (.calibrate cal)).Settled ∧ (withOrder part (.calibrate cal)).order.part = part
          ∧ (withOrder part (.calibrate cal)).scanOrder = none)
      ∧ (withOrder .starting (.scan scan)).Settled ∧ (withOrder .starting (.scan scan)).writer.state = .off :=
  ⟨rfl, by decide, rfl, fun _ _ => ⟨rfl, rfl, rfl⟩, rfl, rfl⟩
theorem witness_SuspendTaken :
    writing.Settled ∧ writing.order.part = .running ∧ writing.order.aborting = false ∧ writing.order.chosen = some 1
      ∧ (withOrder .finishing (.calibrate cal)).Settled ∧ (withOrder .finishing (.calibrate cal)).order.part = .finishing :=
  ⟨rfl, rfl, rfl, rfl, rfl, rfl⟩
theorem witness_ResumeTaken :
    let held := fun (order : Order) =>
      (withOrder .suspended order).onOrder fun u =>
        { u with origin := some .finishing, heldEnd := true, gathered := some CalibrationUnit.reset.report }
    let busy := fun (state : WriterState) => (suspendedFrom .finishing).onWriter fun wr => { wr with state := state }
    let dropped := (suspendedFrom .running).onStore fun st =>
      { st with pending := [{ head1 with fate := .dropImage }, { head1 with line := 1, fate := .undecided }] }
    (∀ pass ∈ [PassState.brightPass, .passesComplete],
        (passing .suspended pass 3).Settled ∧ (passing .suspended pass 3).order.part = .suspended
          ∧ (passing .suspended pass 3).order.aborting = false ∧ (passing .suspended pass 3).order.chosen = some 1
          ∧ (passing .suspended pass 3).order.origin = some .running ∧ (passing .suspended pass 3).order.heldEnd = false
          ∧ (passing .suspended pass 3).order.current = some (.calibrate cal)
          ∧ (passing .suspended pass 3).cal.pass = pass)
      ∧ insideWindow (passing .suspended .passesComplete 3).bus.windows cal.tableAddress (cal.width * 20) = true
      ∧ ((passing .suspended .idle 0).onOrder fun u => { u with origin := some .finishing }).order.heldEnd = false
      ∧ (∀ state ∈ [WriterState.plateWait, .writing], (busy state).Settled ∧ (busy state).writer.state = state
        ∧ (busy state).order.heldEnd = false ∧ (busy state).order.current = some (.scan scan))
      ∧ (suspendedFrom .running).Settled ∧ (suspendedFrom .running).order.origin = some .running
      ∧ (suspendedFrom .running).writer.state = .ready ∧ (∀ e ∈ (suspendedFrom .running).store.pending, e.fate = .undecided)
      ∧ dropped.Settled ∧ dropped.writer.state = .ready
      ∧ dropped.store.pending = { head1 with fate := .dropImage } :: [{ head1 with line := 1, fate := .undecided }]
      ∧ dropped.writer.scan = none ∧ (∀ r ∈ dropped.writer.records, r.closed = false)
      ∧ (∀ order ∈ [Order.scan scan, .calibrate cal], (held order).Settled ∧ (held order).order.heldEnd = true
        ∧ (held order).order.origin = some .finishing ∧ (held order).order.current = some order)
      ∧ (held (.calibrate cal)).order.gathered = some CalibrationUnit.reset.report := by
  refine ⟨fun _ _ => ⟨rfl, rfl, rfl, rfl, rfl, rfl, rfl, rfl⟩, by decide, rfl, fun _ _ => ⟨rfl, rfl, rfl, rfl⟩, rfl, rfl,
    rfl, by decide, rfl, rfl, rfl, rfl, by decide, fun _ _ => ⟨rfl, rfl, rfl, rfl⟩, rfl⟩
/-- The READY clauses: a WRITE head with room in the current plate, with the throttle passing and not, without a plate, with its
plate list full, of a damaged frame; the last head of a FINISHING order. -/
theorem witness_ResumeTaken_head :
    let base := (suspendedFrom .finishing).onStore fun st => { st with pending := [head1], levels := some levels }
    let holding := fun (r : FrameRecord) (plate : Option CurrentPlate) =>
      base.onWriter fun wr => { wr with state := .ready, scan := none, records := [r], plate := plate }
    let plate : CurrentPlate := { index := 3, address := 0x180000, size := 65536, room := 12, frame := 1 }
    let full := { record1 with plateList := List.replicate 64 { index := 3, firstLine := 0, count := 0 } }
    let last := base.onStore fun st => { st with pending := [{ head1 with fate := .dropOther }] }
    let ended := last.onWriter fun wr => { wr with state := .ready, scan := none, records := [] }
    (∀ r ∈ [record1, full, record1.damaged .busError], ∀ p ∈ [some plate, none],
        (holding r p).Settled ∧ (holding r p).order.part = .suspended ∧ (holding r p).order.heldEnd = false
          ∧ (holding r p).order.chosen = some 1 ∧ (holding r p).order.current = some (.scan scan)
          ∧ (holding r p).order.origin = some .finishing ∧ (holding r p).store.pending = head1 :: []
          ∧ (holding r p).writer.record 1 = some r ∧ (holding r p).writer.plate = p ∧ r.closed = false)
      ∧ head1.fate = .write ∧ head1.frame = some 1 ∧ record1.damage = none ∧ plate.frame = record1.number
      ∧ record1.outBytes ≤ plate.room ∧ record1.plateList.length < 64 ∧ full.damage = none ∧ 64 ≤ full.plateList.length
      ∧ (record1.damaged .busError).damage.isSome
      ∧ ((suspendedFrom .running).throttlePasses scan 12 = true
        ∧ (suspendedFrom .running).throttlePasses { scan with credit := 12 } 12 = false)
      ∧ ended.store.pending.map (fun e => e.fate) = [.dropOther] ∧ ended.writer.records = []
      ∧ ended.order.origin = some .finishing := by
  refine ⟨?_, by decide⟩
  intro r hr p hp
  simp only [List.mem_cons, List.not_mem_nil, or_false] at hr hp
  rcases hr with rfl | rfl | rfl <;> rcases hp with rfl | rfl <;> exact ⟨rfl, by decide⟩
theorem witness_AbortTaken :
    let starting := (withOrder .starting (.scan scan)).onOrder fun u => { u with recordRead := true }
    let waiting := (withOrder .starting (.scan scan)).onOrder fun u => { u with waiting := some scanRecord }
    let held := (passing .finishing .idle 0).onOrder fun u => { u with gathered := some CalibrationUnit.reset.report }
    filling.Settled ∧ filling.order.part ∈ [PartState.running, .suspended, .finishing] ∧ filling.order.aborting = false
      ∧ filling.order.current = some (.scan scan)
      ∧ starting.Settled ∧ starting.order.part = .starting ∧ starting.order.aborting = false
      ∧ starting.order.chosen = some 1 ∧ starting.order.waiting = none
      ∧ waiting.Settled ∧ waiting.order.part = .starting ∧ waiting.order.waiting.isSome
      ∧ (∀ pass ∈ [PassState.darkPass, .brightPass, .passesComplete, .idle, .writing],
        (passing .suspended pass 1).Settled ∧ (passing .suspended pass 1).order.part = .suspended
          ∧ (passing .suspended pass 1).order.aborting = false
          ∧ (passing .suspended pass 1).order.current = some (.calibrate cal)
          ∧ (passing .suspended pass 1).order.chosen = some 1 ∧ (passing .suspended pass 1).cal.pass = pass)
      ∧ held.cal.pass = .idle ∧ held.order.gathered = some CalibrationUnit.reset.report
      ∧ ∀ p ∈ [PartState.starting, .running, .suspended, .finishing],
        (aborting p).Settled ∧ (aborting p).order.aborting = true ∧ (aborting p).order.part = p :=
  ⟨rfl, by decide, rfl, rfl, rfl, rfl, rfl, rfl, rfl, rfl, rfl, rfl, fun _ _ => ⟨rfl, rfl, rfl, rfl, rfl, rfl⟩, rfl, rfl,
    fun _ _ => ⟨rfl, rfl, rfl⟩⟩
theorem witness_WindowCodes :
    let loaded := (inPart .idle).onBus fun b => { b with windows := oneWindow }
    loaded.Settled ∧ loaded.order.part = .idle ∧ loaded.bus.loading = false ∧ loaded.bus.fixed = false
      ∧ ∃ w ∈ loaded.bus.windows, w.isSome := ⟨rfl, by decide⟩
theorem witness_ParkAndWake :
    let s := reading (inPart .idle) [aRead .slotWord .made, aRead .slotWord .waiting]
    s.Settled ∧ s.order.part = .idle ∧ aRead .slotWord .made ∈ s.bus.reads
      ∧ (∀ r ∈ (inPart .idle).bus.reads, r.site ≠ .slotWord) ∧ State.reset.Settled ∧ State.reset.order.part = .parked :=
  ⟨rfl, rfl, by decide, by decide, rfl, rfl⟩
theorem witness_LinkEvents :
    (withLine (inPart .parked)).Settled ∧ (withLine (inPart .parked)).order.part ≠ .inReset
      ∧ (withLine (inPart .parked)).intake.line = some { pixels := [flat 10, flat 20], count := 2 }
      ∧ (inPart .fault).Settled ∧ (inPart .fault).intake.line = none ∧ (inPart .fault).order.part ≠ .inReset
      ∧ (inPart .inReset).Settled ∧ (inPart .inReset).order.part = .inReset :=
  ⟨rfl, by decide, rfl, rfl, rfl, by decide, rfl, rfl⟩
theorem witness_LinesOutsideAnOrder :
    (∀ p ∈ [PartState.idle, .starting, .finishing], (strayAt p 4294967294).Settled ∧ (strayAt p 4294967294).Strays
        ∧ (strayAt p 4294967294).intake.stray < 4294967295 ∧ (strayAt p 4294967295).Strays
        ∧ (strayAt p 4294967295).intake.stray = 4294967295)
      ∧ (suspendedFrom .finishing).Strays ∧ (aborting .running).Strays
      ∧ (strayAt .fault 4294967294).order.part = .fault ∧ (strayAt .parked 0).order.part = .parked
      ∧ (Instr.endOfLineMark, (none : Option LineBuffer)) ∈ lineMarks
      ∧ (Instr.startOfLineMark, some ({ pixels := [], count := 0 } : LineBuffer)) ∈ lineMarks :=
  ⟨fun p hp => ⟨rfl, .inl hp, (by decide : 4294967294 < 4294967295), .inl hp, rfl⟩, .inr (.inl ⟨rfl, by decide⟩),
    .inr (.inr ⟨rfl, by decide⟩), rfl, rfl, by decide, by decide⟩
theorem witness_LengthCorrected : 256 ≤ 256 ∧ 256 ≤ 6144 ∧ 256 ≤ 6144 ∧ 6144 ≤ 6144 := by decide
theorem witness_ShadingApplied :
    [flat 1201][0]? = some (flat 1201)
      ∧ [({ dark := sameQuad 1200, gain := sameQuad 65535, hot := true, dead := false } : ShadingColumn)][0]?.isSome := by
  decide
theorem witness_LeaderLine :
    leading.Settled ∧ leading.intake.line = some { pixels := [flat 10, flat 20], count := 2 } ∧ leading.Takes
      ∧ leading.order.current = some (.scan scan) ∧ leading.tracker.state = .leader ∧ leading.tracker.heldLost = []
      ∧ leading.writer.state = .ready ∧ leading.store.levels = some levels
      ∧ (∀ e ∈ leading.store.pending, e.fate = .undecided ∧ e.line < leading.intake.arrival)
      ∧ leading.store.pending.length + leading.store.context.length < 64 ∧ leading.intake.arrival < levels.delay
      ∧ leading.intake.arrival + 1 ≠ scan.stripLines
      ∧ leading.tracker.outcome scan
        (some (shadeLine leading.intake.copy (lengthCorrect scan.width [flat 10, flat 20]))) = true :=
  ⟨rfl, rfl, ⟨rfl, .inl rfl⟩, rfl, rfl, rfl, rfl, rfl, by decide, by decide, by decide, by decide, by decide⟩
theorem witness_LeaderLine_join :
    let records := fun (n : Nat) => (List.range n).map fun k => leaderRecord scan k head1.samples
    let columns := fun (n : Nat) => (List.range n).map fun k => profileRecord k head1.samples
    (records 3).length < scan.leaderLines ∧ (records 4).length = scan.leaderLines ∧ scan.cropMode = .fixed
      ∧ ({ scan with cropMode := .edge } : ScanOrder).cropMode = .edge ∧ (columns 15).length < 16
      ∧ (columns 16).length = 16 := by decide
theorem witness_PassLines :
    (∀ n ∈ [2, 3], (passing .running .darkPass n).Settled ∧ (passing .running .darkPass n).Takes
        ∧ (passing .running .darkPass n).cal.pass = .darkPass ∧ (passing .running .darkPass n).cal.passLines = n)
      ∧ (passing .running .brightPass 2).Takes ∧ (passing .running .brightPass 2).cal.passLines + 1 < cal.brightLines
      ∧ (passing .suspended .brightPass 3).Takes ∧ cal.brightLines ≤ (passing .suspended .brightPass 3).cal.passLines + 1
      ∧ (passing .suspended .passesComplete 4).Takes ∧ (passing .suspended .passesComplete 4).order.part = .suspended
      ∧ (passing .suspended .passesComplete 4).order.current = some (.calibrate cal) :=
  ⟨fun _ _ => ⟨rfl, ⟨rfl, .inl rfl⟩, rfl, rfl⟩, ⟨rfl, .inl rfl⟩, by decide, ⟨rfl, .inr ⟨rfl, rfl⟩⟩, by decide,
    ⟨rfl, .inr ⟨rfl, rfl⟩⟩, rfl, rfl⟩
theorem witness_LastBrightLine :
    (passing .running .brightPass 3).Settled ∧ (passing .running .brightPass 3).order.aborting = false
      ∧ (passing .running .brightPass 3).order.part = .running ∧ (passing .running .brightPass 3).cal.pass = .brightPass
      ∧ cal.brightLines ≤ (passing .running .brightPass 3).cal.passLines + 1
      ∧ insideWindow (passing .running .brightPass 3).bus.windows cal.tableAddress (cal.width * 20) = true :=
  ⟨rfl, rfl, rfl, rfl, by decide, by decide⟩
theorem witness_GainAndDead :
    spanOf (8000 / cal.darkLines) (8000 / cal.brightLines) = 0
      ∧ 0 < spanOf 0 (7996 / cal.brightLines) ∧ spanOf 0 (7996 / cal.brightLines) < cal.deadLimit
      ∧ cal.deadLimit ≤ spanOf 0 (8000 / cal.brightLines)
      ∧ 65535 < cal.white * 16384 / spanOf 0 (8000 / cal.brightLines) := by decide
theorem witness_GapLikeTests :
    bandMean scan [flat 7, flat 9, flat 9, flat 8] = (7 + 9 + 9 + 8) / 4
      ∧ (∀ g ∈ [7, 9, 9, 8], 7 ≤ g ∧ g ≤ 9) ∧ bandSpread scan [flat 7, flat 9, flat 9, flat 8] = 9 - 7
      ∧ TrackerState.leader.judges = true ∧ TrackerState.cut.judges = true ∧ scan.film = .positive
      ∧ ({ scan with film := .negative } : ScanOrder).film = .negative
      ∧ ({ Tracker.start with state := .seek, gapLevel := some 36835 } : Tracker).gapLevel = some 36835 := by decide
theorem witness_BaseFormed :
    let windowOf := fun n => List.replicate n (leaderRecord scan 0 [flat 40000, flat 40000, flat 40000, flat 40000])
    4 ≤ scan.leaderLines ∧ (windowOf 3).length ≤ scan.leaderLines ∧ (windowOf 3).length < 4
      ∧ (windowOf 4).length = scan.leaderLines ∧ 4 ≤ (windowOf 4).length ∧ (windowOf 4).length ≤ 5 := by decide
theorem witness_TrackerTransitions :
    let fr : OpenFrame := { number := 1, top := 10, crop := { left := 0, right := 3 }, flags := {} }
    let base : Base := { r := 256, g := 256, b := 256, source := .leader }
    let tracking := fun (st : TrackerState) => (withOrder .running (.scan scan)).onTracker fun t =>
      { t with
        state := st, base := some base, carried := some { left := 0, right := 3 }, openFrame := some fr, runCount := 1,
        gapStart := some 74 }
    (∀ st ∈ [TrackerState.seek, .gap, .leader, .cut, .image, .gapRun, .trail],
        (tracking st).Settled ∧ (tracking st).Active ∧ (tracking st).tracker.state = st)
      ∧ 1 ≤ (tracking .seek).tracker.nextFrame ∧ (tracking .seek).tracker.nextFrame ≤ scan.expectedFrames
      ∧ insideWindow (tracking .seek).bus.windows scan.rosterAddress (scan.expectedFrames * 640) = true
      ∧ (∀ r ∈ (tracking .seek).writer.records, 1 ≤ r.number ∧ r.number ≤ scan.expectedFrames)
      ∧ ((tracking .leader).tracker.withBase scan).base.map Base.source = some .fallback
      ∧ (({ (tracking .leader).tracker with
          window := List.replicate 4 (leaderRecord scan 0 [flat 9, flat 9, flat 9, flat 9]) } : Tracker).withBase
            scan).base.map Base.source = some .leader
      ∧ (tracking .cut).tracker.base = some base ∧ (tracking .cut).tracker.carried = some { left := 0, right := 3 }
      ∧ (tracking .image).tracker.openFrame = some fr ∧ 76 + 1 - fr.top < scan.pitch + scan.tol
      ∧ scan.pitch + scan.tol ≤ 77 + 1 - fr.top ∧ scan.minFrame ≤ 77 + 1 - fr.top
      ∧ (tracking .gapRun).tracker.runCount + 1 < 3 ∧ scan.minGap ≤ (tracking .gapRun).tracker.runCount + 1
      ∧ (tracking .gapRun).tracker.gapStart = some 74 :=
  ⟨fun _ _ => ⟨rfl, ⟨nofun, nofun⟩, rfl⟩, by decide⟩
theorem witness_FrameCloses :
    let fr : OpenFrame := { number := 1, top := 10, crop := { left := 0, right := 3 }, flags := {} }
    (State.reset.onTracker fun t => { t with openFrame := some fr }).tracker.openFrame = some fr
      ∧ scan.minFrame ≤ 25 + 1 - fr.top ∧ 24 + 1 - fr.top < scan.minFrame
      ∧ (∀ r ∈ [record1.close scan 25 {}], r.closed = true → r.doomed = false →
        ∃ e ∈ [head1], e.frame = some r.number ∧ (e.fate = .undecided ∨ e.fate = .write))
      ∧ writing.writer.state = .writing ∧ (writing.writer.write.any fun lw => lw.frame == fr.number) = true := by decide
/-- The sliver clauses: the frame's line being written, its head waiting for a plate, throttled or scanning, and a head of another
frame. -/
theorem witness_FrameCloses_sliver :
    let fr : OpenFrame := { number := 1, top := 0, crop := { left := 0, right := 3 }, flags := {} }
    let opened := writing.onTracker fun t => { t with openFrame := some fr }
    let other := { record1 with number := 2, fillingWritten := false }
    let order := { scan with expectedFrames := 2 }
    let idle := fun (state : WriterState) (head : Nat) =>
      (opened.onWriter fun wr => { wr with state := state, write := none, records := [record1, other] }).onStore fun st =>
        { st with pending := [{ head1 with frame := some head }] }
    (opened.writer.state = .writing ∧ opened.writer.write = some write1 ∧ write1.frame = fr.number
        ∧ write1.discarded = false ∧ opened.writer.records = [] ++ record1 :: [])
      ∧ ∀ state ∈ [WriterState.plateWait, .throttled, .ready], ∀ head ∈ [1, 2],
        (idle state head).Settled ∧ (idle state head).Active ∧ (idle state head).tracker.openFrame = some fr
          ∧ 14 + 1 - fr.top < order.minFrame ∧ (idle state head).writer.records = [] ++ record1 :: [other]
          ∧ record1.number = fr.number ∧ record1.doomed = false
          ∧ (∀ r ∈ [] ++ [other], r.number = fr.number → r.doomed = true) ∧ (idle state head).writer.state ≠ .writing
          ∧ insideWindow (idle state head).bus.windows order.rosterAddress (order.expectedFrames * 640) = true
          ∧ (∀ r ∈ (idle state head).writer.records, 1 ≤ r.number ∧ r.number ≤ order.expectedFrames)
          ∧ (∀ p ∈ record1.plateList, p.index < 256) ∧ (idle state head).headFrame = some head := by
  refine ⟨by decide, ?_⟩
  intro state hs head hh
  simp only [List.mem_cons, List.not_mem_nil, or_false] at hs hh
  rcases hs with rfl | rfl | rfl <;> rcases hh with rfl | rfl <;>
    exact ⟨rfl, ⟨by decide, by decide⟩, by decide⟩
/-- The strip end by the tracker's state, the run's start and held lost lines among them. -/
theorem witness_RowFate_strip :
    let ending := fun (state : TrackerState) (lost : List Nat) (raised : Bool) =>
      (writing.onTracker fun t =>
        { t with
          state := state, gapStart := some 74, heldLost := lost
          openFrame := some { number := 1, top := 10, crop := { left := 0, right := 3 }, flags := {} } }).onStore fun st =>
        { st with outsideRaised := raised }
    (∀ state ∈ [TrackerState.seek, .gap, .trail, .leader, .cut, .image], (ending state [] false).tracker.state = state)
      ∧ (ending .gapRun [75] false).tracker.gapStart = some 74 ∧ (ending .gapRun [75] false).tracker.heldLost ≠ []
      ∧ (ending .gapRun [75] false).store.outsideRaised = false ∧ (ending .gapRun [75] true).store.outsideRaised = true
      ∧ (ending .gapRun [] false).tracker.heldLost = []
      ∧ ((ending .image [] false).endStrip { scan with stripLines := 80 }).writer.records.map
        (fun r => (r.closed, r.last, r.flags.truncated)) = [(true, some 79, true)]
      ∧ ((ending .gapRun [75] false).endStrip { scan with minFrame := 64 }).writer.records.map
        (fun r => (r.last, r.flags.truncated)) = [(some 73, true)] := by decide +kernel
theorem witness_RowFate :
    let closed := record1.close scan 20 {}
    let trailing := fun (part : PartState) (n : Nat) =>
      (((withLine (withOrder part (.scan scan))).onOrder fun u => { u with origin := some .running }).onIntake fun i =>
        { i with arrival := n }).onTracker (fun t => { t with state := .trail }) |>.onStore (fun st =>
          { st with pending := [head1], levels := some levels }) |>.onWriter fun wr =>
            { wr with state := .plateWait, records := [record1] }
    (0 < ({ record1 with cropTop := 1 } : FrameRecord).cropTop ∧ closed.closed = true ∧ closed.cropBottom = some 20 ∧ 20 < 21
        ∧ closed.cropTop ≤ 20 ∧ (1 - record1.cropTop) % 2 ≠ 0 ∧ (20 - closed.cropTop) % scan.decimation = 0
        ∧ record1.closed = false)
      ∧ (head1.cls = .image ∧ head1.frame = some 1 ∧ writing.writer.record 1 = some record1 ∧ record1.damage = none
        ∧ (record1.damaged .busError).damage.isSome ∧ ({ head1 with cls := .trail } : Entry).cls ≠ .image)
      ∧ (writing.store.levels = some levels ∧ 1 < levels.delay ∧ levels.delay ≤ 2 ∧ writing.order.part = .running
        ∧ (suspendedFrom .running).order.part = .suspended)
      ∧ ∀ part ∈ [PartState.running, .suspended], ∀ n ∈ [1, 2, 999],
        (trailing part n).Settled ∧ (trailing part n).intake.line.isSome ∧ (trailing part n).Takes
          ∧ (trailing part n).order.current = some (.scan scan) ∧ (trailing part n).tracker.state = .trail
          ∧ (trailing part n).tracker.heldLost = [] ∧ (trailing part n).writer.state = .plateWait
          ∧ (trailing part n).store.levels = some levels ∧ (trailing part n).intake.arrival = n
          ∧ (0 < n → ∀ e ∈ (trailing part n).store.pending, e.line < (trailing part n).intake.arrival)
          ∧ (trailing part n).store.pending.length + (trailing part n).store.context.length < 64 := by
  refine ⟨by decide, by decide, by decide, fun part hp n _ => ⟨rfl, rfl, ?_, rfl, rfl, rfl, rfl, rfl, rfl, fun h e he => ?_,
    (by decide : 1 + 0 < 64)⟩⟩
  · rcases List.mem_cons.1 hp with rfl | hp
    · exact ⟨rfl, .inl rfl⟩
    · exact ⟨rfl, .inr ⟨List.mem_singleton.1 hp, rfl⟩⟩
  · rw [List.mem_singleton.1 he]
    exact h
theorem witness_StoreAnnounce :
    let full := List.replicate 64 head1
    let lost := fun (st : TrackerState) (held : List Nat) (frames : List Nat) =>
      (State.reset.onTracker fun t => { t with state := st, heldLost := held }).onStore fun store =>
        { store with lostFrames := frames }
    ((full.take 63).length + 0 < 64) ∧ 64 ≤ full.length ∧ levels.clearLevel < levels.setLevel
      ∧ levels.clearLevel < 39 ∧ 53 < levels.setLevel
      ∧ (lost .gapRun [] []).tracker.state = .gapRun ∧ (lost .image [] []).tracker.state ≠ .gapRun
      ∧ (lost .image [] []).tracker.heldLost.length + 0 = 0 ∧ 0 < (lost .image [7, 8] []).tracker.heldLost.length + 0
      ∧ 1 ∈ (lost .image [7] [1]).store.lostFrames ∧ 1 ∉ (lost .image [7] []).store.lostFrames
      ∧ (lost .gap [7] []).store.outsideRaised = false
      ∧ ((lost .gap [7] []).onStore fun st => { st with outsideRaised := true }).store.outsideRaised = true := by decide
theorem witness_StoreAnnounce_removal :
    let st := { LineStore.reset with levels := some levels, pending := [head1] }
    st.pending = head1 :: [] ∧ st.levels = some levels ∧ st.context.length ≤ levels.rv ∧ [head1].length < levels.rv
      ∧ [head1, head1].length = levels.rv ∧ head1.fate = .write ∧ ({ head1 with fate := .dropOther } : Entry).fate ≠ .write := by
  decide
theorem witness_FixedCropInside :
    let o : ScanOrder := { scan with width := 256, defaultLeft := 0, defaultRight := 15 }
    let edge : ScanOrder := { o with cropMode := .edge, width := 24 }
    let profile := fun (film : Nat) =>
      List.replicate 4 ({ line := 0, greens := (List.replicate 4 9) ++ List.replicate film 100 ++ List.replicate (20 - film) 9 } :
        ProfileRecord)
    256 ≤ o.width ∧ o.defaultLeft ≤ o.defaultRight ∧ o.defaultRight < o.width
      ∧ o.defaultLeft + o.insetLeft + 15 + o.insetRight ≤ o.defaultRight
      ∧ ({ o with defaultRight := 0 } : ScanOrder).defaultRight < 0 + o.insetLeft + 15 + o.insetRight
      ∧ scan.cropMode = .fixed ∧ edge.cropMode = .edge ∧ 1 ≤ edge.edgeRun
      ∧ (∀ record ∈ profile 16, record.greens.length = edge.width) ∧ 4 ≤ (profile 16).length
      ∧ edgeCrop edge 50 (profile 16) = some { left := 4, right := 19 } ∧ edgeCrop edge 50 (profile 15) = none
      ∧ edgeCrop edge 50 (profile 3) = none ∧ ((profile 16).take 3).length < 4 := by decide
theorem witness_SpanListShape :
    let islands := (List.range 25).map fun k => ({ start := 4 * k, length := 1 } : Span)
    1 ∈ defectColumns 192 { left := 0, right := 2 } [2] 0 [flat 48000, flat 35999, flat 0] [48000, 48000, 48000]
      ∧ 2 ∈ [2] ∧ 0 ≤ 2 ∧ 2 ≤ 2
      ∧ isMergedLine { irSeed := 48000, thr := 192, growth := 1 } { left := 0, right := 2 } [2] [48000, 48000, 48000]
        [flat 48000, flat 35999, flat 0] = false
      ∧ (islands.take 24).length ≤ 24 ∧ 24 < islands.length
      ∧ capSpans 1 islands = { start := 0, length := 5 } :: islands.drop 2 := by decide +kernel
theorem witness_ReferenceUpdated : [flat 36000][0]? = some (flat 36000) := by decide

/-- A SCAN order with frame 1 open since line 10, line `n` in progress, the writer waiting for a plate. -/
def extending (part : PartState) (state : TrackerState) (n : Nat) (value : Half) : State :=
  ((((withOrder part (.scan { scan with minGap := 3 })).onOrder fun u => { u with origin := some .running }).onIntake fun i =>
    { i with
      line := some { pixels := [flat value], count := 1 }, arrival := n
      copy := List.replicate 4 unityColumn }).onTracker fun t =>
    { t with
      state := state, openFrame := some { number := 1, top := 10, crop := { left := 0, right := 3 }, flags := {} }
      runCount := 1, gapStart := some 74 }).onMapper (fun m =>
    { m with params := some { irSeed := 30000, thr := 128, growth := 1 }, ref := List.replicate 4 30000 }) |>.onStore (fun st =>
    { st with pending := [head1], levels := some levels }) |>.onWriter fun wr =>
    { wr with state := .plateWait, records := [record1] }

/-- The premises that the two statements of a line that extends a frame share, but for the states and the outcome. -/
def Extends (s : State) (o : ScanOrder) (n : Nat) : Prop :=
  s.Settled ∧ s.intake.line.isSome ∧ s.Takes ∧ s.order.current = some (.scan o) ∧ s.tracker.heldLost = []
    ∧ s.writer.state = .plateWait ∧ s.store.levels = some levels ∧ s.mapper.params.isSome ∧ s.intake.arrival = n
    ∧ (s.tracker.openFrame.map fun fr => (fr.number, fr.top)) = some (1, 10)
    ∧ (∀ e ∈ s.store.pending, e.line < n) ∧ s.store.pending.length + s.store.context.length < 64
    ∧ n + 1 - 10 < o.pitch + o.tol

/-- The arrival of a mapped line: in IMAGE and in GAP_RUN, gap-like and not, running and suspended, up to the line before the
forced cut. -/
theorem witness_ReferenceUpdated_arrival :
    let o : ScanOrder := { scan with minGap := 3 }
    let gapLike := fun (s : State) (v : Half) =>
      s.tracker.outcome o (some (shadeLine s.intake.copy (lengthCorrect o.width [flat v])))
    (∀ part ∈ [PartState.running, .suspended], ∀ state ∈ [TrackerState.image, .gapRun], ∀ v ∈ [(10 : Half), 40000],
        Extends (extending part state 76 v) o 76 ∧ (extending part state 76 v).tracker.state = state)
      ∧ 76 + 1 ≠ o.stripLines ∧ (extending .running .gapRun 76 10).tracker.runCount + 1 < o.minGap
      ∧ gapLike (extending .running .gapRun 76 10) 10 = true
      ∧ gapLike (extending .running .gapRun 76 40000) 40000 = false := by
  refine ⟨?_, by decide, by decide, by decide +kernel, by decide +kernel⟩
  intro part hp state hs v hv
  simp only [List.mem_cons, List.not_mem_nil, or_false] at hp hs hv
  rcases hp with rfl | rfl <;> rcases hs with rfl | rfl <;> rcases hv with rfl | rfl <;>
    exact ⟨⟨rfl, rfl, ⟨rfl, by decide⟩, rfl, rfl, rfl, rfl, rfl, rfl, rfl, by decide⟩, rfl⟩
/-- The last line of the strip in an open frame, in IMAGE and in GAP_RUN, running and suspended; a line in progress that an order
takes. -/
theorem witness_RowFate_truncated :
    let o : ScanOrder := { scan with minGap := 3, stripLines := 77 }
    let last := fun (part : PartState) (state : TrackerState) =>
      (extending part state 76 40000).onOrder fun u => { u with current := some (.scan o) }
    ∀ part ∈ [PartState.running, .suspended], ∀ state ∈ [TrackerState.image, .gapRun],
      Extends (last part state) o 76 ∧ (last part state).tracker.state = state ∧ 76 + 1 = o.stripLines
        ∧ o.minFrame ≤ 76 + 1 - 10 ∧ (∀ r ∈ (last part state).writer.records, r.closed = false)
        ∧ (last part state).tracker.outcome o
          (some (shadeLine (last part state).intake.copy (lengthCorrect o.width [flat 40000]))) = false := by
  intro o last part hp state hs
  simp only [List.mem_cons, List.not_mem_nil, or_false] at hp hs
  rcases hp with rfl | rfl <;> rcases hs with rfl | rfl <;>
    exact ⟨⟨rfl, rfl, ⟨rfl, by decide⟩, rfl, rfl, rfl, rfl, rfl, rfl, rfl, by decide⟩, rfl, rfl, by decide, by decide,
      by decide +kernel⟩
theorem witness_FillValues :
    let source : Entry := { head1 with line := 3 }
    let l : LineInHand :=
      { line := 1, frame := 1, top := 0, last := none, crop := { left := 0, right := 3 }, decimation := 2,
        samples := head1.samples, spans := [{ start := 2, length := 1 }], sources := [source] }
    let params : FillParams := { rv := 2, hmax := 1, enable := true }
    0 < 1 ∧ 0 < 65 ∧ 0 < ({ start := 2, length := 1 } : Span).length ∧ params.hmax < 2 ∧ 1 ≤ params.hmax
      ∧ (horizontalEstimate 1 l { start := 2, length := 1 } 2).isSome ∧ verticalEstimate 1 l 2 = none
      ∧ (verticalEstimate 2 l 2).map Estimate.distance = some 2
      ∧ horizontalEstimate 0 l { start := 2, length := 1 } 2 = none
      ∧ 0 < l.decimation ∧ l.crop.left + 1 * l.decimation ≤ l.crop.right
      ∧ l.samples[l.crop.left + 1 * l.decimation]? = some (flat 3000) ∧ (fillLine params l).length = 2 := by decide
theorem witness_OutputLine :
    let l : LineInHand :=
      { line := 0, frame := 1, top := 0, last := none, crop := { left := 0, right := 3 }, decimation := 4,
        samples := head1.samples, spans := [], sources := [] }
    0 < l.decimation ∧ l.crop.left ≤ l.crop.right ∧ l.crop.right < l.samples.length ∧ l.samples.length ≤ 6144
      ∧ 256 ≤ 256 ∧ 255 < 256 ∧ 65535 < 65536 := by decide
theorem witness_BurstsSplit : 0x180000 % 256 = 0 ∧ (splitBursts 3 0x1800FF [1, 2, 3])[1]? = some (0x180100, [2, 3]) := by
  decide
theorem witness_ThrottleTest :
    ({ scan with credit := 12 } : ScanOrder).credit ≠ 0 ∧ scan.credit = 0 ∧ 12 ≤ 12 ∧ 11 < 12
      ∧ writing.throttlePasses scan 12 = true ∧ writing.throttlePasses { scan with credit := 12 } 12 = false := by decide
theorem witness_PlateScanGoes :
    let entries := scanning .running (.entries 2 1 2)
    (scanning .running .count).Settled ∧ (scanning .running .count).order.part ∈ [PartState.running, .suspended, .finishing]
      ∧ (scanning .running .count).order.current = some (.scan scan) ∧ (scanning .running .count).writer.scan = some .count
      ∧ (scanning .running .count).writer.rescan = false ∧ (scanning .running .count).writer.state = .ready
      ∧ (word 0).length = 4 ∧ leValue (word 0) = 0 ∧ leValue (word 257) ≠ 0
      ∧ entries.writer.scan = some (.entries 2 1 2) ∧ 1 < 2 ∧ (entryBytes 5 65535 1).length = 12
      ∧ leValue ((entryBytes 5 65535 1).take 4) = 5 ∧ leValue (((entryBytes 5 65535 1).drop 4).take 4) < 65536
      ∧ leValue ((entryBytes 5 65535 1).drop 8) = 1 ∧ leValue ((entryBytes 5 65536 2).drop 8) ≠ 1
      ∧ 16777216 < leValue (((entryBytes 5 16781312 1).drop 4).take 4)
      ∧ leValue (((entryBytes 5 65537 1).drop 4).take 4) % 4096 ≠ 0
      ∧ 65536 ≤ leValue (((entryBytes 5 65536 1).drop 4).take 4)
      ∧ leValue (((entryBytes 5 16777216 1).drop 4).take 4) ≤ 16777216
      ∧ insideWindow entries.bus.windows 0x1F0001 65536 = false := ⟨rfl, by decide⟩
/-- The last entry of a scan and plate_count 0, from READY and in a wait, with and without a rescan request. -/
theorem witness_PlateScanGoes_last :
    let s := fun (state : WriterState) (again : Bool) (scan : Scan) =>
      (scanning .suspended scan).onWriter fun wr =>
        { wr with state := state, rescan := again, waitFlag := state == .plateWait }
    (∀ state ∈ [WriterState.ready, .plateWait], ∀ again : Bool, ∀ scan ∈ [Scan.count, .entries 2 1 1],
        (s state again scan).Settled ∧ (s state again scan).writer.state = state ∧ (s state again scan).writer.scan = some scan
          ∧ (s state again scan).writer.rescan = again)
      ∧ after (exec (.plateScanReadComplete [.entry (entryBytes 0 0 0)]) (s .ready true (.entries 2 1 1)))
        (fun t => t.writer.state == .plateWait && t.writer.waitFlag && t.reg.cause == 0x04 && t.writer.scan == some .count
          && !t.writer.rescan) = true
      ∧ after (exec (.plateScanReadComplete [.entry (entryBytes 0x1F0001 65536 1)]) (s .plateWait false (.entries 2 1 1)))
        (fun t => t.writer.state == .plateWait && t.reg.cause == 0 && t.writer.scan == none && t.writer.platesRefused == 1)
        = true := by
  refine ⟨fun _ _ _ _ _ => ⟨rfl, rfl, rfl, rfl⟩, ?_⟩
  decide
theorem witness_PlateTaken :
    let s := scanning .suspended (.entries 2 1 2)
    let r := scanning .finishing (.entries 2 1 2)
    let data := entryBytes 0x1F0000 65536 1
    let slow : ScanOrder := { scan with credit := 1 }
    s.Settled ∧ s.order.part = .suspended ∧ s.writer.stop = true ∧ s.order.current = some (.scan scan) ∧ s.headFrame = some 1
      ∧ s.writer.scan = some (.entries 2 1 2) ∧ data.length = 12 ∧ leValue (data.drop 8) = 1
      ∧ leValue ((data.drop 4).take 4) = 65536 ∧ insideWindow s.bus.windows (leValue (data.take 4)) 65536 = true
      ∧ r.Settled ∧ r.order.part = .finishing ∧ r.writer.stop = false ∧ r.store.pending = head1 :: []
      ∧ r.writer.record 1 = some record1 ∧ r.throttlePasses scan record1.outBytes = true
      ∧ (scanning .running (.entries 2 1 2)).throttlePasses slow record1.outBytes = false :=
  ⟨rfl, rfl, rfl, rfl, rfl, rfl, by decide, by decide, by decide, by decide, rfl, rfl, rfl, rfl, by decide, by decide, by decide⟩
/-- A plate that the part holds TAKEN and the host has rewritten GIVEN, and one that it does not hold (R149). -/
theorem witness_PlateScanGoes_held :
    let held := (scanning .running (.entries 2 1 2)).onWriter fun wr => { wr with owners := [(1, .taken), (0, .filled)] }
    held.Settled ∧ lastOwner held.writer.owners 1 = some .taken ∧ lastOwner held.writer.owners 0 ≠ some .taken
      ∧ (scanning .running (.entries 2 1 2)).writer.owners = []
      ∧ after (exec (.plateScanReadComplete [.entry (entryBytes 0x1F0000 65536 1)]) held)
        (fun t => t.writer.scan == some (.entries 2 0 1) && t.writer.plate == none && t.bus.inFlight == []) = true := by
  refine ⟨rfl, ?_⟩
  decide
theorem witness_WindowsLoaded :
    let s := (inPart .idle).onBus fun b => { b with loading := true }
    let waits := ((withOrder .starting (.calibrate cal)).onBus fun b => { b with loading := true }).onOrder fun u =>
      { u with waiting := some calRecord }
    (s.Settled ∧ (List.replicate 32 (0 : Byte)).length = 32 ∧ s.bus.loading = true ∧ s.order.part ≠ .fault
        ∧ s.order.waiting = none)
      ∧ waits.Settled ∧ waits.order.waiting = some calRecord ∧ waits.order.part = .starting ∧ waits.order.chosen = some 1
      ∧ windowsOfBytes (word 0x100000 ++ word 0x100000 ++ List.replicate 24 0) = oneWindow
      ∧ validate oneWindow calRecord = .accepted (.calibrate (calOf calRecord))
      ∧ validate (windowsOfBytes (List.replicate 32 0)) calRecord = .refused .noWindows :=
  ⟨⟨rfl, by decide⟩, rfl, rfl, rfl, rfl, by decide +kernel, by decide +kernel, by decide +kernel⟩
theorem witness_SelectionDone :
    let s := (inPart .idle).onOrder fun u => { u with selecting := true }
    let data := slotBytes 2 0 ++ slotBytes 1 5 ++ slotBytes 1 5 ++ slotBytes 7 0
    let vacant := slotBytes 0 0 ++ slotBytes 2 0 ++ slotBytes 3 0 ++ slotBytes 6 0
    s.Settled ∧ data.length = 32 ∧ s.order.selecting = true ∧ s.order.part = .idle
      ∧ leValue ((data.drop 8).take 4) = 1
      ∧ (∀ j : Fin 4, leValue ((data.drop (8 * j)).take 4) = 1 →
        leValue ((data.drop 12).take 4) < leValue ((data.drop (8 * j + 4)).take 4)
          ∨ (leValue ((data.drop 12).take 4) = leValue ((data.drop (8 * j + 4)).take 4) ∧ 1 ≤ j.val))
      ∧ vacant.length = 32 ∧ (∀ i : Fin 4, leValue ((vacant.drop (8 * i)).take 4) ≠ 1)
      ∧ s.order.selectionRequest = false
      ∧ (s.onOrder fun u => { u with selectionRequest := true }).order.selectionRequest = true := ⟨rfl, by decide +kernel⟩
theorem witness_OrderChecks :
    validate oneWindow scanRecord = .accepted (.scan (scanOf scanRecord))
      ∧ validate oneWindow calRecord = .accepted (.calibrate (calOf calRecord)) ∧ scanRecord.kind = 2 ∧ calRecord.kind = 1
      ∧ (scanOf scanRecord).tol = 16 ∧ (scanOf scanRecord).edgeRun = 4 ∧ (scanOf scanRecord).growth = 3
      ∧ (calOf calRecord).white = 4096
      ∧ validate oneWindow { scanRecord with expectedFrames := 41, width := 255 } = .refused .badWidth
      ∧ validate oneWindow { scanRecord with expectedFrames := 41, decimation := 3 } = .refused .badFrames
      ∧ validate oneWindow { calRecord with shadingAddress := 0x1FEC01 } = .refused .window
      ∧ validate oneWindow { scanRecord with kind := 3 } = .refused .badKind := by decide +kernel
theorem witness_OrderAccepted :
    let s := (withOrder .starting (.calibrate cal)).onOrder fun u => { u with recordRead := true, current := none }
    let loading := s.onBus fun b => { b with loading := true }
    let unity := scanBytes.take 72 ++ word 0 ++ scanBytes.drop 76
    s.Settled ∧ (recordBytes 1).length = 96 ∧ s.order.part = .starting ∧ s.order.recordRead = true
      ∧ s.order.aborting = false ∧ s.order.chosen = some 1 ∧ s.bus.loading = false ∧ loading.Settled
      ∧ loading.bus.loading = true
      ∧ validate s.bus.windows (OrderRecord.ofBytes (recordBytes 1)) = .accepted (.calibrate { cal with width := 256 })
      ∧ scanBytes.length = 96 ∧ (scanOf (OrderRecord.ofBytes scanBytes)).shadingAddress ≠ 0
      ∧ validate s.bus.windows (OrderRecord.ofBytes scanBytes) = .accepted (.scan (scanOf (OrderRecord.ofBytes scanBytes)))
      ∧ unity.length = 96 ∧ (scanOf (OrderRecord.ofBytes unity)).shadingAddress = 0
      ∧ validate s.bus.windows (OrderRecord.ofBytes unity) = .accepted (.scan (scanOf (OrderRecord.ofBytes unity))) :=
  ⟨rfl, by decide +kernel, rfl, rfl, rfl, rfl, rfl, rfl, rfl, by decide +kernel, by decide +kernel, by decide +kernel,
    by decide +kernel, by decide +kernel, by decide +kernel, by decide +kernel⟩
theorem witness_OrderRefused :
    validate (withOrder .starting (.calibrate cal)).bus.windows (OrderRecord.ofBytes (recordBytes 3)) = .refused .badKind
      ∧ (recordBytes 3).length = 96 := by decide +kernel
theorem witness_ShadingLoaded :
    let s := (withOrder .starting (.scan scan)).onIntake fun i => { i with shading := .loading }
    s.Settled ∧ s.order.part = .starting ∧ s.intake.shading = .loading ∧ s.order.current = some (.scan scan)
      ∧ (List.replicate 80 (0 : Byte)).length = 20 * scan.width
      ∧ insideWindow s.bus.windows scan.rosterAddress (scan.expectedFrames * 640) = true :=
  ⟨rfl, by decide⟩
theorem witness_StartCompletes :
    ∀ o ∈ [Order.calibrate cal, Order.scan scan],
      (flying (withOrder .starting o) [aWrite .block .silent, aWrite .block .startLast]).Settled
        ∧ (flying (withOrder .starting o) [aWrite .block .silent, aWrite .block .startLast]).order.part = .starting
        ∧ (flying (withOrder .starting o) [aWrite .block .silent, aWrite .block .startLast]).bus.inFlight =
          [aWrite .block .silent] ++ aWrite .block .startLast :: []
        ∧ (aWrite .block .startLast).mark = .startLast ∧ ∀ v ∈ [aWrite .block .silent], v.mark ≠ .startLast :=
  fun _ _ => ⟨rfl, rfl, rfl, rfl, by decide⟩
theorem witness_FillEnds :
    filling.Settled ∧ filling.fill.state = .filling ∧ filling.fill.line.isSome ∧ filling.fill.params.isSome
      ∧ filling.writer.write = some write1 ∧ filling.order.current = some (.scan scan) ∧ write1.discarded = false
      ∧ insideWindow filling.bus.windows write1.place 12 = true := ⟨rfl, by decide⟩
theorem witness_BurstCompletes :
    let closed := record1.close scan 15 {}
    let last := (flying writing [aBurst]).onWriter fun wr => { wr with records := [closed, { record1 with number := 2 }] }
    (flying writing [aBurst, aBurst]).Settled ∧ aBurst.mark = .burst ∧ aBurst.landed = false
      ∧ (∃ v ∈ [aBurst], v.mark = .burst)
      ∧ (flying writing [aBurst]).order.part = .running ∧ (flying writing [aBurst]).writer.state = .writing
      ∧ (flying writing [aBurst]).writer.write = some write1 ∧ write1.errored = false ∧ write1.discarded = false
      ∧ write1.cut = false ∧ (flying writing [aBurst]).store.pending = head1 :: []
      ∧ (∀ r ∈ (flying writing [aBurst]).writer.records, r.closed = false)
      ∧ last.writer.records.map (fun r => r.closed) = [true, false] ∧ closed.doomed = false
      ∧ (∀ e ∈ ([] : List Entry), e.frame ≠ some closed.number)
      ∧ insideWindow last.bus.windows scan.rosterAddress (2 * 640) = true
      ∧ (∀ r ∈ last.writer.records, 1 ≤ r.number ∧ r.number ≤ 2) ∧ closed.plateList.length ≤ 64
      ∧ ∀ p ∈ closed.plateList, p.index < 256 := ⟨rfl, by decide⟩
/-- A burst behind other writes, the last of its line or not, in every part state of an order and in ABORTING. -/
theorem witness_BurstCompletes_behind :
    let early := [aWrite .plateTable .silent, aWrite .block .framesTally]
    ∀ part ∈ [PartState.running, .suspended, .finishing], ∀ state ∈ [WriterState.writing, .aborting],
      ∀ late ∈ [[], [aWrite .block .silent, aBurst]],
        let s := ((flying writing (early ++ aBurst :: late)).onOrder fun u => { u with part := part, origin := some .running })
          |>.onWriter fun wr => { wr with state := state }
        s.Settled ∧ s.bus.inFlight = early ++ aBurst :: late ∧ (∀ v ∈ early, v.mark ≠ .burst) ∧ s.order.part = part
          ∧ s.order.origin = some .running ∧ s.order.current = some (.scan scan) ∧ s.writer.state = state
          ∧ s.writer.write = some write1 :=
  fun _ _ _ _ _ _ => ⟨rfl, rfl, by decide, rfl, rfl, rfl, rfl, rfl⟩
/-- The last burst of an order: FINISHING, and suspended from FINISHING. -/
theorem witness_BurstCompletes_last :
    let closed := record1.close scan 15 {}
    let counted : FrameRecord := { closed with outLines := 1, plateList := [{ index := 3, firstLine := 0, count := 1 }] }
    let base : Base := { r := 256, g := 256, b := 256, source := .leader }
    ∀ part ∈ [PartState.finishing, .suspended],
      let s := ((flying writing [aBurst]).onWriter fun wr => { wr with records := [closed] }).onOrder (fun u =>
        { u with part := part, origin := some .finishing }) |>.onTracker fun t => { t with base := some base }
      s.Settled ∧ s.order.part = part ∧ s.order.origin = some .finishing ∧ s.bus.inFlight = aBurst :: []
        ∧ s.order.current = some (.scan scan) ∧ s.order.chosen = some 1 ∧ s.writer.state = .writing
        ∧ s.writer.write = some write1 ∧ s.store.pending = [head1] ∧ s.tracker.base = some base
        ∧ (s.writer.records.map fun (r : FrameRecord) =>
          if r.number = write1.frame ∧ r.doomed = false then
            ({ r with outLines := r.outLines + 1, plateList := countOnLast r.plateList } : FrameRecord) else r) = [counted]
        ∧ counted.closed = true ∧ counted.doomed = false ∧ 1 ≤ counted.number ∧ counted.number ≤ scan.expectedFrames
        ∧ counted.plateList.length ≤ 64 ∧ (∀ p ∈ counted.plateList, p.index < 256)
        ∧ insideWindow s.bus.windows scan.rosterAddress (scan.expectedFrames * 640) = true
        ∧ after (exec .burstComplete s)
          (fun t => if part = .finishing then t.order.part == .idle else t.order.heldEnd) = true := by
  intro closed counted base part hp
  simp only [List.mem_cons, List.not_mem_nil, or_false] at hp
  rcases hp with rfl | rfl <;> exact ⟨rfl, by decide +kernel⟩
/-- A failed burst behind other writes: the first error of its line and a further one, with bursts left and without, in every part
state of an order and in ABORTING. -/
theorem witness_BurstFails :
    let early := [aWrite .plateTable .silent, aWrite .block .framesTally]
    (∀ part ∈ [PartState.running, .suspended, .finishing], ∀ state ∈ [WriterState.writing, .aborting],
      ∀ late ∈ [[], [aWrite .block .silent, aBurst]], ∀ errored : Bool,
        let s := ((flying writing (early ++ aBurst :: late)).onOrder fun u => { u with part := part })
          |>.onWriter fun wr => { wr with state := state, write := some { write1 with errored := errored } }
        s.Settled ∧ s.bus.inFlight = early ++ aBurst :: late ∧ aBurst.mark = .burst ∧ aBurst.landed = false
          ∧ (∀ v ∈ early, v.mark ≠ .burst) ∧ s.order.part = part ∧ s.order.current = some (.scan scan)
          ∧ s.writer.state = state ∧ s.writer.write = some { write1 with errored := errored }
          ∧ s.store.pending = head1 :: [] ∧ s.writer.records = [record1])
      ∧ record1.closed = false ∧ write1.plate < 256 ∧ write1.discarded = false :=
  ⟨fun _ _ _ _ _ _ _ => ⟨rfl, rfl, rfl, rfl, by decide, rfl, rfl, rfl, rfl, rfl, rfl⟩, rfl, by decide,
    rfl⟩
/-- The failed last burst of an order: FINISHING, and suspended from FINISHING. -/
theorem witness_BurstFails_last :
    let closed := record1.close scan 15 {}
    let damaged : FrameRecord := { closed with damage := some .busError, flags := { closed.flags with busError := true } }
    let base : Base := { r := 256, g := 256, b := 256, source := .leader }
    ∀ part ∈ [PartState.finishing, .suspended],
      let s := ((flying writing [aBurst]).onWriter fun wr => { wr with records := [closed] }).onOrder (fun u =>
        { u with part := part, origin := some .finishing }) |>.onTracker fun t => { t with base := some base }
      s.Settled ∧ s.order.part = part ∧ s.order.origin = some .finishing ∧ s.bus.inFlight = [] ++ aBurst :: []
        ∧ s.order.chosen = some 1 ∧ s.store.pending = [head1] ∧ s.tracker.base = some base
        ∧ (s.writer.records.map fun (r : FrameRecord) =>
          if r.number = write1.frame ∧ r.doomed = false then
            ({ r with damage := some .busError, flags := { r.flags with busError := true } } : FrameRecord) else r) = [damaged]
        ∧ damaged.closed = true ∧ damaged.doomed = false ∧ damaged.damage.isSome ∧ 1 ≤ damaged.number
        ∧ damaged.number ≤ scan.expectedFrames ∧ damaged.plateList.length ≤ 64 ∧ (∀ p ∈ damaged.plateList, p.index < 256)
        ∧ insideWindow s.bus.windows scan.rosterAddress (scan.expectedFrames * 640) = true := by
  intro closed damaged base part hp
  simp only [List.mem_cons, List.not_mem_nil, or_false] at hp
  rcases hp with rfl | rfl <;> exact ⟨rfl, by decide +kernel⟩
/-- The tallies behind the writes of their own step, in IDLE, in another state and in FAULT, a selection following or not. -/
theorem witness_TalliesEnd :
    let early := [aWrite .roster .silent, aWrite .block .silent]
    let s := fun (part : PartState) (mark : Mark) (follows : Bool) =>
      flying ((inPart part).onOrder fun u => { u with endWrites := true, follows := follows }) (early ++ aWrite .block mark :: [])
    (∀ mark ∈ [Mark.framesTally, .ordersTally], (∀ v ∈ early, v.mark ≠ mark)
        ∧ ∀ part ∈ [PartState.idle, .running, .starting, .fault], (s part mark true).Settled
          ∧ (s part mark true).bus.inFlight = early ++ aWrite .block mark :: [] ∧ (s part mark true).order.part = part)
      ∧ (s .idle .ordersTally true).order.follows = true ∧ (s .idle .ordersTally true).order.selecting = false
      ∧ (s .idle .ordersTally false).order.follows = false ∧ (s .idle .ordersTally false).order.selectionRequest = false
      ∧ after (exec .orderTallyWriteComplete (s .idle .ordersTally false))
        (fun t => t.reg.cause == 2 && !t.order.selecting && t.bus.inFlight == []) = true := by
  refine ⟨fun mark hm => ⟨?_, fun _ _ => ⟨rfl, rfl, rfl⟩⟩, by decide⟩
  simp only [List.mem_cons, List.not_mem_nil, or_false] at hm
  rcases hm with rfl | rfl <;> decide
/-- The last entry behind the entries before it and behind a slot word, in FINISHING, suspended, aborting and in FAULT. -/
theorem witness_TableWritten :
    let early := [aWrite .shading .silent, aWrite .shading .silent, aWrite .block .silent]
    ∀ p ∈ [PartState.finishing, .suspended, .fault], ∀ aborting : Bool,
      let s := flying (((withOrder p (.calibrate cal)).onCal fun u => { u with pass := .writing }).onOrder fun u =>
        { u with aborting := aborting }) (early ++ aWrite .shading .tableLast :: [aWrite .block .silent])
      s.Settled ∧ s.bus.inFlight = early ++ aWrite .shading .tableLast :: [aWrite .block .silent]
        ∧ (aWrite .shading .tableLast).mark = .tableLast ∧ (∀ v ∈ early, v.mark ≠ .tableLast) ∧ s.cal.pass = .writing
        ∧ s.order.part = p ∧ s.order.aborting = aborting ∧ s.order.current = some (.calibrate cal) ∧ s.order.chosen = some 1 :=
  fun _ _ _ => ⟨rfl, rfl, rfl, by decide, rfl, rfl, rfl, rfl, rfl⟩
theorem witness_AbortDrains :
    let s := (aborting .running).onWriter fun wr => { wr with state := .aborting, records := [record1] }
    let table := flying ((withOrder .finishing (.calibrate cal)).onOrder fun u =>
      { u with aborting := true, gathered := some CalibrationUnit.reset.report }) [aWrite .shading .tableLast]
    (aborting .starting).Settled ∧ (aborting .starting).order.aborting = true ∧ (aborting .starting).order.chosen = some 1
      ∧ (aborting .starting).order.part = .starting ∧ (∀ w ∈ (aborting .starting).bus.inFlight, w.mark ≠ .burst)
      ∧ table.Settled ∧ table.order.aborting = true ∧ table.order.chosen = some 1 ∧ table.order.part = .finishing
      ∧ table.order.current = some (.calibrate cal) ∧ table.order.gathered = some CalibrationUnit.reset.report
      ∧ (∀ w ∈ table.bus.inFlight, w.mark ≠ .burst) ∧ s.Settled ∧ s.order.current = some (.scan scan)
      ∧ s.order.gathered = some (Tracker.reset.handOver scan)
      ∧ insideWindow s.bus.windows scan.rosterAddress (scan.expectedFrames * 640) = true
      ∧ ∀ r ∈ s.writer.records, 1 ≤ r.number ∧ r.number ≤ scan.expectedFrames ∧ r.plateList.length ≤ 64
        ∧ ∀ p ∈ r.plateList, p.index < 256 :=
  ⟨rfl, rfl, rfl, rfl, by decide, rfl, rfl, rfl, rfl, rfl, rfl, by decide, rfl, by decide⟩
theorem witness_ErrorEntersFault :
    let s := reading (flying writing [aWrite .shading .silent]) [aRead .plateCount .made, aRead .plateEntry .made]
    s.Settled ∧ s.Active ∧ s.bus.inFlight[0]? = some (aWrite .shading .silent)
      ∧ (aWrite .shading .silent).landed = false ∧ (aWrite .shading .silent).mark ≠ .burst
      ∧ s.bus.reads[1]? = some (aRead .plateEntry .made)
      ∧ 0x620 ≤ (0x620 : Word).toNat ∧ (0x620 : Word).toNat < 0x620 + 12
      ∧ 0x620 ≤ (0x62B : Word).toNat ∧ (0x62B : Word).toNat < 0x620 + 12
      ∧ (aRead .plateCount .made).site ≠ (aRead .plateEntry .made).site
      ∧ ∀ r ∈ s.bus.reads, r.site = .plateEntry → (0x62C : Word).toNat < r.address ∨ r.address + r.bytes ≤ (0x62C : Word).toNat :=
  ⟨rfl, ⟨by decide, by decide⟩, rfl, by decide +kernel⟩
/-- A SCAN order and a CALIBRATE order aborted while suspended: the end writes in flight, one write ahead of them. -/
def endedSuspended (o : Order) : State :=
  let s := ((withOrder .suspended o).onOrder fun u =>
    { u with suspendHold := true, aborting := true, gathered := some CalibrationUnit.reset.report }).onWriter fun wr =>
      { wr with state := .aborting, stop := true, records := [] }
  match exec .abortDrainComplete (flying s [aWrite .block .silent]) with
  | .next t => t
  | _ => s
/-- A bus error before the slot word FAILED has been issued (on a write ahead of the end writes, or of the result area): the suspend
hold and the stop flag are as they stood and the slot word is gone. On the slot word or the tally both stay clear (R182, R183). -/
theorem test_suspendHoldInFault :
    ∀ o ∈ [Order.scan scan, .calibrate cal],
      let s := endedSuspended o
      s.bus.barred = none ∧ s.order.suspendHold = false ∧ s.order.part = .idle ∧ s.bus.inFlight.length = 17
        ∧ (∀ k ∈ [0, 1, 14], after (exec (.exchangeBusError (.write k)) s) (fun t =>
            t.order.suspendHold && t.writer.stop && t.bus.inFlight == []
              && t.writer.state == (if o = .scan scan then .halted else .off)) = true)
        ∧ ∀ k ∈ [15, 16], after (exec (.exchangeBusError (.write k)) s) (fun t =>
            !t.order.suspendHold && !t.writer.stop && t.writer.state == .off) = true := by
  decide +kernel
/-- A bus error on a write ahead of the slot word of an abort that has not been issued, on that slot word, and on a read meanwhile. -/
theorem witness_ErrorEntersFault_withheld :
    let s := endedSuspended (.scan scan)
    let reads := reading s [aRead .slotWord .made]
    let withheld := fun (behind : List BusWrite) => ∃ w ∈ behind, w.pace = .sequel ∧ w.landed = false ∧ w.mark = .silent
    s.Settled ∧ s.Active ∧ reads.Settled ∧ reads.Active ∧ s.scanOrder = none ∧ s.writer.state = .off
      ∧ s.order.atEnd = { hold := true, stop := true, scan := true }
      ∧ s.bus.inFlight[0]? = some (aWrite .block .silent) ∧ (aWrite .block .silent).landed = false
      ∧ reads.bus.reads[0]? = some (aRead .slotWord .made) ∧ withheld reads.bus.inFlight
      ∧ withheld (s.bus.inFlight.drop 1) ∧ ¬ withheld (s.bus.inFlight.drop 16)
      ∧ (s.bus.inFlight[15]?.any fun w => !w.landed && w.mark != .burst) = true :=
  ⟨by unfold State.Settled; decide +kernel, ⟨by decide +kernel, by decide +kernel⟩, by unfold State.Settled; decide +kernel,
    ⟨by decide +kernel, by decide +kernel⟩, by decide +kernel, by decide +kernel, by decide +kernel, by decide +kernel, by decide, by decide +kernel, by decide +kernel,
    by decide +kernel, by decide +kernel, by decide +kernel⟩
/-- FAULT in the start of a SCAN order, whose writer is still OFF, and outside a SCAN order (R144). -/
theorem witness_ErrorEntersFault_off :
    let starting := reading (withOrder .starting (.scan scan)) [{ aRead .shadingEntry .made with address := 0x108000 }]
    let idle := reading (inPart .idle) [aRead .slotWord .made]
    starting.Settled ∧ starting.Active ∧ starting.writer.state = .off ∧ starting.scanOrder = some scan
      ∧ idle.Settled ∧ idle.Active ∧ idle.writer.state = .off ∧ idle.scanOrder = none
      ∧ after (exec (.exchangeBusError (.read .shadingEntry 0x108000)) starting) (fun t => t.writer.state == .halted) = true
      ∧ after (exec (.exchangeBusError (.read .slotWord 0x620)) idle) (fun t => t.writer.state == .off) = true :=
  ⟨rfl, ⟨by decide, by decide⟩, rfl, rfl, rfl, ⟨by decide, by decide⟩, rfl, rfl, by decide +kernel, by decide +kernel⟩
theorem witness_FaultDrains :
    let s := reading (flying (inPart .fault) [aWrite .block .framesTally]) [aRead .plateEntry .dropped]
    let drained := (inPart .fault).onOrder fun u => { u with faultDrained := true }
    s.Settled ∧ s.order.part = .fault ∧ s.bus.inFlight[0]? = some (aWrite .block .framesTally)
      ∧ (aWrite .block .framesTally).landed = false
      ∧ (∃ r ∈ s.bus.reads, r.site = .plateEntry ∧ r.address ≤ (0x62B : Word).toNat
        ∧ (0x62B : Word).toNat < r.address + r.bytes)
      ∧ (∀ r ∈ s.bus.reads, ¬ (r.site = .plateCount ∧ r.address ≤ (0x62B : Word).toNat
        ∧ (0x62B : Word).toNat < r.address + r.bytes))
      ∧ s.order.faultDrained = false ∧ (∃ w ∈ s.bus.inFlight, w.mark = .framesTally)
      ∧ drained.Settled ∧ drained.order.faultDrained = true :=
  ⟨rfl, rfl, rfl, rfl, by decide, by decide, rfl, by decide, rfl, rfl⟩
theorem witness_StepKeepsSound :
    State.reset.Sound ∧ ∃ t, step { State.reset with pending := [.wake] } = .next t ∧ t.bus.inFlight.length = 6 :=
  ⟨⟨rfl, rfl, rfl, rfl, by decide⟩, _, rfl, by decide⟩
theorem witness_MemoryUnderWrites :
    after (step { flying (inPart .idle) [aWrite .block .framesTally] with pending := [.framesTallyWriteComplete] })
      (fun t => Memory.get t.mem 0x180000 == some 1) = true
      ∧ Memory.get (flying (inPart .idle) [aWrite .block .framesTally]).mem 0x180000 = none := by decide

end Sys2Proof.Tests
end

section
/-! SUPPORT. The Line Intake (01): what a mark of the link makes of the line in progress, and what becomes of a line that
arrives, by the part state (R1, R3, R5). -/
namespace Sys2Proof.Machine

variable {s : State} {b : LineBuffer} {c : Instr} {next : Option LineBuffer}

/-! ### The marks of the link (R1) -/

/-- Outside IN_RESET both marks end the line in progress. -/
theorem exec_lineMark (hc : (c, next) ∈ lineMarks) (hp : s.order.part ≠ .inReset) : exec c s = done (s.endLine next) := by
  simp only [lineMarks, List.mem_cons, Prod.mk.injEq, List.not_mem_nil, or_false] at hc
  rcases hc with ⟨rfl, rfl⟩ | ⟨rfl, rfl⟩
  · show execEndOfLineMark s = _
    rw [execEndOfLineMark, if_neg hp]
  · show execStartOfLineMark s = _
    rw [execStartOfLineMark, if_neg hp]
    rfl

/-- The state in which a line arrives: no line is in progress. -/
def State.withoutLine (s : State) : State := s.onIntake fun i => { i with line := none }

/-- A mark with a line in progress makes it arrive. -/
theorem exec_lineMark_of_line (hl : s.intake.line = some b) (hc : (c, next) ∈ lineMarks) (hp : s.order.part ≠ .inReset) :
    exec c s = done ((s.withoutLine.lineArrives b).onIntake fun i => { i with line := next }) := by
  rw [exec_lineMark hc hp, State.endLine, hl, State.withoutLine]

/-- A mark without a line in progress leaves its own line in progress. -/
theorem exec_lineMark_of_none (hl : s.intake.line = none) (hc : (c, next) ∈ lineMarks) (hp : s.order.part ≠ .inReset)
    (hs : s.Settled) : exec c s = .next (s.onIntake fun i => { i with line := next }) := by
  rw [exec_lineMark hc hp, State.endLine, hl]
  exact done_of_none hs

/-- A line in progress that is written back as it stands changes nothing. -/
theorem onIntake_line_self {line : Option LineBuffer} (hl : s.intake.line = line) :
    (s.onIntake fun i => { i with line := line }) = s := by
  subst hl
  rfl

/-! ### Taken, stray or discarded (R3, R183) -/

theorem takesLines_iff (s : State) : s.order.takesLines = true ↔ s.Takes := by
  simp [OrderUnit.takesLines, State.Takes, and_comm]

theorem State.Takes.not_inReset (h : s.Takes) : s.order.part ≠ .inReset := by
  obtain ⟨-, h | ⟨h, -⟩⟩ := h <;> simp [h]

theorem lineArrives_of_takes (h : s.Takes) : s.lineArrives b = s.takeLine b := by
  have ht := (takesLines_iff s).2 h
  obtain ⟨-, h | ⟨h, -⟩⟩ := h <;> simp [State.lineArrives, h, ht]

theorem State.Strays.not_takes (h : s.Strays) : ¬ s.Takes := by
  rintro ⟨ha, ht⟩
  rcases h with h | ⟨h, ho⟩ | ⟨h, -⟩
  · rcases ht with ht | ⟨ht, -⟩ <;> simp [ht] at h
  · rcases ht with ht | ⟨-, ht⟩
    · simp [h] at ht
    · exact ho ht
  · simp [ha] at h

/-- The part states in which a line is stray and its count is written to the header. -/
theorem State.Strays.part (h : s.Strays) : s.order.part ∈ [.idle, .starting, .running, .suspended, .finishing] := by
  rcases h with h | ⟨h, -⟩ | ⟨-, h⟩
  · simp only [List.mem_cons, List.not_mem_nil, or_false] at h
    rcases h with h | h | h <;> simp [h]
  · simp [h]
  · simp only [List.mem_cons, List.not_mem_nil, or_false] at h
    rcases h with h | h <;> simp [h]

theorem State.Strays.active (h : s.Strays) : s.Active := by
  have hp := h.part
  constructor <;> intro he <;> simp [he] at hp

theorem lineArrives_of_strays (h : s.Strays) : s.lineArrives b = s.strayLine := by
  have ht : s.order.takesLines = false := Bool.eq_false_iff.2 fun ht => h.not_takes ((takesLines_iff s).1 ht)
  have hp := h.part
  simp only [List.mem_cons, List.not_mem_nil, or_false] at hp
  rcases hp with hp | hp | hp | hp | hp <;> simp [State.lineArrives, hp, ht]

theorem lineArrives_of_fault (h : s.order.part = .fault) : s.lineArrives b = s.strayLine := by
  simp [State.lineArrives, h]

theorem lineArrives_of_parked (h : s.order.part = .parked) : s.lineArrives b = s := by
  simp [State.lineArrives, h]

/-! ### A stray line (R5) -/

theorem strayLine_of_saturated (h : s.intake.stray = 4294967295) : s.strayLine = s := by
  simp [State.strayLine, h, Config.maxCount]

/-- Where access is barred the count advances without a write. -/
theorem strayLine_of_barred (ha : s.accessBarred = true) (h : s.intake.stray < 4294967295) :
    s.strayLine = { s with intake := { s.intake with stray := s.intake.stray + 1 } } := by
  rw [State.strayLine, if_pos (by exact h)]
  exact issue_eq_self ha

/-- Where it is not, the new count is written to the header. -/
theorem strayLine_of_active (ha : s.accessBarred = false) (h : s.intake.stray < 4294967295) :
    s.strayLine =
      ({ s with intake := { s.intake with stray := s.intake.stray + 1 } } : State).withWrites
        [s.blockField 0x0C (word (s.intake.stray + 1)) .silent] := by
  rw [State.strayLine, if_pos (by exact h)]
  dsimp only
  rw [issueBlock_eq (by exact ha) (by simp [length_word, Config.blockBytes])]
  rfl

end Sys2Proof.Machine

namespace Sys2Proof.Proofs
open Sys2Proof.Machine

/-- Settles O19: outside IN_RESET by whether a line is in progress, in IN_RESET by the guard of each meaning. -/
theorem linkEvents : Obligations.LinkEvents := by
  intro s p hs
  refine ⟨fun hp => ⟨fun b hb => ?_, fun hl => ?_, fun hl => ?_, fun hl => ?_⟩, fun hp => ⟨?_, ?_, ?_⟩⟩
  · show execPixel p s = _
    rw [execPixel, if_neg hp]
    refine done_eq hs ?_
    simp only [State.onIntake, hb, Option.map_some]
    rfl
  · show execPixel p s = _
    rw [execPixel, if_neg hp]
    refine done_eq hs ?_
    refine Eq.trans ?_ (onIntake_line_self hl)
    simp only [State.onIntake, hl, Option.map_none]
  · rw [exec_lineMark_of_none (next := none) hl (by simp [lineMarks]) hp hs, onIntake_line_self hl]
  · exact exec_lineMark_of_none hl (by simp [lineMarks]) hp hs
  · show execPixel p s = _
    rw [execPixel, if_pos hp, done_of_none hs]
  · show execEndOfLineMark s = _
    rw [execEndOfLineMark, if_pos hp, done_of_none hs]
  · show execStartOfLineMark s = _
    rw [execStartOfLineMark, if_pos hp, done_of_none hs]

/-- Settles O20: the arrival is the stray line's, and the header is written unless access is barred. -/
theorem linesOutsideAnOrder : Obligations.LinesOutsideAnOrder := by
  intro s b c next hs hl hc
  refine ⟨fun hx hn => ?_, fun hx hn => ?_, fun hx hn => ?_, fun hx => ?_⟩
  · obtain ⟨hr, hf⟩ := hx.active
    rw [exec_lineMark_of_line hl hc hr, lineArrives_of_strays (s := s.withoutLine) hx,
      strayLine_of_active (s := s.withoutLine) (accessBarred_eq_false hf hr hs) hn]
    exact done_of_none hs
  · have ha : s.withoutLine.accessBarred = true := by simp [State.accessBarred, State.withoutLine, hx]
    rw [exec_lineMark_of_line hl hc (by simp [hx]), lineArrives_of_fault (s := s.withoutLine) hx, strayLine_of_barred ha hn]
    exact done_of_none hs
  · have stray : s.order.part ≠ .inReset ∧ s.withoutLine.lineArrives b = s.withoutLine.strayLine := by
      rcases hx with hx | hx
      · exact ⟨hx.active.1, lineArrives_of_strays (s := s.withoutLine) hx⟩
      · exact ⟨by simp [hx], lineArrives_of_fault (s := s.withoutLine) hx⟩
    rw [exec_lineMark_of_line hl hc stray.1, stray.2, strayLine_of_saturated (s := s.withoutLine) hn]
    exact done_of_none hs
  · rw [exec_lineMark_of_line hl hc (by simp [hx]), lineArrives_of_parked (s := s.withoutLine) hx]
    exact done_of_none hs

end Sys2Proof.Proofs
end

section
/-! SUPPORT. The line itself: its length correction (R6), its shading correction (R8), and the shading copy that a load gives
(R10, R88). -/
namespace Sys2Proof.Machine

/-! ### Length correction (R6) -/

theorem length_lengthCorrect (w : Nat) (pixels : List Pixel) : (lengthCorrect w pixels).length = w := by
  simp only [lengthCorrect, List.length_append, List.length_take, List.length_replicate]
  omega

/-- Below the received length the pixels stand. -/
theorem getElem?_lengthCorrect_of_lt {w c : Nat} {pixels : List Pixel} (hc : c < w) (hl : c < pixels.length) :
    (lengthCorrect w pixels)[c]? = pixels[c]? := by
  rw [lengthCorrect, List.getElem?_append_left (by simp [hc, hl]), List.getElem?_take_of_lt hc]

/-- From the received length on stand copies of the last pixel, or zeros where none came. -/
theorem getElem?_lengthCorrect_of_le {w c : Nat} {pixels : List Pixel} (hc : c < w) (hl : pixels.length ≤ c) :
    (lengthCorrect w pixels)[c]? = some (pixels.getLast?.getD zeroPixel) := by
  have ht : pixels.take w = pixels := List.take_of_length_le (by omega)
  rw [lengthCorrect, ht, List.getElem?_append_right hl, List.getElem?_replicate_of_lt (by omega)]

/-- The intake's own limit of kept pixels does not reach into a line of at most that many columns. -/
theorem lengthCorrect_take {w n : Nat} (h : w ≤ n) (pixels : List Pixel) :
    lengthCorrect w (pixels.take n) = lengthCorrect w pixels := by
  simp only [lengthCorrect, List.take_take, Nat.min_eq_left h]

/-! ### Shading correction (R8) -/

theorem toNat_shadeSample (raw : Half) (dark gain : Nat) :
    (shadeSample raw dark gain).toNat =
      if raw.toNat ≤ dark then 0
      else if 65535 < (raw.toNat - dark) * gain / 16384 then 65535
      else (raw.toNat - dark) * gain / 16384 := by
  unfold shadeSample
  generalize (raw.toNat - dark) * gain / 16384 = v
  split
  · rfl
  · rw [BitVec.toNat_ofNat, Nat.mod_eq_of_lt (by omega)]
    split <;> omega

theorem getElem?_shadeLine {copy : List ShadingColumn} {row : List Pixel} {c : Nat} {p : Pixel} {col : ShadingColumn}
    (hp : row[c]? = some p) (hc : copy[c]? = some col) : (shadeLine copy row)[c]? = some (shadePixel p col) := by
  simp [shadeLine, List.getElem?_zipWith, hp, hc]

/-! ### The shading copy (R10) -/

theorem length_shadingOfBytes (n : Nat) (bytes : List Byte) : (shadingOfBytes n bytes).length = n := by
  induction n generalizing bytes with
  | zero => rfl
  | succ n ih => simp [shadingOfBytes, ih]

/-- Column `c` is the entry of 20 bytes at its place. -/
theorem getElem?_shadingOfBytes {n c : Nat} (bytes : List Byte) (hc : c < n) :
    (shadingOfBytes n bytes)[c]? = some (ShadingColumn.ofBytes ((bytes.drop (20 * c)).take 20)) := by
  induction n generalizing bytes c with
  | zero => omega
  | succ n ih =>
    cases c with
    | zero => rfl
    | succ c =>
      rw [shadingOfBytes, List.getElem?_cons_succ, ih _ (by omega), List.drop_drop, Nat.mul_succ, Nat.add_comm]

/-! ### The column fault list (R10, R88) -/

theorem mem_faultList {c k : Nat} {columns : List ShadingColumn} :
    c ∈ faultList k columns ↔ ∃ i col, columns[i]? = some col ∧ col.faulted = true ∧ c = k + i := by
  induction columns generalizing k with
  | nil => simp [faultList]
  | cons column rest ih =>
    have split_first : (∃ i col, (column :: rest)[i]? = some col ∧ col.faulted = true ∧ c = k + i)
        ↔ (column.faulted = true ∧ c = k)
          ∨ ∃ i col, rest[i]? = some col ∧ col.faulted = true ∧ c = k + 1 + i := by
      constructor
      · rintro ⟨_ | i, col, hi, hf, rfl⟩
        · rw [List.getElem?_cons_zero, Option.some_inj] at hi
          subst hi
          exact .inl ⟨hf, rfl⟩
        · exact .inr ⟨i, col, hi, hf, by omega⟩
      · rintro (⟨hf, rfl⟩ | ⟨i, col, hi, hf, rfl⟩)
        · exact ⟨0, column, rfl, hf, rfl⟩
        · exact ⟨i + 1, col, hi, hf, by omega⟩
    rw [split_first, faultList]
    split
    · rename_i hf
      simp [ih, hf]
    · rename_i hf
      simp [ih, hf]

/-- The list is in rising order. -/
theorem pairwise_faultList (k : Nat) (columns : List ShadingColumn) : (faultList k columns).Pairwise (· < ·) := by
  induction columns generalizing k with
  | nil => exact .nil
  | cons column rest ih =>
    rw [faultList]
    split
    · refine .cons (fun c hc => ?_) (ih (k + 1))
      obtain ⟨i, col, -, -, rfl⟩ := mem_faultList.1 hc
      omega
    · exact ih (k + 1)

/-- The free forms of the whole roster are put in flight where its extent lies inside a window (R153, R178). -/
theorem issueRoster_eq {s : State} {o : ScanOrder} (ha : s.accessBarred = false)
    (h : insideWindow s.bus.windows o.rosterAddress (o.expectedFrames * 640) = true) :
    s.issueRoster o = s.withWrites (rosterFreeForms o o.expectedFrames 1) :=
  issueAll_eq ha (passesCheck_rosterFreeForms h _ 1 (Nat.le_refl 1) (by omega))

end Sys2Proof.Machine

namespace Sys2Proof.Proofs
open Sys2Proof.Machine

/-- Settles O21: the columns below the received length, and those from it on. -/
theorem lengthCorrected : Obligations.LengthCorrected := by
  intro w row _ hw
  rw [lengthCorrect_take hw]
  refine ⟨length_lengthCorrect w row, fun c hc => ?_⟩
  split
  · rename_i hl
    exact getElem?_lengthCorrect_of_lt hc hl
  · rename_i hl
    rw [getElem?_lengthCorrect_of_le hc (by omega), List.getLast?_eq_getElem?]
    split
    · rw [List.getElem?_eq_getElem (by omega), Option.getD_some]
    · have hn : row = [] := List.eq_nil_of_length_eq_zero (by omega)
      subst hn
      rfl

/-- Settles O22: the corrected column is the pixel corrected channel by channel. -/
theorem shadingApplied : Obligations.ShadingApplied := by
  intro row copy c p col hp hc
  refine ⟨_, getElem?_shadeLine hp hc, fun ch hch => ?_⟩
  simp only [List.mem_cons, List.not_mem_nil, or_false] at hch
  rcases hch with rfl | rfl | rfl | rfl <;> exact toNat_shadeSample _ _ _

/-- Settles O47: the entries of the table are the columns of the copy, and the roster's free forms pass the window check. -/
theorem shadingLoaded : Obligations.ShadingLoaded := by
  intro s o table hs hp hi ho hlen hw
  have hscan : s.scanOrder = some o := by simp [State.scanOrder, ho]
  have ha : s.accessBarred = false := accessBarred_eq_false (by simp [hp]) (by simp [hp]) hs
  refine ⟨shadingOfBytes o.width table, faultList 0 (shadingOfBytes o.width table), ?_, length_shadingOfBytes _ _,
    fun c => getElem?_shadingOfBytes table, pairwise_faultList _ _, fun c => ?_⟩
  · show execShadingLoadComplete table s = _
    rw [execShadingLoadComplete, if_pos (by omega), hscan]
    dsimp only
    rw [if_pos ⟨hi, hp⟩, if_pos hlen, issueRoster_eq (by exact ha) (by exact hw)]
    exact done_of_none hs
  · rw [mem_faultList]
    simp [ShadingColumn.faulted]

end Sys2Proof.Proofs
end

section
/-! SUPPORT. The steps of a line of a SCAN order, one lemma for each: the announcement, the hand-off, the lost lines, the
decisions, and a writer that waits (R15, R33, R34, R35, R39, R69). -/
namespace Sys2Proof.Machine

variable {s : State} {o : ScanOrder} {n : Nat}

/-! ### The course of a taken line (R4, R7, R15) -/

/-- The line has taken its number and has been counted if it is malformed; no line is in progress. -/
def State.numbered (s : State) (o : ScanOrder) (b : LineBuffer) : State :=
  { s with intake := s.intake.taken o.width b.count none }

/-- The line in progress as every later block sees it. -/
def State.corrected (s : State) (o : ScanOrder) (b : LineBuffer) : List Pixel :=
  shadeLine s.intake.copy (lengthCorrect o.width b.pixels)

theorem takeLine_of_scan {b : LineBuffer} (ho : s.order.current = some (.scan o)) :
    s.withoutLine.takeLine b = (s.numbered o b).scanLine o s.intake.arrival (s.corrected o b) := by
  have hn : (s.withoutLine.onIntake fun i => i.number (decide (b.count ≠ o.width))) = s.numbered o b := by
    by_cases h : b.count = o.width <;>
      simp [State.withoutLine, State.onIntake, State.numbered, LineIntake.number, LineIntake.taken, h]
  have ho' : s.withoutLine.order.current = some (.scan o) := ho
  unfold State.takeLine
  rw [ho']
  dsimp only
  rw [hn]
  rfl

/-- A mark with a line in progress that a SCAN order takes. -/
theorem exec_lineMark_of_scan {b : LineBuffer} {c : Instr} {next : Option LineBuffer} (hl : s.intake.line = some b)
    (hc : (c, next) ∈ lineMarks) (ht : s.Takes) (ho : s.order.current = some (.scan o)) :
    exec c s =
      done (((s.numbered o b).scanLine o s.intake.arrival (s.corrected o b)).onIntake fun i => { i with line := next }) := by
  rw [exec_lineMark_of_line hl hc ht.not_inReset, lineArrives_of_takes (s := s.withoutLine) ht, takeLine_of_scan ho]

/-! ### The announcement (R15, R33, R132) -/

/-- The writer has earned its credit and the line has found room. -/
def State.announced (s : State) (o : ScanOrder) (n : Nat) : State :=
  { s with
    bus := { s.bus with credit := earn s.bus.credit o.credit (s.writer.lineBytes.getD 0) }
    store := { s.store with
      pending := s.store.pending ++ [newEntry n], hold := holdAfter s.store.levels s.store.hold (s.store.pending.length + 1) } }

theorem hasRoom_iff (st : LineStore) : st.hasRoom = true ↔ st.pending.length + st.context.length < 64 := by
  unfold LineStore.hasRoom
  exact decide_eq_true_iff

theorem rethrottle_of_ne (hw : s.writer.state ≠ .throttled) : s.rethrottle o = s := if_neg hw

theorem announce_eq (hr : s.store.hasRoom = true) (hw : s.writer.state ≠ .throttled) : s.announce o n = s.announced o n := by
  unfold State.announce
  rw [rethrottle_of_ne (by exact hw)]
  simp [State.announced, State.onBus, State.onStore, LineStore.announce, LineStore.withPending, hr]

/-- A mark with a line in progress that a SCAN order takes and that finds room, the writer not THROTTLED. -/
theorem exec_lineMark_of_room {b : LineBuffer} {c : Instr} {next : Option LineBuffer} (hl : s.intake.line = some b)
    (hc : (c, next) ∈ lineMarks) (ht : s.Takes) (ho : s.order.current = some (.scan o))
    (hr : s.store.pending.length + s.store.context.length < 64) (hw : s.writer.state ≠ .throttled) :
    exec c s =
      (let n := s.intake.arrival
        let tracked := ((s.numbered o b).announced o n).trackLine o n (some (s.corrected o b))
        let decided :=
          if n + 1 = o.stripLines then (tracked.decideDelayed o n).stripEnd o else tracked.decideDelayed o n
        done ((decided.writerGo o).onIntake fun i => { i with line := next })) := by
  have room : (s.numbered o b).store.hasRoom = true := (hasRoom_iff _).2 hr
  have announced : (s.numbered o b).announce o s.intake.arrival = (s.numbered o b).announced o s.intake.arrival :=
    announce_eq room hw
  rw [exec_lineMark_of_scan hl hc ht ho]
  unfold State.scanLine
  simp only [room, announced, if_true]

/-! ### Step 3 of the handling: no line is lost (R39, R68) -/

/-- Without a lost line and without held ones nothing is settled. -/
theorem attribute_of_none (h : s.tracker.heldLost = []) (frame : Option Nat) : s.attribute n false frame = s := by
  have hh : s.settleHeld frame = s := by
    unfold State.settleHeld
    rw [h, List.foldl_nil]
    unfold State.onTracker
    rw [← h]
  unfold State.attribute
  split
  · rfl
  · exact hh

/-! ### Step 4: the line is handed on (R69, R91, R97 to R99) -/

/-- Only the newest entry has the line's number. -/
theorem mapPending_newest {st : LineStore} {old : List Entry} (f : Entry → Entry) (hp : st.pending = old ++ [newEntry n])
    (ho : ∀ e ∈ old, e.line < n) :
    st.mapPending (fun e => e.line == n) f = { st with pending := old ++ [f (newEntry n)] } := by
  have hnew : (newEntry n).line = n := rfl
  have hold : (old.map fun e => if e.line == n then f e else e) = old :=
    (List.map_congr_left fun e he => if_neg (by simpa using Nat.ne_of_lt (ho e he))).trans (List.map_id' old)
  simp only [LineStore.mapPending, hp, List.map_append, hold, List.map_cons, List.map_nil, hnew, beq_self_eq_true, if_true]

/-- A line of no frame goes to the store alone. -/
theorem handOn_outside {old : List Entry} (cls : LineClass) (ps : List Pixel) (hp : s.store.pending = old ++ [newEntry n])
    (ho : ∀ e ∈ old, e.line < n) :
    s.handOn n (some ps) (verdictOutside cls) =
      { s with store := { s.store with
          pending := old ++
            [{ line := n, samples := ps, cls := cls, frame := none, fate := .undecided, spans := none, complete := true }] } } := by
  unfold State.handOn
  simp only [verdictOutside, State.onStore]
  rw [mapPending_newest _ hp ho]
  rfl

/-- The mapper finishes a line: the IR reference moves, and a merged line is reported, or held while a run lasts. -/
theorem mapLine_eq (s : State) (n k : Nat) (params : MapParams) (band : Columns) (ps : List Pixel) :
    let merged := isMergedLine params band s.mapper.faults s.mapper.ref ps
    s.mapLine n k params band ps =
      { s with
        mapper := { s.mapper with
          ref := updateReference params.thr band s.mapper.faults 0 ps s.mapper.ref
          runMerge := if s.tracker.state = .gapRun ∧ merged = true then s.mapper.runMerge ++ [n] else s.mapper.runMerge }
        writer :=
          if s.tracker.state ≠ .gapRun ∧ merged = true then s.writer.onRecord k FrameRecord.mergedLine else s.writer } := by
  intro merged
  unfold State.mapLine
  by_cases hm : isMergedLine params band s.mapper.faults s.mapper.ref ps = true
  · by_cases hg : s.tracker.state = .gapRun <;> simp [merged, hm, hg, State.onMapper, State.onWriter]
  · simp [merged, hm, State.onMapper]

/-- A mapped line goes to the mapper and, with its spans, to the store. -/
theorem handOn_inside {old : List Entry} {params : MapParams} (fr : OpenFrame) (ps : List Pixel)
    (hm : s.mapper.params = some params) (hp : s.store.pending = old ++ [newEntry n]) (ho : ∀ e ∈ old, e.line < n) :
    s.handOn n (some ps) (verdictInside fr) =
      { s.mapLine n fr.number params fr.crop ps with
        store := { s.store with
          pending := old ++
            [{ line := n, samples := ps, cls := .image, frame := some fr.number, fate := .undecided,
               spans := some (lineSpans params fr.crop s.mapper.faults s.mapper.ref ps), complete := true }] } } := by
  have store_mapLine : (s.mapLine n fr.number params fr.crop ps).store = s.store := by rw [mapLine_eq]
  unfold State.handOn State.spansFor verdictInside
  rw [hm]
  dsimp only [State.onStore]
  rw [store_mapLine, mapPending_newest _ hp ho]
  rfl

/-! ### The decisions (R34, R35, R70) -/

/-- A fate is a matter of the line's class, frame and number and of the records alone. -/
theorem fateOf_congr {t : State} {e e' : Entry} (hw : t.writer = s.writer) (hc : e'.cls = e.cls) (hf : e'.frame = e.frame)
    (hn : e'.line = e.line) : t.fateOf o e' = s.fateOf o e := by
  unfold State.fateOf
  rw [hw, hc, hf, hn]

theorem decideDelayed_of_lt {l : StoreLevels} (hl : s.store.levels = some l) (h : n < l.delay) : s.decideDelayed o n = s := by
  unfold State.decideDelayed
  rw [hl]
  exact if_neg (Nat.not_le.2 h)

theorem decideDelayed_of_le {l : StoreLevels} (hl : s.store.levels = some l) (h : l.delay ≤ n) :
    s.decideDelayed o n = s.decideLines o fun e => e.line == n - l.delay := by
  unfold State.decideDelayed
  rw [hl]
  exact if_pos h

/-- The order unit once the strip has ended. -/
def OrderUnit.stripEnded (u : OrderUnit) : OrderUnit :=
  if u.part = .suspended then { u with origin := some .finishing } else { u with part := .finishing }

theorem stripEnd_eq (s : State) (o : ScanOrder) :
    s.stripEnd o = { s.decideLines o (fun _ => true) with order := s.order.stripEnded } := rfl

/-- Decided twice is decided once: a decided line stands, and its fate does not depend on fates. -/
theorem decideLines_decideLines (s : State) (o : ScanOrder) (p q : Entry → Bool)
    (hq : ∀ e f, q { e with fate := f } = q e) :
    (s.decideLines o p).decideLines o q = s.decideLines o fun e => p e || q e := by
  have twice : ∀ e : Entry,
      (let e' := if p e && e.fate == .undecided then { e with fate := s.fateOf o e } else e
        if q e' && e'.fate == .undecided then { e' with fate := (s.decideLines o p).fateOf o e' } else e')
        = if (p e || q e) && e.fate == .undecided then { e with fate := s.fateOf o e } else e := by
    intro e
    have hfate : ∀ f, (s.decideLines o p).fateOf o { e with fate := f } = s.fateOf o e := fun f =>
      fateOf_congr rfl rfl rfl rfl
    by_cases hu : e.fate = .undecided
    · by_cases hp : p e = true
      · simp only [hp, hu, hq, hfate, beq_self_eq_true, Bool.and_self, Bool.true_or, if_true]
        split <;> rfl
      · have same : (s.decideLines o p).fateOf o e = s.fateOf o e := hfate e.fate
        simp only [hp, Bool.false_and, Bool.false_or, if_false, Bool.false_eq_true, same]
    · simp [hu]
  unfold State.decideLines at twice ⊢
  simp only [State.onStore, LineStore.mapPending, List.map_map]
  congr 2
  exact List.map_congr_left fun e _ => twice e

/-- What the arrival of line `n` decides: line N - Dl, and at the strip's end every line. -/
theorem decisions_eq {l : StoreLevels} (hl : s.store.levels = some l) :
    (if n + 1 = o.stripLines then (s.decideDelayed o n).stripEnd o else s.decideDelayed o n) =
      { s with
        store := { s.store with
          pending := s.store.pending.map fun e =>
            if e.fate = .undecided ∧ (n + 1 = o.stripLines ∨ (l.delay ≤ n ∧ e.line = n - l.delay)) then
              { e with fate := s.fateOf o e }
            else e }
        order := if n + 1 = o.stripLines then s.order.stripEnded else s.order } := by
  have delayed : s.decideDelayed o n = s.decideLines o fun e => decide (l.delay ≤ n) && e.line == n - l.delay := by
    rcases Nat.lt_or_ge n l.delay with h | h
    · rw [decideDelayed_of_lt hl h]
      simp [State.decideLines, State.onStore, LineStore.mapPending, Nat.not_le.2 h]
    · rw [decideDelayed_of_le hl h]
      simp [h]
  rw [delayed]
  by_cases he : n + 1 = o.stripLines
  · rw [if_pos he, stripEnd_eq, decideLines_decideLines _ _ _ _ fun _ _ => rfl]
    simp [State.decideLines, State.onStore, LineStore.mapPending, he]
  · rw [if_neg he]
    simp [State.decideLines, State.onStore, LineStore.mapPending, he, and_comm]

/-! ### A writer that waits for a plate (R135, R151) -/

theorem handleHeads_of_not_handles (h : s.handlesHead = false) (fuel : Nat) : handleHeads o fuel s = s := by
  cases fuel with
  | zero => rfl
  | succ fuel => simp [handleHeads, h]

/-- The writer in a plate wait goes nowhere before a scan ends. -/
theorem writerGo_of_plateWait (h : s.writer.state = .plateWait) : s.writerGo o = s := by
  unfold State.writerGo
  rw [rethrottle_of_ne (by simp [h])]
  dsimp only
  rw [handleHeads_of_not_handles (by simp [State.handlesHead, h])]
  exact workDone_of_busy s o (.inr (.inr (.inl (by simp [h]))))

/-- A line that finds room while the writer waits for a plate: the tracker handles it, lines are decided, and the writer, still
waiting, does nothing. -/
theorem exec_lineMark_of_plateWait {t : State} {b : LineBuffer} {c : Instr} {next : Option LineBuffer} {l : StoreLevels}
    (hl : s.intake.line = some b) (hc : (c, next) ∈ lineMarks) (ht : s.Takes) (ho : s.order.current = some (.scan o))
    (hr : s.store.pending.length + s.store.context.length < 64) (hw : s.writer.state = .plateWait)
    (tracked : ((s.numbered o b).announced o s.intake.arrival).trackLine o s.intake.arrival (some (s.corrected o b)) = t)
    (hs : t.Settled) (htw : t.writer.state = .plateWait) (htl : t.store.levels = some l) :
    exec c s =
      .next { t with
        intake := { t.intake with line := next }
        store := { t.store with
          pending := t.store.pending.map fun e =>
            if e.fate = .undecided ∧ (s.intake.arrival + 1 = o.stripLines
                ∨ (l.delay ≤ s.intake.arrival ∧ e.line = s.intake.arrival - l.delay)) then
              { e with fate := t.fateOf o e }
            else e }
        order := if s.intake.arrival + 1 = o.stripLines then t.order.stripEnded else t.order } := by
  rw [exec_lineMark_of_room hl hc ht ho hr (by simp [hw])]
  dsimp only
  rw [tracked, decisions_eq htl, writerGo_of_plateWait (by exact htw)]
  exact done_of_none hs

/-- No record has reached its completion point (R129). -/
theorem completeFrames_of_incomplete (h : ∀ r ∈ s.writer.records, r.isComplete s.store.pending = false) :
    s.completeFrames o = s := by
  unfold State.completeFrames
  cases hr : s.writer.records with
  | nil => rfl
  | cons r rs => simp [completeFrom, hr, h r (by simp [hr])]

end Sys2Proof.Machine
end

section
/-! SUPPORT. How the Strip Tracker handles a line that finds room, by its state: a leader line, a line that extends the open
frame, a line of the trail (R53, R56, R59, R60, R66, R69). -/
namespace Sys2Proof.Machine

variable {s : State} {o : ScanOrder} {n : Nat}

/-! ### The leader window and the column profile (R53, R76) -/

theorem sumOf_eq_sum (vs : List Nat) : sumOf vs = vs.sum := List.sum_eq_foldl.symm

theorem joinWindow_of_lt {window : List LeaderRecord} (record : LeaderRecord) (h : window.length < o.leaderLines) :
    joinWindow o window record = window ++ [record] := by
  rw [joinWindow, Nat.sub_eq_zero_of_le h, List.drop_zero]

theorem joinWindow_of_eq {window : List LeaderRecord} (record : LeaderRecord) (h : window.length = o.leaderLines) :
    joinWindow o window record = (window ++ [record]).tail := by
  rw [joinWindow, h, Nat.add_sub_cancel_left, List.drop_one]

theorem joinProfile_of_lt {profile : List ProfileRecord} (record : ProfileRecord) (hm : o.cropMode = .edge)
    (h : profile.length < 16) : joinProfile o profile record = profile ++ [record] := by
  have hz : profile.length + 1 - Config.maxProfile = 0 := Nat.sub_eq_zero_of_le h
  simp only [joinProfile, hm, hz, List.drop_zero]

theorem joinProfile_of_eq {profile : List ProfileRecord} (record : ProfileRecord) (hm : o.cropMode = .edge)
    (h : profile.length = 16) : joinProfile o profile record = (profile ++ [record]).tail := by
  simp only [joinProfile, hm, h, Config.maxProfile, Nat.add_sub_cancel_left, List.drop_one]

/-! ### Changing one record (R127) -/

/-- Two changes of one record, the first of which leaves its number and whether it is gone. -/
theorem onRecord_onRecord {wr : FrameWriter} {k : Nat} {f g : FrameRecord → FrameRecord}
    (hf : ∀ r, (f r).number = r.number ∧ (f r).doomed = r.doomed) :
    (wr.onRecord k f).onRecord k g = wr.onRecord k fun r => g (f r) := by
  unfold FrameWriter.onRecord
  simp only [List.map_map]
  congr 1
  refine List.map_congr_left fun r _ => ?_
  obtain ⟨hn, hd⟩ := hf r
  by_cases h : r.number = k ∧ r.doomed = false
  · simp [h, hn, hd]
  · simp [h]

theorem onRecord_self (wr : FrameWriter) (k : Nat) : (wr.onRecord k fun r => r) = wr := by
  simp [FrameWriter.onRecord]

theorem mergedLine_eq :
    FrameRecord.mergedLine = fun r =>
      { r with mergedLines := r.mergedLines + 1, flags := { r.flags with spansMerged := true } } := rfl

/-- The merged lines of a run, reported one by one. -/
theorem foldl_mergedLine (lines : List Nat) (wr : FrameWriter) (k : Nat) :
    lines.foldl (fun wr _ => wr.onRecord k FrameRecord.mergedLine) wr =
      wr.onRecord k fun r =>
        { r with
          mergedLines := r.mergedLines + lines.length
          flags := { r.flags with spansMerged := r.flags.spansMerged || !lines.isEmpty } } := by
  induction lines generalizing wr with
  | nil => simpa using (onRecord_self wr k).symm
  | cons line lines ih =>
    rw [List.foldl_cons, ih, onRecord_onRecord (f := FrameRecord.mergedLine) fun _ => ⟨rfl, rfl⟩]
    simp [FrameRecord.mergedLine, Nat.add_comm, Nat.add_left_comm]

/-- The run stays in the open frame (R60, R61). -/
theorem runStays_eq {fr : OpenFrame} (ho : s.tracker.openFrame = some fr) : s.runStays = s.runResolved fr.number := by
  unfold State.runStays State.reportRunMerge State.runResolved
  rw [ho]
  dsimp only [State.onWriter, State.onMapper, State.onTracker]
  rw [foldl_mergedLine]

/-! ### Step 2: the transition of a line that extends the open frame (R59, R60) -/

/-- A line that extends the open frame begins or continues a run, or ends one that stays. -/
def State.extended (s : State) (k n : Nat) (gap : Bool) : State :=
  if gap then
    s.onTracker fun t =>
      { t with
        state := .gapRun, gapStart := if t.state = .gapRun then t.gapStart else some n
        runCount := if t.state = .gapRun then t.runCount + 1 else 1 }
  else (if s.tracker.state = .gapRun then s.runResolved k else s).onTracker fun t => { t with state := .image }

theorem cutTest_of_lt {fr : OpenFrame} (hf : s.tracker.openFrame = some fr) (hn : n + 1 - fr.top < o.pitch + o.tol)
    (held : Bool) : s.cutTest o n held = s := by
  unfold State.cutTest
  rw [hf]
  exact if_neg (Nat.not_le.2 hn)

theorem transition_extends {fr : OpenFrame} {gap : Bool} (hs : s.tracker.state = .image ∨ s.tracker.state = .gapRun)
    (hf : s.tracker.openFrame = some fr) (hn : n + 1 - fr.top < o.pitch + o.tol)
    (hg : s.tracker.state = .gapRun → gap = true → s.tracker.runCount + 1 < o.minGap) (ps : List Pixel) :
    s.transition o n (some ps) gap = (s.extended fr.number n gap, verdictInside fr) := by
  have verdict : s.tracker.insideVerdict = verdictInside fr := by simp [Tracker.insideVerdict, hf]
  rcases hs with hs | hs
  · unfold State.transition State.inImage
    simp only [hs, verdict]
    cases gap with
    | true =>
      rw [if_pos rfl, cutTest_of_lt (by exact hf) hn]
      simp [State.extended, hs, State.onTracker]
    | false =>
      have stays : (s.onTracker fun t => { t with state := .image }) = s := by
        unfold State.onTracker
        rw [← hs]
      rw [if_neg (by simp), cutTest_of_lt hf hn]
      simp [State.extended, hs, stays]
  · unfold State.transition State.inGapRun
    simp only [hs, verdict]
    cases gap with
    | true =>
      rw [if_pos rfl, if_neg (Nat.not_le.2 (hg hs rfl)), cutTest_of_lt (by exact hf) hn]
      simp [State.extended, hs, State.onTracker]
    | false =>
      rw [if_neg (by simp), runStays_eq hf, cutTest_of_lt (by exact hf) hn]
      simp [State.extended, hs]

/-! ### The whole handling (R69) -/

/-- The last outcome is recorded in the states that judge lines (log 14). -/
def State.judged (s : State) (o : ScanOrder) (samples : Option (List Pixel)) : State :=
  if s.tracker.state.judges then s.onTracker fun t => { t with lastGap := some (s.tracker.outcome o samples) } else s

theorem judges_iff (st : TrackerState) : st.judges = true ↔ st ∈ [.leader, .seek, .image, .gapRun, .gap, .cut] := by
  cases st <;> decide

/-- A line in the leader joins the window and is offered to the column profile. -/
theorem trackLine_of_leader {old : List Entry} (ps : List Pixel) (hs : s.tracker.state = .leader)
    (hh : s.tracker.heldLost = []) (hp : s.store.pending = old ++ [newEntry n]) (ho : ∀ e ∈ old, e.line < n)
    (hg : s.tracker.outcome o (some ps) = true) (hn : n + 1 ≠ o.stripLines) :
    s.trackLine o n (some ps) =
      { s with
        store := { s.store with
          pending := old ++
            [{ line := n, samples := ps, cls := .leader, frame := none, fate := .undecided, spans := none, complete := true }] }
        tracker := { s.tracker with
          lastGap := some true, window := joinWindow o s.tracker.window (leaderRecord o n ps)
          profile := joinProfile o s.tracker.profile (profileRecord n ps) } } := by
  unfold State.trackLine
  simp only [hg, hs, TrackerState.judges, if_true, if_neg hn, State.transition, State.onTracker_tracker, State.inLeader,
    State.offer, Option.isNone_some]
  rw [attribute_of_none (by exact hh), handOn_outside _ _ (by exact hp) ho]
  simp only [State.onTracker, hs]

/-- A line in the trail is counted as excess; the last of the strip ends it. -/
theorem trackLine_of_trail {old : List Entry} (ps : List Pixel) (hs : s.tracker.state = .trail)
    (hh : s.tracker.heldLost = []) (hp : s.store.pending = old ++ [newEntry n]) (ho : ∀ e ∈ old, e.line < n) :
    s.trackLine o n (some ps) =
      { s with
        store := { s.store with
          pending := old ++
            [{ line := n, samples := ps, cls := .trail, frame := none, fate := .undecided, spans := none, complete := true }] }
        tracker := { s.tracker with
          excess := s.tracker.excess + 1
          state := if n + 1 = o.stripLines then TrackerState.ended else TrackerState.trail } } := by
  unfold State.trackLine
  simp only [hs, TrackerState.judges, Bool.false_eq_true, if_false, State.transition, Option.isNone_some]
  rw [attribute_of_none (by exact hh), handOn_outside _ _ (by exact hp) ho]
  by_cases hn : n + 1 = o.stripLines
  · simp only [hn, if_true, State.endStrip, State.onTracker, hs]
  · simp only [hn, if_false, State.onTracker, hs]

/-- A line that extends the open frame is handed on mapped; the last of the strip ends it. -/
theorem trackLine_of_extends {fr : OpenFrame} (ps : List Pixel) (hs : s.tracker.state = .image ∨ s.tracker.state = .gapRun)
    (hf : s.tracker.openFrame = some fr) (hh : s.tracker.heldLost = []) (hn : n + 1 - fr.top < o.pitch + o.tol)
    (hg : s.tracker.state = .gapRun → s.tracker.outcome o (some ps) = true → s.tracker.runCount + 1 < o.minGap) :
    s.trackLine o n (some ps) =
      let handed :=
        ((s.judged o (some ps)).extended fr.number n (s.tracker.outcome o (some ps))).handOn n (some ps) (verdictInside fr)
      if n + 1 = o.stripLines then handed.endStrip o else handed := by
  have hj : s.tracker.state.judges = true := by rcases hs with hs | hs <;> simp [hs, TrackerState.judges]
  have heldLost : ((s.judged o (some ps)).extended fr.number n (s.tracker.outcome o (some ps))).tracker.heldLost = [] := by
    rw [State.judged, if_pos hj]
    unfold State.extended
    split
    · exact hh
    · split <;> exact hh
  unfold State.trackLine
  rw [State.judged, if_pos hj] at heldLost ⊢
  dsimp only [Option.isNone_some]
  rw [if_pos hj, transition_extends (by exact hs) (by exact hf) hn (by exact hg), attribute_of_none heldLost]

/-- A line that extends the frame leaves the store and the mapping parameters. -/
theorem extended_keeps (s : State) (k n : Nat) (gap : Bool) :
    (s.extended k n gap).store = s.store ∧ (s.extended k n gap).mapper.params = s.mapper.params := by
  unfold State.extended
  split
  · exact ⟨rfl, rfl⟩
  · split <;> exact ⟨rfl, rfl⟩

/-- The line handed on, where it has just been numbered and announced. -/
theorem handed_of_extends {fr : OpenFrame} {params : MapParams} {b : LineBuffer}
    (hs : s.tracker.state = .image ∨ s.tracker.state = .gapRun) (hm : s.mapper.params = some params)
    (ho : ∀ e ∈ s.store.pending, e.line < s.intake.arrival) :
    ((((s.numbered o b).announced o s.intake.arrival).judged o (some (s.corrected o b))).extended fr.number s.intake.arrival
        (s.tracker.outcome o (some (s.corrected o b)))).handOn s.intake.arrival (some (s.corrected o b)) (verdictInside fr)
      = s.lineExtended o fr params b none := by
  have hj : ((s.numbered o b).announced o s.intake.arrival).tracker.state.judges = true := by
    show s.tracker.state.judges = true
    rcases hs with hs | hs <;> simp [hs, TrackerState.judges]
  rw [State.judged, if_pos hj]
  obtain ⟨hstore, hparams⟩ := extended_keeps
    (((s.numbered o b).announced o s.intake.arrival).onTracker fun t =>
      { t with lastGap := some (s.tracker.outcome o (some (s.corrected o b))) })
    fr.number s.intake.arrival (s.tracker.outcome o (some (s.corrected o b)))
  refine (handOn_inside (old := s.store.pending) (params := params) fr _ ?_ ?_ ho).trans ?_
  · exact hparams.trans hm
  · exact congrArg LineStore.pending hstore
  · have hc : shadeLine s.intake.copy (lengthCorrect o.width b.pixels) = s.corrected o b := rfl
    rw [mapLine_eq]
    clear hstore hparams
    cases hg : s.tracker.outcome o (some (s.corrected o b)) with
    | true =>
      simp [State.lineExtended, State.extended, hc, hg, State.numbered, State.announced, State.onTracker, earn]
    | false =>
      rcases hs with hs | hs
      · simp [State.lineExtended, State.extended, hc, hg, hs, State.numbered, State.announced, State.onTracker, earn,
          mergedLine_eq]
      · simp [State.lineExtended, State.extended, hc, hg, hs, State.numbered, State.announced, State.onTracker, earn,
          State.runResolved, mergedLine_eq]

/-- The whole handling of an arriving line that extends the open frame. -/
theorem trackLine_of_lineExtended {fr : OpenFrame} {params : MapParams} {b : LineBuffer}
    (hs : s.tracker.state = .image ∨ s.tracker.state = .gapRun) (hf : s.tracker.openFrame = some fr)
    (hh : s.tracker.heldLost = []) (hm : s.mapper.params = some params)
    (ho : ∀ e ∈ s.store.pending, e.line < s.intake.arrival) (hn : s.intake.arrival + 1 - fr.top < o.pitch + o.tol)
    (hg : s.tracker.state = .gapRun → s.tracker.outcome o (some (s.corrected o b)) = true →
      s.tracker.runCount + 1 < o.minGap) :
    ((s.numbered o b).announced o s.intake.arrival).trackLine o s.intake.arrival (some (s.corrected o b)) =
      if s.intake.arrival + 1 = o.stripLines then (s.lineExtended o fr params b none).endStrip o
      else s.lineExtended o fr params b none := by
  refine (trackLine_of_extends (s := (s.numbered o b).announced o s.intake.arrival) _ hs hf hh hn hg).trans ?_
  rw [← handed_of_extends hs hm ho]
  rfl

end Sys2Proof.Machine
end

section
/-! SUPPORT. What the Frame Writer's work leaves as it was, how a frame closes, and the closing at the strip end
(R63, R67, R68, R127 to R129). -/
namespace Sys2Proof.Machine

/-! ### The writer's frame -/

/-- What the writer's records, its exchange writes and its reads leave as it was. -/
structure WriterWork (s t : State) : Prop where
  reg : t.reg = s.reg
  intake : t.intake = s.intake
  cal : t.cal = s.cal
  tracker : t.tracker = s.tracker
  store : t.store = s.store
  mapper : t.mapper = s.mapper
  fill : t.fill = s.fill
  mem : t.mem = s.mem
  queue : t.pending = s.pending

namespace WriterWork

variable {s t : State} {o : ScanOrder}

theorem refl (s : State) : WriterWork s s := ⟨rfl, rfl, rfl, rfl, rfl, rfl, rfl, rfl, rfl⟩

theorem onOrder {f} (h : WriterWork s t) : WriterWork s (t.onOrder f) := ⟨h.1, h.2, h.3, h.4, h.5, h.6, h.7, h.8, h.9⟩
theorem onBus {f} (h : WriterWork s t) : WriterWork s (t.onBus f) := ⟨h.1, h.2, h.3, h.4, h.5, h.6, h.7, h.8, h.9⟩
theorem onWriter {f} (h : WriterWork s t) : WriterWork s (t.onWriter f) := ⟨h.1, h.2, h.3, h.4, h.5, h.6, h.7, h.8, h.9⟩

theorem foldl {α : Type} {op : State → α → State} (hop : ∀ u a, WriterWork s u → WriterWork s (op u a)) (xs : List α)
    (h : WriterWork s t) : WriterWork s (xs.foldl op t) := by
  induction xs generalizing t with
  | nil => exact h
  | cons x xs ih => exact ih (hop t x h)

theorem issue {w} (h : WriterWork s t) : WriterWork s (t.issue w) := by
  unfold State.issue
  split
  · exact h
  · split
    · exact h.onBus
    · exact h.onBus

theorem issueAll {ws} (h : WriterWork s t) : WriterWork s (t.issueAll ws) := h.foldl (fun _ _ hu => hu.issue) ws

theorem stopReads {k} (h : WriterWork s t) : WriterWork s (t.stopReads k) := by
  unfold State.stopReads State.reachReads
  split
  · exact h.onBus
  · exact ⟨h.1, h.2, h.3, h.4, h.5, h.6, h.7, h.8, h.9⟩

theorem releasePlates {k w ps} (h : WriterWork s t) : WriterWork s (t.releasePlates k w ps) := by
  refine h.foldl (fun u e hu => ?_) ps
  split
  · exact hu.issue.onWriter
  · exact hu

theorem fillLeading (h : WriterWork s t) : WriterWork s (t.fillLeading o) := by
  unfold State.fillLeading
  split
  · exact h
  · split
    · exact h
    · exact h.issueAll.onWriter

theorem completeRecord {r rest} (h : WriterWork s t) : WriterWork s (t.completeRecord o r rest) := by
  unfold State.completeRecord
  exact (h.issueAll.releasePlates.issue.onOrder.issue).onWriter.fillLeading

theorem completeFrom {fuel} (h : WriterWork s t) : WriterWork s (completeFrom o fuel t) := by
  induction fuel generalizing t with
  | zero => exact h
  | succ fuel ih =>
    unfold Machine.completeFrom
    split
    · exact h
    · split
      · exact ih h.completeRecord
      · exact h

theorem completeFrames (h : WriterWork s t) : WriterWork s (t.completeFrames o) := h.completeFrom

theorem discardWrites {r} (h : WriterWork s t) : WriterWork s (t.discardWrites o r) := by
  unfold State.discardWrites
  dsimp only
  split
  · exact h.releasePlates.issueAll
  · exact h.releasePlates

theorem discardRecords {which} (h : WriterWork s t) : WriterWork s (t.discardRecords o which) := by
  unfold State.discardRecords
  exact (h.foldl (fun _ _ hu => hu.discardWrites.onWriter) _).onWriter.fillLeading

theorem discardReport {k} (h : WriterWork s t) : WriterWork s (t.discardReport o k) := by
  unfold State.discardReport
  split
  · exact h.onWriter
  · dsimp only
    split
    · exact h.onWriter.stopReads.stopReads.discardRecords
    · exact h.discardRecords

end WriterWork

variable {s : State} {o : ScanOrder}

/-! ### A frame closes (R63, R64, R128, R129) -/

/-- A change of one record keeps what holds of every record, if it keeps it of that one. -/
theorem forall_onRecord {wr : FrameWriter} {k : Nat} {f : FrameRecord → FrameRecord} {P : FrameRecord → Prop}
    (h : ∀ r ∈ wr.records, P r) (hf : ∀ r ∈ wr.records, r.number = k → P (f r)) : ∀ r ∈ (wr.onRecord k f).records, P r := by
  intro r hr
  simp only [FrameWriter.onRecord, List.mem_map] at hr
  obtain ⟨r, hm, rfl⟩ := hr
  split
  · rename_i hk
    exact hf r hm hk.1
  · exact h r hm

/-- The close report of a frame and the tracker after it (R63, R128). -/
def State.frameClosed (s : State) (o : ScanOrder) (k last : Nat) (closing : RosterFlags) : State :=
  { s with
    writer := s.writer.onRecord k fun r =>
      { r with
        closed := true, last := some last, cropBottom := some (last - o.insetBottom), flags := r.flags.union closing }
    tracker := { s.tracker with nextFrame := s.tracker.nextFrame + 1, openFrame := none } }

/-- What a close leaves as it was, whether the frame stands or is a sliver. -/
theorem closeFrame_keeps (s : State) (o : ScanOrder) (last : Nat) (closing : RosterFlags) (held : Bool) :
    (s.closeFrame o last closing held).tracker.heldLost = s.tracker.heldLost
      ∧ (s.closeFrame o last closing held).store.outsideRaised = s.store.outsideRaised := by
  unfold State.closeFrame
  split
  · exact ⟨rfl, rfl⟩
  · rename_i fr _
    split
    · have work : WriterWork s (s.discardReport o fr.number) := (WriterWork.refl s).discardReport
      have hheld := congrArg Tracker.heldLost work.tracker
      have hraised := congrArg LineStore.outsideRaised work.store
      exact ⟨hheld, hraised⟩
    · dsimp only
      split
      · exact ⟨rfl, rfl⟩
      · have work := (WriterWork.refl (s.frameClosed o fr.number last closing)).completeFrames (o := o)
        have hheld := congrArg Tracker.heldLost work.tracker
        have hraised := congrArg LineStore.outsideRaised work.store
        exact ⟨hheld, hraised⟩

theorem closeFrame_of_le {fr : OpenFrame} {last : Nat} (hf : s.tracker.openFrame = some fr)
    (hm : o.minFrame ≤ last + 1 - fr.top) (closing : RosterFlags) (held : Bool) :
    s.closeFrame o last closing held =
      if held then s.frameClosed o fr.number last closing else (s.frameClosed o fr.number last closing).completeFrames o := by
  unfold State.closeFrame
  rw [hf]
  dsimp only
  rw [if_neg (by simpa [isSliver] using hm)]
  rfl

/-- While a line of the frame is undecided the close completes nothing, where no other frame has closed. -/
theorem closeFrame_of_undecided {fr : OpenFrame} {last : Nat} (hf : s.tracker.openFrame = some fr)
    (hm : o.minFrame ≤ last + 1 - fr.top) (hr : ∀ r ∈ s.writer.records, r.closed = false)
    (he : ∃ e ∈ s.store.pending, e.frame = some fr.number ∧ e.fate = .undecided) (closing : RosterFlags) (held : Bool) :
    s.closeFrame o last closing held = s.frameClosed o fr.number last closing := by
  obtain ⟨e, hmem, hframe, hfate⟩ := he
  have incomplete : ∀ r ∈ (s.frameClosed o fr.number last closing).writer.records, r.isComplete s.store.pending = false := by
    refine forall_onRecord (fun r h => by simp [FrameRecord.isComplete, hr r h]) fun r _ hk => ?_
    have hany : (s.store.pending.any fun e => e.frame == some r.number && (e.fate == .undecided || e.fate == .write)) = true :=
      List.any_eq_true.2 ⟨e, hmem, by simp [hframe, hfate, hk]⟩
    simp only [FrameRecord.isComplete, hany, Bool.not_true, Bool.and_false]
  rw [closeFrame_of_le hf hm, completeFrames_of_incomplete incomplete, ite_self]

/-! ### Lost lines settled into no frame (R39, R68) -/

theorem settleLost_none_of_raised (h : s.store.outsideRaised = true) : s.settleLost none = s := if_pos h

theorem settleLost_none_of_not_raised (h : s.store.outsideRaised = false) :
    s.settleLost none =
      { s with
        store := { s.store with outsideRaised := true }, reg := { s.reg with cause := s.reg.cause ||| 0x08#6 } } := by
  unfold State.settleLost
  dsimp only
  rw [if_neg (by simp [h])]
  rfl

theorem foldl_settleLost_none_of_raised (h : s.store.outsideRaised = true) (lines : List Nat) :
    lines.foldl (fun s _ => s.settleLost none) s = s := by
  induction lines with
  | nil => rfl
  | cons line lines ih => rw [List.foldl_cons, settleLost_none_of_raised h, ih]

/-- No held line, or the cause raised before: the held lines are forgotten. -/
theorem settleHeld_none_of_quiet (h : s.tracker.heldLost = [] ∨ s.store.outsideRaised = true) :
    s.settleHeld none = s.onTracker fun t => { t with heldLost := [] } := by
  unfold State.settleHeld
  rcases h with h | h
  · rw [h, List.foldl_nil]
  · rw [foldl_settleLost_none_of_raised h]

/-- The first held line of the order that is settled into no frame raises the cause; the others change nothing more. -/
theorem settleHeld_none_of_held (h : s.tracker.heldLost ≠ []) (hr : s.store.outsideRaised = false) :
    s.settleHeld none =
      { s with
        tracker := { s.tracker with heldLost := [] }, store := { s.store with outsideRaised := true }
        reg := { s.reg with cause := s.reg.cause ||| 0x08#6 } } := by
  obtain ⟨line, lines, hl⟩ := List.exists_cons_of_ne_nil h
  unfold State.settleHeld
  rw [hl, List.foldl_cons, settleLost_none_of_not_raised hr, foldl_settleLost_none_of_raised rfl]
  rfl

/-! ### The strip end (R67) -/

/-- The tracker is ENDED. -/
def State.trackerEnded (s : State) : State := s.onTracker fun t => { t with state := .ended }

theorem endStrip_of_outside (h : s.tracker.state ∈ [.seek, .gap, .trail]) : s.endStrip o = s.trackerEnded := by
  simp only [List.mem_cons, List.not_mem_nil, or_false] at h
  rcases h with h | h | h <;> simp only [State.endStrip, h, State.trackerEnded]

theorem endStrip_of_leader (h : s.tracker.state = .leader) : s.endStrip o = (s.onTracker (Tracker.withBase o)).trackerEnded := by
  simp only [State.endStrip, h, State.trackerEnded]

theorem endStrip_of_cut (h : s.tracker.state = .cut) :
    s.endStrip o = (s.onTracker fun t => { t with carried := none }).trackerEnded := by
  simp only [State.endStrip, h, State.trackerEnded]

theorem endStrip_of_image (h : s.tracker.state = .image) :
    s.endStrip o = (s.closeFrame o (o.stripLines - 1) { truncated := true } false).trackerEnded := by
  simp only [State.endStrip, h, State.trackerEnded, State.closeTruncated]

theorem endStrip_of_gapRun {start : Nat} (h : s.tracker.state = .gapRun) (hg : s.tracker.gapStart = some start) :
    s.endStrip o =
      (((s.runLeaves start).closeFrame o (start - 1) { truncated := true } false).settleHeld none).trackerEnded := by
  simp only [State.endStrip, h, hg, State.trackerEnded, State.closeTruncated, Option.getD_some]

/-- The run's lines leave the frame (R60, R67, R99). -/
theorem runLeaves_eq (s : State) (start : Nat) :
    s.runLeaves start =
      { s with
        store := { s.store with
          pending := s.store.pending.map fun e => if start ≤ e.line then { e with cls := .gap, frame := none } else e }
        mapper := { s.mapper with runMerge := [] }
        tracker := { s.tracker with gapStart := none, runCount := 0 } } := by
  simp [State.runLeaves, State.onStore, State.onMapper, State.onTracker, LineStore.mapPending, inRun]

end Sys2Proof.Machine
end

section
/-! SUPPORT. A line of the leader, before the first decision falls due. -/
namespace Sys2Proof.Proofs
open Sys2Proof.Machine

/-- Settles O23: the joins case by case, then the arrival as the announcement, the tracker's handling, and nothing more. -/
theorem leaderLine : Obligations.LeaderLine := by
  refine ⟨fun o window profile n line => ?_, fun s o b c next l hs hl hc ht ho hst hh hw hlv hp hroom hd hn => ?_⟩
  · refine ⟨?_, rfl, joinWindow_of_lt _, joinWindow_of_eq _, fun hm => ?_, joinProfile_of_lt _, joinProfile_of_eq _⟩
    · simp only [leaderRecord, bandGreens, bandPixels, sumOf_eq_sum]
    · simp only [joinProfile, hm]
  · intro n corrected hg
    rw [exec_lineMark_of_room hl hc ht ho hroom (by simp [hw])]
    dsimp only
    rw [trackLine_of_leader (old := s.store.pending) _ (by exact hst) (by exact hh) rfl (fun e he => (hp e he).2) (by exact hg) hn,
      if_neg hn, decideDelayed_of_lt (l := l) (by exact hlv) hd, writerGo_of_undecided _ (by exact ht) (by exact hw)]
    · exact done_of_none hs
    · intro e he
      rcases List.mem_append.1 he with he | he
      · exact (hp e he).1
      · rw [List.mem_singleton.1 he]

end Sys2Proof.Proofs
end

section
/-! SUPPORT. The fate of a line, and the lines that meet a writer waiting for a plate (R34, R35, R66, R67, R70, R84). -/
namespace Sys2Proof.Machine

variable {s : State} {o : ScanOrder}

/-! ### The fate of a row (R84) -/

theorem rowFate_of_lt {r : FrameRecord} {line : Nat} (h : line < r.cropTop) : rowFate o r line = .dropImage := if_pos h

theorem rowFate_of_below {r : FrameRecord} {line bottom : Nat} (hc : r.closed = true) (hb : r.cropBottom = some bottom)
    (h : bottom < line) : rowFate o r line = .dropImage := by
  have below : (r.closed && decide (r.cropBottom.getD 0 < line)) = true := by simp [hc, hb, h]
  rw [rowFate, if_pos below, ite_self]

theorem rowFate_of_off_grid {r : FrameRecord} {line : Nat} (h : (line - r.cropTop) % o.decimation ≠ 0) :
    rowFate o r line = .dropImage := by
  rw [rowFate, if_pos h, ite_self, ite_self]

theorem rowFate_of_inside {r : FrameRecord} {line : Nat} (ht : r.cropTop ≤ line)
    (hb : r.closed = false ∨ ∃ bottom, r.cropBottom = some bottom ∧ line ≤ bottom)
    (hg : (line - r.cropTop) % o.decimation = 0) : rowFate o r line = .write := by
  have inside : ¬ (r.closed && decide (r.cropBottom.getD 0 < line)) = true := by
    rcases hb with hb | ⟨bottom, hb, hl⟩
    · simp [hb]
    · simp [hb, Nat.not_lt.2 hl]
  rw [rowFate, if_neg (Nat.not_lt.2 ht), if_neg inside, if_neg (not_not.2 hg)]

/-! ### The fate of a line (R34, R70) -/

theorem fateOf_of_not_image {e : Entry} (h : e.cls ≠ .image) : s.fateOf o e = .dropOther := by
  unfold State.fateOf
  cases hc : e.cls with
  | image => exact absurd hc h
  | leader => rfl
  | gap => rfl
  | trail => rfl

theorem fateOf_of_no_frame {e : Entry} (hc : e.cls = .image) (h : e.frame = none) : s.fateOf o e = .dropOther := by
  simp only [State.fateOf, hc, h, Option.bind_none]

theorem fateOf_of_record {e : Entry} {k : Nat} {r : FrameRecord} (hc : e.cls = .image) (hf : e.frame = some k)
    (hr : s.writer.record k = some r) :
    s.fateOf o e = if r.damage.isSome then .dropOther else rowFate o r e.line := by
  simp only [State.fateOf, hc, hf, Option.bind_some, hr]

/-! ### The last line of the strip in the open frame (R59, R60, R67) -/

section extends_frame
variable {fr : OpenFrame} {params : MapParams} {b : LineBuffer} {next : Option LineBuffer}

theorem lineExtended_openFrame : (s.lineExtended o fr params b next).tracker.openFrame = s.tracker.openFrame := by
  unfold State.lineExtended
  dsimp only
  split
  · rfl
  · split <;> rfl

theorem lineExtended_state (hg : s.tracker.outcome o (some (s.corrected o b)) = false) :
    (s.lineExtended o fr params b next).tracker.state = .image := by
  have hg' : s.tracker.outcome o (some (shadeLine s.intake.copy (lengthCorrect o.width b.pixels))) = false := hg
  simp [State.lineExtended, hg']

theorem lineExtended_writer_state : (s.lineExtended o fr params b next).writer.state = s.writer.state := by
  unfold State.lineExtended
  dsimp only
  split <;> split <;> rfl

/-- A merged line is counted in a record, which stays open. -/
theorem lineExtended_records_open (h : ∀ r ∈ s.writer.records, r.closed = false) :
    ∀ r ∈ (s.lineExtended o fr params b next).writer.records, r.closed = false := by
  have resolved : ∀ r ∈ (s.runResolved fr.number).writer.records, r.closed = false :=
    forall_onRecord h fun r hr _ => h r hr
  unfold State.lineExtended
  dsimp only
  split
  · split
    · exact forall_onRecord resolved fun r hr _ => resolved r hr
    · exact forall_onRecord h fun r hr _ => h r hr
  · split
    · exact resolved
    · exact h

/-- The line just handed on is an undecided one of the frame. -/
theorem lineExtended_undecided :
    ∃ e ∈ (s.lineExtended o fr params b next).store.pending, e.frame = some fr.number ∧ e.fate = .undecided :=
  ⟨_, List.mem_append_right _ (List.mem_singleton.2 rfl), rfl, rfl⟩

/-- The strip ends on a line that extends the frame: the frame closes TRUNCATED on it. -/
theorem endStrip_of_lineExtended (hf : s.tracker.openFrame = some fr)
    (hg : s.tracker.outcome o (some (s.corrected o b)) = false) (hr : ∀ r ∈ s.writer.records, r.closed = false)
    (hend : s.intake.arrival + 1 = o.stripLines) (hm : o.minFrame ≤ s.intake.arrival + 1 - fr.top) :
    (s.lineExtended o fr params b next).endStrip o =
      ((s.lineExtended o fr params b next).frameClosed o fr.number s.intake.arrival { truncated := true }).trackerEnded := by
  have hlast : o.stripLines - 1 = s.intake.arrival := by omega
  rw [endStrip_of_image (lineExtended_state hg), hlast,
    closeFrame_of_undecided (lineExtended_openFrame.trans hf) hm (lineExtended_records_open hr) lineExtended_undecided]

end extends_frame

end Sys2Proof.Machine

namespace Sys2Proof.Proofs
open Sys2Proof.Machine

/-- Settles O31: the rows and the fates by their cases, the course of a line and its handling as the model runs them, the strip
end by the tracker's state, and the two arrivals by what the tracker makes of the line while the writer waits. -/
theorem rowFate : Obligations.RowFate := by
  refine ⟨fun o r line => ⟨rowFate_of_lt, fun bottom => rowFate_of_below, fun _ => rowFate_of_off_grid, rowFate_of_inside⟩,
    fun s o e => ⟨fateOf_of_not_image, fateOf_of_no_frame, fun k r hc hf hr => ⟨fun hd => ?_, fun hd => ?_⟩⟩,
    fun s o n l hl => ⟨decideDelayed_of_lt hl, decideDelayed_of_le hl, fun hp => ?_, fun hp => ?_⟩,
    fun s o b c next hl hc ht ho => ?_, fun s o n samples => ?_,
    fun s o => ⟨endStrip_of_outside, endStrip_of_leader, endStrip_of_cut, endStrip_of_image, fun start hs hg => ?_⟩,
    fun s o b c next l fr params hs hl hc ht ho hf hst hh hw hlv hm hp hroom hn hend hmin hrec hg => ?_,
    fun s o b c next l hs hl hc ht ho hst hh hw hlv hp hroom => ?_⟩
  · rw [fateOf_of_record hc hf hr, if_pos hd]
  · rw [fateOf_of_record hc hf hr, if_neg (by simp [hd])]
  · rw [stripEnd_eq, OrderUnit.stripEnded, if_neg (by simp [hp])]
    rfl
  · rw [stripEnd_eq, OrderUnit.stripEnded, if_pos hp]
    rfl
  · rw [exec_lineMark_of_scan hl hc ht ho]
    simp only [← hasRoom_iff]
    rfl
  · simp only [← judges_iff]
    rfl
  · intro left closed settled
    have hleft : s.runLeaves start = left := runLeaves_eq s start
    obtain ⟨hheld, hraised⟩ := closeFrame_keeps left o (start - 1) { truncated := true } false
    rw [endStrip_of_gapRun hs hg, hleft]
    refine ⟨fun h => ?_, fun hne hr => ?_⟩
    · rw [settleHeld_none_of_quiet (by rw [hheld, hraised]; exact h)]
      rfl
    · rw [settleHeld_none_of_held (by rw [hheld]; exact hne) (by rw [hraised]; exact hr)]
      rfl
  · intro u v
    have tracked : ((s.numbered o b).announced o s.intake.arrival).trackLine o s.intake.arrival (some (s.corrected o b)) =
        ((s.lineExtended o fr params b none).frameClosed o fr.number s.intake.arrival { truncated := true }).trackerEnded := by
      rw [trackLine_of_lineExtended hst hf hh hm hp hn fun _ h => absurd (hg.symm.trans h) Bool.false_ne_true, if_pos hend,
        endStrip_of_lineExtended hf hg hrec hend hmin]
    rw [exec_lineMark_of_plateWait (l := l) hl hc ht ho hroom hw tracked hs (lineExtended_writer_state.trans hw) hlv]
    simp only [hend, if_true, true_or, and_true]
    rfl
  · intro n ends arrived
    have tracked := trackLine_of_trail (s := (s.numbered o b).announced o n) (o := o) (n := n) (s.corrected o b) hst hh rfl hp
    rw [exec_lineMark_of_plateWait (l := l) hl hc ht ho hroom hw tracked hs hw hlv]
    by_cases he : s.intake.arrival + 1 = o.stripLines
    · simp only [ends, n, he, decide_true, if_true, true_or, and_true]
      rfl
    · simp only [ends, n, he, decide_false, if_false, false_or, Bool.false_eq_true]
      rfl

end Sys2Proof.Proofs
end

section
/-! SUPPORT. What a command can do to host memory: the case split over the commands, made once, and the bytes that can change
under it (O60). -/
namespace Sys2Proof.Machine

variable {s t : State}

/-- What one command can do: writes end and then work inside the step keeps the rest; or it resets the part, moves BLOCK_BASE
or loads the Window Table. -/
inductive CommandNext (s t : State) : Prop where
  | work (h : Reaches s t)
  | powerOn (h : t = s.powerOn)
  | holdReset (h : t = s.holdReset)
  | base (b : Word) (v : Word) (hb : b = s.reg.blockBase ∨ b = blockAddress v)
      (h : Keeps { s with reg := { s.reg with blockBase := b } } t)
  | table (data : List Byte) (h : Keeps { s with bus := { s.bus with windows := windowsOfBytes data, loading := false } } t)

theorem exec_next {c : Instr} (e : exec c s = .next t) : CommandNext s t := by
  cases c with
  | powerOn => exact .powerOn (powerOn_next e)
  | resetHoldEnter value =>
    rcases resetHoldEnter_next e with rfl | rfl
    · exact .holdReset rfl
    · exact .work (.of (Keeps.refl s).settle)
  | blockBaseWrite value =>
    obtain ⟨b, h, hb⟩ := blockBaseWrite_next e
    exact .base b value hb h
  | windowLoadComplete data =>
    rcases windowLoadComplete_next e with h | h
    · exact .work (.of h)
    · exact .table data h
  | startOfLineMark => exact .work (reaches_startOfLineMark e)
  | pixel p => exact .work (reaches_pixel e)
  | endOfLineMark => exact .work (reaches_endOfLineMark e)
  | causeRead => exact .work (reaches_causeRead e)
  | causeMaskWrite value => exact .work (reaches_causeMaskWrite e)
  | resetHoldLeave value => exact .work (reaches_resetHoldLeave e)
  | registerWriteIgnored access => exact .work (reaches_registerWriteIgnored e)
  | look => exact .work (reaches_look e)
  | plates => exact .work (reaches_plates e)
  | holdOn => exact .work (reaches_holdOn e)
  | holdOff => exact .work (reaches_holdOff e)
  | suspend => exact .work (reaches_suspend e)
  | resume => exact .work (reaches_resume e)
  | abort => exact .work (reaches_abort e)
  | windows => exact .work (reaches_windows e)
  | fixWindows => exact .work (reaches_fixWindows e)
  | park => exact .work (reaches_park e)
  | wake => exact .work (reaches_wake e)
  | unknownAttentionValue value => exact .work (reaches_unknownAttentionValue e)
  | selectionReadsComplete slots => exact .work (reaches_selectionReadsComplete e)
  | orderRecordReadComplete record => exact .work (reaches_orderRecordReadComplete e)
  | shadingLoadComplete table => exact .work (reaches_shadingLoadComplete e)
  | plateScanReadComplete reads => exact .work (reaches_plateScanReadComplete e)
  | startWritesComplete => exact .work (reaches_startWritesComplete e)
  | fillComplete => exact .work (reaches_fillComplete e)
  | burstComplete => exact .work (reaches_burstComplete e)
  | framesTallyWriteComplete => exact .work (reaches_framesTallyWriteComplete e)
  | orderTallyWriteComplete => exact .work (reaches_orderTallyWriteComplete e)
  | shadingTableWritten => exact .work (reaches_shadingTableWritten e)
  | abortDrainComplete => exact .work (reaches_abortDrainComplete e)
  | plateBurstBusError => exact .work (reaches_plateBurstBusError e)
  | exchangeBusError access => exact .work (reaches_exchangeBusError e)
  | busErrorInFault access => exact .work (reaches_busErrorInFault e)
  | faultDrainComplete => exact .work (reaches_faultDrainComplete e)

/-- A byte that differs lies under a write that was in flight and had not landed. -/
def ChangesUnderWrites (s t : State) : Prop :=
  ∀ a, Memory.get t.mem a ≠ Memory.get s.mem a → ∃ w ∈ s.bus.inFlight, w.landed = false ∧ w.covers a

theorem ChangesUnderWrites.of_mem_eq (h : t.mem = s.mem) : ChangesUnderWrites s t :=
  fun a hne => absurd (congrArg (Memory.get · a) h) hne

theorem Reaches.changesUnderWrites (h : Reaches s t) : ChangesUnderWrites s t := by
  obtain ⟨u, hlands, hkeeps⟩ := h
  intro a hne
  exact hlands.under a (hkeeps.mem ▸ hne)

theorem exec_changesUnderWrites {c : Instr} (e : exec c s = .next t) : ChangesUnderWrites s t := by
  cases exec_next e with
  | work h => exact h.changesUnderWrites
  | powerOn h => exact h ▸ (lands_dropWrites s).under
  | holdReset h => exact h ▸ (lands_dropWrites s).under
  | base b v hb h => exact .of_mem_eq h.mem
  | table data h => exact .of_mem_eq h.mem

end Sys2Proof.Machine

namespace Sys2Proof.Proofs
open Sys2Proof.Machine

/-- Settles O60: an empty queue changes nothing, and a command changes memory only where writes end. -/
theorem memoryUnderWrites : Obligations.MemoryUnderWrites := by
  intro s t a e hne
  unfold step at e
  split at e
  · cases e
    exact absurd rfl hne
  · exact exec_changesUnderWrites e a hne

end Sys2Proof.Proofs
end

section
/-! SUPPORT. The Calibration Unit by its parts: a channel of a column, the sums of a pass, the state of the unit after a line,
and the writes of the table (R19 to R26). -/
namespace Sys2Proof.Machine

/-! ### Channels -/

/-- What is computed channel by channel is computed so in each of the four. -/
theorem channel_map2 {ch : Quad → Nat} (hch : ch ∈ quadChannels) (f : Nat → Nat → Nat) (x y : Quad) :
    ch (Quad.map2 f x y) = f (ch x) (ch y) := by
  simp only [quadChannels, List.mem_cons, List.not_mem_nil, or_false] at hch
  rcases hch with rfl | rfl | rfl | rfl <;> rfl

theorem anyChannel_iff (test : Nat → Bool) (x : Quad) :
    x.anyChannel test = true ↔ ∃ ch ∈ quadChannels, test (ch x) = true := by
  simp [Quad.anyChannel, quadChannels, or_assoc]

/-! ### The entry of a column (R23 to R25) -/

section entry

variable (o : CalOrder) (darkSum brightSum : Quad)

/-- The span of a channel of a column, from its two sums (R23). -/
def channelSpan (ch : Quad → Nat) : Nat := spanOf (ch darkSum / o.darkLines) (ch brightSum / o.brightLines)

variable {ch : Quad → Nat}

theorem columnEntry_dark (hch : ch ∈ quadChannels) :
    ch (columnEntry o darkSum brightSum).dark = ch darkSum / o.darkLines := by
  simp only [columnEntry, channel_map2 hch]

theorem columnEntry_gain (hch : ch ∈ quadChannels) :
    ch (columnEntry o darkSum brightSum).gain = gainOf o (channelSpan o darkSum brightSum ch) := by
  simp only [columnEntry, channel_map2 hch, channelSpan]

theorem columnEntry_dead_iff :
    (columnEntry o darkSum brightSum).dead = true ↔
      ∃ ch ∈ quadChannels, deadChannel o (channelSpan o darkSum brightSum ch) = true := by
  refine (anyChannel_iff ..).trans (exists_congr fun ch => and_congr_right fun hch => ?_)
  simp only [channel_map2 hch, channelSpan]

theorem columnEntry_hot_iff :
    (columnEntry o darkSum brightSum).hot = true ↔ ∃ ch ∈ quadChannels, o.hotLimit < ch darkSum / o.darkLines := by
  refine (anyChannel_iff (fun v => decide (o.hotLimit < v)) (columnEntry o darkSum brightSum).dark).trans
    (exists_congr fun ch => and_congr_right fun hch => ?_)
  rw [columnEntry_dark o darkSum brightSum hch, decide_eq_true_iff]

end entry

theorem deadChannel_iff (o : CalOrder) (span : Nat) :
    deadChannel o span = true ↔ span = 0 ∨ (0 < span ∧ span < o.deadLimit) := by
  simp only [deadChannel, Bool.or_eq_true, decide_eq_true_eq]
  omega

theorem gainOf_of_dead {o : CalOrder} {span : Nat} (h : deadChannel o span = true) : gainOf o span = 16384 := if_pos h

theorem gainOf_of_not_dead {o : CalOrder} {span : Nat} (h : deadChannel o span ≠ true) :
    gainOf o span = if 65535 < o.white * 16384 / span then 65535 else o.white * 16384 / span := by
  rw [gainOf, if_neg h, Nat.min_def]
  split <;> split <;> omega

/-! ### The sums of a pass (R19) -/

theorem addLine_nil_left (row : List Pixel) : addLine [] row = [] := by simp [addLine]

theorem addLine_nil_right (sums : List Quad) : addLine sums [] = sums := by simp [addLine]

theorem addLine_cons (q : Quad) (sums : List Quad) (p : Pixel) (row : List Pixel) :
    addLine (q :: sums) (p :: row) =
      { r := q.r + p.r.toNat, g := q.g + p.g.toNat, b := q.b + p.b.toNat, ir := q.ir + p.ir.toNat } :: addLine sums row := rfl

/-! ### A line handed to the unit (R19, R20, R22) -/

variable {o : CalOrder} {u : CalibrationUnit} {line : List Pixel}

theorem takeLine_of_darkPass (h : u.pass = .darkPass) :
    u.takeLine o line =
      { u with
        darkSums := addLine u.darkSums line
        passLines := if o.darkLines ≤ u.passLines + 1 then 0 else u.passLines + 1
        pass := if o.darkLines ≤ u.passLines + 1 then .brightPass else .darkPass } := by
  simp only [CalibrationUnit.takeLine, h, CalibrationUnit.darkLine]
  split
  · rfl
  · rw [← h]

theorem takeLine_of_brightPass (h : u.pass = .brightPass) :
    u.takeLine o line =
      { u with
        brightSums := addLine u.brightSums line
        passLines := u.passLines + 1
        pass := if o.brightLines ≤ u.passLines + 1 then .passesComplete else .brightPass } := by
  simp only [CalibrationUnit.takeLine, h, CalibrationUnit.brightLine]

theorem takeLine_of_passesComplete (h : u.pass = .passesComplete) :
    u.takeLine o line = { u with excess := min (u.excess + 1) 4294967295 } := by
  simp only [CalibrationUnit.takeLine, h, Config.maxCount]

/-- Only the last bright line completes the passes. -/
theorem takeLine_pass_ne_complete (h : u.pass = .darkPass ∨ (u.pass = .brightPass ∧ u.passLines + 1 < o.brightLines)) :
    (u.takeLine o line).pass ≠ .passesComplete := by
  rcases h with h | ⟨h, hlt⟩
  · rw [takeLine_of_darkPass h]
    dsimp only
    split <;> exact nofun
  · rw [takeLine_of_brightPass h]
    dsimp only
    rw [if_neg (by omega)]
    exact nofun

/-! ### A line of a CALIBRATE order (R4, R7, R9, R19 to R22) -/

section arrival

variable {s : State} {b : LineBuffer} {c : Instr} {next : Option LineBuffer}

theorem takeLine_of_calibrate (ho : s.order.current = some (.calibrate o)) :
    s.withoutLine.takeLine b =
      ({ s with intake := s.intake.taken o.width b.count none } : State).calibrateLine o
        (lengthCorrect o.width b.pixels) := by
  have hn : (s.withoutLine.onIntake fun i => i.number (decide (b.count ≠ o.width))) =
      { s with intake := s.intake.taken o.width b.count none } := by
    by_cases h : b.count = o.width <;>
      simp [State.withoutLine, State.onIntake, LineIntake.number, LineIntake.taken, h]
  have ho' : s.withoutLine.order.current = some (.calibrate o) := ho
  unfold State.takeLine
  rw [ho']
  dsimp only
  rw [hn]

/-- A mark with a line in progress that a CALIBRATE order takes. -/
theorem exec_lineMark_of_calibrate (hl : s.intake.line = some b) (hc : (c, next) ∈ lineMarks) (ht : s.Takes)
    (ho : s.order.current = some (.calibrate o)) :
    exec c s =
      done ((({ s with intake := s.intake.taken o.width b.count none } : State).calibrateLine o
        (lengthCorrect o.width b.pixels)).onIntake fun i => { i with line := next }) := by
  rw [exec_lineMark_of_line hl hc ht.not_inReset, lineArrives_of_takes (s := s.withoutLine) ht, takeLine_of_calibrate ho]

/-- A line that does not end the passes, or ends them while the order is suspended, changes the unit alone. -/
theorem calibrateLine_of_unfinished (h : ¬ ((s.cal.takeLine o line).pass = .passesComplete ∧ s.order.part = .running)) :
    s.calibrateLine o line = s.onCal fun u => u.takeLine o line := if_neg h

/-- The last bright line of a RUNNING order. -/
theorem calibrateLine_of_finished (hp : (s.cal.takeLine o line).pass = .passesComplete) (hr : s.order.part = .running) :
    s.calibrateLine o line =
      ((s.onCal fun u => u.takeLine o line).onOrder fun u => { u with part := .finishing }).enterTable o :=
  if_pos ⟨hp, hr⟩

theorem exec_lineMark_of_unfinished (hs : s.Settled) (hl : s.intake.line = some b) (hc : (c, next) ∈ lineMarks)
    (ht : s.Takes) (ho : s.order.current = some (.calibrate o))
    (h : ¬ ((s.cal.takeLine o (lengthCorrect o.width b.pixels)).pass = .passesComplete ∧ s.order.part = .running)) :
    exec c s =
      .next { s with
        intake := s.intake.taken o.width b.count next, cal := s.cal.takeLine o (lengthCorrect o.width b.pixels) } := by
  rw [exec_lineMark_of_calibrate hl hc ht ho, calibrateLine_of_unfinished (by exact h)]
  exact done_of_none hs

end arrival

/-! ### The writes of the table (R26) -/

/-- The write of the entry of column `c`; the last one is marked. -/
def entryWrite (o : CalOrder) (c : Nat) (last : Bool) (column : ShadingColumn) : BusWrite :=
  { kind := .shading, mark := if last then .tableLast else .silent, address := o.tableAddress + 20 * c,
    data := column.toBytes, plate := 0xFFFF, frame := 0, pace := .grouped, landed := false }

theorem entryWrite_mark_iff {c : Nat} {last : Bool} {column : ShadingColumn} :
    (entryWrite o c last column).mark = .tableLast ↔ last = true := by
  cases last <;> simp [entryWrite]

theorem ShadingColumn.length_toBytes (column : ShadingColumn) : column.toBytes.length = 20 := by
  simp only [ShadingColumn.toBytes, List.length_append, length_half]

theorem tableWrites_cons (c : Nat) (column : ShadingColumn) (rest : List ShadingColumn) :
    tableWrites o c (column :: rest) = entryWrite o c rest.isEmpty column :: tableWrites o (c + 1) rest := rfl

/-- The entries are written in column order. -/
theorem getElem?_tableWrites (columns : List ShadingColumn) (c k : Nat) :
    (tableWrites o c columns)[k]? =
      columns[k]?.map fun column => entryWrite o (c + k) (decide (k + 1 = columns.length)) column := by
  induction columns generalizing c k with
  | nil => rfl
  | cons column rest ih =>
    rw [tableWrites_cons]
    cases k with
    | zero => cases rest <;> simp
    | succ k => simp [ih, Nat.add_assoc, Nat.add_comm 1 k]

theorem mem_tableWrites {columns : List ShadingColumn} {w : BusWrite} (h : w ∈ tableWrites o 0 columns) :
    ∃ k last column, k < columns.length ∧ w = entryWrite o k last column := by
  obtain ⟨k, hk⟩ := List.mem_iff_getElem?.1 h
  rw [getElem?_tableWrites, Option.map_eq_some_iff] at hk
  obtain ⟨column, hcol, rfl⟩ := hk
  exact ⟨_, _, column, (List.getElem?_eq_some_iff.1 hcol).1, by rw [Nat.zero_add]⟩

/-- A table inside one window: each of its entries passes the check (R173). -/
theorem passesCheck_tableWrites {s : State} {columns : List ShadingColumn} (hn : columns.length ≤ o.width)
    (hi : insideWindow s.bus.windows o.tableAddress (o.width * 20) = true) :
    ∀ w ∈ tableWrites o 0 columns, s.passesCheck w = true := by
  intro w hw
  obtain ⟨k, last, column, hk, rfl⟩ := mem_tableWrites hw
  refine passesCheck_of_insideWindow hi (Nat.le_add_right ..) ?_
  simp only [entryWrite, ShadingColumn.length_toBytes]
  omega

theorem length_tableColumns_le (o : CalOrder) (u : CalibrationUnit) : (tableColumns o u).length ≤ o.width := by
  simp only [tableColumns, List.length_zipWith, List.length_take]
  omega

/-- The unit enters WRITING, and the writes of all entries join the writes in flight. -/
theorem enterTable_eq {s : State} (ha : s.accessBarred = false)
    (hi : insideWindow s.bus.windows o.tableAddress (o.width * 20) = true) :
    s.enterTable o =
      ({ s with
        cal := { s.cal with
          pass := .writing, columnInHand := none, hot := countHot (tableColumns o s.cal)
          dead := countDead (tableColumns o s.cal), faulted := countFaulted (tableColumns o s.cal) } } : State).withWrites
        (tableWrites o 0 (tableColumns o s.cal)) :=
  issueAll_eq (by exact ha) (passesCheck_tableWrites (length_tableColumns_le o s.cal) (by exact hi))

/-! ### The end of the table (R25 to R28, R181) -/

/-- The order ends with its unit's report: FAILED with SENSOR on too many faulted columns, DONE otherwise. -/
theorem endCalibrate_eq {s : State} {i : Fin 4} (g : Gathered) (hc : s.order.chosen = some i) (ha : s.accessBarred = false) :
    s.endCalibrate g =
      (({ s with
          order := { s.order with
            ordersTally := s.order.ordersTally + 1, endWrites := true, follows := true } } : State).withWrites
        (s.resultArea i (s.calResults g (if g.sensorFailed then .sensor else .none)) .grouped
          ++ [s.slotWrite i (if g.sensorFailed then 5 else 4) .silent .grouped, s.tallyWrite .grouped])).leaveOrder := by
  unfold State.endCalibrate
  split <;> exact congrArg State.leaveOrder (issueEnd_eq _ _ _ hc ha)

/-- The unit has made its report and is IDLE. -/
def State.reported (s : State) : State :=
  { s with cal := { s.cal with pass := .idle }, order := { s.order with gathered := some s.cal.report } }

theorem tableWritten_of_finishing {s : State} (h : s.order.part = .finishing) :
    s.tableWritten = s.reported.endCalibrate s.cal.report := if_pos h

theorem tableWritten_of_not_finishing {s : State} (h : s.order.part ≠ .finishing) :
    s.tableWritten = { s.reported with order := { s.reported.order with heldEnd := true } } := if_neg h

/-- The state in which the last entry's write and every write before it have ended (log 3). -/
def State.landedThrough (s : State) (early late : List BusWrite) (w : BusWrite) : State :=
  { s with bus := { s.bus with inFlight := stillTracked early ++ late }, mem := landAll s.mem (early ++ [w]) }

section end_of_table

variable {s : State} {early late : List BusWrite} {w : BusWrite}

theorem exec_shadingTableWritten_of_writing (hi : s.bus.inFlight = early ++ w :: late)
    (hm : w.mark = .tableLast) (he : ∀ v ∈ early, v.mark ≠ .tableLast) (hp : s.cal.pass = .writing)
    (hf : s.order.part ≠ .fault) (ha : s.order.aborting = false) :
    exec .shadingTableWritten s = done (s.landedThrough early late w).tableWritten := by
  show execShadingTableWritten s = _
  rw [execShadingTableWritten, onEnd_split hi hm he, if_pos ⟨hp, hf, ha⟩]
  rfl

theorem exec_shadingTableWritten_of_stopped (hs : s.Settled) (hi : s.bus.inFlight = early ++ w :: late)
    (hm : w.mark = .tableLast) (he : ∀ v ∈ early, v.mark ≠ .tableLast)
    (h : s.order.aborting = true ∨ s.order.part = .fault) :
    exec .shadingTableWritten s = .next (s.landedThrough early late w) := by
  have stopped : ¬ (s.cal.pass = .writing ∧ s.order.part ≠ .fault ∧ s.order.aborting = false) := by
    rintro ⟨-, hf, ha⟩
    exact h.elim (by simp [ha]) hf
  show execShadingTableWritten s = _
  rw [execShadingTableWritten, onEnd_split hi hm he, if_neg stopped]
  exact done_of_none hs

end end_of_table

end Sys2Proof.Machine

namespace Sys2Proof.Proofs
open Sys2Proof.Machine

/-- Settles O26: channel by channel, by whether the channel is DEAD. -/
theorem gainAndDead : Obligations.GainAndDead := by
  intro o darkSum brightSum span entry
  refine ⟨fun ch hch => ⟨columnEntry_dark o darkSum brightSum hch, fun h0 => ?_, fun hpos hlt => ?_, fun hpos hle => ?_⟩,
    ?_, columnEntry_hot_iff o darkSum brightSum⟩
  · exact (columnEntry_gain o darkSum brightSum hch).trans (gainOf_of_dead ((deadChannel_iff ..).2 (.inl h0)))
  · exact (columnEntry_gain o darkSum brightSum hch).trans (gainOf_of_dead ((deadChannel_iff ..).2 (.inr ⟨hpos, hlt⟩)))
  · refine (columnEntry_gain o darkSum brightSum hch).trans (gainOf_of_not_dead fun hd => ?_)
    rcases (deadChannel_iff ..).1 hd with h0 | ⟨-, hlt⟩
    · exact absurd h0 hpos.ne'
    · exact absurd hlt hle.not_gt
  · rw [columnEntry_dead_iff]
    simp only [deadChannel_iff]
    rfl

/-- Settles O24: the three passes by what the unit makes of the line, and the sums by induction over their columns. -/
theorem passLines : Obligations.PassLines := by
  refine ⟨fun s o b c next hs hl hc ht ho => ⟨fun hp => ?_, fun hp hx => ?_, fun hp hx => ?_⟩, fun sums row c => ?_⟩
  · rw [exec_lineMark_of_unfinished hs hl hc ht ho fun h => takeLine_pass_ne_complete (.inl hp) h.1, takeLine_of_darkPass hp]
  · rw [exec_lineMark_of_unfinished hs hl hc ht ho, takeLine_of_brightPass hp]
    rintro ⟨hd, hr⟩
    rcases hx with hx | hx
    · exact takeLine_pass_ne_complete (.inr ⟨hp, hx⟩) hd
    · simp [hx] at hr
  · rw [exec_lineMark_of_unfinished hs hl hc ht ho fun h => by simp [hx] at h, takeLine_of_passesComplete hp]
  · induction sums generalizing row c with
    | nil => simp [addLine_nil_left]
    | cons q sums ih =>
      cases row with
      | nil => cases h : (q :: sums)[c]? <;> simp [addLine_nil_right, h]
      | cons p row =>
        rw [addLine_cons]
        cases c with
        | zero => rfl
        | succ c => exact ih row c

/-- Settles O25: the line completes the passes, and the writes of the table all pass the check. -/
theorem lastBrightLine : Obligations.LastBrightLine := by
  intro s o b c next hs hl hc ha hr ho hp hn hi sums columns
  have taken := takeLine_of_brightPass (o := o) (line := lengthCorrect o.width b.pixels) hp
  have complete : (s.cal.takeLine o (lengthCorrect o.width b.pixels)).pass = .passesComplete := by
    rw [taken]
    exact if_pos hn
  refine ⟨?_, fun k col hk => ?_⟩
  · rw [exec_lineMark_of_calibrate hl hc ⟨ha, .inl hr⟩ ho, calibrateLine_of_finished (by exact complete) (by exact hr),
      enterTable_eq (by exact accessBarred_eq_false nofun nofun hs) (by exact hi)]
    refine done_eq (by exact hs) ?_
    simp only [State.onCal_cal, State.onOrder_cal, taken]
    rfl
  · refine ⟨_, by rw [getElem?_tableWrites, hk, Option.map_some, Nat.zero_add], rfl, rfl, rfl, ?_⟩
    rw [entryWrite_mark_iff, decide_eq_true_iff]

/-- Settles O53: the writes land, and then the unit reports, by the part state, or is stopped. -/
theorem tableWritten : Obligations.TableWritten := by
  intro s early late w o i hs hi hm he ho hch rest landed
  refine ⟨fun hp hx ha => ?_, exec_shadingTableWritten_of_stopped hs hi hm he⟩
  simp only [List.mem_cons, List.not_mem_nil, or_false] at hx
  rcases hx with hx | hx
  · have unbarred : s.accessBarred = false := accessBarred_eq_false (by simp [hx]) (by simp [hx]) hs
    rw [exec_shadingTableWritten_of_writing hi hm he hp (by simp [hx]) ha, tableWritten_of_finishing (by exact hx),
      endCalibrate_eq _ (by exact hch) (by exact unbarred)]
    exact ⟨_, done_of_none hs, rfl, rfl, rfl, fun _ => ⟨rfl, rfl, rfl, (List.append_assoc ..).symm⟩,
      fun h => absurd (hx.symm.trans h) nofun⟩
  · rw [exec_shadingTableWritten_of_writing hi hm he hp (by simp [hx]) ha,
      tableWritten_of_not_finishing (by simp [State.landedThrough, hx])]
    exact ⟨_, done_of_none hs, rfl, rfl, rfl, fun h => absurd (hx.symm.trans h) nofun, fun _ => ⟨hx, rfl, rfl, rfl⟩⟩

end Sys2Proof.Proofs
end

section
/-! SUPPORT. The invariant of the model (O58): every command ends its step settled, and each of the things a command can do
keeps the rest of the invariant. -/
namespace Sys2Proof.Machine

variable {s t : State}

/-! ### The end of a step (log 26) -/

/-- An answer that is a next state leaves no failed write waiting for its bus error. -/
def AnswersSettled (answer : Host.Outcome State Fault Refusal) : Prop := ∀ t, answer = .next t → t.Settled

theorem answersSettled_done (u : State) : AnswersSettled (done u) := by
  intro t e
  cases e
  exact settle_barred u

theorem answersSettled_fault (f : Fault) : AnswersSettled (.fault f) := by
  intro t e
  cases e

theorem AnswersSettled.ite {c : Prop} [Decidable c] {a b : Host.Outcome State Fault Refusal} (ha : AnswersSettled a)
    (hb : AnswersSettled b) : AnswersSettled (if c then a else b) := by
  split
  · exact ha
  · exact hb

/-- A meaning that stops on operands that spell no event, and else runs. -/
theorem answersSettled_guarded {c : Prop} [Decidable c] (u : State) (f : Fault) :
    AnswersSettled (if c then done u else .fault f) := .ite (answersSettled_done u) (answersSettled_fault f)

theorem settled_registerWriteIgnored (access : IgnoredAccess) (s : State) :
    AnswersSettled (execRegisterWriteIgnored access s) := by
  refine .ite ?_ (answersSettled_fault _)
  cases access <;> exact answersSettled_done _

theorem settled_shadingLoadComplete (table : List Byte) (s : State) : AnswersSettled (execShadingLoadComplete table s) := by
  refine .ite ?_ (answersSettled_fault _)
  split
  · exact .ite (answersSettled_guarded _ _) (answersSettled_done _)
  · exact answersSettled_done _

theorem settled_plateScanReadComplete (reads : List ScanRead) (s : State) :
    AnswersSettled (execPlateScanReadComplete reads s) := by
  refine .ite ?_ (answersSettled_fault _)
  split <;> exact answersSettled_done _

theorem settled_fillComplete (s : State) : AnswersSettled (execFillComplete s) := by
  unfold execFillComplete
  split <;> exact answersSettled_done _

theorem settled_plateBurstBusError (s : State) : AnswersSettled (execPlateBurstBusError s) := by
  unfold execPlateBurstBusError
  split
  · exact answersSettled_done _
  · split <;> exact answersSettled_done _

/-- Every command ends in `done`, or stops. -/
theorem exec_settled (c : Instr) (s : State) : AnswersSettled (exec c s) := by
  cases c with
  | registerWriteIgnored access => exact settled_registerWriteIgnored access s
  | shadingLoadComplete table => exact settled_shadingLoadComplete table s
  | plateScanReadComplete reads => exact settled_plateScanReadComplete reads s
  | fillComplete => exact settled_fillComplete s
  | plateBurstBusError => exact settled_plateBurstBusError s
  | resetHoldEnter | windowLoadComplete | selectionReadsComplete | orderRecordReadComplete =>
    exact answersSettled_guarded _ _
  | resetHoldLeave | unknownAttentionValue => exact .ite (answersSettled_fault _) (answersSettled_done _)
  | powerOn | startOfLineMark | pixel | endOfLineMark | blockBaseWrite | causeRead | causeMaskWrite | look | plates
  | holdOn | holdOff | suspend | resume | abort | windows | fixWindows | park | wake | startWritesComplete | burstComplete
  | framesTallyWriteComplete | orderTallyWriteComplete | shadingTableWritten | abortDrainComplete | exchangeBusError
  | busErrorInFault | faultDrainComplete => exact answersSettled_done _

/-! ### What each thing a command can do keeps -/

/-- The ends of writes keep the whole invariant. -/
theorem Lands.sound (h : Lands s t) (hs : s.Sound) : t.Sound where
  memory := h.form hs.memory
  settled := h.barred.trans hs.settled
  table := h.windows ▸ hs.table
  boundary := h.reg ▸ hs.boundary
  room := h.store ▸ hs.room

/-- Work inside a step keeps all of it but the settled clause. -/
theorem Keeps.sound (h : Keeps s t) (hs : s.Sound) (ht : t.Settled) : t.Sound where
  memory := h.mem ▸ hs.memory
  settled := ht
  table := h.windows ▸ hs.table
  boundary := h.base ▸ hs.boundary
  room := h.room hs.room

theorem Reaches.sound (h : Reaches s t) (hs : s.Sound) (ht : t.Settled) : t.Sound := by
  obtain ⟨u, hlands, hkeeps⟩ := h
  exact hkeeps.sound (hlands.sound hs) ht

/-- After a reset the part is new, but for memory and for BLOCK_BASE, which a hold reset keeps (R162, R163, R186). -/
theorem sound_powerOn (hs : s.Sound) : s.powerOn.Sound := ⟨State.wf_dropWrites hs.memory, rfl, rfl, rfl, Nat.zero_le _⟩

theorem sound_holdReset (hs : s.Sound) : s.holdReset.Sound :=
  ⟨State.wf_dropWrites hs.memory, rfl, rfl, hs.boundary, Nat.zero_le _⟩

/-- The low 13 bits of a value written to BLOCK_BASE are cleared (R162). -/
theorem blockAddress_mod (value : Word) : (blockAddress value).toNat % 8192 = 0 := by
  have low : blockAddress value &&& 0x1FFF#32 = 0#32 := by
    rw [blockAddress, BitVec.and_assoc]
    exact BitVec.and_zero
  have mask : (blockAddress value).toNat &&& (2 ^ 13 - 1) = 0 := congrArg BitVec.toNat low
  rwa [Nat.and_two_pow_sub_one_eq_mod] at mask

theorem sound_withBase {b : Word} (hs : s.Sound) (hb : b.toNat % 8192 = 0) :
    ({ s with reg := { s.reg with blockBase := b } } : State).Sound :=
  ⟨hs.memory, hs.settled, hs.table, hb, hs.room⟩

/-- A window load fills the four entries anew (R171). -/
theorem sound_withTable (data : List Byte) (hs : s.Sound) :
    ({ s with bus := { s.bus with windows := windowsOfBytes data, loading := false } } : State).Sound :=
  ⟨hs.memory, hs.settled, rfl, hs.boundary, hs.room⟩

theorem sound_withQueue (queue : List Instr) (hs : s.Sound) : ({ s with pending := queue } : State).Sound :=
  ⟨hs.memory, hs.settled, hs.table, hs.boundary, hs.room⟩

theorem CommandNext.sound (h : CommandNext s t) (hs : s.Sound) (ht : t.Settled) : t.Sound := by
  cases h with
  | work h => exact h.sound hs ht
  | powerOn h => exact h ▸ sound_powerOn hs
  | holdReset h => exact h ▸ sound_holdReset hs
  | base b value hb h =>
    refine h.sound (sound_withBase hs ?_) ht
    rcases hb with rfl | rfl
    · exact hs.boundary
    · exact blockAddress_mod value
  | table data h => exact h.sound (sound_withTable data hs) ht

end Sys2Proof.Machine

namespace Sys2Proof.Proofs
open Sys2Proof.Machine

/-- Settles O58: an empty queue changes nothing, and a command keeps the invariant, by what it can do. -/
theorem stepKeepsSound : Obligations.StepKeepsSound := by
  intro s t hs e
  unfold step at e
  split at e
  · cases e
    exact hs
  · exact (exec_next e).sound (sound_withQueue _ hs) (exec_settled _ _ t e)

end Sys2Proof.Proofs
end

section
/-! SUPPORT. The Line Store and the lost lines in closed form (O32): the occupancy hold by its levels, the removal of the head,
and lost lines settled alike into a frame or into none. -/
namespace Sys2Proof.Machine

variable {s : State} {k : Nat}

/-! ### The occupancy hold (R40) -/

theorem holdAfter_of_le {l : StoreLevels} {count : Nat} (hold : Bool) (hl : l.clearLevel < l.setLevel)
    (h : l.setLevel ≤ count) : holdAfter (some l) hold count = true := by
  have above : ¬ count ≤ l.clearLevel := by omega
  cases hold <;> simp [holdAfter, h, above]

theorem holdAfter_of_clear {l : StoreLevels} {count : Nat} (hold : Bool) (hl : l.clearLevel < l.setLevel)
    (h : count ≤ l.clearLevel) : holdAfter (some l) hold count = false := by
  have below : ¬ l.setLevel ≤ count := by omega
  cases hold <;> simp [holdAfter, h, below]

theorem holdAfter_of_between {l : StoreLevels} {count : Nat} (hold : Bool) (hc : l.clearLevel < count)
    (hs : count < l.setLevel) : holdAfter (some l) hold count = hold := by
  cases hold <;> simp [holdAfter, hc, hs]

/-! ### Announcement and removal (R33, R36, R37) -/

theorem announce_of_room {st : LineStore} (n : Nat) (h : st.pending.length + st.context.length < 64) :
    st.announce n = st.withPending (st.pending ++ [newEntry n]) := if_pos ((hasRoom_iff st).2 h)

theorem announce_of_full {st : LineStore} (n : Nat) (h : 64 ≤ st.pending.length + st.context.length) :
    st.announce n = { st with lost := st.lost + 1 } :=
  if_neg fun room => Nat.not_le.2 ((hasRoom_iff st).1 room) h

/-- A line more in a context list of at most `rv` lines: the oldest leaves where there were `rv`. -/
theorem trimContext_append {rv : Nat} {context : List Entry} (e : Entry) (h : context.length ≤ rv) :
    trimContext rv (context ++ [e]) = if context.length < rv then context ++ [e] else (context ++ [e]).tail := by
  unfold trimContext
  rw [List.length_append, List.length_singleton]
  split
  · rw [Nat.sub_eq_zero_of_le (by omega), List.drop_zero]
  · rw [show context.length + 1 - rv = 1 by omega, List.drop_one]

theorem isImage_iff (f : Fate) : f.isImage = true ↔ f = .write ∨ f = .dropImage := by
  cases f <;> simp [Fate.isImage]

theorem removeHead_eq {st : LineStore} {l : StoreLevels} {e : Entry} {entries : List Entry} (clear : Bool)
    (hl : st.levels = some l) (hp : st.pending = e :: entries) :
    st.removeHead clear =
      { st with
        pending := entries
        context :=
          if e.fate = .write ∨ e.fate = .dropImage then
            trimContext l.rv (st.context ++ [if clear then { e with frame := none } else e])
          else st.context
        hold := holdAfter st.levels st.hold entries.length } := by
  simp only [LineStore.removeHead, hp, hl, isImage_iff, LineStore.withPending]

/-! ### Lost lines settled into a frame (R39) -/

theorem settleLost_of_mem (h : k ∈ s.store.lostFrames) :
    s.settleLost (some k) = s.onWriter fun wr => wr.onRecord k FrameRecord.lostLine :=
  if_pos (List.contains_iff_mem.2 h)

/-- The first lost line of a frame raises the cause. -/
theorem settleLost_of_not_mem (h : k ∉ s.store.lostFrames) :
    s.settleLost (some k) =
      { s with
        writer := s.writer.onRecord k FrameRecord.lostLine
        store := { s.store with lostFrames := s.store.lostFrames ++ [k] }
        reg := { s.reg with cause := s.reg.cause ||| 0x08#6 } } :=
  if_neg fun hc => h (List.contains_iff_mem.1 hc)

/-- The further lost lines of a frame only advance its record. -/
theorem foldl_settleLost_of_mem (lines : List Nat) (h : k ∈ s.store.lostFrames) :
    lines.foldl (fun s _ => s.settleLost (some k)) s =
      s.onWriter fun wr => lines.foldl (fun wr _ => wr.onRecord k FrameRecord.lostLine) wr := by
  induction lines generalizing s with
  | nil => rfl
  | cons line lines ih =>
    rw [List.foldl_cons, settleLost_of_mem h]
    exact ih h

/-- A frame record after `count` lost lines, at least one. -/
def FrameRecord.withLost (count : Nat) (r : FrameRecord) : FrameRecord :=
  { r with lostLines := r.lostLines + count, flags := { r.flags with linesLost := true } }

/-- Lost lines of a frame, counted one by one. -/
theorem foldl_lostLine (line : Nat) (lines : List Nat) (wr : FrameWriter) (k : Nat) :
    (line :: lines).foldl (fun wr _ => wr.onRecord k FrameRecord.lostLine) wr =
      wr.onRecord k (FrameRecord.withLost (line :: lines).length) := by
  induction lines generalizing line wr with
  | nil => rfl
  | cons next lines ih =>
    rw [List.foldl_cons, ih, onRecord_onRecord (f := FrameRecord.lostLine) fun _ => ⟨rfl, rfl⟩]
    congr 1
    funext r
    simp only [FrameRecord.withLost, FrameRecord.lostLine, List.length_cons, Nat.add_comm, Nat.add_left_comm]

/-! ### The lost lines of one handling (R39, R68) -/

/-- The lost lines that the handling of line `n` settles outside GAP_RUN: the held ones, and the line itself if it was lost. -/
def State.settledLines (s : State) (n : Nat) (lost : Bool) : List Nat := s.tracker.heldLost ++ if lost then [n] else []

theorem length_settledLines (s : State) (n : Nat) (lost : Bool) :
    (s.settledLines n lost).length = s.tracker.heldLost.length + if lost then 1 else 0 := by
  cases lost <;> simp [State.settledLines]

/-- A state with no lost line held. -/
def State.withoutHeld (s : State) : State := s.onTracker fun t => { t with heldLost := [] }

theorem settleLost_withoutHeld (s : State) (frame : Option Nat) :
    s.withoutHeld.settleLost frame = (s.settleLost frame).withoutHeld := by
  cases frame with
  | none =>
    cases h : s.store.outsideRaised with
    | true => rw [settleLost_none_of_raised h, settleLost_none_of_raised (s := s.withoutHeld) h]
    | false =>
      rw [settleLost_none_of_not_raised h, settleLost_none_of_not_raised (s := s.withoutHeld) h]
      rfl
  | some k =>
    by_cases h : k ∈ s.store.lostFrames
    · rw [settleLost_of_mem h, settleLost_of_mem (s := s.withoutHeld) h]
      rfl
    · rw [settleLost_of_not_mem h, settleLost_of_not_mem (s := s.withoutHeld) h]
      rfl

/-- Outside GAP_RUN the lines are settled alike, and none is held afterwards. -/
theorem attribute_outside_gapRun (n : Nat) (lost : Bool) (frame : Option Nat) (h : s.tracker.state ≠ .gapRun) :
    s.attribute n lost frame = ((s.settledLines n lost).foldl (fun s _ => s.settleLost frame) s).withoutHeld := by
  unfold State.attribute State.settledLines
  rw [if_neg h, List.foldl_append]
  cases lost with
  | false => rfl
  | true => exact settleLost_withoutHeld _ frame

/-- Lost lines of a frame that has had one: its count and its flag. -/
theorem foldl_settleLost_counted (line : Nat) (lines : List Nat) (h : k ∈ s.store.lostFrames) :
    (line :: lines).foldl (fun s _ => s.settleLost (some k)) s =
      { s with writer := s.writer.onRecord k (FrameRecord.withLost (line :: lines).length) } := by
  rw [foldl_settleLost_of_mem _ h, State.onWriter, foldl_lostLine]

/-- Lost lines of a frame that has had none: the first raises the cause. -/
theorem foldl_settleLost_first (line : Nat) (lines : List Nat) (h : k ∉ s.store.lostFrames) :
    (line :: lines).foldl (fun s _ => s.settleLost (some k)) s =
      { s with
        writer := s.writer.onRecord k (FrameRecord.withLost (line :: lines).length)
        store := { s.store with lostFrames := s.store.lostFrames ++ [k] }
        reg := { s.reg with cause := s.reg.cause ||| 0x08#6 } } := by
  rw [← foldl_lostLine, List.foldl_cons, List.foldl_cons, settleLost_of_not_mem h]
  exact foldl_settleLost_of_mem lines (List.mem_append_right _ (List.mem_singleton_self k))

/-- Lost lines outside frames: the first of the order raises the cause. -/
theorem foldl_settleLost_none_first (line : Nat) (lines : List Nat) (h : s.store.outsideRaised = false) :
    (line :: lines).foldl (fun s _ => s.settleLost none) s =
      { s with
        store := { s.store with outsideRaised := true }, reg := { s.reg with cause := s.reg.cause ||| 0x08#6 } } := by
  rw [List.foldl_cons, settleLost_none_of_not_raised h]
  exact foldl_settleLost_none_of_raised rfl lines

/-- In GAP_RUN a lost line is held (R68). -/
theorem attribute_in_gapRun (n : Nat) (lost : Bool) (frame : Option Nat) (h : s.tracker.state = .gapRun) :
    s.attribute n lost frame =
      if lost then { s with tracker := { s.tracker with heldLost := s.tracker.heldLost ++ [n] } } else s := if_pos h

end Sys2Proof.Machine

namespace Sys2Proof.Proofs
open Sys2Proof.Machine

/-- Settles O32: the store's operations by room and by fate, the attribution by whether the tracker is in GAP_RUN and by what
has been lost before. -/
theorem storeAnnounce : Obligations.StoreAnnounce := by
  refine ⟨fun st n => ⟨fun h => ?_, announce_of_full n, fun l hold count hl => ?_⟩, ?_, fun s n lost frame => ⟨?_, ?_⟩⟩
  · rw [announce_of_room n h, LineStore.withPending, List.length_append]
    rfl
  · exact ⟨holdAfter_of_le hold hl, holdAfter_of_clear hold hl, holdAfter_of_between hold⟩
  · intro st l e entries clear hl hp hc joined
    rw [removeHead_eq clear hl hp, trimContext_append _ hc]
  · exact attribute_in_gapRun n lost frame
  · intro hg settled emptied raised
    rw [attribute_outside_gapRun n lost frame hg]
    have count : settled = (s.settledLines n lost).length := (length_settledLines s n lost).symm
    cases hlines : s.settledLines n lost with
    | nil =>
      have held : s.tracker.heldLost = [] := (List.append_eq_nil_iff.1 hlines).1
      rw [hlines] at count
      refine ⟨fun _ => ?_, fun hpos => absurd hpos (count ▸ Nat.lt_irrefl 0)⟩
      rw [List.foldl_nil, State.withoutHeld, State.onTracker, ← held]
    | cons line lines =>
      rw [hlines] at count
      refine ⟨fun hz => absurd (count.symm.trans hz) nofun, fun _ => ⟨?_, ?_⟩⟩
      · rintro k rfl counted
        simp only [counted, count]
        refine ⟨fun hk => ?_, fun hk => ?_⟩
        · rw [foldl_settleLost_counted line lines hk]
          rfl
        · rw [foldl_settleLost_first line lines hk]
          rfl
      · rintro rfl
        refine ⟨fun hr => ?_, fun hr => ?_⟩
        · rw [foldl_settleLost_none_of_raised hr]
          rfl
        · rw [foldl_settleLost_none_first line lines hr]
          rfl

end Sys2Proof.Proofs
end

section
/-! SUPPORT. How the Strip Tracker judges a line (R48 to R51), and the base that the leader window gives it (R54). -/
namespace Sys2Proof.Machine

variable {o : ScanOrder} {t : Tracker} {line : List Pixel}

/-! ### The mean and the spread of a line (R48) -/

theorem foldl_max_le_iff (vs : List Nat) (a b : Nat) : vs.foldl max a ≤ b ↔ a ≤ b ∧ ∀ v ∈ vs, v ≤ b := by
  induction vs generalizing a with
  | nil => simp
  | cons v vs ih => simp [ih, and_assoc]

theorem le_foldl_min_iff (vs : List Nat) (a b : Nat) : b ≤ vs.foldl min a ↔ b ≤ a ∧ ∀ v ∈ vs, b ≤ v := by
  induction vs generalizing a with
  | nil => simp
  | cons v vs ih => simp [ih, and_assoc]

theorem greatest_eq {vs : List Nat} {most : Nat} (hm : most ∈ vs) (h : ∀ v ∈ vs, v ≤ most) : greatest vs = most :=
  Nat.le_antisymm ((foldl_max_le_iff ..).2 ⟨Nat.zero_le _, h⟩) (((foldl_max_le_iff ..).1 (Nat.le_refl _)).2 most hm)

/-- The least of values of 16 bits. -/
theorem least_eq {vs : List Nat} {few : Nat} (hm : few ∈ vs) (h : ∀ v ∈ vs, few ≤ v) (hb : few ≤ 65535) : least vs = few :=
  Nat.le_antisymm (((le_foldl_min_iff ..).1 (Nat.le_refl _)).2 few hm) ((le_foldl_min_iff ..).2 ⟨hb, h⟩)

theorem bandMean_eq (o : ScanOrder) (line : List Pixel) :
    bandMean o line = (bandGreens o line).sum / (o.bandRight - o.bandLeft + 1) := by
  rw [bandMean, sumOf_eq_sum, bandWidth]

theorem le_of_mem_bandGreens {g : Nat} (h : g ∈ bandGreens o line) : g ≤ 65535 := by
  obtain ⟨p, -, rfl⟩ := List.mem_map.1 h
  exact Nat.le_of_lt_succ p.g.isLt

theorem bandSpread_eq {most few : Nat} (hm : most ∈ bandGreens o line) (hf : few ∈ bandGreens o line)
    (h : ∀ g ∈ bandGreens o line, few ≤ g ∧ g ≤ most) : bandSpread o line = most - few := by
  rw [bandSpread, greatest_eq hm fun g hg => (h g hg).2, least_eq hf (fun g hg => (h g hg).1) (le_of_mem_bandGreens hf)]

/-! ### Gap-like or image-like (R49 to R51) -/

theorem outcome_of_judges (h : t.state.judges = true) (line : List Pixel) : t.outcome o (some line) = isGapLike o t line :=
  if_pos h

theorem isGapLike_positive_iff (h : o.film = .positive) :
    isGapLike o t line = true ↔ bandMean o line ≤ o.darkGapLevel ∧ bandSpread o line ≤ o.spreadLimit := by
  simp only [isGapLike, h, Bool.and_eq_true, decide_eq_true_eq]

/-- In the leader of a NEGATIVE strip the spread alone decides. -/
theorem isGapLike_leader_iff (h : o.film = .negative) (hl : t.state = .leader) :
    isGapLike o t line = true ↔ bandSpread o line ≤ o.spreadLimit := by
  simp only [isGapLike, h, hl, if_true, decide_eq_true_eq]

theorem isGapLike_negative_iff {level : Nat} (h : o.film = .negative) (hl : t.state ≠ .leader)
    (hg : t.gapLevel = some level) :
    isGapLike o t line = true ↔ level ≤ bandMean o line ∧ bandSpread o line ≤ o.spreadLimit := by
  simp only [isGapLike, h, hl, hg, if_false, Option.getD_some, Bool.and_eq_true, decide_eq_true_eq]

/-! ### The base (R54) -/

/-- With 4 records or more a base level is the floor of the mean, raised to 256. -/
theorem formBase_of_le {window : List LeaderRecord} (h : 4 ≤ window.length) :
    let mean := fun (sum : LeaderRecord → Nat) => (window.map sum).sum / (window.length * (o.bandRight - o.bandLeft + 1))
    (formBase o window).r = max 256 (mean LeaderRecord.sumR) ∧ (formBase o window).g = max 256 (mean LeaderRecord.sumG)
      ∧ (formBase o window).b = max 256 (mean LeaderRecord.sumB) := by
  simp only [formBase, if_neg (Nat.not_lt.2 h), sumOf_eq_sum, bandWidth, and_self]

/-- With fewer it is the order's fallback, raised to 256. -/
theorem formBase_of_lt {window : List LeaderRecord} (h : window.length < 4) :
    (formBase o window).r = max 256 o.fallbackR ∧ (formBase o window).g = max 256 o.fallbackG
      ∧ (formBase o window).b = max 256 o.fallbackB := by
  simp only [formBase, if_pos h, and_self]

theorem withBase_gapLevel (h : o.film = .negative) :
    (t.withBase o).gapLevel = some ((formBase o t.window).g * o.gapRatio / 256) := by
  simp only [Tracker.withBase, h, gapLevelOf]

end Sys2Proof.Machine

namespace Sys2Proof.Proofs
open Sys2Proof.Machine

/-- Settles O27: the sum, the greatest and the least of the band's greens, and the judgement by film and by state. -/
theorem gapLikeTests : Obligations.GapLikeTests := by
  refine ⟨fun o line => ⟨bandMean_eq o line, fun most hm few hf h => bandSpread_eq hm hf h⟩, fun o t line hj => ?_⟩
  rw [outcome_of_judges hj]
  exact ⟨isGapLike_positive_iff, isGapLike_leader_iff, fun _ => isGapLike_negative_iff⟩

/-- Settles O28: the base is the one formed from the window, by whether it holds 4 records. -/
theorem baseFormed : Obligations.BaseFormed := by
  intro o t _ _
  exact ⟨formBase o t.window, rfl, rfl, withBase_gapLevel, rfl, formBase_of_le, formBase_of_lt⟩

end Sys2Proof.Proofs
end

section
/-! SUPPORT. A sliver is discarded: what the store and the writer make of its frame (R36, R64, R128, R135, R152, R155). -/
namespace Sys2Proof.Machine

variable {s : State} {o : ScanOrder} {k : Nat}

/-! ### What issuing and discarding leave of the order unit and of the records -/

theorem issue_keeps (s : State) (w : BusWrite) : (s.issue w).order = s.order ∧ (s.issue w).writer = s.writer := by
  unfold State.issue
  split
  · exact ⟨rfl, rfl⟩
  · split <;> exact ⟨rfl, rfl⟩

theorem issueAll_keeps (s : State) (ws : List BusWrite) :
    (s.issueAll ws).order = s.order ∧ (s.issueAll ws).writer = s.writer :=
  List.foldlRecOn (motive := fun t : State => t.order = s.order ∧ t.writer = s.writer) ws _ ⟨rfl, rfl⟩ fun t h w _ =>
    ⟨(issue_keeps t w).1.trans h.1, (issue_keeps t w).2.trans h.2⟩

/-- Owner words change no record. -/
theorem releasePlates_keeps (s : State) (k : Nat) (w : Owner) (plates : List PlateListEntry) :
    (s.releasePlates k w plates).order = s.order ∧ (s.releasePlates k w plates).writer.records = s.writer.records := by
  refine List.foldlRecOn (motive := fun t : State => t.order = s.order ∧ t.writer.records = s.writer.records) plates _
    ⟨rfl, rfl⟩ fun t h e _ => ?_
  split
  · obtain ⟨horder, hwriter⟩ := issue_keeps t (t.plateField e.index 0x8 k (word w.code) .grouped)
    exact ⟨horder.trans h.1, (congrArg FrameWriter.records hwriter).trans h.2⟩
  · exact h

theorem discardWrites_keeps (s : State) (o : ScanOrder) (r : FrameRecord) :
    (s.discardWrites o r).order = s.order ∧ (s.discardWrites o r).writer.records = s.writer.records := by
  obtain ⟨horder, hrecords⟩ := releasePlates_keeps s r.number .given r.plateList
  unfold State.discardWrites
  dsimp only
  split
  · obtain ⟨horder', hwriter'⟩ := issueAll_keeps (s.releasePlates r.number .given r.plateList) (freeForm o r.number)
    exact ⟨horder'.trans horder, (congrArg FrameWriter.records hwriter').trans hrecords⟩
  · exact ⟨horder, hrecords⟩

/-- The leading record is marked whether or not its write passes the check. -/
theorem fillLeading_keeps (s : State) (o : ScanOrder) :
    (s.fillLeading o).order = s.order ∧ (s.fillLeading o).writer.records = leadingFilled s.writer.records := by
  unfold State.fillLeading
  cases hr : s.writer.records with
  | nil => exact ⟨rfl, hr⟩
  | cons r rest =>
    dsimp only
    split
    · rename_i hf
      refine ⟨rfl, hr.trans ?_⟩
      rw [leadingFilled, ← hf]
    · rw [State.onWriter_order, State.onWriter_writer]
      exact ⟨(issueAll_keeps s _).1, rfl⟩

theorem discardRecords_keeps (s : State) (o : ScanOrder) (which : FrameRecord → Bool) :
    (s.discardRecords o which).order = s.order
      ∧ (s.discardRecords o which).writer.records = leadingFilled (s.writer.records.filter fun r => !which r) := by
  obtain ⟨horder, hrecords⟩ := List.foldlRecOn
    (motive := fun t : State => t.order = s.order ∧ t.writer.records = s.writer.records) (s.writer.records.filter which)
    (fun t r => (t.discardWrites o r).onWriter fun wr => { wr with plate := plateAfter wr.plate r.number })
    (b := s) ⟨rfl, rfl⟩
    fun t h r _ => ⟨(discardWrites_keeps t o r).1.trans h.1, (discardWrites_keeps t o r).2.trans h.2⟩
  unfold State.discardRecords
  dsimp only
  refine ⟨(fillLeading_keeps _ o).1.trans horder, (fillLeading_keeps _ o).2.trans ?_⟩
  rw [State.onWriter_writer, hrecords]

/-- The mark on the leading record changes neither a number nor whether a record is gone. -/
theorem exists_of_mem_leadingFilled {rs : List FrameRecord} {r : FrameRecord} (h : r ∈ leadingFilled rs) :
    ∃ q ∈ rs, q.number = r.number ∧ q.doomed = r.doomed := by
  cases rs with
  | nil => cases h
  | cons q rs =>
    rcases List.mem_cons.1 h with rfl | h
    · exact ⟨q, List.mem_cons_self, rfl, rfl⟩
    · exact ⟨r, List.mem_cons_of_mem _ h, rfl, rfl⟩

/-! ### The scan given up (R152) -/

/-- Giving up the operation at one site leaves the reads of the others. -/
theorem mem_stopReads_of_ne {site : ReadSite} {q : BusRead} (hs : q.site ≠ site) (h : q ∈ s.bus.reads) :
    q ∈ (s.stopReads site).bus.reads := by
  have waits : q.isWaiting site = false := by simp [BusRead.isWaiting, hs]
  have reached : q ∈ (s.reachReads site).bus.reads := by
    unfold State.reachReads
    split
    · exact h
    · exact stage_makeReads h waits
  exact List.mem_map.2 ⟨q, List.mem_filter.2 ⟨reached, by simp [waits]⟩, if_neg hs⟩

theorem stopScan_reads (s : State) :
    ∃ n rs, s.stopScan = { s with bus := { s.bus with reads := rs }, free := n }
      ∧ (∀ q ∈ rs, q.site ∈ [ReadSite.plateCount, .plateEntry] → q.stage = .dropped)
      ∧ ∀ q : BusRead, q.site ∉ [ReadSite.plateCount, .plateEntry] → (q ∈ rs ↔ q ∈ s.bus.reads) := by
  obtain ⟨n, rs, e, hdropped, hkept⟩ := stopScan_eq s
  refine ⟨n, rs, e, hdropped, fun q hq => ⟨hkept q hq, fun h => ?_⟩⟩
  simp only [List.mem_cons, List.not_mem_nil, or_false, not_or] at hq
  have stays : q ∈ s.stopScan.bus.reads := mem_stopReads_of_ne hq.2 (mem_stopReads_of_ne hq.1 h)
  rwa [e] at stays

/-! ### The head of the discarded frame (R135, R152) -/

theorem releaseHead_keeps (wr : FrameWriter) :
    wr.releaseHead.records = wr.records ∧ wr.releaseHead.plate = wr.plate ∧ wr.releaseHead.owners = wr.owners := by
  unfold FrameWriter.releaseHead
  split <;> exact ⟨rfl, rfl, rfl⟩

theorem releaseHead_state (wr : FrameWriter) :
    wr.releaseHead.state = if wr.state = .plateWait ∨ wr.state = .throttled then .ready else wr.state := by
  unfold FrameWriter.releaseHead
  split <;> simp [*]

theorem releaseHead_waitFlag (wr : FrameWriter) :
    wr.releaseHead.waitFlag = if wr.state = .plateWait then false else wr.waitFlag := by
  unfold FrameWriter.releaseHead
  split <;> simp [*]

theorem releaseHead_scan {wr : FrameWriter} (h : wr.state = .plateWait ∨ wr.state = .ready) :
    wr.releaseHead.scan = none ∧ wr.releaseHead.rescan = false := by
  rcases h with h | h <;> simp [FrameWriter.releaseHead, h]

/-- A wait, a scan or a throttle hold for the head is over, where the head is one of frame `k`. -/
def State.headReleased (s : State) (k : Nat) : State :=
  if s.headFrame = some k then (s.onWriter FrameWriter.releaseHead).stopScan else s

/-- The writer after it. -/
def State.releasedWriter (s : State) (k : Nat) : FrameWriter :=
  if s.headFrame = some k then s.writer.releaseHead else s.writer

theorem releasedWriter_keeps (s : State) (k : Nat) :
    (s.releasedWriter k).records = s.writer.records ∧ (s.releasedWriter k).plate = s.writer.plate
      ∧ (s.releasedWriter k).owners = s.writer.owners := by
  unfold State.releasedWriter
  split
  · exact releaseHead_keeps _
  · exact ⟨rfl, rfl, rfl⟩

/-- What becomes of the reads in flight when frame `k` is discarded. -/
def State.ReadsReleased (s : State) (k : Nat) (rs : List BusRead) : Prop :=
  (s.headFrame ≠ some k → rs = s.bus.reads)
    ∧ (s.headFrame = some k →
      (∀ q ∈ rs, q.site ∈ [ReadSite.plateCount, .plateEntry] → q.stage = .dropped)
        ∧ ∀ q : BusRead, q.site ∉ [ReadSite.plateCount, .plateEntry] → (q ∈ rs ↔ q ∈ s.bus.reads))

theorem headReleased_eq (s : State) (k : Nat) :
    ∃ n rs, s.headReleased k = { s with writer := s.releasedWriter k, bus := { s.bus with reads := rs }, free := n }
      ∧ s.ReadsReleased k rs := by
  unfold State.headReleased State.releasedWriter
  split
  · rename_i hh
    obtain ⟨n, rs, e, hreads⟩ := stopScan_reads (s.onWriter FrameWriter.releaseHead)
    exact ⟨n, rs, e, fun hn => absurd hh hn, fun _ => hreads⟩
  · rename_i hh
    exact ⟨s.free, s.bus.reads, rfl, fun _ => rfl, fun h => absurd h hh⟩

/-! ### The discard report (R128) -/

theorem isWriting_of_write {wr : FrameWriter} {lw : LineWrite} (hs : wr.state = .writing) (hw : wr.write = some lw)
    (hk : lw.frame = k) (hd : lw.discarded = false) : wr.isWriting k = true := by
  simp [FrameWriter.isWriting, hs, hw, hk, hd]

theorem isWriting_of_not {wr : FrameWriter}
    (h : wr.state ≠ .writing ∨ ∀ lw, wr.write = some lw → lw.frame ≠ k ∨ lw.discarded = true) : wr.isWriting k = false := by
  unfold FrameWriter.isWriting
  split
  · rfl
  · rename_i lw hw
    rcases h with h | h
    · simp [h]
    · rcases h lw hw with h | h <;> simp [h]

theorem headIsWritten_eq (wr : FrameWriter) (k : Nat) :
    wr.headIsWritten k = (decide (wr.state = .writing) && wr.write.any fun lw => lw.frame == k) := by
  unfold FrameWriter.headIsWritten
  cases wr.write with
  | none => simp
  | some lw => cases hs : wr.state <;> rfl

/-- While a line of the frame is written its record and its plate wait for the line. -/
theorem discardReport_of_writing (h : s.writer.isWriting k = true) :
    s.discardReport o k =
      { s with writer := { s.writer with
          records := (s.writer.onRecord k fun r => { r with doomed := true }).records
          write := s.writer.write.map fun lw => { lw with discarded := true } } } := if_pos h

theorem discardReport_of_idle (h : s.writer.isWriting k = false) :
    s.discardReport o k = (s.headReleased k).discardRecords o fun r => r.number == k && !r.doomed :=
  if_neg (by simp [h])

/-- Either way the order unit stands and the writer holds no record of the frame but as gone. -/
theorem discardReport_keeps (s : State) (o : ScanOrder) (k : Nat) :
    (s.discardReport o k).order = s.order
      ∧ ∀ r ∈ (s.discardReport o k).writer.records, r.number = k → r.doomed = true := by
  cases hw : s.writer.isWriting k with
  | true =>
    rw [discardReport_of_writing hw]
    refine ⟨rfl, fun r hr hk => ?_⟩
    obtain ⟨q, -, rfl⟩ := List.mem_map.1 hr
    split
    · rfl
    · rename_i hq
      rw [if_neg hq] at hk
      simpa [hk] using hq
  | false =>
    obtain ⟨n, rs, e, -⟩ := headReleased_eq s k
    obtain ⟨horder, hrecords⟩ := discardRecords_keeps (s.headReleased k) o fun r => r.number == k && !r.doomed
    rw [discardReport_of_idle hw]
    refine ⟨horder.trans (by rw [e]), fun r hr hk => ?_⟩
    rw [hrecords] at hr
    obtain ⟨q, hq, hnumber, hdoomed⟩ := exists_of_mem_leadingFilled hr
    simpa [hnumber, hdoomed, hk] using (List.mem_filter.1 hq).2

/-! ### The one record of the frame -/

/-- The records among which `r` is the one of frame `k`, the others of that number being gone. -/
theorem onRecord_split {wr : FrameWriter} {before after : List FrameRecord} {r : FrameRecord}
    (hr : wr.records = before ++ r :: after) (hk : r.number = k) (hd : r.doomed = false)
    (ho : ∀ q ∈ before ++ after, q.number = k → q.doomed = true) (f : FrameRecord → FrameRecord) :
    (wr.onRecord k f).records = before ++ f r :: after := by
  have others : ∀ rs : List FrameRecord, (∀ q ∈ rs, q.number = k → q.doomed = true) →
      (rs.map fun q => if q.number = k ∧ q.doomed = false then f q else q) = rs := by
    intro rs h
    refine (List.map_congr_left fun q hq => if_neg ?_).trans (List.map_id' rs)
    rintro ⟨hn, hf⟩
    simp [h q hq hn] at hf
  simp only [FrameWriter.onRecord, hr, List.map_append, List.map_cons,
    others before fun q hq => ho q (List.mem_append_left _ hq), others after fun q hq => ho q (List.mem_append_right _ hq),
    hk, hd, and_self, if_true]

theorem plateAfter_eq (plate : Option CurrentPlate) (k : Nat) :
    plateAfter plate k = if plate.any fun p => p.frame == k then none else plate := by
  cases plate with
  | none => rfl
  | some p => by_cases h : p.frame = k <;> simp [plateAfter, h]

/-- No line of the frame is written: the discard writes follow, and the record goes (R128, R152, R154, R155). -/
theorem discardReport_of_split {before after : List FrameRecord} {r : FrameRecord} (ha : s.accessBarred = false)
    (hw : s.writer.isWriting k = false)
    (hi : insideWindow s.bus.windows o.rosterAddress (o.expectedFrames * 640) = true)
    (hn : ∀ q ∈ s.writer.records, 1 ≤ q.number ∧ q.number ≤ o.expectedFrames)
    (hr : s.writer.records = before ++ r :: after) (hk : r.number = k) (hd : r.doomed = false)
    (ho : ∀ q ∈ before ++ after, q.number = k → q.doomed = true) (hp : ∀ p ∈ r.plateList, p.index < 256) :
    ∃ n rs owners, s.discardReport o k =
        { s with
          writer := { s.releasedWriter k with
            records := leadingFilled (before ++ after), plate := plateAfter s.writer.plate k, owners := owners }
          bus := { s.bus with
            reads := rs
            inFlight := s.bus.inFlight ++ (s.plateReturns [] r 1 ++ (if r.fillingWritten then freeForm o k else [])
              ++ leadingEntry o (before ++ after)) }
          free := n }
      ∧ s.ReadsReleased k rs
      ∧ ∀ j, lastOwner owners j =
          if (∃ p ∈ r.plateList, p.index = j) ∧ lastOwner s.writer.owners j = some .taken then some .given
          else lastOwner s.writer.owners j := by
  obtain ⟨n, rs, e, hreads⟩ := headReleased_eq s k
  obtain ⟨hrecords, hplate, howners⟩ := releasedWriter_keeps s k
  obtain ⟨owners, discarded, hgiven⟩ := discardRecords_eq (s := s.headReleased k) (o := o)
    (which := fun q => q.number == k && !q.doomed) (before := before) (after := after) (r := r)
    (by rw [e]; exact ha) (by rw [e]; exact hi) (by rw [e]; simpa only [hrecords] using hn)
    (by rw [e]; exact hrecords.trans hr) (by simp [hk, hd]) (fun q hq => by
      by_cases hq' : q.number = k
      · simp [ho q hq hq']
      · simp [hq']) hp
  subst hk
  refine ⟨n, rs, owners, ?_, hreads, fun j => ?_⟩
  · rw [discardReport_of_idle hw, discarded, e]
    simp only [State.withWrites, State.plateReturns, howners, hplate]
    rfl
  · rw [hgiven j, e]
    simp only [howners]

/-! ### The store, and the tracker (R36, R63, R64) -/

theorem discardFrame_eq (st : LineStore) (k : Nat) (written : Bool) :
    st.discardFrame k written =
      { st with
        pending := st.pending.mapIdx fun i e =>
          if e.frame = some k ∧ ¬(i = 0 ∧ written = true) then { e with fate := Fate.dropOther, frame := none } else e
        context := st.context.map fun e => if e.frame = some k then { e with frame := none } else e
        lostFrames := st.lostFrames.filter (· != k) } := by
  unfold LineStore.discardFrame
  cases hp : st.pending with
  | nil => rfl
  | cons e rest =>
    have tail : ∀ f : Entry → Entry, rest.mapIdx (fun _ e => f e) = rest.map f := fun f => List.ext_getElem? fun i => by simp
    cases written <;> simp [List.mapIdx_cons, tail]

/-- A frame of fewer than `min_frame` lines is discarded. -/
theorem closeFrame_of_lt {fr : OpenFrame} {last : Nat} (hf : s.tracker.openFrame = some fr)
    (hm : last + 1 - fr.top < o.minFrame) (closing : RosterFlags) (held : Bool) :
    s.closeFrame o last closing held =
      { s.discardReport o fr.number with
        store := s.store.discardFrame fr.number (s.writer.headIsWritten fr.number)
        tracker := { s.tracker with slivers := s.tracker.slivers + 1, openFrame := none } } := by
  have work : WriterWork s (s.discardReport o fr.number) := (WriterWork.refl s).discardReport
  unfold State.closeFrame
  rw [hf]
  dsimp only
  rw [if_pos (by simpa [isSliver] using hm)]
  simp only [State.onStore, State.onTracker, work.store, work.tracker]

/-! ### Completion put off (R129) -/

/-- A closed record with a line still to be decided or written has not reached its completion point. -/
theorem isComplete_of_pending {r : FrameRecord} {pending : List Entry}
    (h : r.closed = true → r.doomed = false →
      ∃ e ∈ pending, e.frame = some r.number ∧ (e.fate = .undecided ∨ e.fate = .write)) : r.isComplete pending = false := by
  rw [FrameRecord.isComplete, Bool.eq_false_iff]
  intro hc
  simp only [Bool.and_eq_true, Bool.not_eq_true', List.any_eq_false] at hc
  obtain ⟨⟨hclosed, hdoomed⟩, hnone⟩ := hc
  obtain ⟨e, he, hframe, hfate⟩ := h hclosed hdoomed
  exact hnone e he (by simpa [hframe] using hfate)

end Sys2Proof.Machine

namespace Sys2Proof.Proofs
open Sys2Proof.Machine

/-- Settles O30: a frame that stands by `frameClosed`, a sliver by whether a line of its frame is being written. -/
theorem frameCloses : Obligations.FrameCloses := by
  intro s o fr last closing held hf
  constructor
  · intro hm closed
    have stands := closeFrame_of_le (o := o) hf hm closing held
    refine ⟨stands, fun hpending => stands.trans ?_⟩
    have waits : (s.frameClosed o fr.number last closing).completeFrames o = s.frameClosed o fr.number last closing :=
      completeFrames_of_incomplete fun r hr => isComplete_of_pending (hpending r hr)
    rw [waits, ite_self]
    rfl
  · intro hm t written
    have sliver : t = _ := closeFrame_of_lt (o := o) hf hm closing held
    have work : WriterWork s (s.discardReport o fr.number) := (WriterWork.refl s).discardReport
    obtain ⟨horder, hgone⟩ := discardReport_keeps s o fr.number
    have hwritten : s.writer.headIsWritten fr.number = written := headIsWritten_eq s.writer fr.number
    rw [hwritten, discardFrame_eq] at sliver
    rw [sliver]
    refine ⟨rfl, rfl, hgone, work.mem, work.reg, work.intake, horder, work.cal, work.fill, work.mapper, ?_⟩
    intro before r after hr hk hd ho
    refine ⟨fun lw hs hw hl hl' => ?_, fun hset hact hidle hi hn hp => ?_⟩
    · rw [discardReport_of_writing (isWriting_of_write hs hw hl hl'), onRecord_split hr hk hd ho, hw]
      exact ⟨rfl, rfl⟩
    · obtain ⟨n, rs, owners, e, hreads, howners⟩ := discardReport_of_split
        (accessBarred_eq_false hact.2 hact.1 hset) (isWriting_of_not hidle) hi hn hr hk hd ho hp
      rw [e, plateAfter_eq]
      refine ⟨rfl, rfl, ?_, howners, fun hh => ?_, fun hh => ?_⟩
      · simp only [List.append_assoc, hk]
        rfl
      · have kept : s.releasedWriter fr.number = s.writer := if_neg hh
        rw [kept]
        exact ⟨rfl, rfl, rfl, rfl, hreads.1 hh⟩
      · have released : s.releasedWriter fr.number = s.writer.releaseHead := if_pos hh
        rw [released]
        exact ⟨releaseHead_state _, releaseHead_waitFlag _, releaseHead_scan, hreads.2 hh⟩

end Sys2Proof.Proofs
end

section
/-! SUPPORT. How the Strip Tracker moves on a line, by its state: between frames and in the leader, in the open frame and its
gap run, at a confirmed gap, at a forced cut, and after one (R56 to R62, R65, R66). -/
namespace Sys2Proof.Machine

variable {s : State} {o : ScanOrder} {n : Nat} {line : Option (List Pixel)} {gap : Bool}

/-! ### A frame opens (R58, R127, R154) -/

theorem openingRecord_eq (o : ScanOrder) (k n : Nat) (crop : Columns) (flags : RosterFlags) :
    openingRecord o { number := k, top := n, crop := crop, flags := flags } = frameOpened o k n crop flags := rfl

/-- What the writes of an opening need: the part active, the new number and the numbers on record in the roster, and the roster
inside a window. -/
structure State.CanOpen (s : State) (o : ScanOrder) : Prop where
  access : s.accessBarred = false
  number : 1 ≤ s.tracker.nextFrame ∧ s.tracker.nextFrame ≤ o.expectedFrames
  roster : insideWindow s.bus.windows o.rosterAddress (o.expectedFrames * 640) = true
  records : ∀ r ∈ s.writer.records, 1 ≤ r.number ∧ r.number ≤ o.expectedFrames

theorem openFrameAt_eq (h : s.CanOpen o) (n : Nat) (crop : Columns) (flags : RosterFlags) :
    s.openFrameAt o n crop flags = s.opened o n crop flags := by
  unfold State.openFrameAt State.openRecord
  dsimp only
  rw [openingRecord_eq, fillLeading_eq (by exact h.access) (by exact h.roster)]
  · rfl
  · intro r hr
    rcases List.mem_append.1 hr with hr | hr
    · exact h.records r hr
    · rw [List.mem_singleton.1 hr]
      exact h.number

theorem baseFlags_eq {t : Tracker} {base : Base} (h : t.base = some base) : t.baseFlags = base.source.flags := by
  obtain ⟨r, g, b, source⟩ := base
  simp only [Tracker.baseFlags, h]
  cases source <;> rfl

/-- A frame opens with the crop columns of R74 and R80, and the tracker is in IMAGE. -/
theorem openFresh_eq {base : Base} (h : s.CanOpen o) (hb : s.tracker.base = some base) (n : Nat) :
    s.openFresh o n =
      (s.opened o n (openingCrop o s.tracker).1
        { base.source.flags with edgeFallback := (openingCrop o s.tracker).2 }).onTracker fun t =>
          { t with state := .image } := by
  unfold State.openFresh
  dsimp only
  rw [openFrameAt_eq h, baseFlags_eq hb]

/-- The verdict on the line on which a frame opens. -/
def State.openingVerdict (s : State) (crop : Columns) : Verdict :=
  { cls := .image, frame := some s.tracker.nextFrame, band := some crop }

/-! ### Between frames, in the leader, after a forced cut (R56, R57, R62, R65) -/

theorem transition_between (hs : s.tracker.state = .seek ∨ s.tracker.state = .gap) :
    s.transition o n line gap = s.betweenFrames o n line gap := by
  rcases hs with hs | hs <;> simp only [State.transition, hs]

theorem betweenFrames_opens {base : Base} (h : s.CanOpen o) (hb : s.tracker.base = some base) :
    s.betweenFrames o n line false =
      ((s.opened o n (openingCrop o s.tracker).1
        { base.source.flags with edgeFallback := (openingCrop o s.tracker).2 }).onTracker fun t =>
          { t with state := .image }, s.openingVerdict (openingCrop o s.tracker).1) := by
  unfold State.betweenFrames
  rw [if_neg Bool.false_ne_true, openFresh_eq h hb]
  rfl

theorem transition_leader (hs : s.tracker.state = .leader) : s.transition o n line gap = s.inLeader o n line gap := by
  simp only [State.transition, hs]

/-- The tracker with the base formed. -/
def State.baseFormed (s : State) (o : ScanOrder) : State := s.onTracker (Tracker.withBase o)

theorem inLeader_fallback {base : Base} (hb : (s.tracker.withBase o).base = some base) (hf : base.source = .fallback) :
    s.inLeader o n line false =
      ((s.baseFormed o).onTracker fun t => { t with state := .seek }, verdictOutside .leader) := by
  have falls : ((s.onTracker (Tracker.withBase o)).tracker.base.map Base.source) = some .fallback := by
    rw [State.onTracker_tracker, hb, Option.map_some, hf]
  unfold State.inLeader
  rw [if_neg Bool.false_ne_true]
  dsimp only
  rw [if_pos falls]
  rfl

/-- With a base of its own the leader ends like a gap. -/
theorem inLeader_opens {base : Base} (hb : (s.tracker.withBase o).base = some base) (hf : base.source ≠ .fallback) :
    s.inLeader o n line false = (s.baseFormed o).betweenFrames o n line false := by
  have stands : ¬ ((s.onTracker (Tracker.withBase o)).tracker.base.map Base.source) = some .fallback := by
    rw [State.onTracker_tracker, hb, Option.map_some, Option.some_inj]
    exact hf
  unfold State.inLeader
  rw [if_neg Bool.false_ne_true]
  dsimp only
  rw [if_neg stands]
  rfl

theorem State.CanOpen.baseFormed (h : s.CanOpen o) : (s.baseFormed o).CanOpen o := ⟨h.access, h.number, h.roster, h.records⟩

/-- After a forced cut the next line opens a frame with the carried crop, in IMAGE or in a run of its own. -/
theorem transition_cut {base : Base} {crop : Columns} (h : s.CanOpen o) (hs : s.tracker.state = .cut)
    (hb : s.tracker.base = some base) (hc : s.tracker.carried = some crop) :
    s.transition o n line gap =
      ((s.opened o n crop { base.source.flags with forcedCut := true, edgeCarried := true }).onTracker fun t =>
        if gap then { t with state := .gapRun, gapStart := some n, runCount := 1, carried := none }
        else { t with state := .image, carried := none }, s.openingVerdict crop) := by
  simp only [State.transition, hs, State.inCut, hc, Option.getD_some]
  rw [openFrameAt_eq h, baseFlags_eq hb]
  cases gap <;> rfl

theorem transition_trail (hs : s.tracker.state = .trail) :
    s.transition o n line gap = (s.onTracker fun t => { t with excess := t.excess + 1 }, verdictOutside .trail) := by
  simp only [State.transition, hs]

/-! ### In the open frame (R59, R60) -/

theorem insideVerdict_eq {fr : OpenFrame} (hf : s.tracker.openFrame = some fr) :
    s.tracker.insideVerdict = verdictInside fr := by
  simp only [Tracker.insideVerdict, hf]

/-- A line in IMAGE begins a run where it is gap-like, and may be the forced cut. -/
theorem transition_image {fr : OpenFrame} (hs : s.tracker.state = .image) (hf : s.tracker.openFrame = some fr) :
    s.transition o n line gap =
      ((if gap then s.onTracker fun t => { t with state := .gapRun, gapStart := some n, runCount := 1 } else s).cutTest o n
        line.isSome, verdictInside fr) := by
  simp only [State.transition, hs, State.inImage, insideVerdict_eq hf]

/-- A line that continues the run short of its confirmation. -/
theorem transition_gapRun_continues {fr : OpenFrame} (hs : s.tracker.state = .gapRun) (hf : s.tracker.openFrame = some fr)
    (hc : s.tracker.runCount + 1 < o.minGap) :
    s.transition o n line true =
      ((s.onTracker fun t => { t with runCount := t.runCount + 1 }).cutTest o n line.isSome, verdictInside fr) := by
  simp only [State.transition, hs, State.inGapRun, insideVerdict_eq hf, if_true, if_neg (Nat.not_le.2 hc)]

/-- An image-like line ends the run inside the frame. -/
theorem transition_gapRun_ends {fr : OpenFrame} (hs : s.tracker.state = .gapRun) (hf : s.tracker.openFrame = some fr) :
    s.transition o n line false =
      (((s.runResolved fr.number).onTracker fun t => { t with state := .image }).cutTest o n line.isSome,
        verdictInside fr) := by
  simp only [State.transition, hs, State.inGapRun, insideVerdict_eq hf, runStays_eq hf, Bool.false_eq_true, if_false]

/-- The run's last line confirms the gap. -/
theorem transition_gapRun_confirms (hs : s.tracker.state = .gapRun) (hc : o.minGap ≤ s.tracker.runCount + 1) :
    s.transition o n line true = (s.confirmGap o n line, verdictOutside .gap) := by
  simp only [State.transition, hs, State.inGapRun, if_true, if_pos hc]

/-! ### The gap confirmed (R60, R76) -/

/-- The column profile after a line has been offered. -/
def profileAfter (o : ScanOrder) (n : Nat) (line : Option (List Pixel)) (profile : List ProfileRecord) : List ProfileRecord :=
  match line with
  | none => profile
  | some samples => joinProfile o profile (profileRecord n samples)

theorem offer_eq (s : State) (o : ScanOrder) (n : Nat) (line : Option (List Pixel)) :
    s.offer o n line = s.onTracker fun t => { t with profile := profileAfter o n line t.profile } := by
  cases line <;> rfl

theorem foldl_offer (entries : List Entry) (s : State) (o : ScanOrder) :
    entries.foldl (fun s e => s.offer o e.line (some e.samples)) s =
      s.onTracker fun t =>
        { t with
          profile := entries.foldl (fun profile e => joinProfile o profile (profileRecord e.line e.samples)) t.profile } := by
  induction entries generalizing s with
  | nil => rfl
  | cons e entries ih =>
    rw [List.foldl_cons, ih, offer_eq]
    rfl

/-- The column profile after those of the entries have been offered that are complete and lie from `start` on. -/
def runProfile (o : ScanOrder) (start : Nat) (entries : List Entry) (profile : List ProfileRecord) : List ProfileRecord :=
  (entries.filter fun e => e.complete && decide (start ≤ e.line)).foldl
    (fun profile e => joinProfile o profile (profileRecord e.line e.samples)) profile

theorem offerRun_eq (s : State) (o : ScanOrder) (start : Nat) :
    s.offerRun o start = s.onTracker fun t => { t with profile := runProfile o start s.store.pending t.profile } :=
  foldl_offer _ s o

/-- A line that leaves the frame keeps its number and its samples, so the same lines are offered. -/
theorem runProfile_of_left (o : ScanOrder) (start : Nat) (entries : List Entry) (profile : List ProfileRecord) :
    runProfile o start (entries.map fun e => if start ≤ e.line then { e with cls := .gap, frame := none } else e) profile =
      runProfile o start entries profile := by
  unfold runProfile
  induction entries generalizing profile with
  | nil => rfl
  | cons e entries ih => by_cases hl : start ≤ e.line <;> by_cases hc : e.complete = true <;> simp [hl, hc, ih]

/-- The run's lines have left the frame and, with line `n`, have been offered to the column profile. -/
def State.runLeft (s : State) (o : ScanOrder) (n start : Nat) (line : Option (List Pixel)) : State :=
  (s.runLeaves start).onTracker fun t =>
    { t with profile := profileAfter o n line (runProfile o start s.store.pending t.profile) }

theorem offer_offerRun_runLeaves (s : State) (o : ScanOrder) (n start : Nat) (line : Option (List Pixel)) :
    ((s.runLeaves start).offerRun o start).offer o n line = s.runLeft o n start line := by
  rw [offer_eq, offerRun_eq, State.runLeft, runLeaves_eq]
  simp only [runProfile_of_left]
  rfl

theorem confirmGap_eq {fr : OpenFrame} {start : Nat} (hf : s.tracker.openFrame = some fr)
    (hg : s.tracker.gapStart = some start) :
    s.confirmGap o n line =
      ((s.runLeft o n start line).closeFrame o (start - 1) {} false).onTracker fun t =>
        { t with
          state := if o.minFrame ≤ start - 1 + 1 - fr.top ∧ fr.number = o.expectedFrames then .trail else .gap } := by
  have after : stateAfterClose o s.tracker (start - 1) .gap =
      if o.minFrame ≤ start - 1 + 1 - fr.top ∧ fr.number = o.expectedFrames then .trail else .gap := by
    simp [stateAfterClose, hf, isSliver]
  unfold State.confirmGap
  dsimp only
  rw [hg, Option.getD_some, offer_offerRun_runLeaves, after]

/-! ### The writer does not look at the tracker -/

theorem issue_onTracker (s : State) (w : BusWrite) (f : Tracker → Tracker) :
    (s.onTracker f).issue w = (s.issue w).onTracker f := by
  have barred : (s.onTracker f).accessBarred = s.accessBarred := rfl
  have passes : (s.onTracker f).passesCheck w = s.passesCheck w := rfl
  unfold State.issue
  rw [barred, passes]
  split
  · rfl
  · split <;> rfl

theorem issueAll_onTracker (s : State) (ws : List BusWrite) (f : Tracker → Tracker) :
    (s.onTracker f).issueAll ws = (s.issueAll ws).onTracker f :=
  List.foldl_hom (State.onTracker · f) fun s w => issue_onTracker s w f

theorem writeOwner_onTracker (s : State) (i k : Nat) (w : Owner) (pace : Pace) (f : Tracker → Tracker) :
    (s.onTracker f).writeOwner i k w pace = (s.writeOwner i k w pace).onTracker f :=
  congrArg (State.onWriter · _) (issue_onTracker s _ f)

theorem releasePlates_onTracker (s : State) (k : Nat) (w : Owner) (plates : List PlateListEntry) (f : Tracker → Tracker) :
    (s.onTracker f).releasePlates k w plates = (s.releasePlates k w plates).onTracker f := by
  refine List.foldl_hom (State.onTracker · f) fun s e => ?_
  by_cases h : lastOwner s.writer.owners e.index = some .taken
  · rw [if_pos h, if_pos (by exact h), writeOwner_onTracker]
  · rw [if_neg h, if_neg (by exact h)]

theorem fillLeading_onTracker (s : State) (o : ScanOrder) (f : Tracker → Tracker) :
    (s.onTracker f).fillLeading o = (s.fillLeading o).onTracker f := by
  unfold State.fillLeading
  rw [State.onTracker_writer]
  cases s.writer.records with
  | nil => rfl
  | cons r rest =>
    dsimp only
    split
    · rfl
    · generalize fillingWrites o r = ws
      rw [issueAll_onTracker]
      rfl

theorem completeRecord_onTracker (s : State) (o : ScanOrder) (r : FrameRecord) (rest : List FrameRecord)
    (f : Tracker → Tracker) : (s.onTracker f).completeRecord o r rest = (s.completeRecord o r rest).onTracker f := by
  have tally : ∀ s : State, (s.onTracker f).issueFramesTally = s.issueFramesTally.onTracker f := fun s =>
    issue_onTracker (s.onOrder fun u => { u with framesTally := u.framesTally + 1 }) _ f
  unfold State.completeRecord State.issueRosterState
  rw [issueAll_onTracker, releasePlates_onTracker, issue_onTracker, tally, ← fillLeading_onTracker]
  rfl

theorem completeFrom_onTracker (fuel : Nat) (s : State) (o : ScanOrder) (f : Tracker → Tracker) :
    completeFrom o fuel (s.onTracker f) = (completeFrom o fuel s).onTracker f := by
  induction fuel generalizing s with
  | zero => rfl
  | succ fuel ih =>
    rw [completeFrom, completeFrom, State.onTracker_writer, State.onTracker_store]
    cases s.writer.records with
    | nil => rfl
    | cons r rest =>
      dsimp only
      split
      · rw [completeRecord_onTracker, ih]
      · rfl

theorem completeFrames_onTracker (s : State) (o : ScanOrder) (f : Tracker → Tracker) :
    (s.onTracker f).completeFrames o = (s.completeFrames o).onTracker f := completeFrom_onTracker _ s o f

/-- A frame of at least `min_frame` lines closes alike in every tracker state. -/
theorem closeFrame_withState {fr : OpenFrame} {last : Nat} (hf : s.tracker.openFrame = some fr)
    (hm : o.minFrame ≤ last + 1 - fr.top) (closing : RosterFlags) (held : Bool) (x : TrackerState) :
    (s.onTracker fun t => { t with state := x }).closeFrame o last closing held =
      (s.closeFrame o last closing held).onTracker fun t => { t with state := x } := by
  rw [closeFrame_of_le hf hm, closeFrame_of_le (by exact hf) hm]
  cases held with
  | true => rfl
  | false =>
    rw [if_neg Bool.false_ne_true, if_neg Bool.false_ne_true, ← completeFrames_onTracker]
    rfl

/-! ### The forced cut (R61, R81) -/

/-- The forced cut on line `n`: the run is resolved into the frame, the frame closes, and its crop is carried (log 33). -/
def State.cutAt (s : State) (o : ScanOrder) (fr : OpenFrame) (n : Nat) (held : Bool) : State :=
  ((s.runResolved fr.number).closeFrame o n { forcedCut := true } held).onTracker fun t =>
    { t with state := if fr.number = o.expectedFrames then .trail else .cut, carried := some fr.crop }

/-- A state whose run resolves to what that of `s` does, whatever state its tracker is in, is cut as `s` is. -/
theorem cutTest_of_resolved {u : State} {fr : OpenFrame} {x : TrackerState} (hu : u.tracker.openFrame = some fr)
    (hf : s.tracker.openFrame = some fr)
    (hr : u.runResolved fr.number = (s.runResolved fr.number).onTracker fun t => { t with state := x })
    (hn : o.pitch + o.tol ≤ n + 1 - fr.top) (hm : o.minFrame ≤ n + 1 - fr.top) (held : Bool) :
    u.cutTest o n held = s.cutAt o fr n held := by
  have after : stateAfterClose o u.tracker n .cut = if fr.number = o.expectedFrames then .trail else .cut := by
    simp [stateAfterClose, hu, isSliver, Nat.not_lt.2 hm]
  have open_resolved : (s.runResolved fr.number).tracker.openFrame = some fr := hf
  unfold State.cutTest State.cutAt
  rw [hu]
  dsimp only
  rw [if_pos hn, after, runStays_eq hu, hr, closeFrame_withState open_resolved hm]
  rfl

/-- A run once resolved has no merged lines left. -/
theorem runResolved_runResolved (s : State) (k : Nat) : (s.runResolved k).runResolved k = s.runResolved k := by
  have again : ((s.runResolved k).runResolved k).writer = (s.runResolved k).writer := by
    simpa [State.runResolved] using onRecord_self (s.runResolved k).writer k
  calc (s.runResolved k).runResolved k
      = { s.runResolved k with writer := ((s.runResolved k).runResolved k).writer } := rfl
    _ = s.runResolved k := by rw [again]

/-- A line at the length of the forced cut that does not confirm a gap. -/
theorem transition_cuts {fr : OpenFrame} (hf : s.tracker.openFrame = some fr) (hn : o.pitch + o.tol ≤ n + 1 - fr.top)
    (hm : o.minFrame ≤ n + 1 - fr.top)
    (hs : s.tracker.state = .image ∨ (s.tracker.state = .gapRun ∧ (gap = false ∨ s.tracker.runCount + 1 < o.minGap))) :
    s.transition o n line gap = (s.cutAt o fr n line.isSome, verdictInside fr) := by
  rcases hs with hs | ⟨hs, hg⟩
  · rw [transition_image hs hf]
    cases gap with
    | true => rw [if_pos rfl, cutTest_of_resolved (x := .gapRun) (by exact hf) hf rfl hn hm]
    | false => rw [if_neg Bool.false_ne_true, cutTest_of_resolved (x := s.tracker.state) hf hf rfl hn hm]
  · cases gap with
    | true =>
      have short : s.tracker.runCount + 1 < o.minGap := hg.resolve_left nofun
      rw [transition_gapRun_continues hs hf short, cutTest_of_resolved (x := s.tracker.state) (by exact hf) hf rfl hn hm]
    | false =>
      have resolved := congrArg (State.onTracker · fun t => { t with state := .image }) (runResolved_runResolved s fr.number)
      rw [transition_gapRun_ends hs hf, cutTest_of_resolved (x := .image) (by exact hf) hf (by exact resolved) hn hm]

end Sys2Proof.Machine

namespace Sys2Proof.Proofs
open Sys2Proof.Machine

/-- Settles O29: the tracker's states one by one, and in the open frame by the length of the frame and of the run. -/
theorem trackerTransitions : Obligations.TrackerTransitions := by
  intro s o n line gap opens outside image
  refine ⟨transition_between, transition_trail, fun hset hact h1 h2 hi hr => ?_, fun fr hf => ?_⟩
  · have can : s.CanOpen o := ⟨accessBarred_eq_false hact.2 hact.1 hset, ⟨h1, h2⟩, hi, hr⟩
    intro fresh
    refine ⟨fun base hs hb => ?_, fun base hs hb => ?_, fun base crop hs hb hc => ?_⟩
    · rw [transition_between hs, betweenFrames_opens can hb]
      exact ⟨rfl, rfl⟩
    · rw [transition_leader hs]
      refine ⟨inLeader_fallback hb, fun hne => ?_⟩
      rw [inLeader_opens hb hne, betweenFrames_opens can.baseFormed hb]
      exact ⟨rfl, rfl⟩
    · rw [transition_cut can hs hb hc]
      exact ⟨rfl, rfl⟩
  · intro inside resolved
    refine ⟨fun hn => ⟨fun hs => ⟨?_, ?_⟩, fun hs hc => ?_, fun hs => ?_⟩, fun hn hm hs => transition_cuts hf hn hm hs,
      fun start hs hc hg => ?_⟩
    · rw [transition_image hs hf, if_pos rfl, cutTest_of_lt (by exact hf) hn]
      rfl
    · rw [transition_image hs hf, if_neg Bool.false_ne_true, cutTest_of_lt hf hn]
      rfl
    · rw [transition_gapRun_continues hs hf hc, cutTest_of_lt (by exact hf) hn]
      rfl
    · rw [transition_gapRun_ends hs hf, cutTest_of_lt (by exact hf) hn]
      rfl
    · intro inRun offered left closed
      have left_eq : s.runLeft o n start line = left := by
        rw [State.runLeft, runLeaves_eq]
        simp only [left, inRun, decide_eq_true_eq]
        cases line <;> rfl
      rw [transition_gapRun_confirms hs hc, confirmGap_eq hf hg, left_eq]
      rfl

end Sys2Proof.Proofs
end

section
/-! SUPPORT. The crop columns of a frame: the widening of a narrow pair, the film columns of the profile, and the two edges that
the search finds in them (R74, R75, R78 to R80). -/
namespace Sys2Proof.Machine

/-! ### The FIXED columns and the widening (R74, R75) -/

/-- The first of 16 columns centred on a pair, which may lie crosswise (R75). -/
def widenedLeft (left right : Int) : Nat := if left + right < 15 then 0 else ((left + right - 15) / 2).toNat

/-- The 16 columns centred on a pair, moved inside the sensor where they pass its end (R75). -/
def centred (width : Nat) (left right : Int) : Columns :=
  if width - 1 < widenedLeft left right + 15 then { left := width - 16, right := width - 1 }
  else { left := widenedLeft left right, right := widenedLeft left right + 15 }

theorem widen_of_le {left right : Int} (h : left + 15 ≤ right) (width : Nat) :
    widen width left right = { left := left.toNat, right := right.toNat } :=
  if_pos (by omega)

theorem widen_of_lt {left right : Int} (h : right < left + 15) (width : Nat) :
    widen width left right = centred width left right :=
  if_neg (by omega)

/-- The 16 columns are inside a sensor that has as many. -/
theorem centred_inside {width : Nat} (h : 16 ≤ width) (left right : Int) :
    (centred width left right).left + 15 = (centred width left right).right
      ∧ (centred width left right).right < width := by
  unfold centred
  split <;> dsimp only <;> omega

variable {o : ScanOrder} {t : Tracker}

theorem fixedCrop_of_le (h : o.defaultLeft + o.insetLeft + 15 + o.insetRight ≤ o.defaultRight) :
    fixedCrop o = { left := o.defaultLeft + o.insetLeft, right := o.defaultRight - o.insetRight } := by
  have hl : ((o.defaultLeft : Int) + o.insetLeft).toNat = o.defaultLeft + o.insetLeft := by omega
  have hr : ((o.defaultRight : Int) - o.insetRight).toNat = o.defaultRight - o.insetRight := by omega
  rw [fixedCrop, widen_of_le (by omega), hl, hr]

theorem fixedCrop_of_lt (h : o.defaultRight < o.defaultLeft + o.insetLeft + 15 + o.insetRight) :
    fixedCrop o = centred o.width (o.defaultLeft + o.insetLeft : Nat) ((o.defaultRight : Int) - o.insetRight) :=
  widen_of_lt (by omega) _

theorem fixedCrop_inside (hw : 16 ≤ o.width) (hd : o.defaultRight < o.width) :
    (fixedCrop o).left + 15 ≤ (fixedCrop o).right ∧ (fixedCrop o).right < o.width := by
  by_cases h : o.defaultLeft + o.insetLeft + 15 + o.insetRight ≤ o.defaultRight
  · rw [fixedCrop_of_le h]
    dsimp only
    omega
  · rw [fixedCrop_of_lt (Nat.lt_of_not_le h)]
    obtain ⟨sixteen, inside⟩ := centred_inside hw (o.defaultLeft + o.insetLeft : Nat) ((o.defaultRight : Int) - o.insetRight)
    exact ⟨Nat.le_of_eq sixteen, inside⟩

/-! ### The film columns (R78) -/

variable {width level : Nat} {profile : List ProfileRecord}

/-- The sums of the columns, from those of the records before. -/
theorem foldl_addColumns_eq (sums : List Nat) (hs : sums.length = width)
    (h : ∀ record ∈ profile, record.greens.length = width) :
    profile.foldl (fun sums record => addColumns sums record.greens) sums =
      (List.range width).map fun c => sums.getD c 0 + (profile.map fun record => record.greens.getD c 0).sum := by
  induction profile generalizing sums with
  | nil =>
    refine List.ext_getElem (by simp [hs]) fun c hc _ => ?_
    have hc : c < sums.length := hc
    simp [hc]
  | cons record profile ih =>
    obtain ⟨hrecord, hrest⟩ := List.forall_mem_cons.1 h
    rw [List.foldl_cons, ih _ (by simp [addColumns, hs, hrecord]) hrest]
    refine List.map_congr_left fun c hc => ?_
    have hc : c < width := List.mem_range.1 hc
    simp [addColumns, hs, hrecord, hc, Nat.add_assoc]

theorem filmColumns_getElem?_eq_true_iff (h : ∀ record ∈ profile, record.greens.length = width) (c : Nat) :
    (filmColumns width level profile)[c]? = some true ↔ filmAt width level profile c := by
  rw [filmColumns, columnMeans, foldl_addColumns_eq _ List.length_replicate h, filmAt]
  by_cases hc : c < width <;> simp [hc]

/-! ### The edges (R79) -/

/-- At place `c` of the columns begins a run of `run` film columns. -/
def HasRun (run : Nat) (film : List Bool) (c : Nat) : Prop := ∀ k, k < run → film[c + k]? = some true

theorem hasRun_filmColumns_iff (h : ∀ record ∈ profile, record.greens.length = width) (run c : Nat) :
    HasRun run (filmColumns width level profile) c ↔ ∀ k, k < run → filmAt width level profile (c + k) :=
  forall₂_congr fun k _ => filmColumns_getElem?_eq_true_iff h (c + k)

variable {run : Nat} {film : List Bool}

/-- The test of the search at the place where it stands. -/
theorem take_all_iff_hasRun (run : Nat) (film : List Bool) :
    ((film.take run).length = run ∧ (film.take run).all id) ↔ HasRun run film 0 := by
  have replicated : ((film.take run).length = run ∧ (film.take run).all id) ↔ film.take run = List.replicate run true := by
    simp [List.eq_replicate_iff]
  rw [replicated]
  refine ⟨fun h k hk => ?_, fun h => List.ext_getElem? fun k => ?_⟩
  · rw [Nat.zero_add, ← List.getElem?_take_of_lt hk, h, List.getElem?_replicate_of_lt hk]
  · by_cases hk : k < run
    · rw [List.getElem?_take_of_lt hk, List.getElem?_replicate_of_lt hk, ← h k hk, Nat.zero_add]
    · simp [hk]

theorem hasRun_cons_succ (b : Bool) (c : Nat) : HasRun run (b :: film) (c + 1) ↔ HasRun run film c := by
  simp only [HasRun, Nat.add_right_comm c 1, List.getElem?_cons_succ]

theorem HasRun.le_length {c : Nat} (hr : 1 ≤ run) (h : HasRun run film c) : c + run ≤ film.length := by
  obtain ⟨hlast, -⟩ := List.getElem?_eq_some_iff.1 (h (run - 1) (by omega))
  omega

theorem firstRun_of_hasRun {b : Bool} {bs : List Bool} (h : HasRun run (b :: bs) 0) (c : Nat) :
    firstRun run c (b :: bs) = some c :=
  if_pos ((take_all_iff_hasRun run (b :: bs)).2 h)

theorem firstRun_of_not_hasRun {b : Bool} {bs : List Bool} (h : ¬ HasRun run (b :: bs) 0) (c : Nat) :
    firstRun run c (b :: bs) = firstRun run (c + 1) bs :=
  if_neg fun passed => h ((take_all_iff_hasRun run (b :: bs)).1 passed)

/-- The search from the left finds the first run. -/
theorem firstRun_eq_some {i : Nat} (hr : 1 ≤ run) (h : HasRun run film i) (hmin : ∀ j, j < i → ¬ HasRun run film j) (c : Nat) :
    firstRun run c film = some (c + i) := by
  induction film generalizing c i with
  | nil => exact absurd (h.le_length hr) (by simp; omega)
  | cons b bs ih =>
    cases i with
    | zero => exact firstRun_of_hasRun h c
    | succ i =>
      have later := ih ((hasRun_cons_succ b i).1 h)
        (fun j hj hrun => hmin (j + 1) (Nat.succ_lt_succ hj) ((hasRun_cons_succ b j).2 hrun)) (c + 1)
      rw [firstRun_of_not_hasRun (hmin 0 i.succ_pos), later, Nat.add_assoc, Nat.add_comm 1]

theorem firstRun_eq_none (h : ∀ i, ¬ HasRun run film i) (c : Nat) : firstRun run c film = none := by
  induction film generalizing c with
  | nil => rfl
  | cons b bs ih =>
    rw [firstRun_of_not_hasRun (h 0)]
    exact ih (fun i hrun => h (i + 1) ((hasRun_cons_succ b i).2 hrun)) _

/-- A run read from the right is a run, and it begins at its other end. -/
theorem hasRun_of_reverse {c : Nat} (hr : 1 ≤ run) (h : HasRun run film.reverse c) :
    HasRun run film (film.length - run - c) := by
  intro k hk
  have hle : c + run ≤ film.length := by simpa using h.le_length hr
  have mirrored := h (run - 1 - k) (by omega)
  rw [List.getElem?_reverse (by omega)] at mirrored
  rw [← mirrored]
  congr 1
  omega

theorem HasRun.reverse {c : Nat} (hr : 1 ≤ run) (h : HasRun run film c) :
    HasRun run film.reverse (film.length - run - c) := by
  simpa using hasRun_of_reverse (film := film.reverse) hr (by simpa using h)

/-- The edges are the outer ends of the first run and of the last. -/
theorem filmEdges_eq_some {left first : Nat} (hr : 1 ≤ run) (hl : HasRun run film left)
    (hlmin : ∀ c, c < left → ¬ HasRun run film c) (hf : HasRun run film first)
    (hfmax : ∀ c, first < c → ¬ HasRun run film c) : filmEdges run film = some (left, first + run - 1) := by
  have hle : first + run ≤ film.length := hf.le_length hr
  have fromLeft := firstRun_eq_some hr hl hlmin 0
  have fromRight := firstRun_eq_some hr (hf.reverse hr)
    (fun j hj hrun => hfmax _ (by omega) (hasRun_of_reverse hr hrun)) 0
  have mirrored : film.length - 1 - (0 + (film.length - run - first)) = first + run - 1 := by omega
  rw [filmEdges, fromLeft, fromRight, ← mirrored, Nat.zero_add left]

theorem filmEdges_eq_none (h : ∀ c, ¬ HasRun run film c) : filmEdges run film = none := by
  rw [filmEdges, firstRun_eq_none h]

/-! ### The EDGE columns and the fallback (R80) -/

theorem edgeCrop_of_few (h : profile.length < 4) (o : ScanOrder) (level : Nat) : edgeCrop o level profile = none := if_pos h

theorem edgeCrop_of_no_edges (h : filmEdges o.edgeRun (filmColumns o.width level profile) = none) :
    edgeCrop o level profile = none := by
  rw [edgeCrop, h, ite_self]

section edges

variable {left right : Nat} (h4 : 4 ≤ profile.length)
  (h : filmEdges o.edgeRun (filmColumns o.width level profile) = some (left, right))
include h4 h

theorem edgeCrop_of_wide (hw : left + o.insetLeft + 15 + o.insetRight ≤ right) :
    edgeCrop o level profile = some { left := left + o.insetLeft, right := right - o.insetRight } := by
  rw [edgeCrop, if_neg (Nat.not_lt.2 h4), h]
  exact if_pos (by omega)

theorem edgeCrop_of_narrow (hn : right < left + o.insetLeft + 15 + o.insetRight) : edgeCrop o level profile = none := by
  rw [edgeCrop, if_neg (Nat.not_lt.2 h4), h]
  exact if_neg (by omega)

end edges

theorem openingCrop_of_fixed (hm : o.cropMode = .fixed) : openingCrop o t = (fixedCrop o, false) := by
  rw [openingCrop, hm]

theorem openingCrop_of_found {crop : Columns} (hm : o.cropMode = .edge) (hl : t.gapLevel = some level)
    (h : edgeCrop o level t.profile = some crop) : openingCrop o t = (crop, false) := by
  rw [openingCrop, hm, hl, Option.getD_some, h]

/-- Where the search gives no columns the frame takes the FIXED columns, with EDGE_FALLBACK. -/
theorem openingCrop_of_not_found (hm : o.cropMode = .edge) (hl : t.gapLevel = some level)
    (h : edgeCrop o level t.profile = none) : openingCrop o t = (fixedCrop o, true) := by
  rw [openingCrop, hm, hl, Option.getD_some, h]

end Sys2Proof.Machine

namespace Sys2Proof.Proofs
open Sys2Proof.Machine

/-- Settles O33: the FIXED columns by the width of the pair, and the EDGE columns by what the search finds in the profile. -/
theorem fixedCropInside : Obligations.FixedCropInside := by
  refine ⟨fun o hw _ hd => ?_, fun o t => ⟨openingCrop_of_fixed, fun level hm hl hr hg => ?_⟩⟩
  · obtain ⟨sixteen, inside⟩ := fixedCrop_inside (Nat.le_trans (by decide) hw) hd
    exact ⟨sixteen, inside, fixedCrop_of_le, fixedCrop_of_lt⟩
  · intro film run
    have run_iff : ∀ c, HasRun o.edgeRun (filmColumns o.width level t.profile) c ↔ run c :=
      hasRun_filmColumns_iff hg o.edgeRun
    refine ⟨fun h => openingCrop_of_not_found hm hl ?_, fun left first h4 hleft hlmin hfirst hfmax => ?_⟩
    · rcases h with few | none_runs
      · exact edgeCrop_of_few few o level
      · exact edgeCrop_of_no_edges (filmEdges_eq_none fun c hrun => none_runs c ((run_iff c).1 hrun))
    · intro right
      have edges : filmEdges o.edgeRun (filmColumns o.width level t.profile) = some (left, right) :=
        filmEdges_eq_some hr ((run_iff left).2 hleft) (fun c hc hrun => hlmin c hc ((run_iff c).1 hrun))
          ((run_iff first).2 hfirst) (fun c hc hrun => hfmax c hc ((run_iff c).1 hrun))
      exact ⟨fun wide => openingCrop_of_found hm hl (edgeCrop_of_wide h4 edges wide),
        fun narrow => openingCrop_of_not_found hm hl (edgeCrop_of_narrow h4 edges narrow)⟩

end Sys2Proof.Proofs
end

section
/-! SUPPORT. The Defect Mapper by its parts: the columns that it marks, the reference that it moves, the spans of a set of columns,
and the joining of neighbours above 24 spans (R90 to R96). -/
namespace Sys2Proof.Machine

/-! ### The defect test and the IR reference (R90 to R92) -/

section columns
variable {thr : Nat} {band : Columns} {faults : List Nat}

theorem isTested_iff {c : Nat} : isTested band faults c = true ↔ band.left ≤ c ∧ c ≤ band.right ∧ c ∉ faults := by
  simp [isTested, and_assoc]

theorem isDefect_iff {ref i : Nat} : isDefect thr ref i = true ↔ i * 256 < ref * thr := by
  unfold isDefect
  exact decide_eq_true_iff

/-- The element at the head of a reference, 0 where none is listed, is that of its first column. -/
theorem headD_eq_getD (ref : List Nat) : ref.headD 0 = ref.getD 0 0 := by cases ref <;> rfl

/-- Column `i` of the rest of a reference is the next one of the whole. -/
theorem getD_tail (ref : List Nat) (i : Nat) : ref.tail.getD i 0 = ref.getD (i + 1) 0 := by
  simp only [List.getD_eq_getElem?_getD, List.getElem?_tail]

theorem mem_defectColumns {c k : Nat} {samples : List Pixel} {ref : List Nat} :
    c ∈ defectColumns thr band faults k samples ref ↔
      isTested band faults c = true
        ∧ ∃ i p, samples[i]? = some p ∧ c = k + i ∧ isDefect thr (ref.getD i 0) p.ir.toNat = true := by
  induction samples generalizing k ref with
  | nil => simp [defectColumns]
  | cons sample rest ih =>
    have split_first :
        (∃ i p, (sample :: rest)[i]? = some p ∧ c = k + i ∧ isDefect thr (ref.getD i 0) p.ir.toNat = true)
          ↔ (c = k ∧ isDefect thr (ref.getD 0 0) sample.ir.toNat = true)
            ∨ ∃ i p, rest[i]? = some p ∧ c = k + 1 + i ∧ isDefect thr (ref.tail.getD i 0) p.ir.toNat = true := by
      simp only [getD_tail]
      constructor
      · rintro ⟨_ | i, p, hi, hc, hd⟩
        · rw [List.getElem?_cons_zero, Option.some_inj] at hi
          exact .inl ⟨hc, hi ▸ hd⟩
        · exact .inr ⟨i, p, hi, by omega, hd⟩
      · rintro (⟨hc, hd⟩ | ⟨i, p, hi, hc, hd⟩)
        · exact ⟨0, sample, rfl, hc, hd⟩
        · exact ⟨i + 1, p, hi, by omega, hd⟩
    rw [split_first, defectColumns, headD_eq_getD]
    split
    · rename_i marked
      obtain ⟨tested, defect⟩ := Bool.and_eq_true_iff.1 marked
      rw [List.mem_cons, ih]
      constructor
      · rintro (rfl | ⟨ht, later⟩)
        · exact ⟨tested, .inl ⟨rfl, defect⟩⟩
        · exact ⟨ht, .inr later⟩
      · rintro ⟨ht, ⟨hc, -⟩ | later⟩
        · exact .inl hc
        · exact .inr ⟨ht, later⟩
    · rename_i unmarked
      rw [ih]
      refine and_congr_right fun ht => ⟨.inr, fun h => h.resolve_left ?_⟩
      rintro ⟨rfl, hd⟩
      exact unmarked (Bool.and_eq_true_iff.2 ⟨ht, hd⟩)

/-- Each column moves by its own test, whatever the others do. -/
theorem getElem?_updateReference {k i : Nat} {row : List Pixel} {p : Pixel} (ref : List Nat) (hp : row[i]? = some p) :
    (updateReference thr band faults k row ref)[i]? =
      some (if isTested band faults (k + i) && !isDefect thr (ref.getD i 0) p.ir.toNat then
        moveReference (ref.getD i 0) p.ir.toNat else ref.getD i 0) := by
  induction row generalizing k i ref with
  | nil => cases hp
  | cons sample rest ih =>
    rw [updateReference]
    cases i with
    | zero =>
      rw [List.getElem?_cons_zero, Option.some_inj] at hp
      rw [List.getElem?_cons_zero, headD_eq_getD, hp, Nat.add_zero]
    | succ i =>
      rw [List.getElem?_cons_succ] at hp
      rw [List.getElem?_cons_succ, ih ref.tail hp, getD_tail, Nat.add_right_comm, Nat.add_assoc]

end columns

/-! ### The columns that spans cover -/

/-- A column lies in one of the spans. -/
def Covered (ps : List Span) (c : Nat) : Prop := ∃ p ∈ ps, p.covers c = true

theorem covers_iff {p : Span} {c : Nat} : p.covers c = true ↔ p.start ≤ c ∧ c < p.start + p.length := by
  simp [Span.covers]

theorem spanAt_isSome_iff {ps : List Span} {c : Nat} : (spanAt ps c).isSome = true ↔ Covered ps c := by
  simp [spanAt, Covered]

theorem covered_cons {p : Span} {ps : List Span} {c : Nat} : Covered (p :: ps) c ↔ p.covers c = true ∨ Covered ps c := by
  simp [Covered]

theorem covered_append {ps qs : List Span} {c : Nat} : Covered (ps ++ qs) c ↔ Covered ps c ∨ Covered qs c := by
  simp [Covered, or_and_right, exists_or]

/-- Spans of a band as the store keeps them: rising, none touching, none empty, each inside (R95, R97). -/
structure Tidy (band : Columns) (ps : List Span) : Prop where
  apart : ps.Pairwise fun p q => p.start + p.length < q.start
  inside : ∀ p ∈ ps, 0 < p.length ∧ band.left ≤ p.start ∧ p.start + p.length ≤ band.right + 1

/-! ### The maximal runs of columns (R93, R95) -/

/-- A column goes before the runs of those above it: it lengthens the first run, or is a run of its own. -/
theorem runsOf_cons (c : Nat) (cs : List Nat) :
    (∃ p ps, runsOf cs = p :: ps ∧ p.start = c + 1 ∧ runsOf (c :: cs) = { start := c, length := p.length + 1 } :: ps)
      ∨ ((∀ p ∈ (runsOf cs).head?, p.start ≠ c + 1) ∧ runsOf (c :: cs) = { start := c, length := 1 } :: runsOf cs) := by
  rw [runsOf]
  cases runsOf cs with
  | nil => exact .inr ⟨by simp, rfl⟩
  | cons p ps =>
    by_cases h : p.start = c + 1
    · exact .inl ⟨p, ps, rfl, h, if_pos h⟩
    · exact .inr ⟨by simpa using h, if_neg h⟩

theorem covered_runsOf {cs : List Nat} {x : Nat} : Covered (runsOf cs) x ↔ x ∈ cs := by
  induction cs with
  | nil => simp [Covered, runsOf]
  | cons c cs ih =>
    rw [List.mem_cons, ← ih]
    obtain ⟨p, ps, hr, hs, h⟩ | ⟨-, h⟩ := runsOf_cons c cs
    · rw [h, hr, covered_cons, covered_cons, covers_iff, covers_iff, ← or_assoc]
      refine or_congr_left ?_
      dsimp only
      omega
    · rw [h, covered_cons, covers_iff]
      refine or_congr_left ?_
      dsimp only
      omega

theorem length_pos_of_mem_runsOf {cs : List Nat} {p : Span} (hp : p ∈ runsOf cs) : 0 < p.length := by
  induction cs generalizing p with
  | nil => cases hp
  | cons c cs ih =>
    obtain ⟨q, qs, hr, -, h⟩ | ⟨-, h⟩ := runsOf_cons c cs <;> rw [h, List.mem_cons] at hp
    · rcases hp with rfl | hp
      · exact Nat.succ_pos _
      · exact ih (hr ▸ List.mem_cons_of_mem _ hp)
    · rcases hp with rfl | hp
      · exact Nat.one_pos
      · exact ih hp

/-- The first and the last column of a run are columns of the list. -/
theorem ends_mem_of_mem_runsOf {cs : List Nat} {p : Span} (hp : p ∈ runsOf cs) :
    p.start ∈ cs ∧ p.start + p.length - 1 ∈ cs := by
  have pos := length_pos_of_mem_runsOf hp
  exact ⟨covered_runsOf.1 ⟨p, hp, covers_iff.2 (by omega)⟩, covered_runsOf.1 ⟨p, hp, covers_iff.2 (by omega)⟩⟩

/-- The runs of rising columns do not touch. -/
theorem pairwise_runsOf {cs : List Nat} (hs : cs.Pairwise (· < ·)) :
    (runsOf cs).Pairwise fun p q => p.start + p.length < q.start := by
  induction hs with
  | nil => exact .nil
  | @cons c cs below _ ih =>
    obtain ⟨p, ps, hr, hstart, h⟩ | ⟨apart, h⟩ := runsOf_cons c cs
    · rw [hr] at ih
      obtain ⟨first, rest⟩ := List.pairwise_cons.1 ih
      rw [h]
      refine .cons (fun q hq => ?_) rest
      have := first q hq
      dsimp only
      omega
    · rw [h]
      refine .cons (fun q hq => ?_) ih
      have above : c < q.start := below _ (ends_mem_of_mem_runsOf hq).1
      have not_next : q.start ≠ c + 1 := by
        cases hr : runsOf cs with
        | nil =>
          rw [hr] at hq
          cases hq
        | cons p ps =>
          have p_apart : p.start ≠ c + 1 := apart p (by rw [hr]; rfl)
          have p_above : c < p.start := below _ (ends_mem_of_mem_runsOf (hr ▸ List.mem_cons_self)).1
          rw [hr] at hq ih
          rcases List.mem_cons.1 hq with rfl | hq
          · exact p_apart
          · have := (List.pairwise_cons.1 ih).1 q hq
            omega
      dsimp only
      omega

/-! ### Growth, faulted spans and union (R93 to R95) -/

theorem growSpan_covers_iff {growth : Nat} {band : Columns} {p : Span} {c : Nat} (hp : 0 < p.length) :
    (growSpan growth band p).covers c = true ↔
      band.left ≤ c ∧ c ≤ band.right ∧ ∃ d, p.covers d = true ∧ d ≤ c + growth ∧ c ≤ d + growth := by
  simp only [covers_iff, growSpan, Span.last]
  constructor
  · intro h
    exact ⟨by omega, by omega, max p.start (min c (p.start + p.length - 1)), by omega, by omega, by omega⟩
  · rintro ⟨hl, hr, d, hd, hdc, hcd⟩
    omega

theorem covered_grown {growth : Nat} {band : Columns} {cs : List Nat} {c : Nat} :
    Covered ((runsOf cs).map (growSpan growth band)) c ↔
      band.left ≤ c ∧ c ≤ band.right ∧ ∃ d ∈ cs, d ≤ c + growth ∧ c ≤ d + growth := by
  constructor
  · rintro ⟨q, hq, hc⟩
    obtain ⟨p, hp, rfl⟩ := List.mem_map.1 hq
    obtain ⟨hl, hr, d, hd, near⟩ := (growSpan_covers_iff (length_pos_of_mem_runsOf hp)).1 hc
    exact ⟨hl, hr, d, covered_runsOf.1 ⟨p, hp, hd⟩, near⟩
  · rintro ⟨hl, hr, d, hd, near⟩
    obtain ⟨p, hp, hpd⟩ := covered_runsOf.2 hd
    exact ⟨_, List.mem_map_of_mem hp, (growSpan_covers_iff (length_pos_of_mem_runsOf hp)).2 ⟨hl, hr, d, hpd, near⟩⟩

theorem covered_faultedSpans {band : Columns} {faults : List Nat} {c : Nat} :
    Covered (faultedSpans band faults) c ↔ c ∈ faults ∧ band.left ≤ c ∧ c ≤ band.right := by
  have covers_one : ∀ d, ({ start := d, length := 1 } : Span).covers c = true ↔ d = c := fun d => by
    rw [covers_iff]
    dsimp only
    omega
  simp [Covered, faultedSpans, covers_one]

theorem mem_bandColumns {band : Columns} {c : Nat} : c ∈ bandColumns band ↔ band.left ≤ c ∧ c ≤ band.right := by
  rw [bandColumns, List.mem_range'_1]
  omega

theorem covered_unionSpans {band : Columns} {ps : List Span} {c : Nat} :
    Covered (unionSpans band ps) c ↔ (band.left ≤ c ∧ c ≤ band.right) ∧ Covered ps c := by
  rw [unionSpans, covered_runsOf, List.mem_filter, mem_bandColumns, spanAt_isSome_iff]

theorem tidy_unionSpans (band : Columns) (ps : List Span) : Tidy band (unionSpans band ps) where
  apart := pairwise_runsOf (List.Pairwise.filter _ (List.pairwise_lt_range' ..))
  inside p hp := by
    have pos := length_pos_of_mem_runsOf hp
    obtain ⟨first, last⟩ := ends_mem_of_mem_runsOf hp
    have := mem_bandColumns.1 (List.mem_filter.1 first).1
    have := mem_bandColumns.1 (List.mem_filter.1 last).1
    omega

/-- The union of a line covers the grown candidates and the faulted columns of the band. -/
theorem covered_lineUnion {params : MapParams} {band : Columns} {faults ref : List Nat} {samples : List Pixel} {c : Nat} :
    Covered (lineUnion params band faults ref samples) c ↔
      band.left ≤ c ∧ c ≤ band.right
        ∧ ((∃ d ∈ defectColumns params.thr band faults 0 samples ref, d ≤ c + params.growth ∧ c ≤ d + params.growth)
          ∨ c ∈ faults) := by
  rw [lineUnion, covered_unionSpans, covered_append, covered_grown, covered_faultedSpans]
  constructor
  · rintro ⟨⟨left, right⟩, ⟨-, -, near⟩ | ⟨faulted, -⟩⟩
    · exact ⟨left, right, .inl near⟩
    · exact ⟨left, right, .inr faulted⟩
  · rintro ⟨left, right, near | faulted⟩
    · exact ⟨⟨left, right⟩, .inl ⟨left, right, near⟩⟩
    · exact ⟨⟨left, right⟩, .inr ⟨faulted, left, right⟩⟩

/-! ### The joining of neighbours (R96) -/

/-- The span that replaces a pair of neighbours. -/
def joinSpans (p q : Span) : Span := { start := p.start, length := q.start + q.length - p.start }

/-- Two spans one after the other in a list, the first at place `i`. -/
def Neighbours (ps : List Span) (i : Nat) (p q : Span) : Prop := ps[i]? = some p ∧ ps[i + 1]? = some q

theorem neighbours_cons_succ {x p q : Span} {ps : List Span} {i : Nat} :
    Neighbours (x :: ps) (i + 1) p q ↔ Neighbours ps i p q := by
  simp only [Neighbours, List.getElem?_cons_succ]

theorem neighbours_zero {x y : Span} {ps : List Span} {p q : Span} :
    Neighbours (x :: y :: ps) 0 p q ↔ x = p ∧ y = q := by
  simp [Neighbours]

theorem Neighbours.two_le_length {ps : List Span} {i : Nat} {p q : Span} (h : Neighbours ps i p q) : 2 ≤ ps.length := by
  have := (List.getElem?_eq_some_iff.1 h.2).1
  omega

/-- The list around a pair of neighbours. -/
theorem Neighbours.eq_append {ps : List Span} {i : Nat} {p q : Span} (h : Neighbours ps i p q) :
    ps = ps.take i ++ p :: q :: ps.drop (i + 2) := by
  obtain ⟨hi, hp⟩ := List.getElem?_eq_some_iff.1 h.1
  obtain ⟨hj, hq⟩ := List.getElem?_eq_some_iff.1 h.2
  rw [← hq, ← List.drop_eq_getElem_cons hj, ← hp, ← List.drop_eq_getElem_cons hi, List.take_append_drop]

theorem smallestGap_cons (p q r : Span) (rest : List Span) :
    smallestGap (p :: q :: r :: rest) = min (gapBetween p q) (smallestGap (q :: r :: rest)) := rfl

theorem smallestGap_le {ps : List Span} {i : Nat} {p q : Span} (h : Neighbours ps i p q) :
    smallestGap ps ≤ gapBetween p q := by
  match ps, i with
  | [], _ => exact absurd h.two_le_length (by simp)
  | [_], _ => exact absurd h.two_le_length (by simp)
  | [x, y], 0 =>
    obtain ⟨rfl, rfl⟩ := neighbours_zero.1 h
    exact Nat.le_refl _
  | [_, _], i + 1 => exact absurd (neighbours_cons_succ.1 h).two_le_length (by simp)
  | x :: y :: z :: rest, 0 =>
    obtain ⟨rfl, rfl⟩ := neighbours_zero.1 h
    exact Nat.min_le_left _ _
  | x :: y :: z :: rest, i + 1 =>
    exact Nat.le_trans (Nat.min_le_right _ _) (smallestGap_le (neighbours_cons_succ.1 h))

theorem exists_smallestGap {ps : List Span} (h : 2 ≤ ps.length) :
    ∃ i p q, Neighbours ps i p q ∧ gapBetween p q = smallestGap ps := by
  match ps with
  | [] => exact absurd h (by simp)
  | [_] => exact absurd h (by simp)
  | [x, y] => exact ⟨0, x, y, neighbours_zero.2 ⟨rfl, rfl⟩, rfl⟩
  | x :: y :: z :: rest =>
    rw [smallestGap_cons]
    rcases Nat.le_total (gapBetween x y) (smallestGap (y :: z :: rest)) with hle | hle
    · exact ⟨0, x, y, neighbours_zero.2 ⟨rfl, rfl⟩, (Nat.min_eq_left hle).symm⟩
    · obtain ⟨i, p, q, hn, hg⟩ := exists_smallestGap (ps := y :: z :: rest) (by simp)
      exact ⟨i + 1, p, q, neighbours_cons_succ.2 hn, hg.trans (Nat.min_eq_right hle).symm⟩

/-- Where neighbours have the gap, the leftmost such pair is joined. -/
theorem joinAt_leftmost {gap j : Nat} {ps : List Span} {p q : Span} (h : Neighbours ps j p q) (hg : gapBetween p q = gap) :
    ∃ i p q, Neighbours ps i p q ∧ gapBetween p q = gap
      ∧ (∀ j p' q', j < i → Neighbours ps j p' q' → gapBetween p' q' ≠ gap)
      ∧ joinAt gap ps = ps.take i ++ joinSpans p q :: ps.drop (i + 2) := by
  match ps, j with
  | [], _ => exact absurd h.two_le_length (by simp)
  | [_], _ => exact absurd h.two_le_length (by simp)
  | x :: y :: rest, j =>
    by_cases hxy : gapBetween x y = gap
    · exact ⟨0, x, y, neighbours_zero.2 ⟨rfl, rfl⟩, hxy, fun _ _ _ hj => absurd hj (Nat.not_lt_zero _), if_pos hxy⟩
    · match j with
      | 0 =>
        obtain ⟨rfl, rfl⟩ := neighbours_zero.1 h
        exact absurd hg hxy
      | j + 1 =>
        obtain ⟨i, p, q, hn, hgap, hmin, hjoin⟩ := joinAt_leftmost (neighbours_cons_succ.1 h) hg
        refine ⟨i + 1, p, q, neighbours_cons_succ.2 hn, hgap, fun k p' q' hk hn' => ?_, ?_⟩
        · match k with
          | 0 =>
            obtain ⟨rfl, rfl⟩ := neighbours_zero.1 hn'
            exact hxy
          | k + 1 => exact hmin k p' q' (Nat.lt_of_succ_lt_succ hk) (neighbours_cons_succ.1 hn')
        · rw [joinAt, if_neg hxy, hjoin]
          rfl

/-- The pair that is joined: no neighbours have a smaller gap, and none to the left has the same. -/
theorem joinAt_smallestGap {ps : List Span} (h : 2 ≤ ps.length) :
    ∃ i p q, Neighbours ps i p q
      ∧ (∀ j p' q', Neighbours ps j p' q' →
        gapBetween p q ≤ gapBetween p' q' ∧ (j < i → gapBetween p q < gapBetween p' q'))
      ∧ joinAt (smallestGap ps) ps = ps.take i ++ joinSpans p q :: ps.drop (i + 2) := by
  obtain ⟨_, _, _, attained, hgap⟩ := exists_smallestGap h
  obtain ⟨i, p, q, hn, hg, hmin, hjoin⟩ := joinAt_leftmost attained hgap
  refine ⟨i, p, q, hn, fun j p' q' hn' => ?_, hjoin⟩
  have least : gapBetween p q ≤ gapBetween p' q' := hg ▸ smallestGap_le hn'
  exact ⟨least, fun hj => Nat.lt_of_le_of_ne least fun same => hmin j p' q' hj hn' (same.symm.trans hg)⟩

theorem capSpans_of_le {ps : List Span} (h : ps.length ≤ 24) (fuel : Nat) : capSpans fuel ps = ps := by
  cases fuel with
  | zero => rfl
  | succ fuel => exact if_pos h

theorem capSpans_of_lt {ps : List Span} (h : 24 < ps.length) (fuel : Nat) :
    capSpans (fuel + 1) ps = capSpans fuel (joinAt (smallestGap ps) ps) := if_neg (Nat.not_le.2 h)

/-- What the joining of any two neighbours keeps, the capping keeps. -/
theorem capSpans_keeps {P : List Span → Prop}
    (hj : ∀ before p q after, P (before ++ p :: q :: after) → P (before ++ joinSpans p q :: after)) (fuel : Nat)
    {ps : List Span} (h : P ps) : P (capSpans fuel ps) := by
  induction fuel generalizing ps with
  | zero => exact h
  | succ fuel ih =>
    rcases Nat.lt_or_ge 24 ps.length with hl | hl
    · obtain ⟨i, p, q, hn, -, hjoin⟩ := joinAt_smallestGap (ps := ps) (by omega)
      rw [capSpans_of_lt hl, hjoin]
      exact ih (hj _ p q _ (hn.eq_append ▸ h))
    · rwa [capSpans_of_le hl]

/-- Each joining takes one span away, so the number of spans is fuel enough. -/
theorem length_capSpans_le (fuel : Nat) {ps : List Span} (h : ps.length ≤ 24 + fuel) : (capSpans fuel ps).length ≤ 24 := by
  induction fuel generalizing ps with
  | zero => exact h
  | succ fuel ih =>
    rcases Nat.lt_or_ge 24 ps.length with hl | hl
    · obtain ⟨i, p, q, hn, -, hjoin⟩ := joinAt_smallestGap (ps := ps) (by omega)
      have shorter : (joinAt (smallestGap ps) ps).length + 1 = ps.length := by
        rw [hjoin]
        conv_rhs => rw [hn.eq_append]
        simp only [List.length_append, List.length_cons]
        omega
      rw [capSpans_of_lt hl]
      exact ih (by omega)
    · rwa [capSpans_of_le hl]

theorem Tidy.join {band : Columns} {before after : List Span} {p q : Span} (h : Tidy band (before ++ p :: q :: after)) :
    Tidy band (before ++ joinSpans p q :: after) := by
  obtain ⟨apart, inside⟩ := h
  obtain ⟨apart_before, apart_from_p, before_apart⟩ := List.pairwise_append.1 apart
  obtain ⟨p_apart, apart_from_q⟩ := List.pairwise_cons.1 apart_from_p
  obtain ⟨q_apart, apart_after⟩ := List.pairwise_cons.1 apart_from_q
  have p_q : p.start + p.length < q.start := p_apart q List.mem_cons_self
  have join_end : p.start + (joinSpans p q).length = q.start + q.length := by
    show p.start + (q.start + q.length - p.start) = _
    omega
  refine ⟨List.pairwise_append.2 ⟨apart_before, .cons (fun x hx => ?_) apart_after, fun x hx y hy => ?_⟩, fun x hx => ?_⟩
  · exact join_end.trans_lt (q_apart x hx)
  · rcases List.mem_cons.1 hy with rfl | hy
    · exact before_apart x hx p List.mem_cons_self
    · exact before_apart x hx y (List.mem_cons_of_mem _ (List.mem_cons_of_mem _ hy))
  · obtain ⟨p_pos, p_left, -⟩ := inside p (by simp)
    obtain ⟨-, -, q_right⟩ := inside q (by simp)
    rcases List.mem_append.1 hx with hx | hx
    · exact inside x (List.mem_append_left _ hx)
    · rcases List.mem_cons.1 hx with rfl | hx
      · exact ⟨by omega, p_left, Nat.le_trans (Nat.le_of_eq join_end) q_right⟩
      · exact inside x (List.mem_append_right _ (List.mem_cons_of_mem _ (List.mem_cons_of_mem _ hx)))

/-- The span that replaces a pair covers what the pair covered, and the gap. -/
theorem Covered.join {before after : List Span} {p q : Span} {c : Nat} (hpq : p.start + p.length < q.start)
    (h : Covered (before ++ p :: q :: after) c) : Covered (before ++ joinSpans p q :: after) c := by
  have covers_join : p.covers c = true ∨ q.covers c = true → (joinSpans p q).covers c = true := by
    simp only [covers_iff, joinSpans]
    omega
  rw [covered_append, covered_cons, covered_cons, ← or_assoc (a := p.covers c = true)] at h
  rw [covered_append, covered_cons]
  exact h.imp_right (Or.imp_left covers_join)

/-- The capping keeps spans tidy, and what they cover. -/
theorem Tidy.cap {band : Columns} {ps : List Span} (h : Tidy band ps) (fuel : Nat) :
    Tidy band (capSpans fuel ps) ∧ ∀ c, Covered ps c → Covered (capSpans fuel ps) c := by
  refine capSpans_keeps (P := fun qs => Tidy band qs ∧ ∀ c, Covered ps c → Covered qs c) ?_ fuel ⟨h, fun _ hc => hc⟩
  rintro before p q after ⟨tidy, covered⟩
  have p_q : p.start + p.length < q.start :=
    (List.pairwise_cons.1 (List.pairwise_append.1 tidy.apart).2.1).1 q List.mem_cons_self
  exact ⟨tidy.join, fun c hc => (covered c hc).join p_q⟩

end Sys2Proof.Machine

namespace Sys2Proof.Proofs
open Sys2Proof.Machine

/-- Settles O34: the union of the line is tidy and covers what it should, and the capping keeps both. -/
theorem spanListShape : Obligations.SpanListShape := by
  refine ⟨fun params band faults ref samples => ?_, fun ps fuel => ⟨fun h => capSpans_of_le h fuel, fun h => ?_⟩⟩
  · intro spans candidates
    have merged_iff : isMergedLine params band faults ref samples = true
        ↔ 24 < (lineUnion params band faults ref samples).length := decide_eq_true_iff
    have mem_candidates : ∀ c, c ∈ candidates ↔ band.left ≤ c ∧ c ≤ band.right ∧ c ∉ faults
        ∧ ∃ p, samples[c]? = some p ∧ p.ir.toNat * 256 < ref.getD c 0 * params.thr := fun c => by
      simp [candidates, mem_defectColumns, isTested_iff, isDefect_iff, and_assoc]
    obtain ⟨tidy, covers⟩ :
        Tidy band spans ∧ ∀ c, Covered (lineUnion params band faults ref samples) c → Covered spans c :=
      (tidy_unionSpans band _).cap _
    refine ⟨length_capSpans_le _ (Nat.le_add_left _ _), tidy.apart, tidy.inside, mem_candidates, fun c hc => ?_,
      fun unmerged c => ?_, merged_iff, rfl⟩
    · refine covers c (covered_lineUnion.2 ?_)
      rcases hc with hc | ⟨faulted, left, right⟩
      · obtain ⟨left, right, -⟩ := (mem_candidates c).1 hc
        exact ⟨left, right, .inl ⟨c, hc, Nat.le_add_right _ _, Nat.le_add_right _ _⟩⟩
      · exact ⟨left, right, .inr faulted⟩
    · have few : (lineUnion params band faults ref samples).length ≤ 24 :=
        Nat.not_lt.1 fun many => by simp [merged_iff.2 many] at unmerged
      have uncapped : spans = lineUnion params band faults ref samples := capSpans_of_le few _
      rw [uncapped]
      exact covered_lineUnion
  · obtain ⟨i, p, q, ⟨hp, hq⟩, least, hjoin⟩ := joinAt_smallestGap (ps := ps) (by omega)
    refine ⟨i, p, q, hp, hq, fun j p' q' hp' hq' => least j p' q' ⟨hp', hq'⟩, ?_⟩
    rw [capSpans_of_lt h, hjoin]
    rfl

/-- Settles O35: the arrival by the tracker's handling of the line while the writer waits, and the reference column by column. -/
theorem referenceUpdated : Obligations.ReferenceUpdated := by
  refine ⟨fun s o b c next l fr params hs hl hc ht ho hf hst hh hw hlv hm hp hroom hn hend hg => ?_,
    fun thr band faults ref row c p hp => ?_⟩
  · have tracked : ((s.numbered o b).announced o s.intake.arrival).trackLine o s.intake.arrival (some (s.corrected o b)) =
        s.lineExtended o fr params b none := by
      rw [trackLine_of_lineExtended hst hf hh hm hp hn hg, if_neg hend]
    rw [exec_lineMark_of_plateWait (l := l) hl hc ht ho hroom hw tracked hs (lineExtended_writer_state.trans hw) hlv]
    simp only [hend, if_false, false_or]
    rfl
  · intro old i
    have clean_iff : (isTested band faults c && !isDefect thr old i) = true ↔
        band.left ≤ c ∧ c ≤ band.right ∧ c ∉ faults ∧ old * thr ≤ i * 256 := by
      rw [Bool.and_eq_true_iff, isTested_iff, Bool.not_eq_true', ← Bool.not_eq_true, isDefect_iff, Nat.not_lt]
      simp only [and_assoc]
    rw [getElem?_updateReference ref hp, Nat.zero_add]
    simp only [← clean_iff]
    rfl

end Sys2Proof.Proofs
end

section
/-! SUPPORT. The Fill Unit by its parts: the weighted mean, the horizontal sources, the search for a vertical source, the value of
a defect pixel, the output columns of a line and its counts (R108 to R119); and the handing over of a filled line (R121, R137). -/
namespace Sys2Proof.Machine

/-! ### The weighted mean (R111, R114, R116) -/

theorem channel_blend {ch : Rgb → Nat} (hch : ch ∈ rgbChannels) (u v : Rgb) (du dv : Nat) :
    ch (blend u du v dv) = roundHalfUp (dv * ch u + du * ch v) (du + dv) := by
  simp only [rgbChannels, List.mem_cons, List.not_mem_nil, or_false] at hch
  rcases hch with rfl | rfl | rfl <;> rfl

/-- Rounding half up keeps a lower bound of the quotient that is a whole number. -/
theorem le_roundHalfUp {low num den : Nat} (hd : 0 < den) (h : low * den ≤ num) : low ≤ roundHalfUp num den :=
  (Nat.le_div_iff_mul_le hd).2 (h.trans (Nat.le_add_right _ _))

/-- Rounding half up keeps an upper bound of the quotient that is a whole number. -/
theorem roundHalfUp_le {high num den : Nat} (hd : 0 < den) (h : num ≤ high * den) : roundHalfUp num den ≤ high := by
  refine Nat.le_of_lt_succ ((Nat.div_lt_iff_lt_mul hd).2 ?_)
  rw [Nat.succ_mul]
  exact Nat.add_lt_add_of_le_of_lt h (Nat.div_lt_self hd Nat.one_lt_two)

theorem mean_between {a b da db : Nat} (hd : 0 < da + db) :
    min a b ≤ roundHalfUp (db * a + da * b) (da + db) ∧ roundHalfUp (db * a + da * b) (da + db) ≤ max a b := by
  constructor
  · refine le_roundHalfUp hd ?_
    calc min a b * (da + db) = db * min a b + da * min a b := by ring
      _ ≤ db * a + da * b := by gcongr <;> simp
  · refine roundHalfUp_le hd ?_
    calc db * a + da * b ≤ db * max a b + da * max a b := by gcongr <;> simp
      _ = max a b * (da + db) := by ring

theorem estimateOf_eq_meanOf (u v : Option Estimate) : estimateOf u v = meanOf u v := by
  cases u <;> cases v <;> rfl

/-! ### The horizontal estimate (R110, R111) -/

/-- The column after the last one of a span. -/
theorem Span.last_add_one {p : Span} (h : 0 < p.length) : p.last + 1 = p.start + p.length :=
  Nat.sub_add_cancel (h.trans_le (Nat.le_add_left _ _))

theorem horizontalEstimate_of_lt {hmax : Nat} {p : Span} (h : hmax < p.length) (l : LineInHand) (x : Nat) :
    horizontalEstimate hmax l p x = none := if_pos h

theorem horizontalEstimate_of_le {hmax : Nat} {p : Span} (h : p.length ≤ hmax) (l : LineInHand) (x : Nat) :
    horizontalEstimate hmax l p x = meanOf (leftSource l p x) (rightSource l p x) :=
  (if_neg (Nat.not_lt.2 h)).trans (estimateOf_eq_meanOf _ _)

/-! ### The vertical estimate (R112 to R114) -/

section search
variable {l : LineInHand} {x : Nat}

theorem isSource_iff {n : Nat} {z : Entry} :
    l.IsSource x n z ↔ z ∈ l.sources ∧ z.line = n ∧ isVerticalSource l x z = true := by
  refine and_congr_right fun _ => and_congr_right fun hn => ?_
  subst hn
  cases hl : l.last <;> cases hz : z.spans <;> simp [isVerticalSource, spanAt, hl, hz, and_assoc]

theorem sourceLine_none_iff {n : Nat} : sourceLine l x n = none ↔ ∀ z, ¬ l.IsSource x n z := by
  simp [sourceLine, isSource_iff]

theorem isSource_of_sourceLine {n : Nat} {z : Entry} (h : sourceLine l x n = some z) : l.IsSource x n z := by
  have found := List.find?_some h
  rw [Bool.and_eq_true, beq_iff_eq] at found
  exact isSource_iff.2 ⟨List.mem_of_find?_eq_some h, found⟩

/-- The search from distance `d` on finds what R113 says, where no smaller distance has a source. -/
theorem finds_searchFrom {lineAt : Nat → Option Nat} {rv left d : Nat} (hd : 1 ≤ d) (hrv : rv + 1 = d + left)
    (passed : ∀ d' n z, 1 ≤ d' → d' < d → lineAt d' = some n → ¬ l.IsSource x n z) :
    l.Finds rv x lineAt (searchFrom l x lineAt left d) := by
  induction left generalizing d with
  | zero => exact fun d' n z h1 h2 => passed d' n z h1 (by omega)
  | succ left ih =>
    rw [searchFrom]
    cases hs : (lineAt d).bind (sourceLine l x) with
    | some z =>
      obtain ⟨n, hn, hz⟩ := Option.bind_eq_some_iff.1 hs
      exact ⟨hd, (by omega : d ≤ rv), ⟨n, z, hn, isSource_of_sourceLine hz, rfl⟩, passed⟩
    | none =>
      refine ih (Nat.le_add_left 1 d) (by omega) fun d' n z h1 h2 hn => ?_
      rcases Nat.lt_succ_iff_lt_or_eq.1 h2 with h2 | rfl
      · exact passed d' n z h1 h2 hn
      · exact sourceLine_none_iff.1 (Option.bind_eq_none_iff.1 hs n hn) z

/-- The whole search, from the nearest line on. -/
theorem finds_search (l : LineInHand) (x rv : Nat) (lineAt : Nat → Option Nat) :
    l.Finds rv x lineAt (searchFrom l x lineAt rv 1) :=
  finds_searchFrom (Nat.le_refl 1) (Nat.add_comm rv 1) fun _ _ _ h1 h2 => absurd h1 (Nat.not_le.2 h2)

end search

/-! ### A defect pixel (R116 to R118) -/

section pixel
variable {params : FillParams} {l : LineInHand} {p : Span} {x : Nat} {e f : Estimate}

theorem fillPixel_of_disabled (h : params.enable = false) (original : Rgb) :
    fillPixel params l p x original = (original, false) := by
  simp [fillPixel, h]

theorem fillPixel_of_none (hh : horizontalEstimate params.hmax l p x = none) (hv : verticalEstimate params.rv l x = none)
    (original : Rgb) : fillPixel params l p x original = (original, false) := by
  simp [fillPixel, hh, hv]

theorem fillPixel_of_both (h : params.enable = true) (hh : horizontalEstimate params.hmax l p x = some e)
    (hv : verticalEstimate params.rv l x = some f) (original : Rgb) :
    fillPixel params l p x original = (blend e.value e.distance f.value f.distance, true) := by
  simp [fillPixel, h, hh, hv]

theorem fillPixel_of_horizontal (h : params.enable = true) (hh : horizontalEstimate params.hmax l p x = some e)
    (hv : verticalEstimate params.rv l x = none) (original : Rgb) :
    fillPixel params l p x original = (e.value, true) := by
  simp [fillPixel, h, hh, hv]

theorem fillPixel_of_vertical (h : params.enable = true) (hh : horizontalEstimate params.hmax l p x = none)
    (hv : verticalEstimate params.rv l x = some f) (original : Rgb) :
    fillPixel params l p x original = (f.value, true) := by
  simp [fillPixel, h, hh, hv]

end pixel

/-! ### The output columns of a line (R108) -/

/-- Output column `m` of the line in hand. -/
def LineInHand.outputAt (l : LineInHand) (m : Nat) : Nat := l.crop.left + m * l.decimation

section line
variable {params : FillParams} {l : LineInHand}

theorem isOutputColumn_iff {c : Nat} :
    isOutputColumn l.crop l.decimation c = true ↔ (∃ m, c = l.outputAt m) ∧ c ≤ l.crop.right := by
  simp only [isOutputColumn, LineInHand.outputAt, Bool.and_eq_true, decide_eq_true_eq]
  constructor
  · rintro ⟨⟨hl, hr⟩, hm⟩
    refine ⟨⟨(c - l.crop.left) / l.decimation, ?_⟩, hr⟩
    rw [Nat.div_mul_cancel (Nat.dvd_of_mod_eq_zero hm)]
    omega
  · rintro ⟨⟨m, rfl⟩, hr⟩
    simp [hr]

theorem outputAt_lt_iff (hf : 0 < l.decimation) {j m : Nat} : l.outputAt j < l.outputAt m ↔ j < m := by
  rw [LineInHand.outputAt, LineInHand.outputAt, Nat.add_lt_add_iff_left, Nat.mul_lt_mul_right hf]

/-- Column `n` of a row that begins at column `c`, looked up in the rest of the row. -/
theorem getElem?_cons_of_lt {c n : Nat} (h : c < n) (q : Pixel) (row : List Pixel) :
    (q :: row)[n - c]? = row[n - (c + 1)]? := by
  rw [show n - c = n - (c + 1) + 1 by omega, List.getElem?_cons_succ]

/-- The pixels from column `c` on, where output column `j` is the first that is not left of `c`: output column `j + k` stands at
place `k`. -/
theorem getElem?_fillFrom (hf : 0 < l.decimation) {row : List Pixel} {c j k : Nat} {pixel : Pixel}
    (first : ∀ m, c ≤ l.outputAt m ↔ j ≤ m) (inside : l.outputAt (j + k) ≤ l.crop.right)
    (hp : row[l.outputAt (j + k) - c]? = some pixel) :
    (fillFrom params l c row)[k]? = some (fillColumn params l (l.outputAt (j + k)) pixel) := by
  induction row generalizing c j k with
  | nil => cases hp
  | cons q row ih =>
    have reached : c ≤ l.outputAt (j + k) := (first _).2 (Nat.le_add_right j k)
    rcases ((first j).2 (Nat.le_refl j)).eq_or_lt with rfl | later
    · rw [fillFrom, if_pos (isOutputColumn_iff.2 ⟨⟨j, rfl⟩, reached.trans inside⟩)]
      cases k with
      | zero =>
        obtain rfl : q = pixel := by simpa using hp
        rfl
      | succ k =>
        rw [getElem?_cons_of_lt ((outputAt_lt_iff hf).2 (Nat.lt_add_of_pos_right k.succ_pos))] at hp
        rw [List.getElem?_cons_succ]
        rw [show j + (k + 1) = j + 1 + k by omega] at inside hp ⊢
        exact ih (fun m => outputAt_lt_iff hf) inside hp
    · have off_grid : ∀ m, c ≠ l.outputAt m := by
        rintro m rfl
        exact absurd ((first m).1 (Nat.le_refl _)) (Nat.not_le.2 ((outputAt_lt_iff hf).1 later))
      rw [fillFrom, if_neg fun h => (isOutputColumn_iff.1 h).1.elim off_grid]
      rw [getElem?_cons_of_lt (reached.lt_of_ne (off_grid _))] at hp
      exact ih (fun m => (off_grid m).le_iff_lt.symm.trans (first m)) inside hp

/-- The filled line at its output column `k`. -/
theorem getElem?_fillLine (hf : 0 < l.decimation) {k : Nat} {pixel : Pixel} (inside : l.outputAt k ≤ l.crop.right)
    (hp : l.samples[l.outputAt k]? = some pixel) :
    (fillLine params l)[k]? = some (fillColumn params l (l.outputAt k) pixel) := by
  have placed : (fillLine params l)[k]? = some (fillColumn params l (l.outputAt (0 + k)) pixel) :=
    getElem?_fillFrom hf (fun m => by simp) (by rwa [Nat.zero_add]) (by rwa [Nat.zero_add])
  rwa [Nat.zero_add] at placed

theorem exists_of_mem_fillFrom {row : List Pixel} {c : Nat} {p : FilledPixel} (h : p ∈ fillFrom params l c row) :
    ∃ x pixel, p = fillColumn params l x pixel := by
  induction row generalizing c with
  | nil => cases h
  | cons q row ih =>
    rw [fillFrom] at h
    split at h
    · rcases List.mem_cons.1 h with rfl | h
      · exact ⟨c, q, rfl⟩
      · exact ih h
    · exact ih h

/-! ### The counts of a line (R118, R119) -/

/-- A defect pixel is either filled or unfilled. -/
theorem countFilled_add_countUnfilled (ps : List FilledPixel) : countFilled ps + countUnfilled ps = countDefect ps := by
  unfold countFilled countUnfilled countDefect
  induction ps with
  | nil => rfl
  | cons p ps ih =>
    rcases hp : p.defect with _ | _ | _ <;> simp [hp] <;> omega

theorem fillColumn_not_filled (h : params.enable = false) (x : Nat) (pixel : Pixel) :
    (fillColumn params l x pixel).defect ≠ some true := by
  unfold fillColumn
  split
  · exact nofun
  · simp [fillPixel_of_disabled h]

theorem countFilled_fillLine_of_disabled (h : params.enable = false) : countFilled (fillLine params l) = 0 := by
  refine List.length_eq_zero_iff.2 (List.filter_eq_nil_iff.2 fun p hp => ?_)
  obtain ⟨x, pixel, rfl⟩ := exists_of_mem_fillFrom hp
  simpa using fillColumn_not_filled h x pixel

end line

/-! ### The end of a fill (R121, R137) -/

/-- A line with bytes has bursts. -/
theorem splitBursts_ne_nil {bytes : List Byte} (h : bytes ≠ []) (address : Nat) :
    splitBursts bytes.length address bytes ≠ [] := by
  cases bytes with
  | nil => exact absurd rfl h
  | cons b bs => exact List.cons_ne_nil _ _

/-- A line in progress goes on while a burst of it is in flight. -/
theorem burstEnds_of_bursts {s : State} {lw : LineWrite} {bursts : List (Nat × List Byte)} (h : bursts ≠ []) (o : ScanOrder) :
    (s.withWrites (bursts.map (plateBurst lw))).burstEnds o = s.withWrites (bursts.map (plateBurst lw)) := by
  obtain ⟨b, rest, rfl⟩ := List.exists_cons_of_ne_nil h
  exact if_pos ((burstsLeft_iff _).2 ⟨plateBurst lw b, by simp [State.withWrites], rfl⟩)

/-- The bursts of a line whose bytes lie inside a window are all issued. -/
theorem issueBursts_splitBursts {s : State} {lw : LineWrite} {bytes : List Byte}
    (h : insideWindow s.bus.windows lw.place bytes.length = true) :
    issueBursts lw (splitBursts bytes.length lw.place bytes) s =
      s.withWrites ((splitBursts bytes.length lw.place bytes).map (plateBurst lw)) := by
  refine issueBursts_eq fun b hb => ?_
  obtain ⟨from_place, to_end⟩ := splitBursts_inside _ _ _ b hb
  exact insideWindow_sub h from_place to_end

/-- A state whose Fill Unit has handed its line over, the counts kept in it (log 24) and joined to those of the frame (R120). -/
def State.fillHandedOver (s : State) (frame : Nat) (ps : List FilledPixel) : State :=
  { s with
    fill := { s.fill with
      state := .idle, line := none, pixel := none, defect := countDefect ps, filled := countFilled ps,
      unfilled := countUnfilled ps }
    writer := s.writer.onRecord frame fun r => r.addCounts ps }

/-- The end of the fill of a line whose frame stands, its bytes inside a window. -/
theorem fillEnds_eq {s : State} {o : ScanOrder} {params : FillParams} {l : LineInHand} {lw : LineWrite}
    (hd : lw.discarded = false) :
    let bytes := s.outputLine o (fillLine params l)
    bytes ≠ [] → insideWindow s.bus.windows lw.place bytes.length = true →
    s.fillEnds o params l lw = (s.fillHandedOver lw.frame (fillLine params l)).withWrites
      ((splitBursts bytes.length lw.place bytes).map (plateBurst lw)) := by
  intro bytes hne hi
  have handed : s.fillEnds o params l lw =
      (issueBursts lw (splitBursts bytes.length lw.place bytes)
        (s.fillHandedOver lw.frame (fillLine params l))).burstEnds o := by
    rw [State.fillEnds, if_neg (by simp [hd])]
    rfl
  rw [handed, issueBursts_splitBursts (by exact hi), burstEnds_of_bursts (splitBursts_ne_nil hne _)]

theorem exec_fillComplete_of_filling {s : State} {o : ScanOrder} {params : FillParams} {l : LineInHand} {lw : LineWrite}
    (hf : s.fill.state = .filling) (hl : s.fill.line = some l) (hp : s.fill.params = some params)
    (hw : s.writer.write = some lw) (ho : s.order.current = some (.scan o)) :
    exec .fillComplete s = done (s.fillEnds o params l lw) := by
  have scanning : s.scanOrder = some o := by simp [State.scanOrder, ho]
  change execFillComplete s = _
  simp only [execFillComplete, hf, hl, hp, hw, scanning]

end Sys2Proof.Machine

namespace Sys2Proof.Proofs
open Sys2Proof.Machine

/-- Settles O36: the mean, the two estimates, the pixel and the line, each by the lemma about its part. -/
theorem fillValues : Obligations.FillValues := by
  refine ⟨fun u v du dv hu _ ch hch => ?_, fun hmax l p x hp => ⟨fun h => horizontalEstimate_of_lt h l x, fun h => ?_⟩,
    fun rv l x => ⟨_, _, finds_search l x rv _, finds_search l x rv _, estimateOf_eq_meanOf _ _⟩,
    fun params l p x original => ⟨fun h => ?_, fun enabled e f => ⟨?_, ?_, ?_⟩⟩,
    fun params l hf => ⟨fun k pixel inside hp => ?_, countFilled_add_countUnfilled _, countFilled_fillLine_of_disabled⟩⟩
  · rw [channel_blend hch]
    exact ⟨rfl, mean_between (Nat.add_pos_left hu dv)⟩
  · rw [horizontalEstimate_of_le h, leftSource, rightSource, Span.last_add_one hp]
  · rcases h with disabled | ⟨hh, hv⟩
    · exact fillPixel_of_disabled disabled original
    · exact fillPixel_of_none hh hv original
  · exact fun hh hv => fillPixel_of_both enabled hh hv original
  · exact fun hh hv => fillPixel_of_horizontal enabled hh hv original
  · exact fun hh hv => fillPixel_of_vertical enabled hh hv original
  · exact getElem?_fillLine hf inside hp

/-- Settles O49: the bytes lie inside a window, so every burst of the line is issued and the line stays in progress. -/
theorem fillEnds : Obligations.FillEnds := by
  intro s o params l lw hs hf hl hp hw ho hd ps bytes hne hi
  rw [exec_fillComplete_of_filling hf hl hp hw ho]
  exact done_eq (by rw [fillEnds_eq hd hne hi]; exact hs) (fillEnds_eq hd hne hi)

end Sys2Proof.Proofs
end

section
/-! SUPPORT. The output line (R126, R130, R131): its length, the inversion and the depth; the bursts of a line (R137); the
throttle test (R133). -/
namespace Sys2Proof.Machine

/-! ### The depth and the inversion (R130, R131) -/

theorem length_sampleBytes {depth : Nat} (h : depth = 8 ∨ depth = 16) (w : Nat) :
    (sampleBytes depth w).length = depth / 8 := by
  rcases h with rfl | rfl
  · exact length_leBytes 1 _
  · exact length_half w

theorem pixelBytes_eq (film : Film) (base : Base) (depth : Nat) (v : Rgb) :
    pixelBytes film base depth v =
      sampleBytes depth (if film = .negative then invertSample base.r v.r else v.r)
        ++ sampleBytes depth (if film = .negative then invertSample base.g v.g else v.g)
        ++ sampleBytes depth (if film = .negative then invertSample base.b v.b else v.b) := by
  cases film <;> rfl

/-- From the base up the quotient that is taken from 65535 has reached it. -/
theorem invertSample_of_le {base v : Nat} (hb : 0 < base) (h : base ≤ v) : invertSample base v = 0 := by
  have reached : 65535 ≤ (v * 65535 + base / 2) / base := by
    rw [Nat.le_div_iff_mul_le hb]
    calc 65535 * base ≤ 65535 * v := Nat.mul_le_mul_left _ h
      _ ≤ v * 65535 + base / 2 := by omega
  rw [invertSample, Nat.min_eq_right reached]

theorem invertSample_zero {base : Nat} (hb : 0 < base) : invertSample base 0 = 65535 := by
  rw [invertSample, Nat.zero_mul, Nat.zero_add, Nat.div_eq_of_lt (Nat.div_lt_self hb Nat.one_lt_two)]
  rfl

/-! ### The length of an output line (R126) -/

section output_length
variable {params : FillParams} {l : LineInHand}

theorem lt_outputWidth_iff (hf : 0 < l.decimation) (hc : l.crop.left ≤ l.crop.right) {m : Nat} :
    m < outputWidth l.crop l.decimation ↔ l.outputAt m ≤ l.crop.right := by
  rw [outputWidth, Nat.lt_succ_iff, Nat.le_div_iff_mul_le hf, LineInHand.outputAt]
  omega

/-- The pixels from column `c` on, where output column `j` is the first that is not left of `c` and the row reaches past the crop:
the output columns from `j` on. -/
theorem length_fillFrom (hf : 0 < l.decimation) (hc : l.crop.left ≤ l.crop.right) {row : List Pixel} {c j : Nat}
    (first : ∀ m, c ≤ l.outputAt m ↔ j ≤ m) (reaches : l.crop.right < c + row.length) :
    (fillFrom params l c row).length = outputWidth l.crop l.decimation - j := by
  have width := fun m => lt_outputWidth_iff (m := m) hf hc
  induction row generalizing c j with
  | nil =>
    have past : l.crop.right < l.outputAt j := reaches.trans_le ((first j).2 (Nat.le_refl j))
    have none_left : ¬ j < outputWidth l.crop l.decimation := fun h => absurd ((width j).1 h) (Nat.not_le.2 past)
    rw [fillFrom, List.length_nil]
    omega
  | cons q row ih =>
    have reaches : l.crop.right < c + 1 + row.length := by
      rw [List.length_cons] at reaches
      omega
    rcases ((first j).2 (Nat.le_refl j)).eq_or_lt with rfl | later
    · have tail := ih (fun m => outputAt_lt_iff hf) reaches
      by_cases inside : l.outputAt j ≤ l.crop.right
      · have counted := (width j).2 inside
        rw [fillFrom, if_pos (isOutputColumn_iff.2 ⟨⟨j, rfl⟩, inside⟩), List.length_cons, tail]
        omega
      · have none_left := mt (width j).1 inside
        rw [fillFrom, if_neg fun h => inside (isOutputColumn_iff.1 h).2, tail]
        omega
    · have off_grid : ∀ m, c ≠ l.outputAt m := by
        rintro m rfl
        exact absurd ((first m).1 (Nat.le_refl _)) (Nat.not_le.2 ((outputAt_lt_iff hf).1 later))
      rw [fillFrom, if_neg fun h => (isOutputColumn_iff.1 h).1.elim off_grid]
      exact ih (fun m => (off_grid m).le_iff_lt.symm.trans (first m)) reaches

theorem length_fillLine (hf : 0 < l.decimation) (hc : l.crop.left ≤ l.crop.right) (hr : l.crop.right < l.samples.length) :
    (fillLine params l).length = outputWidth l.crop l.decimation :=
  length_fillFrom (j := 0) hf hc (fun m => by simp) (by omega)

end output_length

theorem length_convertLine {depth : Nat} (hd : depth = 8 ∨ depth = 16) (film : Film) (base : Base) (ps : List FilledPixel) :
    (convertLine film base depth ps).length = ps.length * 3 * (depth / 8) := by
  induction ps with
  | nil => simp [convertLine]
  | cons p ps ih =>
    have pixel : (pixelBytes film base depth p.value).length = 3 * (depth / 8) := by
      simp only [pixelBytes_eq, List.length_append, length_sampleBytes hd]
      omega
    rw [convertLine, List.flatMap_cons, List.length_append, pixel, ← convertLine, ih, List.length_cons]
    ring

/-- An output line is no wider than its crop, and has at most 6 bytes a pixel. -/
theorem outputBytes_le {crop : Columns} {depth width : Nat} (hd : depth = 8 ∨ depth = 16) (hc : crop.left ≤ crop.right)
    (hr : crop.right < width) (f : Nat) : outputBytes crop f depth ≤ width * 3 * 2 := by
  have narrow : outputWidth crop f ≤ width := by
    have := Nat.div_le_self (crop.right - crop.left) f
    rw [outputWidth]
    omega
  have deep : depth / 8 ≤ 2 := by rcases hd with rfl | rfl <;> decide
  exact Nat.mul_le_mul (Nat.mul_le_mul_right 3 narrow) deep

/-! ### The bursts of a line (R137) -/

theorem splitBursts_nil (n address : Nat) : splitBursts n address [] = [] := by
  cases n <;> rfl

/-- The first burst goes up to the next 256-byte boundary, and the others follow from there. -/
theorem splitBursts_succ {bytes : List Byte} (h : bytes ≠ []) (n address : Nat) :
    splitBursts (n + 1) address bytes =
      (address, bytes.take (256 - address % 256))
        :: splitBursts n (address + (256 - address % 256)) (bytes.drop (256 - address % 256)) := by
  cases bytes with
  | nil => exact absurd rfl h
  | cons b bs => rfl

theorem flatMap_splitBursts {n : Nat} {bytes : List Byte} (h : bytes.length ≤ n) (address : Nat) :
    (splitBursts n address bytes).flatMap Prod.snd = bytes := by
  induction n generalizing address bytes with
  | zero =>
    obtain rfl := List.length_eq_zero_iff.1 (Nat.le_zero.1 h)
    rfl
  | succ n ih =>
    by_cases hb : bytes = []
    · rw [hb, splitBursts_nil, List.flatMap_nil]
    · have shorter : (bytes.drop (256 - address % 256)).length ≤ n := by
        have := Nat.mod_lt address (show 256 > 0 by decide)
        rw [List.length_drop]
        omega
      rw [splitBursts_succ hb, List.flatMap_cons, ih shorter, List.take_append_drop]

/-- No burst is empty or crosses a 256-byte boundary. -/
theorem splitBursts_bounds {n address : Nat} {bytes : List Byte} :
    ∀ b ∈ splitBursts n address bytes, 0 < b.2.length ∧ b.1 % 256 + b.2.length ≤ 256 := by
  induction n generalizing address bytes with
  | zero => exact nofun
  | succ n ih =>
    by_cases hb : bytes = []
    · rw [hb, splitBursts_nil]
      exact nofun
    · rw [splitBursts_succ hb, List.forall_mem_cons]
      have := List.length_pos_iff.2 hb
      have := Nat.mod_lt address (show 256 > 0 by decide)
      exact ⟨by simp only [List.length_take]; omega, ih⟩

/-- Every burst begins where the bursts before it end. -/
theorem splitBursts_address {n address k : Nat} {bytes : List Byte} {b : Nat × List Byte}
    (h : (splitBursts n address bytes)[k]? = some b) :
    b.1 = address + (((splitBursts n address bytes).take k).flatMap Prod.snd).length := by
  induction n generalizing address bytes k with
  | zero => cases h
  | succ n ih =>
    by_cases hb : bytes = []
    · rw [hb, splitBursts_nil] at h
      cases h
    · rw [splitBursts_succ hb] at h ⊢
      cases k with
      | zero =>
        cases h
        rfl
      | succ k =>
        rw [List.getElem?_cons_succ] at h
        have more : 256 - address % 256 ≤ bytes.length := by
          by_contra hl
          rw [List.drop_eq_nil_of_le (Nat.le_of_not_le hl), splitBursts_nil] at h
          cases h
        rw [List.take_succ_cons, List.flatMap_cons, List.length_append, List.length_take_of_le more, ih h, Nat.add_assoc]

/-- From a boundary every burst but the last is one of 256 bytes. -/
theorem length_splitBursts {n address : Nat} {bytes : List Byte} (h : bytes.length ≤ n) (ha : address % 256 = 0) :
    (splitBursts n address bytes).length = (bytes.length + 255) / 256 := by
  induction n generalizing address bytes with
  | zero =>
    obtain rfl := List.length_eq_zero_iff.1 (Nat.le_zero.1 h)
    rfl
  | succ n ih =>
    by_cases hb : bytes = []
    · rw [hb, splitBursts_nil]
      rfl
    · have := List.length_pos_iff.2 hb
      rw [splitBursts_succ hb, ha, List.length_cons,
        ih (by rw [List.length_drop]; omega) (by rw [Nat.add_mod, ha]), List.length_drop]
      omega

/-! ### The throttle test (R133) -/

theorem throttlePasses_iff (s : State) (o : ScanOrder) (bytes : Nat) : s.throttlePasses o bytes = true ↔ s.Passes o bytes := by
  simp only [State.throttlePasses, State.Passes, Bool.or_eq_true, decide_eq_true_eq, beq_iff_eq, or_assoc]

end Sys2Proof.Machine

namespace Sys2Proof.Proofs
open Sys2Proof.Machine

/-- Settles O37: the bytes pixel by pixel, their number by the output columns of the crop, the inversion by whether the value has
reached the base. -/
theorem outputLine : Obligations.OutputLine := by
  refine ⟨fun film base depth ps => ?_, fun s base h => ?_, fun film base depth params l hd hf hc hr => ⟨?_, fun hs => ?_⟩,
    fun base v hb => ?_, fun w hw => ⟨?_, length_sampleBytes (.inr rfl) w, ?_, length_sampleBytes (.inl rfl) w⟩⟩
  · simp only [convertLine, pixelBytes_eq]
  · rw [State.conversionBase, h, Option.getD_some]
  · rw [length_convertLine hd, length_fillLine hf hc hr, outputBytes]
  · exact (outputBytes_le hd hc hr _).trans (by omega)
  · have positive : 0 < base := Nat.lt_of_lt_of_le (by decide) hb
    exact ⟨fun _ => rfl, invertSample_of_le positive, invertSample_zero positive, Nat.sub_le _ _⟩
  · exact (leValue_leBytes 2 w).trans (Nat.mod_eq_of_lt hw)
  · exact (leValue_leBytes 1 (w / 256)).trans (Nat.mod_eq_of_lt (by omega))

/-- Settles O38: each part by induction along the bursts, which go from one 256-byte boundary to the next. -/
theorem burstsSplit : Obligations.BurstsSplit := fun address _ =>
  ⟨flatMap_splitBursts (Nat.le_refl _) address, splitBursts_bounds, fun _ _ => splitBursts_address,
    length_splitBursts (Nat.le_refl _)⟩

/-- Settles O39: the test is its five conditions, its two outcomes are `throttle_eq`, and the credit falls where it suffices. -/
theorem throttleTest : Obligations.ThrottleTest := by
  intro s o e r p
  obtain ⟨passes, fails⟩ := throttle_eq s o e r p
  refine ⟨throttlePasses_iff s o, passes, fails, fun bytes hc hb => if_pos ⟨hc, hb⟩, fun bytes h => if_neg ?_⟩
  rintro ⟨hc, hb⟩
  exact h.elim hc (Nat.not_lt.2 hb)

end Sys2Proof.Proofs
end

section
/-! SUPPORT. The end of the line in progress: the completion of the leading record that it may bring about (R129, R154, R156,
R157), the end of the order that may follow (R142, R181), and the burst that ends it (R137 to R140). -/
namespace Sys2Proof.Machine

variable {s : State} {o : ScanOrder}

/-! ### Completion (R129, R154, R156, R157) -/

theorem issueFramesTally_eq (ha : s.accessBarred = false) :
    s.issueFramesTally =
      ({ s with order := { s.order with framesTally := s.order.framesTally + 1 } } : State).withWrites
        [s.blockField 0x04 (word (s.order.framesTally + 1).toNat) .framesTally .grouped] :=
  issue_eq_push ha (passesCheck_blockField s s _ rfl (by simp [length_word, Config.blockBytes]))

/-- The leading record has completed, and the next one, if there is one, is leading. -/
def State.recordCompleted (s : State) (o : ScanOrder) (r : FrameRecord) (others : List FrameRecord)
    (owners : List (Nat × Owner)) : State :=
  { s with
    order := { s.order with framesTally := s.order.framesTally + 1 }
    bus := { s.bus with inFlight := s.bus.inFlight ++ s.completion o r ++ leadingEntry o others }
    writer := { s.writer with
      records := leadingFilled others
      plate := if s.writer.plate.any fun p => p.frame == r.number then none else s.writer.plate
      framesReady := if r.damage.isSome then s.writer.framesReady else s.writer.framesReady + 1
      framesDamaged := if r.damage.isSome then s.writer.framesDamaged + 1 else s.writer.framesDamaged
      owners := owners } }

/-- The owner words once the plates of a record last written TAKEN are FILLED (R156). -/
def State.FilledOwners (s : State) (r : FrameRecord) (owners : List (Nat × Owner)) : Prop :=
  ∀ k, lastOwner owners k =
    if (∃ p ∈ r.plateList, p.index = k) ∧ lastOwner s.writer.owners k = some .taken then some .filled
    else lastOwner s.writer.owners k

/-- The leading record `r` is at its completion point, no other frame has closed, and what the completion writes lies in the
roster and in the plate table. -/
structure State.LeadingComplete (s : State) (o : ScanOrder) (r : FrameRecord) (others : List FrameRecord) : Prop where
  records : s.writer.records = r :: others
  closed : r.closed = true
  standing : r.doomed = false
  no_line : ∀ e ∈ s.store.pending, e.frame ≠ some r.number
  others_open : ∀ q ∈ others, q.closed = false
  roster : insideWindow s.bus.windows o.rosterAddress (o.expectedFrames * 640) = true
  numbers : ∀ q ∈ r :: others, 1 ≤ q.number ∧ q.number ≤ o.expectedFrames
  plates : r.plateList.length ≤ 64
  indices : ∀ p ∈ r.plateList, p.index < 256

section leading
variable {r : FrameRecord} {others : List FrameRecord}

/-- The one record left, and no line. -/
theorem leadingComplete_alone (hp : s.store.pending = []) (hr : s.writer.records = [r]) (hc : r.closed = true)
    (hd : r.doomed = false) (h1 : 1 ≤ r.number) (h2 : r.number ≤ o.expectedFrames) (hl : r.plateList.length ≤ 64)
    (hi : ∀ p ∈ r.plateList, p.index < 256)
    (hw : insideWindow s.bus.windows o.rosterAddress (o.expectedFrames * 640) = true) : s.LeadingComplete o r [] where
  records := hr
  closed := hc
  standing := hd
  no_line := by simp [hp]
  others_open := List.forall_mem_nil _
  roster := hw
  numbers := List.forall_mem_singleton.2 ⟨h1, h2⟩
  plates := hl
  indices := hi

theorem completeRecord_eq (h : s.LeadingComplete o r others) (ha : s.accessBarred = false) :
    ∃ owners, s.completeRecord o r others = s.recordCompleted o r others owners ∧ s.FilledOwners r owners := by
  obtain ⟨first, last⟩ := h.numbers r List.mem_cons_self
  have numbers := fun q hq => h.numbers q (List.mem_cons_of_mem r hq)
  obtain ⟨owners, released, filled⟩ := releasePlates_eq r.number .filled (by decide) s.writer.owners r.plateList []
    (s.onBus fun b => { b with inFlight := b.inFlight ++ recordWrites o r }) ha h.indices (by simp)
  refine ⟨owners, ?_, filled⟩
  unfold State.completeRecord
  rw [issueAll_eq ha (passesCheck_recordWrites h.roster first last h.plates), released,
    issueRosterState_eq (by exact ha) (by exact h.roster) first last, issueFramesTally_eq (by exact ha)]
  dsimp only
  rw [fillLeading_eq (by exact ha) (by exact h.roster) (by exact numbers)]
  simp only [State.recordCompleted, State.completion, State.plateReturns, State.withWrites, State.push, State.onBus,
    State.onWriter, recordWrites_eq, plateAfter_eq, List.append_assoc]
  rfl

theorem isComplete_of_no_line {pending : List Entry} (hc : r.closed = true) (hd : r.doomed = false)
    (hp : ∀ e ∈ pending, e.frame ≠ some r.number) : r.isComplete pending = true := by
  have none_left : (pending.any fun e => e.frame == some r.number && (e.fate == .undecided || e.fate == .write)) = false :=
    List.any_eq_false.2 fun e he => by simp [hp e he]
  rw [FrameRecord.isComplete, hc, hd, none_left]
  rfl

theorem leadingFilled_open (h : ∀ q ∈ others, q.closed = false) : ∀ q ∈ leadingFilled others, q.closed = false := by
  cases others with
  | nil => exact h
  | cons q rest =>
    intro p hp
    rcases List.mem_cons.1 hp with rfl | hp
    · exact h q List.mem_cons_self
    · exact h p (List.mem_cons_of_mem q hp)

theorem length_leadingFilled (rs : List FrameRecord) : (leadingFilled rs).length = rs.length := by
  cases rs <;> rfl

/-- The leading record completes, and the next one, still open, does not. -/
theorem completeFrames_of_leading (h : s.LeadingComplete o r others) (ha : s.accessBarred = false)
    (hw : s.writer.state.completes = true) :
    ∃ owners, s.completeFrames o = s.recordCompleted o r others owners ∧ s.FilledOwners r owners := by
  obtain ⟨owners, completed, filled⟩ := completeRecord_eq h ha
  have point : (r.isComplete s.store.pending && s.writer.state.completes) = true := by
    rw [isComplete_of_no_line h.closed h.standing h.no_line, hw]
    rfl
  refine ⟨owners, ?_, filled⟩
  calc s.completeFrames o
      = completeFrom o others.length (s.completeRecord o r others) := by
        simp only [State.completeFrames, completeFrom, h.records, List.length_cons, point, if_true]
    _ = completeFrom o (leadingFilled others).length (s.recordCompleted o r others owners) := by
        rw [completed, length_leadingFilled]
    _ = (s.recordCompleted o r others owners).completeFrames o := rfl
    _ = s.recordCompleted o r others owners := completeFrames_of_open (leadingFilled_open h.others_open)

end leading

/-! ### The writer goes on, and the order may end (R135, R142, R181) -/

theorem writerGo_of_ready (hw : s.writer.state = .ready)
    (h : s.order.part = .suspended ∨ ∀ e ∈ s.store.pending, e.fate = .undecided) : s.writerGo o = s.workDone o := by
  have waits : handleHeads o s.store.pending.length s = s := by
    rcases h with h | h
    · exact handleHeads_of_not_handles (by simp [State.handlesHead, h]) _
    · exact handleHeads_of_undecided h
  unfold State.writerGo
  rw [rethrottle_of_ne (by simp [hw])]
  exact congrArg (State.workDone · o) waits

/-- The order goes on while it is RUNNING, or suspended from RUNNING, or a frame is left. -/
theorem workDone_of_going (h : s.order.part = .running ∨ (s.order.part = .suspended ∧ s.order.origin = some .running)
    ∨ s.writer.records ≠ []) : s.workDone o = s := by
  rcases h with h | ⟨hp, ho⟩ | h
  · exact workDone_of_busy s o (.inr (.inr (.inr h)))
  · simp [State.workDone, hp, ho]
  · exact workDone_of_busy s o (.inr (.inl h))

theorem workDone_of_finishing (hp : s.store.pending = []) (hr : s.writer.records = []) (hw : s.writer.state = .ready)
    (h : s.order.part = .finishing) : s.workDone o = s.endScan o := by
  simp [State.workDone, hp, hr, hw, h]

theorem workDone_of_suspended (hp : s.store.pending = []) (hr : s.writer.records = []) (hw : s.writer.state = .ready)
    (h : s.order.part = .suspended) (ho : s.order.origin = some .finishing) :
    s.workDone o = { s with order := { s.order with heldEnd := true } } := by
  simp [State.workDone, hp, hr, hw, h, ho, State.onOrder]

/-- The order of slot `i` has ended DONE. -/
def State.orderDone (s : State) (i : Fin 4) (results : Results) : State :=
  (({ s with
      order := { s.order with ordersTally := s.order.ordersTally + 1, endWrites := true, follows := true } } : State).withWrites
    (s.resultArea i results .grouped ++ [s.slotWrite i 4 .silent .grouped, s.tallyWrite .grouped])).leaveOrder

theorem orderDone_mem (s : State) (i : Fin 4) (results : Results) : (s.orderDone i results).mem = s.mem := rfl

theorem orderDone_reg (s : State) (i : Fin 4) (results : Results) : (s.orderDone i results).reg = s.reg := rfl

theorem endScan_eq {i : Fin 4} {base : Base} (hc : s.order.chosen = some i) (ha : s.accessBarred = false)
    (hb : s.tracker.base = some base) :
    s.endScan o = s.orderDone i (s.finalResults base s.writer.framesReady s.writer.framesDamaged) := by
  have reported : s.tracker.reportedBase o = base := by rw [Tracker.reportedBase, hb, Option.getD_some]
  have results : s.scanResults o .none = s.finalResults base s.writer.framesReady s.writer.framesDamaged := by
    rw [State.scanResults, reported]
    rfl
  rw [State.endScan, results]
  exact congrArg State.leaveOrder (issueEnd_eq _ _ _ hc ha)

/-! ### Writes that depend on little of the state -/

theorem completion_congr {t : State} {r : FrameRecord} (hb : t.blockBase = s.blockBase)
    (ho : t.writer.owners = s.writer.owners) (ht : t.order.framesTally = s.order.framesTally) :
    t.completion o r = s.completion o r := by
  simp only [State.completion, State.plateReturns, State.plateField, State.blockField, hb, ho, ht]

theorem finalResults_congr {t : State} (htracker : t.tracker = s.tracker) (hlost : t.store.lost = s.store.lost)
    (hintake : t.intake = s.intake) (hrefused : t.writer.platesRefused = s.writer.platesRefused) (base : Base)
    (ready damaged : Nat) : t.finalResults base ready damaged = s.finalResults base ready damaged := by
  simp only [State.finalResults, htracker, hlost, hintake, hrefused]

theorem inFlight_orderDone {t : State} (hb : t.blockBase = s.blockBase) (ht : t.order.ordersTally = s.order.ordersTally)
    (i : Fin 4) (results : Results) :
    (t.orderDone i results).bus.inFlight =
      t.bus.inFlight ++ s.resultArea i results .grouped ++ [s.slotWrite i 4 .silent .grouped, s.tallyWrite .grouped] := by
  have area : t.resultArea i results .grouped = s.resultArea i results .grouped := by
    simp only [State.resultArea, State.resultWrites, State.blockField, hb]
  have tally : t.tallyWrite .grouped = s.tallyWrite .grouped := by
    simp only [State.tallyWrite, State.blockField, hb, ht]
  have slot : t.slotWrite i 4 .silent .grouped = s.slotWrite i 4 .silent .grouped := by
    simp only [State.slotWrite, State.blockField, hb]
  rw [← area, ← tally, ← slot, List.append_assoc]
  rfl

/-! ### A line in WRITING has ended (R138, R139) -/

/-- The line has left the pending list. -/
def State.lineRemoved (s : State) : State := { s with store := s.store.removeHead false }

theorem lost_removeHead (st : LineStore) (clear : Bool) : (st.removeHead clear).lost = st.lost := by
  unfold LineStore.removeHead
  split <;> rfl

/-- The writer is READY, with no line in progress. -/
def State.writerFreed (s : State) : State := { s with writer := { s.writer with state := .ready, write := none } }

section after_line
variable {lw : LineWrite} {r : FrameRecord} {others : List FrameRecord}

theorem afterLine_of_writing (hw : s.writer.state = .writing) (hd : lw.discarded = false) :
    s.afterLine o lw = (s.lineRemoved.completeFrames o).writerFreed.writerGo o := by
  unfold State.afterLine
  rw [if_neg (by simp [hw]), hd]
  rfl

/-- No frame has closed, and the writer goes nowhere. -/
theorem afterLine_of_open (hw : s.writer.state = .writing) (hd : lw.discarded = false)
    (hr : ∀ r ∈ s.writer.records, r.closed = false)
    (he : s.order.part = .suspended ∨ ∀ e ∈ s.lineRemoved.store.pending, e.fate = .undecided)
    (hg : s.order.part = .running ∨ (s.order.part = .suspended ∧ s.order.origin = some .running)
      ∨ s.writer.records ≠ []) :
    s.afterLine o lw = s.lineRemoved.writerFreed := by
  rw [afterLine_of_writing hw hd, completeFrames_of_open (by exact hr), writerGo_of_ready rfl (by exact he)]
  exact workDone_of_going hg

/-- The line was the last that the leading record waited for. -/
theorem afterLine_of_leading (h : s.lineRemoved.LeadingComplete o r others) (ha : s.accessBarred = false)
    (hw : s.writer.state = .writing) (hd : lw.discarded = false) :
    ∃ owners, s.afterLine o lw = (s.lineRemoved.recordCompleted o r others owners).writerFreed.writerGo o
      ∧ s.FilledOwners r owners := by
  have completes : s.lineRemoved.writer.state.completes = true := by
    rw [State.lineRemoved, hw]
    rfl
  obtain ⟨owners, completed, filled⟩ := completeFrames_of_leading h (by exact ha) completes
  exact ⟨owners, by rw [afterLine_of_writing hw hd, completed], filled⟩

/-- The last line of the last frame in FINISHING: the order ends. -/
theorem afterLine_of_finishing {i : Fin 4} {base : Base} {results : Results} (h : s.lineRemoved.LeadingComplete o r [])
    (hp : s.lineRemoved.store.pending = []) (ha : s.accessBarred = false) (hw : s.writer.state = .writing)
    (hd : lw.discarded = false) (hf : s.order.part = .finishing) (hc : s.order.chosen = some i)
    (hb : s.tracker.base = some base)
    (hr : s.finalResults base (if r.damage.isSome then s.writer.framesReady else s.writer.framesReady + 1)
      (if r.damage.isSome then s.writer.framesDamaged + 1 else s.writer.framesDamaged) = results) :
    ∃ owners, s.afterLine o lw = (s.lineRemoved.recordCompleted o r [] owners).writerFreed.orderDone i results := by
  obtain ⟨owners, ended, -⟩ := afterLine_of_leading h ha hw hd
  have empty : ∀ e ∈ s.lineRemoved.store.pending, e.fate = .undecided := by
    rw [hp]
    exact nofun
  refine ⟨owners, ?_⟩
  rw [ended, writerGo_of_ready rfl (.inr (by exact empty)), workDone_of_finishing (by exact hp) rfl rfl (by exact hf),
    endScan_eq (by exact hc) (by exact ha) (by exact hb),
    finalResults_congr (s := s) (by rfl) (by exact lost_removeHead _ _) (by rfl) (by rfl)]
  exact congrArg _ hr

/-- The last line of the last frame, suspended from FINISHING: the end is held. -/
theorem afterLine_of_suspended (h : s.lineRemoved.LeadingComplete o r []) (hp : s.lineRemoved.store.pending = [])
    (ha : s.accessBarred = false) (hw : s.writer.state = .writing) (hd : lw.discarded = false)
    (hf : s.order.part = .suspended) (ho : s.order.origin = some .finishing) :
    ∃ owners, s.afterLine o lw =
      (s.lineRemoved.recordCompleted o r [] owners).writerFreed.onOrder fun u => { u with heldEnd := true } := by
  obtain ⟨owners, ended, -⟩ := afterLine_of_leading h ha hw hd
  refine ⟨owners, ?_⟩
  rw [ended, writerGo_of_ready rfl (.inl (by exact hf)), workDone_of_suspended (by exact hp) rfl rfl (by exact hf) (by exact ho)]
  rfl

theorem inFlight_of_alone (s : State) (o : ScanOrder) (r : FrameRecord) (owners : List (Nat × Owner)) :
    (s.lineRemoved.recordCompleted o r [] owners).writerFreed.bus.inFlight = s.bus.inFlight ++ s.completion o r :=
  List.append_nil _

end after_line

/-! ### The bursts of the line in progress (R137 to R140) -/

theorem not_fault_of_order (h : s.order.part ∈ [PartState.running, .suspended, .finishing]) : s.order.part ≠ .fault := by
  intro hf
  simp [hf] at h

theorem accessBarred_of_order (h : s.order.part ∈ [PartState.running, .suspended, .finishing]) (hs : s.Settled) :
    s.accessBarred = false :=
  accessBarred_eq_false (not_fault_of_order h) (fun hr => by simp [hr] at h) hs

theorem mark_stillTracked {early : List BusWrite} {mark : Mark} (h : ∀ v ∈ early, v.mark ≠ mark) :
    ∀ v ∈ stillTracked early, v.mark ≠ mark := by
  intro v hv
  obtain ⟨u, hu, same⟩ := mem_stillTracked hv
  rw [← same]
  exact h u hu

/-- The oldest burst was the last: no burst is in flight once it has ended. -/
theorem mark_ne_burst_of_split {early late : List BusWrite} (he : ∀ v ∈ early, v.mark ≠ .burst)
    (hl : ∀ v ∈ late, v.mark ≠ .burst) : ∀ v ∈ stillTracked early ++ late, v.mark ≠ .burst := by
  intro v hv
  rcases List.mem_append.1 hv with hv | hv
  · exact mark_stillTracked he v hv
  · exact hl v hv

theorem burstEnds_of_left (h : ∃ v ∈ s.bus.inFlight, v.mark = .burst) : s.burstEnds o = s :=
  if_pos ((burstsLeft_iff s).2 h)

theorem burstEnds_of_last {lw : LineWrite} (h : ∀ v ∈ s.bus.inFlight, v.mark ≠ .burst) (hw : s.writer.write = some lw)
    (hs : s.writer.state ∈ [WriterState.writing, .aborting]) : s.burstEnds o = (s.countLine lw).afterLine o lw := by
  have none_left : ¬ s.burstsLeft = true := by
    rw [burstsLeft_iff]
    rintro ⟨v, hv, hm⟩
    exact h v hv hm
  rw [State.burstEnds, if_neg none_left, lineEnds_eq hw hs]

theorem countLine_of_uncounted {lw : LineWrite} (h : lw.errored = true ∨ lw.discarded = true ∨ lw.cut = true) :
    s.countLine lw = s :=
  if_pos (by simpa [or_assoc] using h)

/-- The line is counted in its frame and in the last entry of its plate list. -/
def State.lineCounted (s : State) (lw : LineWrite) : State :=
  s.onWriter fun wr => wr.onRecord lw.frame FrameRecord.writtenLine

theorem countLine_of_counted {lw : LineWrite} (h : ¬(lw.errored = true ∨ lw.discarded = true ∨ lw.cut = true)) :
    s.countLine lw = s.lineCounted lw :=
  if_neg (by simpa [or_assoc] using h)

theorem lineCounted_open (h : ∀ r ∈ s.writer.records, r.closed = false) (lw : LineWrite) :
    ∀ r ∈ (s.lineCounted lw).writer.records, r.closed = false :=
  forall_onRecord h fun r hr _ => h r hr

/-! ### A burst completes (R137, R138) -/

section completes
variable {early late : List BusWrite} {w : BusWrite}

theorem exec_burstComplete_eq (hi : s.bus.inFlight = early ++ w :: late) (hm : w.mark = .burst)
    (he : ∀ v ∈ early, v.mark ≠ .burst) : exec .burstComplete s = done (s.landedThrough early late w).afterBurst :=
  congrArg done (onEnd_split hi hm he)

theorem afterBurst_of_left (h : ∃ v ∈ s.bus.inFlight, v.mark = .burst) : s.afterBurst = s := by
  unfold State.afterBurst
  split
  · rw [burstEnds_of_left h, ite_self]
  · rfl

theorem afterBurst_of_scan (ho : s.order.current = some (.scan o)) (hf : s.order.part ≠ .fault) :
    s.afterBurst = s.burstEnds o := by
  simp only [State.afterBurst, State.scanOrder, ho, if_neg hf]

/-- The last burst of a line has ended without error. -/
theorem exec_burstComplete_of_last {lw : LineWrite} (hi : s.bus.inFlight = early ++ w :: late) (hm : w.mark = .burst)
    (he : ∀ v ∈ early, v.mark ≠ .burst) (hl : ∀ v ∈ late, v.mark ≠ .burst) (ho : s.order.current = some (.scan o))
    (hf : s.order.part ≠ .fault) (hw : s.writer.write = some lw)
    (hs : s.writer.state ∈ [WriterState.writing, .aborting]) :
    exec .burstComplete s = done (((s.landedThrough early late w).countLine lw).afterLine o lw) := by
  rw [exec_burstComplete_eq hi hm he, afterBurst_of_scan (by exact ho) (by exact hf),
    burstEnds_of_last (by exact mark_ne_burst_of_split he hl) (by exact hw) (by exact hs)]

/-- The last burst of a line that counts, in WRITING. -/
theorem exec_burstComplete_of_counted {lw : LineWrite} (hi : s.bus.inFlight = early ++ w :: late) (hm : w.mark = .burst)
    (he : ∀ v ∈ early, v.mark ≠ .burst) (hl : ∀ v ∈ late, v.mark ≠ .burst) (ho : s.order.current = some (.scan o))
    (hf : s.order.part ≠ .fault) (hw : s.writer.write = some lw) (hs : s.writer.state = .writing)
    (herr : lw.errored = false) (hdis : lw.discarded = false) (hcut : lw.cut = false) :
    exec .burstComplete s = done (((s.landedThrough early late w).lineCounted lw).afterLine o lw) := by
  rw [exec_burstComplete_of_last hi hm he hl ho hf hw (by simp [hs]), countLine_of_counted (by simp [herr, hdis, hcut])]

end completes

/-! ### A burst fails (R139, R140, R185) -/

/-- A write has failed: every write before it has landed, and a free choice of its own bytes (log 3, log 4). -/
def State.failedThrough (s : State) (early late : List BusWrite) (w : BusWrite) : State :=
  { s with
    bus := { s.bus with inFlight := stillTracked early ++ late }
    mem := Memory.storeSome (Config.freeByteLands s.free) (landAll s.mem early) w.address w.data 0
    free := s.free + 1 }

theorem get_failedThrough (s : State) (early late : List BusWrite) (w : BusWrite) (a : Nat) (ha : ¬ w.covers a) :
    Memory.get (s.failedThrough early late w).mem a = Memory.get (landAll s.mem early) a :=
  Memory.get_storeSome_outside _ _ _ _ _ _ (not_covers ha)

/-- The first bus error of a line, of whose writes in flight `kept` stay. -/
def State.lineStruck (s : State) (lw : LineWrite) (address : Nat) (kept : List BusWrite) : State :=
  { s with
    order := { s.order with
      faultRec := { kind := .plate, address := address, plate := lw.plate, frame := lw.frame, repeats := 0 } }
    bus := { s.bus with
      inFlight := kept ++
        [s.plateField lw.plate 0x8 lw.frame (word 4),
          s.blockField 0x18 (half 4 ++ half 0 ++ word address ++ half lw.plate ++ half lw.frame) .silent] }
    free := s.free + 1
    writer := { s.writer with
      plate := none, platesRefused := s.writer.platesRefused + 1
      owners := setOwner s.writer.owners lw.plate .refused, write := some { lw with errored := true }
      records :=
        if lw.discarded then s.writer.records
        else s.writer.records.map fun (r : FrameRecord) =>
          if r.number = lw.frame ∧ r.doomed = false then
            ({ r with damage := some .busError, flags := { r.flags with busError := true } } : FrameRecord) else r } }

section fails
variable {early late : List BusWrite} {w : BusWrite} {lw : LineWrite}

theorem burstFails_of_errored (h : lw.errored = true) (address : Nat) : s.burstFails lw address = s := if_pos h

theorem burstFails_of_first (ha : s.accessBarred = false) (hp : lw.plate < 256) (he : lw.errored = false) (address : Nat) :
    s.burstFails lw address =
      s.lineStruck lw address (keepIssued isBurst (s.issuedCount isBurst) s.bus.inFlight) := by
  rw [State.burstFails, if_neg (by simp [he]), plateError_eq (by exact ha) hp]
  rfl

theorem exec_plateBurstBusError_eq (hi : s.bus.inFlight = early ++ w :: late) (hm : w.mark = .burst)
    (hn : w.landed = false) (he : ∀ v ∈ early, v.mark ≠ .burst) (hf : s.order.part ≠ .fault)
    (ho : s.order.current = some (.scan o)) (hw : s.writer.write = some lw) :
    exec .plateBurstBusError s = done (((s.failedThrough early late w).burstFails lw w.address).burstEnds o) := by
  have place : s.placeOf .burst = some early.length := placeOf_split hi hm he
  have waits : s.openWrite early.length = some w := by simp [State.openWrite, hi, hn]
  have failed : s.failWrite early.length = s.failedThrough early late w := failWrite_split hi
  have follows : (s.failedThrough early late w).afterBurstError w.address =
      ((s.failedThrough early late w).burstFails lw w.address).burstEnds o := by
    simp only [State.afterBurstError, State.failedThrough, State.scanOrder, hf, ho, hw, if_false]
  change execPlateBurstBusError s = _
  simp only [execPlateBurstBusError, place, waits, failed, follows]

theorem burstEnds_of_errored_last (h : ∀ v ∈ s.bus.inFlight, v.mark ≠ .burst)
    (hw : s.writer.write = some { lw with errored := true }) (hst : s.writer.state ∈ [WriterState.writing, .aborting]) :
    s.burstEnds o = s.afterLine o lw := by
  rw [burstEnds_of_last h hw hst, countLine_of_uncounted (.inl rfl)]
  rfl

/-- A line in error goes on while bursts of it are left, and then ends uncounted. -/
theorem settle_burstEnds_of_errored (hs : s.Settled) (hw : s.writer.write = some { lw with errored := true })
    (hst : s.writer.state ∈ [WriterState.writing, .aborting]) :
    ((∃ v ∈ s.bus.inFlight, v.mark = .burst) → (s.burstEnds o).settle = s)
      ∧ ((∀ v ∈ s.bus.inFlight, v.mark ≠ .burst) → (s.burstEnds o).settle = (s.afterLine o lw).settle) := by
  refine ⟨fun h => ?_, fun h => ?_⟩
  · rw [burstEnds_of_left h, settle_of_none hs]
  · rw [burstEnds_of_errored_last h hw hst]

/-- The first error of a line, on its last burst. -/
theorem exec_plateBurstBusError_of_last (hi : s.bus.inFlight = early ++ w :: late) (hm : w.mark = .burst)
    (hn : w.landed = false) (he : ∀ v ∈ early, v.mark ≠ .burst) (hl : ∀ v ∈ late, v.mark ≠ .burst)
    (hp : s.order.part ∈ [PartState.running, .suspended, .finishing]) (hs : s.Settled)
    (ho : s.order.current = some (.scan o)) (hw : s.writer.write = some lw)
    (hst : s.writer.state ∈ [WriterState.writing, .aborting]) (hplate : lw.plate < 256) (herr : lw.errored = false) :
    exec .plateBurstBusError s =
      done (((s.failedThrough early late w).lineStruck lw w.address (stillTracked early ++ late)).afterLine o lw) := by
  have none_left : ∀ v ∈ (s.failedThrough early late w).bus.inFlight, v.mark ≠ .burst := mark_ne_burst_of_split he hl
  have kept : ∀ q, keepIssued isBurst q (s.failedThrough early late w).bus.inFlight = stillTracked early ++ late := fun q =>
    keepIssued_of_none fun v hv => .inl (by simpa [isBurst] using none_left v hv)
  rw [exec_plateBurstBusError_eq hi hm hn he (not_fault_of_order hp) ho hw,
    burstFails_of_first (by exact accessBarred_of_order hp hs) hplate herr, kept]
  refine congrArg done (burstEnds_of_errored_last (fun v hv => ?_) rfl hst)
  rcases List.mem_append.1 hv with hv | hv
  · exact none_left v hv
  · simp only [List.mem_cons, List.not_mem_nil, or_false] at hv
    rcases hv with rfl | rfl <;> nofun

theorem lineStruck_writer (hd : lw.discarded = false) (address : Nat) (kept : List BusWrite) :
    (s.lineStruck lw address kept).writer =
      { s.writer with
        plate := none, platesRefused := s.writer.platesRefused + 1
        owners := setOwner s.writer.owners lw.plate .refused, write := some { lw with errored := true }
        records := s.writer.records.map fun (r : FrameRecord) =>
          if r.number = lw.frame ∧ r.doomed = false then
            ({ r with damage := some .busError, flags := { r.flags with busError := true } } : FrameRecord) else r } := by
  simp [State.lineStruck, hd]

theorem lineStruck_open (h : ∀ r ∈ s.writer.records, r.closed = false) (lw : LineWrite) (address : Nat)
    (kept : List BusWrite) : ∀ r ∈ (s.lineStruck lw address kept).writer.records, r.closed = false := by
  unfold State.lineStruck
  dsimp only
  split
  · exact h
  · exact forall_onRecord (f := fun r => r.damaged .busError) h fun r hr _ => h r hr

theorem lineStruck_ne_nil (h : s.writer.records ≠ []) (lw : LineWrite) (address : Nat) (kept : List BusWrite) :
    (s.lineStruck lw address kept).writer.records ≠ [] := by
  unfold State.lineStruck
  dsimp only
  split
  · exact h
  · exact fun hn => h (List.map_eq_nil_iff.1 hn)

theorem finalResults_lineStruck (s : State) (lw : LineWrite) (address : Nat) (kept : List BusWrite) (base : Base)
    (ready damaged : Nat) :
    (s.lineStruck lw address kept).finalResults base ready damaged =
      { s.finalResults base ready damaged with platesRefused := s.writer.platesRefused + 1 } := rfl

end fails

end Sys2Proof.Machine

namespace Sys2Proof.Proofs
open Sys2Proof.Machine

/-- Settles O50: the writes through the burst land; then nothing more, or the line ends, by `afterLine` and its cases. -/
theorem burstCompletes : Obligations.BurstCompletes := by
  intro s early late w hs hi hm he rest landed
  refine ⟨fun ⟨v, hv, hb⟩ => ?_, fun o lw hl hp ho hst hw => ?_, ?_, ?_⟩
  · rw [exec_burstComplete_eq hi hm he, afterBurst_of_left ⟨v, List.mem_append_right _ hv, hb⟩]
    exact done_of_none hs
  · rw [exec_burstComplete_of_last hi hm he hl ho (not_fault_of_order hp) hw hst]
    by_cases h : lw.errored = true ∨ lw.discarded = true ∨ lw.cut = true
    · rw [countLine_of_uncounted h, if_pos h]
      rfl
    · rw [countLine_of_counted h, if_neg h]
      rfl
  · intro o lw e entries hl hp ho hst hw herr hdis hcut hpend counted
    have removed : (s.store.removeHead false).pending = entries := pending_removeHead false hpend
    have part : s.order.part ∈ [PartState.running, .suspended, .finishing] := by
      rcases hp with ⟨hp, -⟩ | ⟨hp, -⟩ <;> simp [hp]
    have waits : s.order.part = .suspended ∨ ∀ e' ∈ (s.store.removeHead false).pending, e'.fate = .undecided :=
      hp.elim (fun h => .inr (removed ▸ h.2)) fun h => .inl h.1
    have going : s.order.part = .running ∨ (s.order.part = .suspended ∧ s.order.origin = some .running) :=
      hp.imp_left And.left
    rw [exec_burstComplete_of_counted hi hm he hl ho (not_fault_of_order part) hw hst herr hdis hcut]
    refine ⟨fun hopen => ⟨?_, removed⟩, fun r others hr hc hd hno hopen hwin hnum hlen hidx => ?_⟩
    · rw [afterLine_of_open (by exact hst) hdis (lineCounted_open (by exact hopen) lw) (by exact waits)
        (by exact going.imp_right .inl)]
      exact done_of_none hs
    · have leading : ((s.landedThrough early late w).lineCounted lw).lineRemoved.LeadingComplete o r others :=
        { records := hr, closed := hc, standing := hd, no_line := removed.symm ▸ hno, others_open := hopen, roster := hwin,
          numbers := hnum, plates := hlen, indices := hidx }
      obtain ⟨owners, ended, filled⟩ := afterLine_of_leading leading (accessBarred_of_order part hs) (by exact hst) hdis
      rw [ended, writerGo_of_ready rfl (by exact waits), workDone_of_going (by exact going.imp_right .inl)]
      exact ⟨_, owners, done_of_none hs, rfl, filled⟩
  · intro o lw e r base i hl ho hch hst hw herr hdis hcut hpend hb hr hc hd h1 h2 hlen hidx hwin ready damaged completed
    have removed : (s.store.removeHead false).pending = [] := pending_removeHead false hpend
    have leading : ((s.landedThrough early late w).lineCounted lw).lineRemoved.LeadingComplete o r [] :=
      leadingComplete_alone removed hr hc hd h1 h2 hlen hidx hwin
    have writes : ∀ owners, (((s.landedThrough early late w).lineCounted lw).lineRemoved.recordCompleted o r [] owners
        ).writerFreed.bus.inFlight = completed := fun owners =>
      (inFlight_of_alone ..).trans (congrArg (rest ++ ·) (completion_congr rfl rfl rfl))
    constructor
    · intro hf
      have part : s.order.part ∈ [PartState.running, .suspended, .finishing] := by simp [hf]
      obtain ⟨owners, ended⟩ := afterLine_of_finishing (results := s.finalResults base ready damaged) leading
        (by exact removed) (accessBarred_of_order part hs) (by exact hst) hdis (by exact hf) (by exact hch) (by exact hb)
        (finalResults_congr rfl rfl rfl rfl _ _ _)
      rw [exec_burstComplete_of_counted hi hm he hl ho (not_fault_of_order part) hw hst herr hdis hcut, ended]
      refine ⟨_, done_of_none hs, rfl, rfl, rfl, rfl, rfl, rfl, rfl, rfl, ?_, orderDone_mem _ _ _,
        orderDone_reg _ _ _, rfl, rfl, rfl, rfl, rfl, rfl, rfl, rfl⟩
      rw [inFlight_orderDone (s := s) (by rfl) (by rfl), writes]
    · intro hf hor
      have part : s.order.part ∈ [PartState.running, .suspended, .finishing] := by simp [hf]
      obtain ⟨owners, ended⟩ := afterLine_of_suspended leading (by exact removed) (accessBarred_of_order part hs)
        (by exact hst) hdis (by exact hf) (by exact hor)
      rw [exec_burstComplete_of_counted hi hm he hl ho (not_fault_of_order part) hw hst herr hdis hcut, ended]
      exact ⟨_, done_of_none hs, rfl, writes owners, rfl, rfl, removed, rfl, rfl, rfl, rfl⟩

/-- Settles O51: the burst is lost; a further error changes nothing, the first strikes the line, and with no burst left the line
ends uncounted, by `afterLine` and its cases. -/
theorem burstFails : Obligations.BurstFails := by
  intro s early late w o lw hs hi hm hn he hp ho hst hw hplate rest around ends refusal record damaged
  have part : s.order.part ≠ .fault := not_fault_of_order hp
  have unbarred : s.accessBarred = false := accessBarred_of_order hp hs
  have fails := exec_plateBurstBusError_eq hi hm hn he part ho hw
  refine ⟨fun herr => ?_, fun herr => ?_⟩
  · rw [burstFails_of_errored herr] at fails
    have written : s.writer.write = some { lw with errored := true } := by rw [hw, ← herr]
    exact ⟨_, _, _, fails, get_failedThrough s early late w,
      settle_burstEnds_of_errored (by exact hs) (by exact written) (by exact hst)⟩
  · rw [burstFails_of_first (by exact unbarred) hplate herr] at fails
    refine ⟨⟨_, _, _, _, fails, get_failedThrough s early late w,
      settle_burstEnds_of_errored (by exact hs) rfl (by exact hst)⟩, ?_, ?_⟩
    · intro e entries hl hwr hdis hpend hwait hleft hopen
      have removed : (s.store.removeHead false).pending = entries := pending_removeHead false hpend
      have waits : s.order.part = .suspended ∨ ∀ e' ∈ (s.store.removeHead false).pending, e'.fate = .undecided :=
        removed ▸ hwait
      have going := hleft.imp_right fun h => Or.inr (a := s.order.part = .suspended ∧ s.order.origin = some .running)
        (lineStruck_ne_nil (s := s.failedThrough early late w) h lw w.address rest)
      rw [exec_plateBurstBusError_of_last hi hm hn he hl hp hs ho hw hst hplate herr,
        afterLine_of_open (by exact hwr) hdis (lineStruck_open (by exact hopen) _ _ _) (by exact waits) (by exact going)]
      refine ⟨_, done_of_none hs, rfl, rfl, rfl, rfl, rfl, rfl, rfl, ?_, get_failedThrough s early late w⟩
      show { (State.lineStruck _ lw w.address rest).writer with state := .ready, write := none } = _
      rw [lineStruck_writer hdis]
      rfl
    · intro e r base i hl hwr hdis hpend hch hb hr hc hd hdam h1 h2 hlen hidx hwin returned completed results
      have removed : (s.store.removeHead false).pending = [] := pending_removeHead false hpend
      have records : ((s.failedThrough early late w).lineStruck lw w.address rest).writer.records = [r] :=
        (congrArg FrameWriter.records (lineStruck_writer hdis _ _)).trans hr
      have leading : ((s.failedThrough early late w).lineStruck lw w.address rest).lineRemoved.LeadingComplete o r [] :=
        leadingComplete_alone removed records hc hd h1 h2 hlen hidx hwin
      have writes : ∀ owners, (((s.failedThrough early late w).lineStruck lw w.address rest).lineRemoved.recordCompleted o r
          [] owners).writerFreed.bus.inFlight = completed := fun owners =>
        (inFlight_of_alone ..).trans (congrArg (rest ++ refusal ++ ·) (completion_congr rfl rfl rfl))
      rw [exec_plateBurstBusError_of_last hi hm hn he hl hp hs ho hw hst hplate herr]
      constructor
      · intro hf
        obtain ⟨owners, ended⟩ := afterLine_of_finishing (results := results) leading (by exact removed) (by exact unbarred)
          (by exact hwr) hdis (by exact hf) (by exact hch) (by exact hb) (by
            rw [if_pos hdam, if_pos hdam, finalResults_lineStruck,
              finalResults_congr (s := s) (by rfl) (by rfl) (by rfl) (by rfl)]
            rfl)
        rw [ended]
        refine ⟨_, done_of_none hs, rfl, rfl, rfl, rfl, rfl, ?_, get_failedThrough s early late w, orderDone_reg _ _ _, rfl,
          rfl⟩
        rw [inFlight_orderDone (s := s) (by rfl) (by rfl), writes]
      · intro hf hor
        obtain ⟨owners, ended⟩ := afterLine_of_suspended leading (by exact removed) (by exact unbarred) (by exact hwr) hdis
          (by exact hf) (by exact hor)
        rw [ended]
        exact ⟨_, done_of_none hs, rfl, writes owners, get_failedThrough s early late w, rfl, removed, rfl, rfl⟩

end Sys2Proof.Proofs
end

section
/-! SUPPORT. The plate table scan by its parts: PLATES (R151), what a read of the scan brings (R147, R148, R174), an entry that
the scan goes past, and a plate that is taken for the frame of the head (R149, R151). -/
namespace Sys2Proof.Machine

variable {s : State} {o : ScanOrder} {n k left : Nat} {entry : PlateRead}

/-! ### PLATES (R151, R168) -/

theorem works_of_mem {part : PartState} (h : part ∈ [PartState.idle, .starting, .running, .suspended, .finishing]) :
    part.works = true := by
  revert h
  cases part <;> decide

theorem exec_plates {t : State} (hp : s.order.part ∈ [PartState.idle, .starting, .running, .suspended, .finishing])
    (h : s.plates = t) (ht : t.Settled) : exec .plates s = .next t := by
  subst h
  exact judged_accepted (works_of_mem hp) ht

theorem plates_of_wait (hw : s.writer.state = .plateWait) (hn : s.writer.scan = none) (ho : s.scanOrder = some o) :
    s.plates = s.beginRescan o := by
  simp only [State.plates, hw, hn, ho]

/-- With a scan in progress a rescan is requested. -/
theorem plates_of_scan (hw : s.writer.state = .plateWait ∨ s.writer.state = .ready) (hn : s.writer.scan.isSome)
    (ho : s.scanOrder = some o) : s.plates = { s with writer := { s.writer with rescan := true } } := by
  obtain ⟨scan, hn⟩ := Option.isSome_iff_exists.1 hn
  rcases hw with hw | hw <;> simp only [State.plates, hw, hn, ho, State.onWriter]

theorem plates_of_no_order (ho : s.scanOrder = none) : s.plates = s := by
  unfold State.plates
  split
  · next h => exact absurd (ho.symm.trans h) nofun
  · next h => exact absurd (ho.symm.trans h) nofun
  · next h => exact absurd (ho.symm.trans h) nofun
  · rfl

theorem plates_of_ready (hw : s.writer.state = .ready) (hn : s.writer.scan = none) : s.plates = s := by
  simp only [State.plates, hw, hn]

theorem plates_of_busy (hw : s.writer.state ∈ [WriterState.throttled, .writing, .off, .aborting]) : s.plates = s := by
  simp only [List.mem_cons, List.not_mem_nil, or_false] at hw
  rcases hw with hw | hw | hw | hw <;> simp only [State.plates, hw]

theorem beginRescan_of_room
    (h : ∀ k r, s.headFrame = some k → s.writer.record k = some r → r.plateList.length < 64) :
    s.beginRescan o = s.beginScan := by
  unfold State.beginRescan
  split
  · rfl
  · next r hr =>
    obtain ⟨k, hk, hr⟩ := Option.bind_eq_some_iff.1 hr
    exact if_neg (Nat.not_le.2 (h k r hk hr))

/-! ### The bytes of a read (R147, R148, R174) -/

theorem plateCountOfBytes_eq {data : List Byte} (h : data.length = 4) : plateCountOfBytes data = min (leValue data) 256 := by
  rw [plateCountOfBytes, fieldAt, List.drop_zero, List.take_of_length_le h.le]

theorem plateReadOfBytes_eq {data : List Byte} (h : data.length = 12) :
    PlateRead.ofBytes data =
      { address := leValue (data.take 4), size := leValue ((data.drop 4).take 4), owner := leValue (data.drop 8) } := by
  have rest : (data.drop 8).take 4 = data.drop 8 := List.take_of_length_le (by simp [h])
  simp only [PlateRead.ofBytes, fieldAt, List.drop_zero, rest]

theorem malformedSize_iff {size : Nat} :
    malformedSize size = true ↔ size < 65536 ∨ 16777216 < size ∨ size % 4096 ≠ 0 := by
  simp only [malformedSize, Bool.or_eq_true, decide_eq_true_eq, or_assoc]

theorem malformedSize_of_proper {size : Nat} (hlow : 65536 ≤ size) (hhigh : size ≤ 16777216) (hmul : size % 4096 = 0) :
    malformedSize size = false := by
  rw [← Bool.not_eq_true, malformedSize_iff]
  omega

theorem holds_iff {wr : FrameWriter} : wr.holds k = true ↔ lastOwner wr.owners k = some .taken := by
  simp only [FrameWriter.holds, decide_eq_true_eq]

/-! ### A read of the scan completes (R148) -/

/-- The reads of a site are over. -/
def State.readsOver (s : State) (site : ReadSite) : State := { s with bus := { s.bus with reads := s.readsBut site } }

theorem exec_plateScanReadComplete_of_one {read : ScanRead} (hr : read.wellFormed = true)
    (ho : s.order.current = some (.scan o)) (hf : s.order.part ≠ .fault) :
    exec (.plateScanReadComplete [read]) s = done (s.scanRead o read) := by
  have order : s.scanOrder = some o := by simp only [State.scanOrder, ho]
  change execPlateScanReadComplete [read] s = _
  simp only [execPlateScanReadComplete, order, List.isEmpty_cons, List.all_cons, List.all_nil, hr, hf, Bool.not_false,
    Bool.and_self, if_true, if_false, List.foldl_cons, List.foldl_nil]

theorem exec_plateScanReadComplete_of_count {data : List Byte} (hd : data.length = 4) (hn : s.writer.scan = some .count)
    (ho : s.order.current = some (.scan o)) (hf : s.order.part ≠ .fault) :
    exec (.plateScanReadComplete [.count data]) s =
      done ((s.readsOver .plateCount).scanCount (min (leValue data) 256)) := by
  rw [exec_plateScanReadComplete_of_one (read := .count data) (decide_eq_true hd) ho hf, ← plateCountOfBytes_eq hd]
  simp only [State.scanRead, hn]
  rfl

theorem exec_plateScanReadComplete_of_entry {data : List Byte} (hd : data.length = 12)
    (hn : s.writer.scan = some (.entries n k left)) (ho : s.order.current = some (.scan o)) (hf : s.order.part ≠ .fault) :
    exec (.plateScanReadComplete [.entry data]) s =
      done ((s.readsOver .plateEntry).scanEntry o n k left
        { address := leValue (data.take 4), size := leValue ((data.drop 4).take 4), owner := leValue (data.drop 8) }) := by
  rw [exec_plateScanReadComplete_of_one (read := .entry data) (decide_eq_true hd) ho hf, ← plateReadOfBytes_eq hd]
  simp only [State.scanRead, hn]
  rfl

/-! ### The scan goes on, or ends (R148, R151) -/

theorem settled_of_unbarred (ha : s.accessBarred = false) : s.Settled := by
  simp only [State.accessBarred, Bool.or_eq_false_iff, Option.isSome_eq_false_iff, Option.isNone_iff_eq_none] at ha
  exact ha.2

theorem readEntry_eq (ha : s.accessBarred = false) (n k left : Nat) :
    s.readEntry n k left =
      ({ s with writer := { s.writer with scan := some (.entries n k left) } } : State).withReads [s.entryRead k] :=
  startReads_eq _ ha

theorem scanCount_zero (s : State) : s.scanCount 0 = s.scanFails := rfl

theorem scanCount_of_ne (hn : n ≠ 0) : s.scanCount n = s.readEntry n (scanStart s.writer.scanPos n) n := if_neg hn

/-- What becomes of the scan past entry `k`: the next entry is read, and after the last the scan has ended. -/
theorem done_scanPast (ha : s.accessBarred = false) (n k left : Nat) :
    ∃ t, done (s.scanPast n k left) = .next t
      ∧ (1 < left → t =
        ({ s with
          writer := { s.writer with scan := some (.entries n (if k + 1 < n then k + 1 else 0) (left - 1)) } } : State).withReads
          [s.entryRead (if k + 1 < n then k + 1 else 0)])
      ∧ (left ≤ 1 → s.writer.state ∈ [WriterState.ready, .plateWait] → t = s.scanEnded) := by
  have settled : s.Settled := settled_of_unbarred ha
  refine ⟨_, rfl, fun h => ?_, fun h hw => ?_⟩
  · rw [State.scanPast, if_neg h.not_ge, readEntry_eq ha]
    exact settle_of_none settled
  · rw [State.scanPast, if_pos h, scanFails_eq ha hw]
    exact settle_of_none settled

/-! ### An entry is judged (R147, R149) -/

theorem writeOwner_eq (ha : s.accessBarred = false) (hk : k < 256) (frame : Nat) (w : Owner) (pace : Pace) :
    s.writeOwner k frame w pace =
      ({ s with writer := { s.writer with owners := setOwner s.writer.owners k w } } : State).withWrites
        [s.plateField k 0x8 frame (word w.code) pace] := by
  have passes : s.passesCheck (s.plateField k 0x8 frame (word w.code) pace) = true :=
    passesCheck_plateField s s k 0x8 frame _ hk (by simp [length_word]) rfl
  rw [State.writeOwner, issue_eq_push ha passes]
  rfl

/-- Plate `k` is written REFUSED and counted (R147). -/
def State.plateRefused (s : State) (k : Nat) : State :=
  ({ s with
    writer := { s.writer with
      platesRefused := s.writer.platesRefused + 1, owners := setOwner s.writer.owners k .refused } } : State).withWrites
    [s.plateField k 0x8 (s.headFrame.getD 0) (word 4)]

theorem scanEntry_of_unusable
    (h : entry.owner ≠ 1 ∨ lastOwner s.writer.owners k = some .taken ∨ malformedSize entry.size = true) :
    s.scanEntry o n k left entry = s.scanPast n k left := by
  rw [← holds_iff] at h
  exact if_pos h

/-- An entry that is GIVEN, of a proper size, and not held. -/
structure State.Offered (s : State) (k : Nat) (entry : PlateRead) : Prop where
  given : entry.owner = 1
  free : lastOwner s.writer.owners k ≠ some .taken
  size : malformedSize entry.size = false

/-- Such an entry is judged by the windows. -/
theorem scanEntry_of_offered (h : s.Offered k entry) :
    s.scanEntry o n k left entry =
      if insideWindow s.bus.windows entry.address entry.size then
        let taken := s.takePlate o k entry.address entry.size
        if taken.writer.stop then taken else taken.throttleHead o
      else
        ((s.writeOwner k (s.headFrame.getD 0) .refused).onWriter fun wr =>
          { wr with platesRefused := wr.platesRefused + 1 }).scanPast n k left := by
  have usable : ¬ (entry.owner ≠ Owner.given.code ∨ s.writer.holds k = true ∨ malformedSize entry.size = true) := by
    rw [holds_iff]
    rintro (hx | hx | hx)
    · exact hx h.given
    · exact h.free hx
    · exact Bool.false_ne_true (h.size.symm.trans hx)
  exact if_neg usable

theorem scanEntry_of_outside (ha : s.accessBarred = false) (hk : k < 256) (h : s.Offered k entry)
    (hw : insideWindow s.bus.windows entry.address entry.size = false) :
    s.scanEntry o n k left entry = (s.plateRefused k).scanPast n k left := by
  rw [scanEntry_of_offered h, hw, if_neg Bool.false_ne_true, writeOwner_eq ha hk]
  rfl

/-! ### A plate is taken (R149, R151) -/

theorem takePlate_eq {f address size : Nat} (ha : s.accessBarred = false) (hk : k < 256) (hf : s.headFrame = some f) :
    (s.readsOver .plateEntry).takePlate o k address size = s.plateTaken o f k address size := by
  have head : (s.readsOver .plateEntry).headFrame = some f := hf
  have passes := passesCheck_plateField (s.readsOver .plateEntry) (s.readsOver .plateEntry) k 0xC f
    (half o.sequence ++ half f) (pace := .grouped) hk (by simp [length_half]) rfl
  rw [State.takePlate, head, Option.getD_some]
  dsimp only
  rw [issue_eq_push (by exact ha) passes, writeOwner_eq (by exact ha) hk]
  simp only [State.plateTaken, State.withWrites, State.push, State.onBus, State.onWriter, List.append_assoc]
  rfl

theorem scanEntry_of_inside {f : Nat} (ha : s.accessBarred = false) (hk : k < 256) (hf : s.headFrame = some f)
    (h : s.Offered k entry) (hw : insideWindow s.bus.windows entry.address entry.size = true) :
    (s.readsOver .plateEntry).scanEntry o n k left entry =
      if s.writer.stop then s.plateTaken o f k entry.address entry.size
      else (s.plateTaken o f k entry.address entry.size).throttleHead o := by
  have offered : (s.readsOver .plateEntry).Offered k entry := ⟨h.given, h.free, h.size⟩
  rw [scanEntry_of_offered offered, if_pos (by exact hw)]
  dsimp only
  rw [takePlate_eq ha hk hf]
  rfl

/-- The record of a frame after a change that leaves its number and its standing. -/
theorem record_onRecord {wr : FrameWriter} {f : Nat} {g : FrameRecord → FrameRecord} (hn : ∀ r, (g r).number = r.number)
    (hd : ∀ r, (g r).doomed = r.doomed) : (wr.onRecord f g).record f = (wr.record f).map g := by
  unfold FrameWriter.record FrameWriter.onRecord
  induction wr.records with
  | nil => rfl
  | cons r rest ih =>
    by_cases h : r.number = f ∧ r.doomed = false
    · simp [h, hn, hd]
    · have passed : (r.number == f && !r.doomed) = false := by simpa using h
      simp only [List.map_cons, if_neg h, List.find?_cons, passed]
      exact ih

/-- A record whose plate list has gained plate `k` (R149). -/
def FrameRecord.withPlate (r : FrameRecord) (k : Nat) : FrameRecord :=
  { r with plateList := r.plateList ++ [{ index := k, firstLine := r.outLines, count := 0 }] }

/-- The head, once a plate has been taken for its frame. -/
theorem writeHead_plateTaken {f address size : Nat} {e : Entry} {entries : List Entry} {r : FrameRecord}
    (hf : s.headFrame = some f) (hp : s.store.pending = e :: entries) (hr : s.writer.record f = some r) :
    (s.plateTaken o f k address size).writeHead =
      some (e, r.withPlate k, { index := k, address := address, size := size, room := size, frame := f }) := by
  have frame : e.frame = some f := by simpa [State.headFrame, hp] using hf
  have record : (s.plateTaken o f k address size).writer.record f = some (r.withPlate k) :=
    calc (s.plateTaken o f k address size).writer.record f
        = (s.writer.onRecord f fun r => r.withPlate k).record f := rfl
      _ = (s.writer.record f).map fun r => r.withPlate k := record_onRecord (fun _ => rfl) fun _ => rfl
      _ = some (r.withPlate k) := by rw [hr]; rfl
  have pending : (s.plateTaken o f k address size).store.pending = e :: entries := hp
  unfold State.writeHead
  rw [pending]
  change (e.frame.bind _).map _ = _
  rw [frame, Option.bind_some, record]
  rfl

/-- The throttle test for the head with the plate just taken (R133, R135). -/
theorem throttleHead_plateTaken {f address size : Nat} {e : Entry} {entries : List Entry} {r : FrameRecord}
    (hf : s.headFrame = some f) (hp : s.store.pending = e :: entries) (hr : s.writer.record f = some r) :
    let taken := s.plateTaken o f k address size
    (s.Passes o r.outBytes →
      taken.throttleHead o =
        taken.writeBegun o e r { index := k, address := address, size := size, room := size, frame := f })
      ∧ (¬ s.Passes o r.outBytes →
        taken.throttleHead o = { taken with writer := { taken.writer with state := .throttled } }) := by
  intro taken
  have tested : taken.throttleHead o =
      taken.throttle o e (r.withPlate k) { index := k, address := address, size := size, room := size, frame := f } := by
    rw [State.throttleHead, writeHead_plateTaken hf hp hr]
  obtain ⟨passes, fails⟩ := throttle_eq taken o e (r.withPlate k)
    { index := k, address := address, size := size, room := size, frame := f }
  exact ⟨fun h => tested.trans (passes h), fun h => tested.trans (fails h)⟩

end Sys2Proof.Machine

namespace Sys2Proof.Proofs
open Sys2Proof.Machine

/-- Settles O13: by whether the writer waits with no scan, has a scan in progress, or has no use for a rescan. -/
theorem platesTaken : Obligations.PlatesTaken := by
  have working : ∀ {p : PartState}, p ∈ [PartState.running, .suspended, .finishing] →
      p ∈ [PartState.idle, .starting, .running, .suspended, .finishing] := fun h =>
    List.mem_cons_of_mem _ (List.mem_cons_of_mem _ h)
  refine ⟨fun s o hs hp ho => ⟨fun ⟨hw, hn, hroom⟩ => ?_, fun ⟨hw, hn⟩ => ?_⟩, fun s hs hp h => ?_⟩
  · have begun := (plates_of_wait hw hn ho).trans ((beginRescan_of_room hroom).trans
      (beginScan_eq (accessBarred_of_order hp hs)))
    exact exec_plates (working hp) begun hs
  · exact exec_plates (working hp) (plates_of_scan hw hn ho) hs
  · have unchanged : s.plates = s := by
      rcases h with ho | hw | ⟨hw, hn⟩
      · exact plates_of_no_order ho
      · exact plates_of_busy hw
      · exact plates_of_ready hw hn
    exact exec_plates hp unchanged hs

/-- Settles O40: the count by whether it is 0, the entry by whether it is passed over or refused; then the scan goes on or
ends. -/
theorem plateScanGoes : Obligations.PlateScanGoes := by
  intro s o hs hp ho
  have part : s.order.part ≠ .fault := not_fault_of_order hp
  constructor
  · intro data hd hn value s'
    have unbarred : s'.accessBarred = false := accessBarred_of_order hp hs
    have counted : exec (.plateScanReadComplete [.count data]) s = done (s'.scanCount (min value 256)) :=
      exec_plateScanReadComplete_of_count hd hn ho part
    refine ⟨fun hv hw => ?_, fun hv => ?_⟩
    · rw [counted, hv, Nat.zero_min, scanCount_zero, scanFails_eq unbarred hw]
      exact done_of_none hs
    · rw [counted, scanCount_of_ne (by omega), readEntry_eq unbarred]
      exact done_of_none hs
  · intro n k left data hd hn address size owner following after s' read refused goesOn
    have unbarred : s'.accessBarred = false := accessBarred_of_order hp hs
    have judged : exec read s = done (s'.scanEntry o n k left { address, size, owner }) :=
      exec_plateScanReadComplete_of_entry hd hn ho part
    refine ⟨fun h => ?_, fun hg hlow hhigh hmul hw hk hfree => ?_⟩
    · rw [judged, scanEntry_of_unusable (s := s') (by rwa [malformedSize_iff])]
      exact done_scanPast unbarred n k left
    · have offered : s'.Offered k { address, size, owner } := ⟨hg, hfree, malformedSize_of_proper hlow hhigh hmul⟩
      rw [judged, scanEntry_of_outside unbarred hk offered hw]
      exact done_scanPast (s := s'.plateRefused k) unbarred n k left

/-- Settles O41: the plate is taken, and with the stop flag clear the throttle test for the head follows. -/
theorem plateTaken : Obligations.PlateTaken := by
  intro s o f n k left data hs ho hf hd hn hk hfree address size taken hg hlow hhigh hmul hw
  have offered : s.Offered k { address, size, owner := leValue (data.drop 8) } :=
    ⟨hg, hfree, malformedSize_of_proper hlow hhigh hmul⟩
  have judged : s.order.part ∈ [PartState.running, .suspended, .finishing] →
      exec (.plateScanReadComplete [.entry data]) s =
        done (if s.writer.stop then taken else taken.throttleHead o) := fun hp =>
    (exec_plateScanReadComplete_of_entry hd hn ho (not_fault_of_order hp)).trans
      (congrArg done (scanEntry_of_inside (accessBarred_of_order hp hs) hk hf offered hw))
  refine ⟨fun hp hstop => ?_, fun e entries r hp hstop hpend hr => ?_⟩
  · rw [judged hp, if_pos hstop]
    exact done_of_none hs
  · have working : s.order.part ∈ [PartState.running, .suspended, .finishing] := by
      simp only [List.mem_cons] at hp ⊢
      tauto
    rw [judged working, if_neg (by simp [hstop])]
    obtain ⟨passes, fails⟩ := throttleHead_plateTaken (o := o) (k := k) (address := address) (size := size) hf hpend hr
    exact ⟨fun h => (congrArg done (passes h)).trans (done_of_none hs),
      fun h => (congrArg done (fails h)).trans (done_of_none hs)⟩

end Sys2Proof.Proofs
end

section
/-! SUPPORT. The ends of the tally writes (R157, R181), and the selection that may follow them (R177). -/
namespace Sys2Proof.Machine

variable {s : State}

/-- A meaning answers the state it made, where that one is settled. -/
theorem done_of_settled {t u : State} (h : t = u) (hu : u.Settled) : done t = .next u := by
  rw [h, done_of_none hu]

/-- An order selection begins: its first read is made (R177). -/
theorem beginSelection_eq (ha : s.accessBarred = false) :
    s.beginSelection =
      ({ s with order := { s.order with selecting := true, follows := false } } : State).withReads s.selectionReads :=
  startReads_eq _ ha

/-- The part goes on to a selection once the orders tally is written. -/
def State.SelectionFollows (s : State) : Prop :=
  s.order.part = .idle ∧ (s.order.follows = true ∨ s.order.selectionRequest = true) ∧ s.order.selecting = false

/-- The end writes are over. -/
def State.endWritesOver (s : State) : State := { s with order := { s.order with endWrites := false } }

/-- ORDER_DONE is raised. -/
def State.orderDoneRaised (s : State) : State := { s with reg := { s.reg with cause := s.reg.cause ||| 0x02#6 } }

theorem ordersTallied_of_fault (hf : s.order.part = .fault) : s.ordersTallied = s.endWritesOver := if_pos hf

theorem ordersTallied_of_not_fault (hf : s.order.part ≠ .fault) :
    (s.SelectionFollows → s.ordersTallied = s.endWritesOver.orderDoneRaised.beginSelection)
      ∧ (¬ s.SelectionFollows → s.ordersTallied = s.endWritesOver.orderDoneRaised) := by
  have goes : s.ordersTallied =
      if s.order.part = .idle ∧ (s.order.follows || s.order.selectionRequest) = true ∧ s.order.selecting = false then
        s.endWritesOver.orderDoneRaised.beginSelection
      else s.endWritesOver.orderDoneRaised := if_neg hf
  simp only [Bool.or_eq_true] at goes
  exact ⟨fun h => goes.trans (if_pos h), fun h => goes.trans (if_neg h)⟩

theorem ordersTallied_of_follows (hs : s.Settled) (h : s.SelectionFollows) :
    s.ordersTallied =
      ({ s.endWritesOver.orderDoneRaised with
        order := { s.order with endWrites := false, selecting := true, follows := false } } : State).withReads
        s.selectionReads := by
  have idle : s.order.part = .idle := h.1
  have unbarred : s.accessBarred = false := accessBarred_eq_false (by simp [idle]) (by simp [idle]) hs
  rw [(ordersTallied_of_not_fault (by simp [idle])).1 h, beginSelection_eq (by exact unbarred)]
  rfl

end Sys2Proof.Machine

namespace Sys2Proof.Proofs
open Sys2Proof.Machine

/-- Settles O52: the writes through the tally land; then the cause, and for the orders tally what the part state asks for. -/
theorem talliesEnd : Obligations.TalliesEnd := by
  intro s early late w hs hi landed
  refine ⟨fun hm he => done_of_settled (onEnd_split hi hm he) hs, fun hm he => ?_⟩
  intro ended raised follows
  have tallied : ∀ {t : State}, landed.ordersTallied = t → t.Settled → exec .orderTallyWriteComplete s = .next t :=
    fun h => done_of_settled ((onEnd_split hi hm he).trans h)
  refine ⟨fun hf => ?_, fun hx => ?_, fun hx hp => ?_⟩
  · exact tallied (ordersTallied_of_fault hf) hs
  · exact tallied (ordersTallied_of_follows (s := landed) hs hx) hs
  · have not_fault : landed.order.part ≠ .fault := fun hf => hp (hf ▸ List.mem_cons_self)
    exact tallied ((ordersTallied_of_not_fault not_fault).2 hx) hs

end Sys2Proof.Proofs
end

section
/-! SUPPORT. What every step puts in flight (O59): a write in flight afterwards is one that was in flight before, or it passes
the window check of the state that the step ends in. -/
namespace Sys2Proof.Machine

variable {s t u : State}

theorem sameAccess.trans {v w x : BusWrite} (h : sameAccess v w) (g : sameAccess w x) : sameAccess v x := by
  rw [← g, ← h]
  rfl

/-- Work inside a step leaves BLOCK_BASE and the Window Table, so that a write it issues passes the check at the end too. -/
theorem Keeps.issuesChecked (h : Keeps s t) : s.IssuesChecked t :=
  fun w hw => (h.issued w hw).imp_right (passesCheck_congr h.base h.windows w).trans

/-- What is checked from a state holds from an earlier one, of which only writes have ended since. -/
theorem State.IssuesChecked.of_kept (kept : ∀ w ∈ u.bus.inFlight, ∃ v ∈ s.bus.inFlight, sameAccess v w)
    (h : u.IssuesChecked t) : s.IssuesChecked t := by
  intro w hw
  refine (h w hw).imp_left fun ⟨v, hv, same⟩ => ?_
  obtain ⟨first, hfirst, before⟩ := kept v hv
  exact ⟨first, hfirst, before.trans same⟩

theorem Reaches.issuesChecked (h : Reaches s t) : s.IssuesChecked t := by
  obtain ⟨_, hlands, hkeeps⟩ := h
  exact .of_kept hlands.kept hkeeps.issuesChecked

/-- A state with the same writes in flight, from which the rest of the step is work. -/
theorem Keeps.issuesChecked_of_inFlight (h : Keeps u t) (same : u.bus.inFlight = s.bus.inFlight) : s.IssuesChecked t :=
  .of_kept (fun w hw => ⟨w, same ▸ hw, sameAccess_refl w⟩) h.issuesChecked

theorem State.IssuesChecked.of_none (h : t.bus.inFlight = []) : s.IssuesChecked t := by
  intro w hw
  rw [h] at hw
  cases hw

theorem CommandNext.issuesChecked (h : CommandNext s t) : s.IssuesChecked t := by
  cases h with
  | work h => exact h.issuesChecked
  | powerOn h => exact .of_none (h ▸ rfl)
  | holdReset h => exact .of_none (h ▸ rfl)
  | base b value hb h => exact h.issuesChecked_of_inFlight rfl
  | table data h => exact h.issuesChecked_of_inFlight rfl

end Sys2Proof.Machine

namespace Sys2Proof.Proofs
open Sys2Proof.Machine

/-- Settles O59: an empty queue changes nothing, and a command issues only checked writes, by what it can do. -/
theorem stepIssuesChecked : Obligations.StepIssuesChecked := by
  intro s t e
  unfold step at e
  split at e
  · cases e
    exact (Keeps.refl s).issuesChecked
  · exact (exec_next e).issuesChecked

/-- Settles O57: memory and store are empty, no write waits, the table has its four entries, and BLOCK_BASE is 0. -/
theorem resetSound : Obligations.ResetSound where
  memory := rfl
  settled := rfl
  table := rfl
  boundary := rfl
  room := Nat.zero_le _

end Sys2Proof.Proofs
end

section
/-! SUPPORT. Attention codes (R168, R170): the answer to a code that is accepted and to one that is refused, in the states that
keep the refusal record and in the others, for every code. -/
namespace Sys2Proof.Machine

variable {s : State} {accepted : Bool} {value : Word} {effect : State → State}

/-! ### Refusals (R170) -/

theorem works_eq_false_of_mem {part : PartState} (h : part ∈ [PartState.inReset, .parked, .fault]) : part.works = false := by
  revert h
  cases part <;> decide

theorem works_of_not_mem {part : PartState} (h : part ∉ [PartState.inReset, .parked, .fault]) : part.works = true := by
  revert h
  cases part <;> decide

/-- The three states that keep no refusal record raise the cause and do nothing else. -/
theorem refuseCode_of_not_works (hw : s.order.part.works = false) (value : Word) :
    s.refuseCode value = { s with reg := { s.reg with cause := s.reg.cause ||| 0x10#6 } } :=
  if_neg (Bool.eq_false_iff.1 hw)

theorem accessBarred_of_works (hw : s.order.part.works = true) (hs : s.Settled) : s.accessBarred = false := by
  refine accessBarred_eq_false ?_ ?_ hs <;> (intro hp; rw [hp] at hw; exact Bool.false_ne_true hw)

/-- The five others advance the refusal record and issue it in one write, which lies in the block. -/
theorem refuseCode_of_works (hw : s.order.part.works = true) (hs : s.Settled) (value : Word) :
    s.refuseCode value = s.refusing value := by
  have unbarred : s.accessBarred = false := accessBarred_of_works hw hs
  refine (if_pos hw).trans ((issueBlock_eq (by exact unbarred) ?_).trans rfl)
  simp [RefusalRecord.toBytes, length_word, length_half, Config.blockBytes]

theorem judged_of_refused_outside (hw : s.order.part.works = false) (hs : s.Settled) (h : accepted = false) :
    judged accepted value effect s = .next { s with reg := { s.reg with cause := s.reg.cause ||| 0x10#6 } } := by
  rw [← refuseCode_of_not_works hw value]
  exact judged_refused h (by rwa [refuseCode_of_not_works hw])

theorem judged_of_refused_inside (hw : s.order.part.works = true) (hs : s.Settled) (h : accepted = false) :
    judged accepted value effect s = .next (s.refusing value) := by
  rw [← refuseCode_of_works hw hs value]
  exact judged_refused h (by rwa [refuseCode_of_works hw hs])

/-! ### Acceptance, code by code (R168) -/

/-- The commands of the eleven codes. -/
def codeCommands : List Instr :=
  [.look, .plates, .holdOn, .holdOff, .suspend, .resume, .abort, .windows, .fixWindows, .park, .wake]

/-- The code that a command writes to ATTENTION (Formats). -/
def codeOf : Instr → Word
  | .look => 0x11
  | .plates => 0x12
  | .holdOn => 0x21
  | .holdOff => 0x22
  | .suspend => 0x31
  | .resume => 0x32
  | .abort => 0x33
  | .windows => 0x41
  | .fixWindows => 0x42
  | .park => 0x51
  | .wake => 0x52
  | _ => 0

/-- Where a code is accepted. -/
def State.accepts (s : State) : Instr → Bool
  | .look | .plates => s.order.part.works
  | .holdOn | .holdOff => s.order.part != .inReset
  | .suspend => s.order.part == .running || s.order.part == .finishing
  | .resume => s.order.part == .suspended
  | .abort => s.order.part.hasOrder
  | .windows => s.order.part == .idle && !s.bus.fixed && !s.bus.loading
  | .fixWindows => s.order.part == .idle && s.windowsLoaded && !s.bus.loading
  | .park => s.order.part == .idle
  | .wake => s.order.part == .parked
  | _ => false

/-- What a code does where it is accepted. -/
def effectOf : Instr → State → State
  | .look => State.look
  | .plates => State.plates
  | .holdOn => fun s => s.onReg fun r => { r with hostHold := true }
  | .holdOff => fun s => s.onReg fun r => { r with hostHold := false }
  | .suspend => State.suspend
  | .resume => State.resume
  | .abort => State.abort
  | .windows => fun s => (s.onBus fun b => { b with loading := true }).startReads s.windowReads
  | .fixWindows => fun s => s.onBus fun b => { b with fixed := true }
  | .park => State.park
  | .wake => State.wake
  | _ => id

variable {c : Instr}

/-- The model answers each code by its acceptance, its value and its effect. -/
theorem exec_eq_judged (hc : c ∈ codeCommands) (s : State) :
    exec c s = judged (s.accepts c) (codeOf c) (effectOf c) s := by
  simp only [codeCommands, List.mem_cons, List.not_mem_nil, or_false] at hc
  rcases hc with rfl | rfl | rfl | rfl | rfl | rfl | rfl | rfl | rfl | rfl | rfl <;> rfl

theorem exec_of_accepted {t : State} (hc : c ∈ codeCommands) (h : s.accepts c = true) (he : effectOf c s = t) (ht : t.Settled) :
    exec c s = .next t := by
  subst he
  exact (exec_eq_judged hc s).trans (judged_accepted h ht)

theorem exec_of_refused_outside (hs : s.Settled) (hw : s.order.part.works = false) (hc : c ∈ codeCommands)
    (h : s.accepts c = false) : exec c s = .next { s with reg := { s.reg with cause := s.reg.cause ||| 0x10#6 } } :=
  (exec_eq_judged hc s).trans (judged_of_refused_outside hw hs h)

theorem exec_of_refused_inside (hs : s.Settled) (hw : s.order.part.works = true) (hc : c ∈ codeCommands)
    (h : s.accepts c = false) : exec c s = .next (s.refusing (codeOf c)) :=
  (exec_eq_judged hc s).trans (judged_of_refused_inside hw hs h)

/-- In FAULT every code but HOLD_ON and HOLD_OFF is refused. -/
theorem refused_of_fault (hp : s.order.part = .fault) :
    ∀ c ∈ [Instr.look, .plates, .suspend, .resume, .abort, .windows, .fixWindows, .park, .wake],
      c ∈ codeCommands ∧ s.accepts c = false := by
  simp [codeCommands, State.accepts, hp, PartState.works, PartState.hasOrder]

/-- In PARKED every code but those and WAKE is refused. -/
theorem refused_of_parked (hp : s.order.part = .parked) :
    ∀ c ∈ [Instr.look, .plates, .suspend, .resume, .abort, .windows, .fixWindows, .park],
      c ∈ codeCommands ∧ s.accepts c = false := by
  simp [codeCommands, State.accepts, hp, PartState.works, PartState.hasOrder]

/-- In IN_RESET every code is refused. -/
theorem refused_of_inReset (hp : s.order.part = .inReset) : ∀ c ∈ codeCommands, s.accepts c = false := by
  simp [codeCommands, State.accepts, hp, PartState.works, PartState.hasOrder]

theorem windowsLoaded_iff (s : State) : s.windowsLoaded = true ↔ ∃ w ∈ s.bus.windows, w.isSome = true := List.any_eq_true

theorem windowsLoaded_eq_false (h : ∀ w ∈ s.bus.windows, w = none) : s.windowsLoaded = false :=
  List.any_eq_false.2 fun w hw => by simp [h w hw]

/-! ### The HOLD output (R167) -/

theorem holdOut_iff (s : State) :
    s.holdOut = true ↔
      s.reg.hostHold = true ∨ s.store.hold = true ∨ s.order.suspendHold = true ∨ s.order.faultHold = true
        ∨ s.order.part = .inReset := by
  simp only [State.holdOut, Bool.or_eq_true, beq_iff_eq, or_assoc]

end Sys2Proof.Machine

namespace Sys2Proof.Proofs
open Sys2Proof.Machine

/-- Settles O9: by whether the part state keeps the refusal record. -/
theorem unknownValueRefused : Obligations.UnknownValueRefused := by
  intro value s hv hs
  have judges : exec (.unknownAttentionValue value) s = judged false value id s := if_neg (Bool.eq_false_iff.1 hv)
  exact ⟨fun hp => judges.trans (judged_of_refused_outside (works_eq_false_of_mem hp) hs rfl),
    fun hp => judges.trans (judged_of_refused_inside (works_of_not_mem hp) hs rfl)⟩

/-- Settles O10: outside the five states by the lists of the codes refused there; inside, by the condition that fails. -/
theorem codesOutsideOrders : Obligations.CodesOutsideOrders := by
  refine ⟨fun c s hs hc => ?_, fun s hs hp => ?_⟩
  · have hw : s.order.part.works = false := by rcases hc with ⟨hp, -⟩ | ⟨hp, -⟩ | ⟨hp, -⟩ <;> rw [hp] <;> rfl
    obtain ⟨code, refused⟩ : c ∈ codeCommands ∧ s.accepts c = false := by
      rcases hc with ⟨hp, hc⟩ | ⟨hp, hc⟩ | ⟨hp, hc⟩
      · exact refused_of_fault hp c hc
      · exact refused_of_parked hp c hc
      · exact ⟨hc, refused_of_inReset hp c hc⟩
    exact exec_of_refused_outside hs hw code refused
  have hw : s.order.part.works = true := works_of_mem hp
  refine ⟨fun h => ?_, fun h => ?_, fun h => ?_, fun h => ?_, fun h => ?_, fun h => ?_, ?_⟩ <;>
    refine exec_of_refused_inside hs hw (by simp [codeCommands]) ?_
  · simpa [State.accepts] using h
  · exact beq_eq_false_iff_ne.2 h
  · exact congrArg PartState.hasOrder h
  · rcases h with h | h | h <;> simp [State.accepts, h]
  · rcases h with h | h | h
    · simp [State.accepts, h]
    · simp [State.accepts, windowsLoaded_eq_false h]
    · simp [State.accepts, h]
  · exact beq_eq_false_iff_ne.2 h
  · exact beq_eq_false_iff_ne.2 fun parked => Bool.false_ne_true (by rwa [parked] at hw)

/-- Settles O11: both codes are accepted outside IN_RESET, and the output is the disjunction of its conditions. -/
theorem hostHold : Obligations.HostHold := by
  intro s
  refine ⟨fun hs hp => ?_, holdOut_iff s⟩
  have accepted : (s.order.part != .inReset) = true := bne_iff_ne.2 hp
  exact ⟨exec_of_accepted (by simp [codeCommands]) accepted rfl hs, exec_of_accepted (by simp [codeCommands]) accepted rfl hs⟩

/-- Settles O17: both codes are accepted, and the four source reads of WINDOWS begin, the first of them made. -/
theorem windowCodes : Obligations.WindowCodes := by
  intro s hs hp hl
  refine ⟨fun hf => ?_, fun hw => ?_⟩ <;> refine exec_of_accepted (by simp [codeCommands]) ?_ ?_ hs
  · simp [State.accepts, hp, hf, hl]
  · exact startReads_eq s.windowReads (accessBarred_of_works (congrArg PartState.works hp) hs)
  · simp [State.accepts, hp, hl, (windowsLoaded_iff s).2 hw]
  · rfl

end Sys2Proof.Proofs
end

section
/-! SUPPORT. The register window (R161 to R166): the bits of STATE, the INT output, the reset that RESET_HOLD makes, and the
reads that a write of BLOCK_BASE finds in progress. -/
namespace Sys2Proof.Machine

variable {s : State}

/-! ### The bits of STATE (R166) -/

section flags
variable {v k : Nat}

theorem add_flagAt_lt (b : Bool) (h : v < 2 ^ k) : v + flagAt b k < 2 ^ (k + 1) := by
  cases b <;> simp only [flagAt, Bool.false_eq_true, if_true, if_false, Nat.pow_succ] <;> omega

/-- A flag added above a value shows at its place and leaves the places below. -/
theorem testBit_add_flagAt (b : Bool) (h : v < 2 ^ k) (j : Nat) :
    (v + flagAt b k).testBit j = if j = k then b else v.testBit j := by
  cases b with
  | false =>
    have clear : v.testBit k = false := Nat.testBit_lt_two_pow h
    by_cases hj : j = k <;> simp [flagAt, hj, clear]
  | true =>
    have sum : v + flagAt true k = 2 ^ k + v := Nat.add_comm ..
    rw [sum]
    rcases Nat.lt_trichotomy j k with hj | rfl | hj
    · rw [Nat.testBit_two_pow_add_gt hj, if_neg hj.ne]
    · simp [Nat.testBit_two_pow_add_eq, Nat.testBit_lt_two_pow h]
    · have above : ∀ {n}, n < 2 ^ (k + 1) → n.testBit j = false :=
        fun hn => Nat.testBit_lt_two_pow (hn.trans_le (Nat.pow_le_pow_right Nat.two_pos hj))
      rw [if_neg hj.ne', above (by omega), above (by omega)]

end flags

theorem PartState.code_lt (part : PartState) : part.code < 2 ^ 4 := by
  cases part <;> decide

/-- STATE bit by bit: the part state below bit 4, and a flag at each place from 4 to 11. -/
theorem getLsbD_stateWord (s : State) {j : Nat} (hj : j < 32) :
    s.stateWord.getLsbD j =
      if j = 11 then s.writer.waitFlag
      else if j = 10 then s.bus.fixed
      else if j = 9 then s.windowsLoaded
      else if j = 8 then s.order.faultHold
      else if j = 7 then s.order.suspendHold
      else if j = 6 then s.store.hold
      else if j = 5 then s.reg.hostHold
      else if j = 4 then s.holdOut
      else s.order.part.code.testBit j := by
  have h4 := s.order.part.code_lt
  have h5 := add_flagAt_lt s.holdOut h4
  have h6 := add_flagAt_lt s.reg.hostHold h5
  have h7 := add_flagAt_lt s.store.hold h6
  have h8 := add_flagAt_lt s.order.suspendHold h7
  have h9 := add_flagAt_lt s.order.faultHold h8
  have h10 := add_flagAt_lt s.windowsLoaded h9
  have h11 := add_flagAt_lt s.bus.fixed h10
  rw [State.stateWord, BitVec.getLsbD_ofNat, decide_eq_true hj, Bool.true_and, testBit_add_flagAt _ h11,
    testBit_add_flagAt _ h10, testBit_add_flagAt _ h9, testBit_add_flagAt _ h8, testBit_add_flagAt _ h7,
    testBit_add_flagAt _ h6, testBit_add_flagAt _ h5, testBit_add_flagAt _ h4]

/-- The bits of STATE that are no flag's. -/
theorem getLsbD_stateWord_of_code (s : State) {j : Nat} (hj : j < 32) (h : j < 4 ∨ 11 < j) :
    s.stateWord.getLsbD j = s.order.part.code.testBit j := by
  rw [getLsbD_stateWord s hj]
  iterate 8 rw [if_neg (by omega)]

theorem getLsbD_stateWord_high (s : State) {j : Nat} (hj : 12 ≤ j) : s.stateWord.getLsbD j = false := by
  by_cases h32 : j < 32
  · rw [getLsbD_stateWord_of_code s h32 (by omega)]
    exact Nat.testBit_lt_two_pow (s.order.part.code_lt.trans_le (Nat.pow_le_pow_right Nat.two_pos (by omega)))
  · exact BitVec.getLsbD_of_ge _ _ (by omega)

theorem extractLsb'_stateWord (s : State) : (s.stateWord.extractLsb' 0 4).toNat = s.order.part.code := by
  have low : s.stateWord.extractLsb' 0 4 = BitVec.ofNat 4 s.order.part.code := by
    refine BitVec.eq_of_getLsbD_eq fun j hj => ?_
    rw [BitVec.getLsbD_extractLsb', BitVec.getLsbD_ofNat, Nat.zero_add, getLsbD_stateWord_of_code s (by omega) (.inl hj)]
  rw [low, BitVec.toNat_ofNat, Nat.mod_eq_of_lt s.order.part.code_lt]

/-! ### INT and the causes (R164, R165) -/

/-- Every flag of CAUSE is some cause's. -/
theorem exists_place_eq {i : Nat} (hi : i < 6) : ∃ c : Cause, c.place = i := by
  match i, hi with
  | 0, _ => exact ⟨.frameDone, rfl⟩
  | 1, _ => exact ⟨.orderDone, rfl⟩
  | 2, _ => exact ⟨.platesWanted, rfl⟩
  | 3, _ => exact ⟨.linesLost, rfl⟩
  | 4, _ => exact ⟨.refused, rfl⟩
  | 5, _ => exact ⟨.fault, rfl⟩

theorem Cause.place_lt (c : Cause) : c.place < 6 := by
  cases c <;> decide

/-- The flags that INT looks at. -/
theorem getLsbD_unmasked (s : State) (c : Cause) :
    (s.reg.cause &&& ~~~s.reg.mask).getLsbD c.place = (s.causeSet c && !s.causeMasked c) := by
  simp [State.causeSet, State.causeMasked, c.place_lt]

theorem int_iff (s : State) : s.int = true ↔ ∃ c, s.causeSet c = true ∧ s.causeMasked c = false := by
  have unmasked (c : Cause) : (s.causeSet c = true ∧ s.causeMasked c = false)
      ↔ (s.reg.cause &&& ~~~s.reg.mask).getLsbD c.place = true := by
    rw [getLsbD_unmasked, Bool.and_eq_true, Bool.not_eq_true']
  have zero_bit (i : Nat) : (0 : BitVec 6).getLsbD i = false := BitVec.getLsbD_zero
  simp only [State.int, bne_iff_ne, unmasked]
  constructor
  · intro nonzero
    by_contra noneSet
    refine nonzero (BitVec.eq_of_getLsbD_eq fun i hi => ?_)
    obtain ⟨c, rfl⟩ := exists_place_eq hi
    exact (Bool.eq_false_iff.2 fun set => noneSet ⟨c, set⟩).trans (zero_bit _).symm
  · rintro ⟨c, set⟩ zero
    exact Bool.false_ne_true ((zero_bit _).symm.trans (zero ▸ set))

/-- With no cause flag set INT is low. -/
theorem int_causeSet_eq_false_of_cause_zero (hc : s.reg.cause = 0) : s.int = false ∧ ∀ c, s.causeSet c = false := by
  have clear (c : Cause) : s.causeSet c = false := by
    rw [State.causeSet, hc]
    exact BitVec.getLsbD_zero
  refine ⟨Bool.eq_false_iff.2 fun high => ?_, clear⟩
  obtain ⟨c, set, -⟩ := (int_iff s).1 high
  exact Bool.false_ne_true ((clear c).symm.trans set)

/-! ### BLOCK_BASE written with reads in progress (R162; log 30) -/

/-- A read that had still to be made has been made by now, or is as it was. -/
def Reached (r q : BusRead) : Prop := q = r ∨ (r.stage = .waiting ∧ q = { r with stage := .made })

theorem Reached.trans {r q p : BusRead} (h : Reached r q) (g : Reached q p) : Reached r p := by
  rcases h with rfl | ⟨waits, rfl⟩
  · exact g
  · rcases g with rfl | ⟨waits', -⟩
    · exact .inr ⟨waits, rfl⟩
    · cases waits'

/-- Reads in flight, each reached from the one at its place. -/
structure AllReached (rs qs : List BusRead) : Prop where
  length : qs.length = rs.length
  each : ∀ (k : Nat) (r : BusRead), rs[k]? = some r → ∃ q, qs[k]? = some q ∧ Reached r q

theorem AllReached.refl (rs : List BusRead) : AllReached rs rs := ⟨rfl, fun _ r h => ⟨r, h, .inl rfl⟩⟩

theorem AllReached.trans {rs qs ps : List BusRead} (h : AllReached rs qs) (g : AllReached qs ps) : AllReached rs ps where
  length := g.length.trans h.length
  each k r hr := by
    obtain ⟨q, hq, hrq⟩ := h.each k r hr
    obtain ⟨p, hp, hqp⟩ := g.each k q hq
    exact ⟨p, hp, hrq.trans hqp⟩

theorem AllReached.cons {r q : BusRead} {rs qs : List BusRead} (hrq : Reached r q) (h : AllReached rs qs) :
    AllReached (r :: rs) (q :: qs) where
  length := congrArg (· + 1) h.length
  each
    | 0, _, hr => ⟨q, rfl, Option.some.inj hr ▸ hrq⟩
    | k + 1, _, hr => h.each k _ hr

theorem allReached_makeReads (site : ReadSite) (quota : Nat) (rs : List BusRead) :
    AllReached rs (makeReads site quota rs) := by
  induction rs generalizing quota with
  | nil => exact .refl []
  | cons r rs ih =>
    unfold makeReads
    split
    · next waits =>
      have stage : r.stage = .waiting := by simpa using (Bool.and_eq_true_iff.1 waits).2
      split
      · exact .cons (.inl rfl) (ih _)
      · exact .cons (.inr ⟨stage, rfl⟩) (ih _)
    · exact .cons (.inl rfl) (ih _)

/-- The reads of a site come further, and nothing else of the part changes but the next free value. -/
theorem reachReads_eq (s : State) (site : ReadSite) :
    ∃ reads free, s.reachReads site = { s with bus := { s.bus with reads := reads }, free := free }
      ∧ AllReached s.bus.reads reads := by
  unfold State.reachReads
  split
  · exact ⟨s.bus.reads, s.free, rfl, .refl _⟩
  · exact ⟨_, _, rfl, allReached_makeReads ..⟩

theorem reachReads_of_no_waiting (h : ∀ r ∈ s.bus.reads, r.stage ≠ .waiting) (site : ReadSite) : s.reachReads site = s := by
  have filtered : (s.bus.reads.filter fun r => r.isWaiting site) = [] :=
    List.filter_eq_nil_iff.2 fun r hr => by simp [BusRead.isWaiting, h r hr]
  exact if_pos (congrArg List.length filtered)

theorem moveReads_of_no_waiting {old new : Nat} {rs : List BusRead} (h : ∀ r ∈ rs, r.stage ≠ .waiting) :
    moveReads old new rs = rs :=
  (List.map_congr_left fun r hr => if_neg fun moves => h r hr moves.1).trans rs.map_id

/-- A read that had still to be made goes to the new address; the others stand. -/
theorem getElem?_moveReads_of_waiting {old new k : Nat} {rs : List BusRead} {r : BusRead} (hr : rs[k]? = some r)
    (waits : r.stage = .waiting) (site : r.site ≠ .shadingEntry) :
    (moveReads old new rs)[k]? = some { r with address := r.address - old + new } := by
  rw [moveReads, List.getElem?_map, hr, Option.map_some, if_pos ⟨waits, site⟩]

theorem getElem?_moveReads_of_not_waiting {old new k : Nat} {rs : List BusRead} {r : BusRead} (hr : rs[k]? = some r)
    (stands : r.stage ≠ .waiting) : (moveReads old new rs)[k]? = some r := by
  rw [moveReads, List.getElem?_map, hr, Option.map_some, if_neg fun moves => stands moves.1]

/-- The block moves: the reads come further, and those still to be made go to the new address. -/
theorem moveBlock_eq (s : State) (base : Word) :
    ∃ reached free, AllReached s.bus.reads reached ∧
      s.moveBlock base = { s with
        reg := { s.reg with blockBase := base }
        bus := { s.bus with reads := moveReads s.blockBase base.toNat reached }, free := free } := by
  obtain ⟨first, free, e, hfirst⟩ := reachReads_eq s .windowSource
  obtain ⟨second, free', e', hsecond⟩ := reachReads_eq (s.reachReads .windowSource) .slotWord
  rw [e] at e' hsecond
  refine ⟨second, free', hfirst.trans hsecond, ?_⟩
  rw [State.moveBlock, e, e']
  rfl

theorem moveBlock_of_no_waiting (h : ∀ r ∈ s.bus.reads, r.stage ≠ .waiting) (base : Word) :
    s.moveBlock base = { s with reg := { s.reg with blockBase := base } } := by
  simp only [State.moveBlock, reachReads_of_no_waiting h, State.onBus, State.onReg, moveReads_of_no_waiting h]

theorem exec_blockBaseWrite_of_accepted {t : State} {value : Word} (hp : s.order.part = .parked ∨ s.order.part = .idle)
    (h : s.moveBlock (blockAddress value) = t) (ht : t.Settled) : exec (.blockBaseWrite value) s = .next t :=
  done_of_settled ((if_pos hp).trans h) ht

end Sys2Proof.Machine

namespace Sys2Proof.Proofs
open Sys2Proof.Machine

/-- Settles O5: by bit 0 of the value and by whether the part is in IN_RESET. -/
theorem holdReset : Obligations.HoldReset := by
  intro value s hs
  refine ⟨fun hv hp => ⟨s.holdReset, ?_, rfl, rfl, rfl, rfl, rfl⟩, fun hv hp => ?_, fun hv hp => ?_, fun hv hp => ?_⟩
  · exact (if_pos hv).trans (done_of_settled (if_neg hp) rfl)
  · exact (if_pos hv).trans (done_of_settled (if_pos hp) hs)
  · exact (if_neg (Bool.eq_false_iff.1 hv)).trans (done_of_settled (if_pos hp) hs)
  · exact (if_neg (Bool.eq_false_iff.1 hv)).trans (done_of_settled (if_neg hp) hs)

/-- Settles O6: the block moves in PARKED and IDLE, with each read in progress by its stage, and elsewhere the value is refused. -/
theorem blockBaseWritten : Obligations.BlockBaseWritten := by
  intro value s hs
  refine ⟨fun hp => ⟨fun allMade => ?_, ?_⟩, fun hp => ?_⟩
  · exact exec_blockBaseWrite_of_accepted hp (moveBlock_of_no_waiting allMade _) hs
  · obtain ⟨reached, free, all, moved⟩ := moveBlock_eq s (blockAddress value)
    refine ⟨_, free, exec_blockBaseWrite_of_accepted hp moved hs, ?_, fun k r hr => ?_⟩
    · rw [moveReads, List.length_map, all.length]
    obtain ⟨q, hq, rfl | ⟨waits, rfl⟩⟩ := all.each k r hr
    · refine ⟨fun stands => getElem?_moveReads_of_not_waiting hq stands, fun waits site => .inr ?_⟩
      exact getElem?_moveReads_of_waiting hq waits fun hsite => by simp [hsite] at site
    · exact ⟨fun stands => absurd waits stands, fun _ _ => .inl (getElem?_moveReads_of_not_waiting hq nofun)⟩
  · exact done_of_settled (if_neg (not_or.2 hp)) hs

/-- Settles O7: CAUSE read and its mask written, then INT by its flags, and STATE bit by bit. -/
theorem causeRegisters : Obligations.CauseRegisters := by
  intro s hs
  have read : exec .causeRead s = .next { s with reg := { s.reg with readData := s.reg.cause.zeroExtend 32, cause := 0 } } :=
    done_of_settled rfl hs
  refine ⟨read, fun t e => ?_, fun value => done_of_settled rfl hs, int_iff s, ?_, rfl, rfl, rfl, rfl, rfl⟩
  · cases read.symm.trans e
    exact int_causeSet_eq_false_of_cause_zero rfl
  · have bit {j : Nat} (hj : j < 32) := getLsbD_stateWord s hj
    refine ⟨(extractLsb'_stateWord s).trans ?_, bit (by omega), bit (by omega), bit (by omega), bit (by omega), bit (by omega),
      ?_, bit (by omega), bit (by omega), fun k hk => getLsbD_stateWord_high s hk⟩
    · cases s.order.part <;> rfl
    · exact (bit (j := 9) (by omega)) ▸ windowsLoaded_iff s

/-- Settles O8: each access is well-formed, and changes the answer of a narrow read at most. -/
theorem ignoredAccesses : Obligations.IgnoredAccesses := by
  intro s hs
  refine ⟨fun value => ?_, fun value => ?_, fun offset value ho => ?_, fun offset ho => ?_⟩
  · exact done_of_settled rfl hs
  · exact done_of_settled rfl hs
  · exact (if_pos (decide_eq_true ho)).trans (done_of_settled rfl hs)
  · exact (if_pos (decide_eq_true ho)).trans (done_of_settled rfl hs)

end Sys2Proof.Proofs
end

section
/-! SUPPORT. The end of a window load (R171): the table that the sources give, and the validation that waited for it, which
refuses the order or starts it (R178, R180). -/
namespace Sys2Proof.Machine

variable {s : State}

/-! ### The table (R171, R174) -/

theorem getElem?_windowsOfBytes (data : List Byte) {i : Nat} (hi : i < 4) :
    (windowsOfBytes data)[i]? = some (windowOfSource (fieldAt data (8 * i) 4) (fieldAt data (8 * i + 4) 4)) := by
  match i, hi with
  | 0, _ => rfl
  | 1, _ => rfl
  | 2, _ => rfl
  | 3, _ => rfl

/-- The window load has ended, and its reads with it. -/
def State.windowsLoadedFrom (s : State) (data : List Byte) : State :=
  { s with
    bus := { s.bus with windows := windowsOfBytes data, loading := false, reads := s.readsBut .windowSource } }

theorem exec_windowLoadComplete {data : List Byte} {t : State} (hl : data.length = 32) (loading : s.bus.loading = true)
    (hp : s.order.part ≠ .fault) (h : (s.endReads .windowSource).windowsArrive data = t) (ht : t.Settled) :
    exec (.windowLoadComplete data) s = .next t :=
  (if_pos hl).trans (done_of_settled ((if_pos (by simp [loading, hp])).trans h) ht)

theorem windowsArrive_of_none (hw : s.order.waiting = none) (data : List Byte) :
    (s.endReads .windowSource).windowsArrive data = s.windowsLoadedFrom data := by
  have hw : (s.endReads .windowSource).order.waiting = none := hw
  simp only [State.windowsArrive, State.onBus_order, hw]
  rfl

/-- A validation that waited is made against the new table. -/
theorem windowsArrive_of_waiting {r : OrderRecord} (hw : s.order.waiting = some r) (hp : s.order.part = .starting)
    (data : List Byte) :
    (s.endReads .windowSource).windowsArrive data = (s.windowsLoadedFrom data).validateRecord r := by
  have hw : (s.endReads .windowSource).order.waiting = some r := hw
  have hp : (s.endReads .windowSource).order.part = .starting := hp
  simp only [State.windowsArrive, State.onBus_order, hw, hp, if_true]
  rfl

/-! ### The validation (R178 step 1, R180) -/

/-- A CALIBRATE order that passes has its slot word RUNNING issued. -/
theorem validateRecord_of_calibrate {r : OrderRecord} {o : CalOrder} {i : Fin 4} (ha : s.accessBarred = false)
    (hc : s.order.chosen = some i) (hv : validate s.bus.windows r = .accepted (.calibrate o)) :
    s.validateRecord r =
      ({ s with order := { s.order with waiting := none, current := some (.calibrate o) } } : State).withWrites
        [s.slotWrite i 2 .startLast] := by
  have started : s.validateRecord r = (s.onOrder fun u => { u with waiting := none }).startOrder (.calibrate o) := by
    simp only [State.validateRecord, State.onOrder_bus, hv]
  rw [started]
  exact issueSlotWord_eq _ _ hc ha

/-- An order that fails ends at once: its result area, its slot word REFUSED and the orders tally are issued. -/
theorem validateRecord_of_refused {r : OrderRecord} {reason : Reason} {i : Fin 4} (ha : s.accessBarred = false)
    (hc : s.order.chosen = some i) (hv : validate s.bus.windows r = .refused reason) :
    s.validateRecord r =
      (({ s with
          order := { s.order with
            waiting := none, ordersTally := s.order.ordersTally + 1, endWrites := true, follows := true } } :
        State).withWrites
        (s.resultArea i (Results.only reason) .grouped
          ++ [s.slotWrite i 6 .silent .grouped, s.tallyWrite .grouped])).leaveOrder := by
  have refused : s.validateRecord r = (s.onOrder fun u => { u with waiting := none }).refuseOrder reason := by
    simp only [State.validateRecord, State.onOrder_bus, hv]
  exact refused.trans (congrArg State.leaveOrder (issueEnd_eq _ _ _ hc ha))

end Sys2Proof.Machine

namespace Sys2Proof.Proofs
open Sys2Proof.Machine

/-- Settles O42: the table entry by entry; then no validation waits, or the one that waits passes or fails. -/
theorem windowsLoaded : Obligations.WindowsLoaded := by
  intro s data hs hl loading hp
  refine ⟨windowsOfBytes data, rfl, fun i hi => getElem?_windowsOfBytes data hi, fun hw => ?_,
    fun r i hw starting hc => ⟨fun o hv => ?_, fun reason hv => ?_⟩⟩
  · exact exec_windowLoadComplete hl loading hp (windowsArrive_of_none hw data) hs
  all_goals
    have unbarred : (s.windowsLoadedFrom data).accessBarred = false :=
      accessBarred_of_works (congrArg PartState.works starting) hs
    have arrives := windowsArrive_of_waiting hw starting data
  · exact exec_windowLoadComplete hl loading hp (arrives.trans (validateRecord_of_calibrate unbarred hc hv)) hs
  · refine ⟨_, exec_windowLoadComplete hl loading hp (arrives.trans (validateRecord_of_refused unbarred hc hv)) hs,
      rfl, rfl, rfl, rfl, rfl, rfl, ?_⟩
    exact (List.append_assoc ..).symm

end Sys2Proof.Proofs
end

section
/-! SUPPORT. Codes taken outside the sequences of an order (R175 to R177), SUSPEND (R182), and power-on (R186). -/
namespace Sys2Proof.Machine

variable {s : State}

/-! ### LOOK (R177) -/

theorem look_of_free (hp : s.order.part = .idle) (hn : s.order.selecting = false) (he : s.order.endWrites = false)
    (hs : s.Settled) :
    s.look =
      ({ s with order := { s.order with selecting := true, follows := false } } : State).withReads s.selectionReads := by
  have unbarred : s.accessBarred = false := accessBarred_of_works (congrArg PartState.works hp) hs
  rw [State.look, if_pos hp, if_neg (by simp [hn, he]), beginSelection_eq unbarred]

theorem look_of_busy (hp : s.order.part = .idle) (h : s.order.selecting = true ∨ s.order.endWrites = true) :
    s.look = { s with order := { s.order with selectionRequest := true } } := by
  rw [State.look, if_pos hp, if_pos (by simpa using h)]
  rfl

theorem look_of_not_idle (hp : s.order.part ≠ .idle) : s.look = s := if_neg hp

/-! ### SUSPEND (R141, R182) -/

theorem originOf_eq {part : PartState} (hp : part = .running ∨ part = .finishing) :
    originOf part = if part = .running then .running else .finishing := by
  rcases hp with rfl | rfl <;> rfl

theorem suspend_eq {i : Fin 4} (hs : s.Settled) (hn : s.order.aborting = false) (hc : s.order.chosen = some i) :
    s.suspend =
      ({ s with
          order := { s.order with
            part := .suspended, origin := some (originOf s.order.part), suspendHold := true }
          writer := s.writer.suspend } : State).withWrites [s.slotWrite i 3 .silent] := by
  rw [State.suspend, if_neg (by simp [hn])]
  exact issueSlotWord_eq slotSuspended .silent hc (accessBarred_eq_false nofun nofun hs)

/-! ### PARK (R14, R176) -/

/-- An operation without reads in flight has none to give up. -/
theorem stopReads_of_none {site : ReadSite} (h : ∀ r ∈ s.bus.reads, r.site ≠ site) : s.stopReads site = s := by
  have noneWaiting : ∀ r ∈ s.bus.reads, r.isWaiting site = false := fun r hr => by simp [BusRead.isWaiting, h r hr]
  have reached : s.reachReads site = s :=
    if_pos (congrArg List.length (List.filter_eq_nil_iff.2 fun r hr => by simp [noneWaiting r hr]))
  have dropped : dropReads site s.bus.reads = s.bus.reads := by
    rw [dropReads, List.filter_eq_self.2 fun r hr => by simp [noneWaiting r hr]]
    exact (List.map_congr_left fun r hr => if_neg (h r hr)).trans s.bus.reads.map_id
  rw [State.stopReads, reached, State.onBus, dropped]

/-- PARK leaves of the selection's reads those that had been made, their data discarded (log 30). -/
theorem park_eq (s : State) :
    ∃ reads free, s.park = { s with
        order := { s.order with part := .parked, selecting := false, selectionRequest := false, follows := false }
        bus := { s.bus with reads := reads }
        free := free
        intake := { s.intake with shading := .empty, copy := [], hot := 0, dead := 0 }
        mapper := { s.mapper with faults := [] } }
      ∧ (∀ r, r.site ≠ .slotWord → (r ∈ reads ↔ r ∈ s.bus.reads))
      ∧ (∀ r ∈ reads, r.site = .slotWord → r.stage = .dropped)
      ∧ (∀ r ∈ s.bus.reads, r.site = .slotWord → r.stage ≠ .waiting → { r with stage := .dropped } ∈ reads)
      ∧ ((∀ r ∈ s.bus.reads, r.site ≠ .slotWord) → reads = s.bus.reads ∧ free = s.free) := by
  let parked := s.onOrder fun u =>
    { u with part := .parked, selecting := false, selectionRequest := false, follows := false }
  obtain ⟨free, reads, e, left, kept⟩ := stopReads_eq parked .slotWord
  have dropped : ∀ r ∈ reads, r.site = .slotWord → r.stage = .dropped := fun r hr hsite =>
    (left r hr).elim (fun h => absurd hsite h.2) fun h => h.2
  refine ⟨reads, free, congrArg State.discardShading e, fun r hsite => ⟨fun hr => ?_, fun hr => ?_⟩, dropped,
    fun r hr hsite hmade => ?_, fun hnone => ?_⟩
  · exact (left r hr).elim (fun h => h.1) fun h => absurd h.1 hsite
  · have stays : r ∈ (parked.stopReads .slotWord).bus.reads := mem_stopReads_of_ne hsite hr
    rwa [e] at stays
  · refine (kept r hr hmade).elim (fun hin => ?_) id
    rwa [← dropped r hin hsite]
  · have same := (stopReads_of_none (s := parked) hnone).symm.trans e
    exact ⟨congrArg (fun t : State => t.bus.reads) same.symm, congrArg State.free same.symm⟩

/-! ### WAKE (R175) -/

theorem passesCheck_headerWrites (s : State) : ∀ w ∈ s.headerWrites, s.passesCheck w = true := by
  intro w hw
  simp only [State.headerWrites, List.mem_map, List.mem_cons, List.not_mem_nil, or_false] at hw
  obtain ⟨f, hf, rfl⟩ := hw
  rcases hf with rfl | rfl | rfl | rfl | rfl | rfl <;>
    exact passesCheck_blockField s s .silent rfl
      (by simp [RefusalRecord.toBytes, length_word, length_half, Config.blockBytes])

theorem wake_eq (hs : s.Settled) :
    s.wake = ({ s with order := { s.order with part := .idle } } : State).withWrites s.headerWrites :=
  issueAll_eq (accessBarred_eq_false nofun nofun hs) (passesCheck_headerWrites s)

end Sys2Proof.Machine

namespace Sys2Proof.Proofs
open Sys2Proof.Machine

/-- Settles O4: the step makes the power-on state, and each register reads from it. -/
theorem powerOnResets : Obligations.PowerOnResets := fun s =>
  ⟨s.powerOn, done_of_settled rfl rfl, rfl, rfl, rfl, rfl, rfl, rfl, rfl, (int_causeSet_eq_false_of_cause_zero rfl).1, rfl⟩

/-- Settles O12: in IDLE by whether a selection can begin; in the other states the code has no effect. -/
theorem lookTaken : Obligations.LookTaken := by
  intro s hs
  have accepted {t : State} (hw : s.order.part.works = true) (h : s.look = t) (ht : t.Settled) : exec .look s = .next t :=
    exec_of_accepted (by simp [codeCommands]) hw h ht
  refine ⟨fun ⟨hp, hn, he⟩ => ?_, fun ⟨hp, hb⟩ => ?_, fun hp => ?_⟩
  · exact accepted (congrArg PartState.works hp) (look_of_free hp hn he hs) hs
  · exact accepted (congrArg PartState.works hp) (look_of_busy hp hb) hs
  · exact accepted (works_of_mem (List.mem_cons_of_mem _ hp)) (look_of_not_idle fun idle => by simp [idle] at hp) hs

/-- Settles O14: the code is accepted, and the slot word passes the window check. -/
theorem suspendTaken : Obligations.SuspendTaken := by
  intro s i hs hn hc hp
  rw [← originOf_eq hp]
  exact exec_of_accepted (by simp [codeCommands]) (by simpa [State.accepts] using hp) (suspend_eq hs hn hc) hs

/-- Settles O18: PARK by what giving up the selection leaves of its reads, WAKE by the header writes. -/
theorem parkAndWake : Obligations.ParkAndWake := by
  intro s hs
  refine ⟨fun hp => ?_, fun hp => ?_⟩
  · obtain ⟨reads, free, e, left⟩ := park_eq s
    exact ⟨reads, free, exec_of_accepted (by simp [codeCommands]) (beq_iff_eq.2 hp) e hs, left⟩
  · exact exec_of_accepted (by simp [codeCommands]) (beq_iff_eq.2 hp) (wake_eq hs) hs

end Sys2Proof.Proofs
end

section
/-! SUPPORT. The end of an order selection: the slot that the words read choose, and what the choice begins (R177, R178). -/
namespace Sys2Proof.Machine

/-! ### The slot chosen (R177) -/

section choice

variable {slots : List SlotRead} {best : Option (Nat × Nat)} {k i q : Nat}

theorem betterSlot_of_lt (h : ∀ p, best = some p → q < p.2) : betterSlot best i q = some (i, q) := by
  cases best with
  | none => rfl
  | some p => exact if_pos (h p rfl)

theorem betterSlot_of_le {n : Nat} (h : q ≤ n) : betterSlot (some (i, q)) k n = some (i, q) := if_neg h.not_gt

/-- The better of two slots is worse than `q` where both are. -/
theorem lt_betterSlot {n : Nat} (h : ∀ p, best = some p → q < p.2) (hn : q < n) :
    ∀ p, betterSlot best k n = some p → q < p.2 := by
  intro p hp
  cases best with
  | none =>
    cases hp
    exact hn
  | some b =>
    simp only [betterSlot] at hp
    split at hp <;> cases hp
    · exact hn
    · exact h b rfl

theorem chooseFrom_of_none_posted (h : ∀ slot ∈ slots, slot.state ≠ slotPosted) : chooseFrom k slots best = best := by
  induction slots generalizing k with
  | nil => rfl
  | cons slot rest ih =>
    rw [chooseFrom, if_neg (h slot List.mem_cons_self), ih fun x hx => h x (List.mem_cons_of_mem _ hx)]

/-- A slot stays chosen where no POSTED slot behind it has a smaller sequence number. -/
theorem chooseFrom_of_chosen (h : ∀ slot ∈ slots, slot.state = slotPosted → q ≤ slot.sequence) :
    chooseFrom k slots (some (i, q)) = some (i, q) := by
  induction slots generalizing k with
  | nil => rfl
  | cons slot rest ih =>
    have stays : (if slot.state = slotPosted then betterSlot (some (i, q)) k slot.sequence else some (i, q)) = some (i, q) := by
      split
      · next posted => exact betterSlot_of_le (h slot List.mem_cons_self posted)
      · rfl
    rw [chooseFrom, stays, ih fun x hx => h x (List.mem_cons_of_mem _ hx)]

/-- The POSTED slot with a smaller number than every one before it, and none larger than behind it, is chosen. -/
theorem chooseFrom_eq_some {slot : SlotRead} (hi : slots[i]? = some slot) (hp : slot.state = slotPosted)
    (hbest : ∀ p, best = some p → slot.sequence < p.2)
    (before : ∀ j x, j < i → slots[j]? = some x → x.state = slotPosted → slot.sequence < x.sequence)
    (behind : ∀ j x, i < j → slots[j]? = some x → x.state = slotPosted → slot.sequence ≤ x.sequence) :
    chooseFrom k slots best = some (k + i, slot.sequence) := by
  induction slots generalizing k i best with
  | nil => cases hi
  | cons first rest ih =>
    cases i with
    | zero =>
      cases hi
      rw [chooseFrom, if_pos hp, betterSlot_of_lt hbest]
      refine chooseFrom_of_chosen fun x hx => ?_
      obtain ⟨j, hj⟩ := List.mem_iff_getElem?.1 hx
      exact behind (j + 1) x j.succ_pos hj
    | succ i =>
      have earlier : ∀ p, (if first.state = slotPosted then betterSlot best k first.sequence else best) = some p →
          slot.sequence < p.2 := by
        split
        · next posted => exact lt_betterSlot hbest (before 0 first i.succ_pos rfl posted)
        · exact hbest
      rw [chooseFrom, ih hi earlier, Nat.add_right_comm, Nat.add_assoc]
      · exact fun j x hj => before (j + 1) x (Nat.succ_lt_succ hj)
      · exact fun j x hj => behind (j + 1) x (Nat.succ_lt_succ hj)

end choice

/-! ### The words read (R174, R177) -/

theorem slotReadOfBytes_eq (data : List Byte) (offset : Nat) :
    SlotRead.ofBytes ((data.drop offset).take 8) =
      { state := leValue ((data.drop offset).take 4), sequence := leValue ((data.drop (offset + 4)).take 4) } := by
  simp only [SlotRead.ofBytes, fieldAt, List.take_take, List.drop_take, List.drop_drop]
  rfl

/-- The state word and the sequence number of slot `i`. -/
def slotAt (data : List Byte) (i : Nat) : SlotRead :=
  { state := leValue ((data.drop (8 * i)).take 4), sequence := leValue ((data.drop (8 * i + 4)).take 4) }

theorem slotsOfBytes_eq (data : List Byte) : slotsOfBytes data = [0, 1, 2, 3].map (slotAt data) := by
  simp only [slotsOfBytes, slotReadOfBytes_eq]
  rfl

theorem getElem?_slotsOfBytes {data : List Byte} {j : Nat} {slot : SlotRead} (h : (slotsOfBytes data)[j]? = some slot) :
    ∃ i : Fin 4, i.val = j ∧ slot = slotAt data i := by
  rw [slotsOfBytes_eq] at h
  match j, h with
  | 0, h => exact ⟨0, rfl, (Option.some.inj h).symm⟩
  | 1, h => exact ⟨1, rfl, (Option.some.inj h).symm⟩
  | 2, h => exact ⟨2, rfl, (Option.some.inj h).symm⟩
  | 3, h => exact ⟨3, rfl, (Option.some.inj h).symm⟩

theorem chooseSlot_eq_some {data : List Byte} {i : Fin 4} (hp : (slotAt data i).state = 1)
    (least : ∀ j : Fin 4, (slotAt data j).state = 1 →
      (slotAt data i).sequence < (slotAt data j).sequence
        ∨ ((slotAt data i).sequence = (slotAt data j).sequence ∧ i.val ≤ j.val)) :
    chooseSlot (slotsOfBytes data) = some i := by
  have found : (slotsOfBytes data)[i.val]? = some (slotAt data i) := by
    rw [slotsOfBytes_eq]
    match i with
    | 0 => rfl
    | 1 => rfl
    | 2 => rfl
    | 3 => rfl
  have chosen : chooseFrom 0 (slotsOfBytes data) none = some (0 + i.val, (slotAt data i).sequence) := by
    refine chooseFrom_eq_some found hp nofun (fun j x hj hx posted => ?_) (fun j x hj hx posted => ?_) <;>
      obtain ⟨j, rfl, rfl⟩ := getElem?_slotsOfBytes hx <;> have := least j posted <;> omega
  rw [chooseSlot, chosen, Option.map_some, Nat.zero_add]
  exact congrArg some (Fin.ext (Nat.mod_eq_of_lt i.isLt))

theorem chooseSlot_eq_none {data : List Byte} (h : ∀ i : Fin 4, (slotAt data i).state ≠ 1) :
    chooseSlot (slotsOfBytes data) = none := by
  have nothing : chooseFrom 0 (slotsOfBytes data) none = none := chooseFrom_of_none_posted fun slot hslot => by
    obtain ⟨j, hj⟩ := List.mem_iff_getElem?.1 hslot
    obtain ⟨i, -, rfl⟩ := getElem?_slotsOfBytes hj
    exact h i
  rw [chooseSlot, nothing]
  rfl

/-! ### What the choice begins (R177, R178) -/

variable {s : State} {slots : List SlotRead}

theorem exec_selectionReadsComplete {data : List Byte} {t : State} (hl : data.length = 32)
    (selecting : s.order.selecting = true) (hp : s.order.part = .idle)
    (h : (s.readsOver .slotWord).endSelection (slotsOfBytes data) = t) (ht : t.Settled) :
    exec (.selectionReadsComplete data) s = .next t :=
  (if_pos hl).trans (done_of_settled ((if_pos (by simp [selecting, hp])).trans h) ht)

theorem firstMade_recordReads (s : State) (i : Nat) :
    firstMade (s.recordReads i) =
      [s.madeRead .orderRecord (0x204 + 256 * i) 86, s.blockRead .orderRecord (0x25C + 256 * i) 10] := by
  have fields : slotOffset i + 0x04 = 0x204 + 256 * i ∧ slotOffset i + 0x5C = 0x25C + 256 * i := by
    unfold slotOffset
    omega
  rw [State.recordReads, fields.1, fields.2]
  rfl

/-- The order record of the chosen slot is read. -/
theorem endSelection_of_some {i : Fin 4} (hs : s.Settled) (hc : chooseSlot slots = some i) :
    s.endSelection slots =
      ({ s with
          order := { s.order with
            part := .starting, chosen := some i, recordRead := true, selecting := false
            selectionRequest := false } } : State).withReads
        [s.madeRead .orderRecord (0x204 + 256 * i) 86, s.blockRead .orderRecord (0x25C + 256 * i) 10] := by
  rw [State.endSelection, hc, ← firstMade_recordReads]
  exact startReads_eq _ (accessBarred_eq_false nofun nofun hs)

theorem endSelection_of_none (hc : chooseSlot slots = none) (hr : s.order.selectionRequest = false) :
    s.endSelection slots = { s with order := { s.order with selecting := false } } := by
  rw [State.endSelection, hc]
  exact if_neg (by simp [hr])

/-- The request begins another selection. -/
theorem endSelection_of_request (ha : s.accessBarred = false) (hc : chooseSlot slots = none)
    (hr : s.order.selectionRequest = true) :
    s.endSelection slots =
      ({ s with
          order := { s.order with selecting := true, selectionRequest := false, follows := false } } : State).withReads
        s.selectionReads := by
  rw [State.endSelection, hc]
  exact (if_pos hr).trans (beginSelection_eq ha)

end Sys2Proof.Machine

namespace Sys2Proof.Proofs
open Sys2Proof.Machine

/-- Settles O43: the choice by the words read, then what it begins. -/
theorem selectionDone : Obligations.SelectionDone := by
  intro s data hs hl selecting hp state sequence s'
  have unbarred : s.accessBarred = false := accessBarred_of_works (congrArg PartState.works hp) hs
  refine ⟨fun i posted least => ?_, fun noneP => ⟨fun hr => ?_, fun hr => ?_⟩⟩
  · exact exec_selectionReadsComplete hl selecting hp (endSelection_of_some hs (chooseSlot_eq_some posted least)) hs
  · exact exec_selectionReadsComplete hl selecting hp (endSelection_of_none (chooseSlot_eq_none noneP) hr) hs
  · exact exec_selectionReadsComplete hl selecting hp (endSelection_of_request unbarred (chooseSlot_eq_none noneP) hr) hs

end Sys2Proof.Proofs
end

section
/-! SUPPORT. Validation (R17, R47, R72, R126, R179): each check as the rule states it, the first that fails, and the clamped
values. -/
namespace Sys2Proof.Machine

/-! ### The first check that fails (R179) -/

/-- A check of the model decides the condition of a rule, for the same reason. -/
def Decides (rule : Prop × Reason) (check : Bool × Reason) : Prop := (check.1 = true ↔ rule.1) ∧ check.2 = rule.2

section first_failure

variable {rules : List (Prop × Reason)} {checks : List (Bool × Reason)}

theorem firstFailure_eq_none_iff (h : List.Forall₂ Decides rules checks) :
    firstFailure checks = none ↔ ∀ rule ∈ rules, rule.1 := by
  induction h with
  | nil => exact ⟨fun _ => nofun, fun _ => rfl⟩
  | @cons rule check rules checks hd _ ih =>
    rw [List.forall_mem_cons, ← ih, ← hd.1, firstFailure]
    split
    · next passed => simp [passed]
    · next failed => simp [failed]

theorem firstFailure_eq_some_iff (h : List.Forall₂ Decides rules checks) (reason : Reason) :
    firstFailure checks = some reason ↔
      ∃ (k : Nat) (condition : Prop), rules[k]? = some (condition, reason) ∧ ¬ condition
        ∧ ∀ j (p : Prop × Reason), j < k → rules[j]? = some p → p.1 := by
  induction h with
  | nil => exact ⟨nofun, nofun⟩
  | @cons rule check rules checks hd _ ih =>
    obtain ⟨decides, sameReason⟩ := hd
    rw [firstFailure]
    by_cases passed : check.1 = true
    · rw [if_pos passed, ih]
      constructor
      · rintro ⟨k, condition, hk, fails, before⟩
        refine ⟨k + 1, condition, hk, fails, fun j p hj hp => ?_⟩
        cases j with
        | zero => exact Option.some.inj hp ▸ decides.1 passed
        | succ j => exact before j p (Nat.lt_of_succ_lt_succ hj) hp
      · rintro ⟨k, condition, hk, fails, before⟩
        cases k with
        | zero => exact absurd (decides.1 passed) (Option.some.inj hk ▸ fails)
        | succ k => exact ⟨k, condition, hk, fails, fun j p hj hp => before (j + 1) p (Nat.succ_lt_succ hj) hp⟩
    · rw [if_neg passed]
      constructor
      · intro e
        refine ⟨0, rule.1, ?_, fun holds => passed (decides.2 holds), nofun⟩
        rw [← Option.some.inj e, sameReason]
        rfl
      · rintro ⟨k, condition, hk, fails, before⟩
        cases k with
        | zero =>
          rw [sameReason]
          exact congrArg (fun p => some p.2) (Option.some.inj hk)
        | succ k => exact absurd (decides.2 (before 0 rule k.succ_pos rfl)) passed

end first_failure

/-! ### The checks one by one (R17, R47, R72, R126) -/

variable {r : OrderRecord}

theorem within_iff {low high v : Nat} : within low high v = true ↔ low ≤ v ∧ v ≤ high := by simp [within]

theorem within_zero_iff {high v : Nat} : within 0 high v = true ↔ v ≤ high := by simp [within]

theorem bandOk_iff : bandOk r = true ↔ r.bandLeft + 31 ≤ r.bandRight ∧ r.bandRight < r.width := by
  simp [bandOk, Nat.succ_le_iff]

theorem geometryOk_iff :
    geometryOk r = true ↔
      (2 ≤ r.minGap ∧ r.minGap ≤ 12) ∧ r.insetTop ≤ 8 ∧ r.insetBottom ≤ 8 ∧ (4 ≤ r.leaderLines ∧ r.leaderLines ≤ 64)
        ∧ (64 ≤ r.pitch ∧ r.pitch ≤ 32767)
        ∧ (r.insetTop + r.insetBottom + 16 ≤ r.minFrame ∧ r.minFrame ≤ r.pitch - min r.tol (r.pitch / 4))
        ∧ 64 ≤ r.stripLines ∧ r.stripLines ≤ 16777215 := by
  simp only [geometryOk, Bool.and_eq_true, within_iff, Nat.zero_le, true_and, clampedTol, and_assoc]

theorem outputOk_iff : outputOk r = true ↔ r.decimation ∈ [1, 2, 4] ∧ r.depth ∈ [8, 16] := by
  simp [outputOk, or_assoc]

theorem cropOk_iff :
    cropOk r = true ↔
      (r.cropMode = 0 ∨ (r.cropMode = 1 ∧ r.film = 0)) ∧ r.defaultLeft ≤ r.defaultRight ∧ r.defaultRight < r.width
        ∧ r.insetLeft ≤ 64 ∧ r.insetRight ≤ 64 := by
  simp [cropOk, within_zero_iff, and_assoc]

theorem anyWindow_iff {windows : List (Option Window)} : anyWindow windows = true ↔ ∃ w ∈ windows, w.isSome = true :=
  List.any_eq_true

/-- An address of 0 stands for no table. -/
theorem tableOk_iff {address : Nat} {inside : Bool} : (address == 0 || inside) = true ↔ address = 0 ∨ inside = true := by
  simp

/-! ### All the checks of an order, its kind first (R179) -/

/-- The checks of an order of a record's kind, the kind's own first. -/
def allChecks (windows : List (Option Window)) (r : OrderRecord) : List (Bool × Reason) :=
  (decide (r.kind = 1 ∨ r.kind = 2), .badKind) :: if r.kind = 1 then calChecks windows r else scanChecks windows r

/-- The order of a record's kind. -/
def validatedOrder (r : OrderRecord) : Order := if r.kind = 1 then .calibrate (calOf r) else .scan (scanOf r)

theorem validate_eq (windows : List (Option Window)) (r : OrderRecord) :
    validate windows r = (firstFailure (allChecks windows r)).elim (.accepted (validatedOrder r)) .refused := by
  unfold validate allChecks validatedOrder
  by_cases calibrate : r.kind = 1
  · simp only [calibrate, firstFailure, true_or, decide_true, if_true]
    cases firstFailure (calChecks windows r) <;> rfl
  · rw [if_neg calibrate, if_neg calibrate, if_neg calibrate]
    by_cases scan : r.kind = 2
    · simp only [scan, firstFailure, or_true, decide_true, if_true]
      cases firstFailure (scanChecks windows r) <;> rfl
    · simp [calibrate, scan, firstFailure]

theorem validate_eq_refused_iff {windows : List (Option Window)} {reason : Reason} :
    validate windows r = .refused reason ↔ firstFailure (allChecks windows r) = some reason := by
  rw [validate_eq]
  cases firstFailure (allChecks windows r) <;> simp

theorem validate_eq_accepted_iff {windows : List (Option Window)} {order : Order} :
    validate windows r = .accepted order ↔ firstFailure (allChecks windows r) = none ∧ order = validatedOrder r := by
  rw [validate_eq]
  cases firstFailure (allChecks windows r) <;> simp [eq_comm]

/-! ### The values as clamped (R47, R72, R87, R106) -/

theorem clamp_eq {low high : Nat} (h : low ≤ high) (v : Nat) : clamp low high v = max low (min high v) := by
  unfold clamp
  split
  · omega
  · split <;> omega

end Sys2Proof.Machine

namespace Sys2Proof.Proofs
open Sys2Proof.Machine

/-- Settles O44: the model's checks decide the rules' conditions one by one, so the first that fails is the same. -/
theorem orderChecks : Obligations.OrderChecks := by
  intro windows r tol start calibrate scan checks
  have decides : List.Forall₂ Decides checks (allChecks windows r) := by
    refine .cons ⟨decide_eq_true_iff, rfl⟩ ?_
    by_cases kind : r.kind = 1
    · simp only [kind, if_true]
      exact .cons ⟨within_iff, rfl⟩ <| .cons ⟨within_iff, rfl⟩ <| .cons ⟨within_iff, rfl⟩ <|
        .cons ⟨anyWindow_iff, rfl⟩ <| .cons ⟨.rfl, rfl⟩ .nil
    · simp only [kind, if_false]
      exact .cons ⟨within_iff, rfl⟩ <| .cons ⟨within_zero_iff, rfl⟩ <| .cons ⟨bandOk_iff, rfl⟩ <|
        .cons ⟨geometryOk_iff, rfl⟩ <| .cons ⟨within_iff, rfl⟩ <| .cons ⟨outputOk_iff, rfl⟩ <| .cons ⟨cropOk_iff, rfl⟩ <|
        .cons ⟨anyWindow_iff, rfl⟩ <| .cons ⟨.rfl, rfl⟩ <| .cons ⟨tableOk_iff, rfl⟩ .nil
  refine ⟨fun reason => ?_, fun order => ?_⟩
  · rw [validate_eq_refused_iff, firstFailure_eq_some_iff decides]
  · rw [validate_eq_accepted_iff, firstFailure_eq_none_iff decides]
    refine and_congr_right' (Eq.congr_right ?_)
    simp (disch := decide) only [validatedOrder, calOf, scanOf, clamp_eq, Nat.zero_max, decide_not]
    rfl

end Sys2Proof.Proofs
end

section
/-! SUPPORT. The start of an order: the record as it arrives (R178, R180), the shading step (R10, R11), the roster's free forms
(R153), and what each block takes up at the entry to RUNNING (R4, R7, R18, R32, R46, R89, R106, R126). -/
namespace Sys2Proof.Machine

variable {s : State}

/-! ### The record arrives (R171, R178) -/

/-- The reads of the order record are over and its data is taken. -/
def State.recordTaken (s : State) : State := (s.readsOver .orderRecord).onOrder fun u => { u with recordRead := false }

theorem exec_orderRecordReadComplete {record : List Byte} {t : State} (hl : record.length = 96)
    (hp : s.order.part = .starting) (reads : s.order.recordRead = true) (hn : s.order.aborting = false)
    (h : (s.readsOver .orderRecord).recordArrives (OrderRecord.ofBytes record) = t) (ht : t.Settled) :
    exec (.orderRecordReadComplete record) s = .next t :=
  (if_pos hl).trans (done_of_settled ((if_pos (by simp [reads, hp, hn])).trans h) ht)

theorem recordArrives_of_loading (hb : s.bus.loading = true) (r : OrderRecord) :
    (s.readsOver .orderRecord).recordArrives r = s.recordTaken.onOrder fun u => { u with waiting := some r } := if_pos hb

theorem recordArrives_of_not_loading (hb : s.bus.loading = false) (r : OrderRecord) :
    (s.readsOver .orderRecord).recordArrives r = s.recordTaken.validateRecord r := if_neg (Bool.eq_false_iff.1 hb)

/-! ### The shading step of a SCAN order (R10, R11, R178) -/

/-- A SCAN order has passed validation. -/
def State.scanAccepted (s : State) (o : ScanOrder) : State :=
  s.onOrder fun u => { u with waiting := none, current := some (.scan o) }

/-- A SCAN order that passes goes on to its shading step, its slot word RUNNING issued. -/
theorem validateRecord_of_scan {r : OrderRecord} {o : ScanOrder} {i : Fin 4} (ha : s.accessBarred = false)
    (hc : s.order.chosen = some i) (hv : validate s.bus.windows r = .accepted (.scan o)) :
    s.validateRecord r =
      ((s.scanAccepted o).withWrites [s.slotWrite i 2 .silent]).startShading o := by
  have started : s.validateRecord r = (s.onOrder fun u => { u with waiting := none }).startOrder (.scan o) := by
    simp only [State.validateRecord, State.onOrder_bus, hv]
  rw [started]
  exact congrArg (State.startShading · o) (issueSlotWord_eq slotRunning .silent hc ha)

/-- With a shading address the load of the table begins. -/
theorem startShading_of_address {o : ScanOrder} (ha : s.accessBarred = false) (hz : o.shadingAddress ≠ 0) :
    s.startShading o =
      ({ s with
          order := { s.order with shadingReads := true }
          intake := { s.intake with shading := .loading } } : State).withReads (firstMade (shadingReads o)) :=
  (if_neg hz).trans (startReads_eq _ ha)

theorem length_firstMade (reads : List BusRead) : (firstMade reads).length = reads.length := by
  cases reads <;> rfl

theorem getElem?_firstMade (reads : List BusRead) (c : Nat) :
    (firstMade reads)[c]? = reads[c]?.map fun r => if c = 0 then { r with stage := .made } else r := by
  cases reads with
  | nil => rfl
  | cons r rest =>
    cases c with
    | zero => rfl
    | succ c => exact Option.map_id'.symm

theorem length_shadingReads (o : ScanOrder) : (shadingReads o).length = o.width := by simp [shadingReads]

theorem getElem?_firstMade_shadingReads {o : ScanOrder} {c : Nat} (hc : c < o.width) :
    (firstMade (shadingReads o))[c]? = some
      { site := .shadingEntry, address := o.shadingAddress + 20 * c, bytes := 20, plate := 0xFFFF, frame := 0
        stage := if c = 0 then ReadStage.made else ReadStage.waiting } := by
  rw [getElem?_firstMade, shadingReads, List.getElem?_map, List.getElem?_range hc]
  cases c <;> rfl

/-! ### Unity values (R11) -/

theorem countHot_replicate_unity (n : Nat) : countHot (List.replicate n unityColumn) = 0 := by
  simp [countHot, unityColumn]

theorem countDead_replicate_unity (n : Nat) : countDead (List.replicate n unityColumn) = 0 := by
  simp [countDead, unityColumn]

theorem faultList_replicate_unity (k n : Nat) : faultList k (List.replicate n unityColumn) = [] := by
  refine List.eq_nil_iff_forall_not_mem.2 fun c hc => ?_
  obtain ⟨i, column, hi, faulted, -⟩ := mem_faultList.1 hc
  obtain rfl := List.eq_of_mem_replicate (List.mem_of_getElem? hi)
  exact Bool.false_ne_true faulted

/-- The shading copy holds unity values for the columns of an order. -/
def State.unityLoaded (s : State) (o : ScanOrder) : State :=
  { s with
    intake := { s.intake with shading := .loaded, copy := List.replicate o.width unityColumn, hot := 0, dead := 0 }
    mapper := { s.mapper with faults := [] } }

theorem shadingLoaded_unity (s : State) (o : ScanOrder) :
    s.shadingLoaded (List.replicate o.width unityColumn) = s.unityLoaded o := by
  simp only [State.shadingLoaded, countHot_replicate_unity, countDead_replicate_unity, faultList_replicate_unity]
  rfl

/-! ### The roster of a validated order lies in a window (R179) -/

theorem firstFailure_eq_none {checks : List (Bool × Reason)} (h : firstFailure checks = none) :
    ∀ check ∈ checks, check.1 = true := by
  induction checks with
  | nil => exact nofun
  | cons check checks ih =>
    rw [firstFailure] at h
    split at h
    · next passed => exact List.forall_mem_cons.2 ⟨passed, ih h⟩
    · cases h

theorem insideWindow_of_accepted {windows : List (Option Window)} {r : OrderRecord} {o : ScanOrder}
    (h : validate windows r = .accepted (.scan o)) :
    insideWindow windows o.rosterAddress (o.expectedFrames * 640) = true := by
  obtain ⟨passed, e⟩ := validate_eq_accepted_iff.1 h
  unfold validatedOrder at e
  split at e
  · cases e
  · next scan =>
    cases e
    refine firstFailure_eq_none passed (insideWindow windows r.rosterAddress (r.expectedFrames * 640), .window) ?_
    simp [allChecks, scan, scanChecks]

/-- Without a shading address the copy takes unity values, and the roster is written in the free form at once. -/
theorem startShading_of_zero {o : ScanOrder} (ha : s.accessBarred = false) (hz : o.shadingAddress = 0)
    (hw : insideWindow s.bus.windows o.rosterAddress (o.expectedFrames * 640) = true) :
    s.startShading o = (s.unityLoaded o).withWrites (rosterFreeForms o o.expectedFrames 1) := by
  rw [State.startShading, if_pos hz, shadingLoaded_unity]
  exact issueRoster_eq (s := s.unityLoaded o) ha hw

theorem withWrites_withWrites (s : State) (ws vs : List BusWrite) :
    (s.withWrites ws).withWrites vs = s.withWrites (ws ++ vs) := by
  simp only [State.withWrites, List.append_assoc]

/-- The slot word and the free forms of the roster go out in one step. -/
theorem startShading_withWrites_of_zero {o : ScanOrder} (w : BusWrite) (ha : s.accessBarred = false)
    (hz : o.shadingAddress = 0) (hw : insideWindow s.bus.windows o.rosterAddress (o.expectedFrames * 640) = true) :
    (s.withWrites [w]).startShading o = (s.unityLoaded o).withWrites (w :: rosterFreeForms o o.expectedFrames 1) :=
  (startShading_of_zero (s := s.withWrites [w]) ha hz hw).trans (withWrites_withWrites (s.unityLoaded o) [w] _)

/-! ### The entry to RUNNING (R178 step 5) -/

theorem orderLineBytes_eq (o : ScanOrder) :
    orderLineBytes o =
      (if o.cropMode = .fixed then ((fixedCrop o).right - (fixedCrop o).left) / o.decimation + 1
        else (o.width - 1) / o.decimation + 1) * 3 * (o.depth / 8) := by
  unfold orderLineBytes
  cases o.cropMode <;> rfl

theorem exec_startWritesComplete {early late : List BusWrite} {w : BusWrite} (hi : s.bus.inFlight = early ++ w :: late)
    (hm : w.mark = .startLast) (he : ∀ v ∈ early, v.mark ≠ .startLast) (hp : s.order.part = .starting)
    (hn : s.order.aborting = false) :
    exec .startWritesComplete s = done (s.landedThrough early late w).enterRunning := by
  change execStartWritesComplete s = _
  rw [execStartWritesComplete, onEnd_split hi hm he, if_pos ⟨hp, hn⟩]
  rfl

/-- What the entry to RUNNING does whatever the order is: it takes no write and no register. -/
theorem enterRunning_keeps (s : State) :
    s.enterRunning.order = { s.order with part := .running, gathered := none }
      ∧ s.enterRunning.intake = { s.intake with arrival := 0, malformed := 0 } ∧ s.enterRunning.reg = s.reg
      ∧ s.enterRunning.bus.inFlight = s.bus.inFlight ∧ s.enterRunning.bus.barred = s.bus.barred
      ∧ s.enterRunning.mem = s.mem := by
  unfold State.enterRunning
  dsimp only
  split <;> exact ⟨rfl, rfl, rfl, rfl, rfl, rfl⟩

theorem enterRunning_of_calibrate {o : CalOrder} (ho : s.order.current = some (.calibrate o)) :
    s.enterRunning.cal = s.cal.start o := by
  simp only [State.enterRunning, State.onIntake_order, State.onOrder_order, ho]
  rfl

theorem enterRunning_of_scan {o : ScanOrder} (ho : s.order.current = some (.scan o)) :
    s.enterRunning =
      ((s.onOrder fun u => { u with part := .running, gathered := none }).onIntake fun i =>
        { i with arrival := 0, malformed := 0 }).startScan o := by
  simp only [State.enterRunning, State.onIntake_order, State.onOrder_order, ho]

/-- The sums of the order's columns are 0. -/
theorem getElem?_clearSums_of_lt {width c : Nat} (hc : c < width) (sums : List Quad) :
    (clearSums width sums)[c]? = some zeroQuad := by
  rw [clearSums, List.getElem?_append_left (by simpa using hc), List.getElem?_replicate, if_pos hc]

/-- Those above its width stand. -/
theorem getD_clearSums_of_le {width c : Nat} (hc : width ≤ c) (sums : List Quad) :
    (clearSums width sums).getD c zeroQuad = sums.getD c zeroQuad := by
  rw [clearSums, List.getD_eq_getElem?_getD, List.getD_eq_getElem?_getD,
    List.getElem?_append_right (by simpa using hc), List.length_replicate, List.getElem?_drop, Nat.add_sub_cancel' hc]

/-- The reference of each of the order's columns is the seed. -/
theorem getElem?_start_ref {o : ScanOrder} {c : Nat} (hc : c < o.width) (m : DefectMapper) :
    (m.start o).ref[c]? = some o.irSeed := by
  rw [DefectMapper.start, List.getElem?_append_left (by simpa using hc), List.getElem?_replicate, if_pos hc]

end Sys2Proof.Machine

namespace Sys2Proof.Proofs
open Sys2Proof.Machine

/-- Settles O45: the validation waits for a window load, or the order starts, by its kind and its shading address. -/
theorem orderAccepted : Obligations.OrderAccepted := by
  intro s i record hs hl hp reads hn hc s'
  have arrives := fun {t : State} => exec_orderRecordReadComplete (t := t) hl hp reads hn
  have unbarred : s.recordTaken.accessBarred = false := accessBarred_of_works (congrArg PartState.works hp) hs
  refine ⟨fun o hb hv => ?_, fun o hb hz hv => ?_, fun o hb hz hv => ?_, fun hb => ?_⟩
  · exact arrives ((recordArrives_of_not_loading hb _).trans (validateRecord_of_calibrate unbarred hc hv)) hs
  · have starts := (recordArrives_of_not_loading hb _).trans (validateRecord_of_scan unbarred hc hv)
    refine ⟨_, arrives (starts.trans (startShading_of_address (by exact unbarred) hz)) hs, ?_,
      fun c hc => getElem?_firstMade_shadingReads hc⟩
    rw [length_firstMade, length_shadingReads]
  · have starts := (recordArrives_of_not_loading hb _).trans (validateRecord_of_scan unbarred hc hv)
    have roster := insideWindow_of_accepted hv
    exact arrives (starts.trans (startShading_withWrites_of_zero _ (by exact unbarred) hz roster)) hs
  · exact arrives (recordArrives_of_loading hb _) hs

/-- Settles O46: the validation refuses the order, and its end writes pass the window check. -/
theorem orderRefused : Obligations.OrderRefused := by
  intro s i record reason hs hl hp reads hn hc hb hv
  have unbarred : s.recordTaken.accessBarred = false := accessBarred_of_works (congrArg PartState.works hp) hs
  have refuses := (recordArrives_of_not_loading hb _).trans (validateRecord_of_refused unbarred hc hv)
  refine ⟨_, exec_orderRecordReadComplete hl hp reads hn refuses hs, rfl, rfl, rfl, rfl, rfl, rfl, ?_, rfl, rfl, rfl⟩
  exact (List.append_assoc ..).symm

/-- Settles O48: the writes land, and the part enters RUNNING with the blocks that the order takes up. -/
theorem startCompletes : Obligations.StartCompletes := by
  refine ⟨orderLineBytes_eq, fun s early late w hs hp hn hi hm he => ?_⟩
  obtain ⟨horder, hintake, hreg, hflight, hbarred, hmem⟩ := enterRunning_keeps (s.landedThrough early late w)
  refine ⟨_, (exec_startWritesComplete hi hm he hp hn).trans (done_of_none (hbarred.trans hs)), horder, hintake, hreg, hflight,
    hmem, fun o ho => ?_, fun o ho => ?_⟩
  · rw [enterRunning_of_calibrate (by exact ho)]
    exact ⟨rfl, rfl, rfl, rfl, rfl, rfl,
      fun c hc => ⟨getElem?_clearSums_of_lt hc _, getElem?_clearSums_of_lt hc _⟩,
      fun c hc => ⟨getD_clearSums_of_le hc _, getD_clearSums_of_le hc _⟩⟩
  · rw [enterRunning_of_scan (by exact ho)]
    exact ⟨rfl, rfl, rfl, fun c hc => getElem?_start_ref hc _, rfl, rfl, rfl, rfl, rfl, rfl, rfl, rfl, rfl⟩

end Sys2Proof.Proofs
end

section
/-! SUPPORT. Bus errors on the exchange with the host (R13, R27, R144, R171, R182 to R184), and FAULT until its last access
(R157, R184). -/
namespace Sys2Proof.Machine

variable {s t u : State}

/-! ### The access that an address names (log 6, log 17) -/

/-- A read of a site that takes in an address. -/
def BusRead.TakesIn (r : BusRead) (site : ReadSite) (address : Nat) : Prop :=
  r.site = site ∧ r.address ≤ address ∧ address < r.address + r.bytes

section reads

variable {site : ReadSite} {address k : Nat} {r : BusRead}

theorem takesIn_iff :
    (r.site == site && decide (r.address ≤ address) && decide (address < r.address + r.bytes)) = true
      ↔ r.TakesIn site address := by
  simp [BusRead.TakesIn, and_assoc]

theorem openRead_of_none (h : ∀ q ∈ s.bus.reads, ¬ q.TakesIn site address) : s.openRead site address = none := by
  have nowhere : s.findRead site address = none :=
    List.findIdx?_eq_none_iff.2 fun q hq => Bool.eq_false_iff.2 fun takes => h q hq (takesIn_iff.1 takes)
  simp only [State.openRead, nowhere]

/-- The first read that takes the address in. -/
theorem openRead_of_first (hk : s.bus.reads[k]? = some r) (hr : r.TakesIn site address)
    (before : ∀ j q, j < k → s.bus.reads[j]? = some q → ¬ q.TakesIn site address) :
    s.openRead site address = some (k, r) := by
  obtain ⟨inside, rfl⟩ := List.getElem?_eq_some_iff.1 hk
  have place : s.findRead site address = some k :=
    List.findIdx?_eq_some_iff_getElem.2 ⟨inside, takesIn_iff.2 hr, fun j hj takes =>
      before j _ hj (List.getElem?_eq_getElem (hj.trans inside)) (takesIn_iff.1 takes)⟩
  simp only [State.openRead, place, hk, Option.map_some]

theorem exists_openRead (h : ∃ q ∈ s.bus.reads, q.TakesIn site address) :
    ∃ k r, s.openRead site address = some (k, r) ∧ k < s.bus.reads.length := by
  obtain ⟨q, hq, takes⟩ := h
  have found : (s.findRead site address).isSome = true := by
    rw [State.findRead, List.findIdx?_isSome]
    exact List.any_eq_true.2 ⟨q, hq, takesIn_iff.2 takes⟩
  obtain ⟨k, place⟩ := Option.isSome_iff_exists.1 found
  obtain ⟨inside, -⟩ := List.findIdx?_eq_some_iff_getElem.1 place
  refine ⟨k, s.bus.reads[k], ?_, inside⟩
  simp only [State.openRead, place, List.getElem?_eq_getElem inside, Option.map_some]

end reads

section writes

variable {k : Nat} {w : BusWrite}

theorem openWrite_of_waiting (hk : s.bus.inFlight[k]? = some w) (hl : w.landed = false) : s.openWrite k = some w := by
  simp [State.openWrite, hk, hl]

theorem failWrite_of_getElem? (hk : s.bus.inFlight[k]? = some w) :
    s.failWrite k = s.failedThrough (s.bus.inFlight.take k) (s.bus.inFlight.drop (k + 1)) w := by
  simp only [State.failWrite, hk]
  rfl

end writes

/-! ### The part enters FAULT (R144, R184) -/

/-- The same part but for the intake, the Calibration Unit, and what else a failed access of theirs ends. -/
structure SameExchange (s t : State) : Prop where
  order : t.order = s.order
  reg : t.reg = s.reg
  tracker : t.tracker = s.tracker
  store : t.store = s.store
  writer : t.writer = s.writer
  inFlight : t.bus.inFlight = s.bus.inFlight
  reads : t.bus.reads = s.bus.reads
  barred : t.bus.barred = s.bus.barred
  mem : t.mem = s.mem

theorem SameExchange.refl (s : State) : SameExchange s s := ⟨rfl, rfl, rfl, rfl, rfl, rfl, rfl, rfl, rfl⟩

theorem afterFailedRead_same (s : State) (site : ReadSite) : SameExchange s (s.afterFailedRead site) := by
  unfold State.afterFailedRead
  split
  case h_1 => split <;> exact ⟨rfl, rfl, rfl, rfl, rfl, rfl, rfl, rfl, rfl⟩
  all_goals exact ⟨rfl, rfl, rfl, rfl, rfl, rfl, rfl, rfl, rfl⟩

theorem afterFailedWrite_same (s : State) (w : BusWrite) : SameExchange s (s.afterFailedWrite w) := by
  unfold State.afterFailedWrite
  split <;> exact ⟨rfl, rfl, rfl, rfl, rfl, rfl, rfl, rfl, rfl⟩

/-- Among the writes `behind` a failed access the slot word FAILED of an abort sequence waits (log 31). -/
def Withheld (behind : List BusWrite) : Prop := ∃ w ∈ behind, w.pace = .sequel ∧ w.landed = false ∧ w.mark = .silent

/-- The state in which an access has failed: the part of `s`, with the access and the writes before it gone. -/
structure AccessFailed (s u : State) (behind : List BusWrite) : Prop where
  order : u.order = s.order
  reg : u.reg = s.reg
  tracker : u.tracker = s.tracker
  store : u.store = s.store
  writer : u.writer = s.writer
  withheld : u.slotWithheld = true ↔ Withheld behind

theorem accessFailed_failRead (s : State) (k : Nat) (site : ReadSite) :
    AccessFailed s (s.failRead k site) s.bus.inFlight :=
  ⟨rfl, rfl, rfl, rfl, rfl, slotWithheld_iff (s.failRead k site)⟩

theorem accessFailed_failWrite {k : Nat} {w : BusWrite} (hk : s.bus.inFlight[k]? = some w) :
    AccessFailed s (s.failWrite k) (s.bus.inFlight.drop (k + 1)) := by
  have withheld := slotWithheld_failWrite hk
  rw [failWrite_of_getElem? hk] at withheld ⊢
  exact ⟨rfl, rfl, rfl, rfl, rfl, withheld⟩

/-- What FAULT leaves of the suspension, of the part, the writer and the accesses. -/
structure FaultEntered (s t : State) (record : FaultRecord) (behind : List BusWrite) : Prop where
  asItStood : Withheld behind → t.order.suspendHold = s.order.atEnd.hold ∧ t.writer.stop = s.order.atEnd.stop
  asItStands : ¬ Withheld behind → t.order.suspendHold = s.order.suspendHold ∧ t.writer.stop = s.writer.stop
  part : t.order.part = .fault
  origin : t.order.origin = none
  aborting : t.order.aborting = false
  faultHold : t.order.faultHold = true
  faultRec : t.order.faultRec = record
  reg : t.reg = { s.reg with cause := s.reg.cause ||| 0x20#6 }
  tracker : t.tracker = s.tracker
  store : t.store = s.store
  off : s.writer.state = .off ∧ s.scanOrder = none ∧ ¬ (Withheld behind ∧ s.order.atEnd.scan = true) →
    t.writer.state = .off
  halted : ¬ (s.writer.state = .off ∧ s.scanOrder = none ∧ ¬ (Withheld behind ∧ s.order.atEnd.scan = true)) →
    t.writer.state = .halted
  waitFlag : t.writer.waitFlag = s.writer.waitFlag
  records : t.writer.records = s.writer.records
  issued : ∀ w ∈ t.bus.inFlight, w.landed = true ∨ w.pace = .issued
  dropped : ∀ r ∈ t.bus.reads, r.stage = .dropped

/-- A SCAN order is in progress, one at the end of whose abort the slot word waits included (log 31, log 38). -/
theorem duringScan_eq_false_iff {behind : List BusWrite} (h : AccessFailed s u behind) :
    u.duringScan = false ↔ s.scanOrder = none ∧ ¬ (Withheld behind ∧ s.order.atEnd.scan = true) := by
  have order : u.scanOrder = s.scanOrder := by simp only [State.scanOrder, h.order]
  rw [State.duringScan, Bool.or_eq_false_iff, order, h.order, ← h.withheld, ← Bool.and_eq_true, Bool.not_eq_true,
    Option.isSome_eq_false_iff, Option.isNone_iff_eq_none]

theorem faultEntered {behind : List BusWrite} (h : AccessFailed s u behind) (record : FaultRecord)
    (same : SameExchange (u.enterFault record) t) : FaultEntered s t record behind := by
  obtain ⟨fill, free, ws, rs, -, issued, -, dropped, -, e⟩ := enterFault_eq u record
  have order := same.order.trans (congrArg State.order e)
  have writer := same.writer.trans (congrArg State.writer e)
  obtain ⟨state, stop, waitFlag, records⟩ := halt_eq u.duringScan
    { u.writer with stop := if u.slotWithheld then u.order.atEnd.stop else u.writer.stop }
  have stop := (congrArg FrameWriter.stop writer).trans stop
  have state := (congrArg FrameWriter.state writer).trans state
  have waitFlag : t.writer.waitFlag = u.writer.waitFlag := (congrArg FrameWriter.waitFlag writer).trans waitFlag
  have records : t.writer.records = u.writer.records := (congrArg FrameWriter.records writer).trans records
  have wasOff : u.writer.state = s.writer.state := congrArg FrameWriter.state h.writer
  refine ⟨fun hw => ?_, fun hw => ?_, ?_, ?_, ?_, ?_, ?_, ?_, ?_, ?_, fun hoff => ?_, fun hoff => ?_, ?_, ?_, ?_, ?_⟩
  · rw [stop, order]
    simp only [if_pos (h.withheld.2 hw), h.order, true_and]
  · have hw : ¬ u.slotWithheld = true := fun x => hw (h.withheld.1 x)
    rw [stop, order]
    simp only [if_neg hw, h.order, h.writer, true_and]
  · rw [order]
  · rw [order]
  · rw [order]
  · rw [order]
  · rw [order]
  · rw [same.reg, e, ← h.reg]
  · rw [same.tracker, e, ← h.tracker]
  · rw [same.store, e, ← h.store]
  · exact state.trans (if_pos ⟨wasOff.trans hoff.1, (duringScan_eq_false_iff h).2 hoff.2⟩)
  · exact state.trans (if_neg fun x => hoff ⟨wasOff.symm.trans x.1, (duringScan_eq_false_iff h).1 x.2⟩)
  · exact waitFlag.trans (congrArg FrameWriter.waitFlag h.writer)
  · exact records.trans (congrArg FrameWriter.records h.writer)
  · rw [same.inFlight, e]
    exact issued
  · rw [same.reads, e]
    exact dropped

theorem settled_enterFault (s : State) (record : FaultRecord) : (s.enterFault record).Settled := rfl

/-- Memory stands at the entry to FAULT, and of the writes in flight those stay that had been issued (log 5). -/
theorem enterFault_writes {record : FaultRecord} (same : SameExchange (s.enterFault record) t) :
    t.mem = s.mem ∧ (∀ w ∈ t.bus.inFlight, ∃ v ∈ s.bus.inFlight, sameAccess v w)
      ∧ ∀ w ∈ s.bus.inFlight, w.landed = true ∨ w.pace = .issued → w ∈ t.bus.inFlight := by
  obtain ⟨fill, free, ws, rs, flew, -, stay, -, -, e⟩ := enterFault_eq s record
  rw [same.mem, same.inFlight, e]
  exact ⟨rfl, flew, stay⟩

theorem readFault_eq (site : ReadSite) : readFault site = if site = .shadingEntry then .shading else .block := by
  cases site <;> rfl

theorem exec_exchangeBusError_of_active {access : FailedAccess} (ha : s.Active) (h : s.failsOutside access = t)
    (ht : t.Settled) : exec (.exchangeBusError access) s = .next t :=
  done_of_settled (((if_neg ha.1).trans (if_neg ha.2)).trans h) ht

/-! ### FAULT until its last access (R157, R184) -/

/-- A further bus error has been counted, up to 255. -/
def OrderUnit.repeated (u : OrderUnit) : OrderUnit :=
  { u with faultRec := { u.faultRec with repeats := min (u.faultRec.repeats + 1) 255 } }

theorem exec_busErrorInFault {access : FailedAccess} (hf : s.order.part = .fault) (h : s.failsInFault access = t)
    (ht : t.Settled) : exec (.busErrorInFault access) s = .next t :=
  done_of_settled ((if_pos hf).trans h) ht

theorem failsInFault_of_write {k : Nat} {w : BusWrite} (hk : s.bus.inFlight[k]? = some w) (hl : w.landed = false) :
    s.failsInFault (.write k) =
      (s.failedThrough (s.bus.inFlight.take k) (s.bus.inFlight.drop (k + 1)) w).onOrder OrderUnit.repeated := by
  have waits : (s.openWrite k).isSome = true := by rw [openWrite_of_waiting hk hl, Option.isSome_some]
  refine (if_pos waits).trans ?_
  rw [failWrite_of_getElem? hk]
  rfl

/-- A failed read has ended, and those of its site before it have been made. -/
theorem failsInFault_of_read {k : Nat} {r : BusRead} {site : ReadSite} {address : Word}
    (h : s.openRead site address.toNat = some (k, r)) :
    s.failsInFault (.read site address) = (s.failRead k r.site).onOrder OrderUnit.repeated := by
  simp only [State.failsInFault, h]
  rfl

theorem failsInFault_of_none {site : ReadSite} {address : Word} (h : s.openRead site address.toNat = none) :
    s.failsInFault (.read site address) = s := by
  simp only [State.failsInFault, h]

theorem length_failRead {k : Nat} (hk : k < s.bus.reads.length) (site : ReadSite) :
    (s.failRead k site).bus.reads.length + 1 = s.bus.reads.length := by
  simp only [State.failRead, State.onBus_bus, List.length_append, List.length_map, List.length_take, List.length_drop]
  omega

theorem tallyInFlight_iff (s : State) : s.tallyInFlight = true ↔ ∃ w ∈ s.bus.inFlight, w.mark = .framesTally := by
  simp [State.tallyInFlight, State.placeOf, List.findIdx?_isSome]

/-- Every access has ended: the writes have landed, the fault record goes out, and a frames tally among them is reported. -/
theorem drainFault_eq (s : State) :
    s.drainFault = { s with
      order := { s.order with faultDrained := true }
      reg := { s.reg with
        cause := if ∃ w ∈ s.bus.inFlight, w.mark = .framesTally then s.reg.cause ||| 0x01#6 else s.reg.cause }
      mem := landAll s.mem s.bus.inFlight
      bus := { s.bus with reads := [], inFlight := [s.faultRecordWrite] } } := by
  unfold State.drainFault
  by_cases tally : ∃ w ∈ s.bus.inFlight, w.mark = .framesTally
  · rw [if_pos tally]
    simp only [(tallyInFlight_iff s).2 tally, if_true]
    rfl
  · have notTally : s.tallyInFlight = false := Bool.eq_false_iff.2 fun x => tally ((tallyInFlight_iff s).1 x)
    rw [if_neg tally]
    simp only [notTally, Bool.false_eq_true, if_false]
    rfl

end Sys2Proof.Machine

namespace Sys2Proof.Proofs
open Sys2Proof.Machine

/-- Settles O55: what the entry to FAULT leaves is the same for a failed read and for a failed write; each ends something of its
own beside it. -/
theorem errorEntersFault : Obligations.ErrorEntersFault := by
  intro s hs hactive faulted
  have entered {t : State} {record : FaultRecord} {behind : List BusWrite} (h : FaultEntered s t record behind) :
      faulted t record behind := by
    refine ⟨h.asItStood, h.asItStands, h.part, h.origin, h.aborting, h.faultHold, h.faultRec,
      (holdOut_iff t).2 (.inr (.inr (.inr (.inl h.faultHold)))), h.reg, h.tracker, h.store, ?_, h.waitFlag, h.records,
      h.issued, h.dropped⟩
    split
    · next hoff => exact h.off hoff
    · next hoff => exact h.halted hoff
  refine ⟨fun k r address hk low high before => ?_, fun site address outside => ?_, fun k w hk hl hm => ?_⟩
  · have named : s.openRead r.site address.toNat = some (k, r) :=
      openRead_of_first hk ⟨rfl, low, high⟩ fun j q hj hq takes => by
        have := before j q hj hq takes.1
        have := takes.2
        omega
    have fails : s.failsOutside (.read r.site address) = s.readFails k r address.toNat := by
      simp only [State.failsOutside, named]
    have same := afterFailedRead_same ((s.failRead k r.site).enterFault (r.faultRecord address.toNat)) r.site
    obtain ⟨mem, flew, stay⟩ := enterFault_writes same
    refine ⟨_, exec_exchangeBusError_of_active hactive fails (same.barred.trans (settled_enterFault _ _)), ?_, fun hw => ?_,
      mem, flew, stay⟩
    · rw [← readFault_eq]
      exact entered (faultEntered (accessFailed_failRead s k r.site) _ same)
    · rw [State.readFails, hw]
      rfl
  · have unnamed : s.openRead site address.toNat = none := openRead_of_none fun q hq takes => by
      have := outside q hq takes.1
      have := takes.2
      omega
    exact exec_exchangeBusError_of_active hactive (by simp only [State.failsOutside, unnamed]) hs
  · have notBurst : ¬ isBurst w = true := by simpa [isBurst] using hm
    have fails : s.failsOutside (.write k) = s.writeFails k w := by
      simp only [State.failsOutside, openWrite_of_waiting hk hl]
      exact if_neg notBurst
    have same := afterFailedWrite_same ((s.failWrite k).enterFault w.faultRecord) w
    obtain ⟨mem, -, stay⟩ := enterFault_writes same
    refine ⟨_, exec_exchangeBusError_of_active hactive fails (same.barred.trans (settled_enterFault _ _)),
      entered (faultEntered (accessFailed_failWrite hk) _ same), fun hw => ?_, fun v hv issued => ?_, fun a ha => ?_⟩
    · rw [State.writeFails, State.afterFailedWrite, if_pos hw]
      rfl
    · refine stay v ?_ issued
      rw [failWrite_of_getElem? hk]
      exact List.mem_append_right _ hv
    · rw [← get_failWrite hk ha]
      exact congrArg (Memory.get · a) mem

/-- Settles O56: a further error by the access that it names, and the drain, which is made once. -/
theorem faultDrains : Obligations.FaultDrains := by
  intro s hs hf counted
  refine ⟨fun k w hk hl => ?_, ?_, fun hd => ?_, fun hd => ?_⟩
  · exact ⟨_, exec_busErrorInFault hf (failsInFault_of_write hk hl) hs, rfl, rfl, rfl, rfl,
      fun a ha => get_failedThrough s _ (s.bus.inFlight.drop (k + 1)) w a ha⟩
  · intro site address covers
    refine ⟨fun inFlight => ?_, fun outside => ?_⟩
    · obtain ⟨k, r, named, inside⟩ := exists_openRead inFlight
      exact ⟨_, exec_busErrorInFault hf (failsInFault_of_read named) hs, length_failRead inside r.site⟩
    · exact exec_busErrorInFault hf (failsInFault_of_none (openRead_of_none outside)) hs
  · exact done_of_settled ((if_pos ⟨hf, hd⟩).trans (drainFault_eq s)) hs
  · exact done_of_settled (if_neg fun x => Bool.false_ne_true (x.2.symm.trans hd)) hs

end Sys2Proof.Proofs
end

section
/-! SUPPORT. ABORT (R28, R71, R102, R123, R143, R183) and the drain of an aborted order (R43, R158, R183). -/
namespace Sys2Proof.Machine

variable {s : State}

/-! ### The end of an aborted order (R183 step 3) -/

/-- The end writes of an aborted order are issued, and what stood of its suspension is noted and cleared (log 31). -/
def State.failedWrites (s : State) (i : Fin 4) (results : Results) : State :=
  { s with
    order := { s.order with
      ordersTally := s.order.ordersTally + 1, endWrites := true, follows := true, suspendHold := false, heldEnd := false
      atEnd := { hold := s.order.suspendHold, stop := s.writer.stop, scan := s.scanOrder.isSome } }
    bus := { s.bus with
      inFlight := s.bus.inFlight
        ++ (s.resultArea i results .sequel ++ [s.slotWrite i 5 .silent .sequel, s.tallyWrite .sequel]) }
    writer := { s.writer with stop := false } }

/-- The order of slot `i` has ended FAILED, its end writes the sequel of the abort sequence. -/
def State.orderAborted (s : State) (i : Fin 4) (results : Results) : State := (s.failedWrites i results).leaveOrder

theorem endAborted_eq {i : Fin 4} (results : Results) (hc : s.order.chosen = some i) (ha : s.accessBarred = false) :
    s.endAborted results = s.orderAborted i results :=
  congrArg (fun t : State => t.clearSuspension.leaveOrder) (issueEnd_eq results slotFailed .sequel hc ha)

theorem inFlight_orderAborted (s : State) (i : Fin 4) (results : Results) :
    (s.orderAborted i results).bus.inFlight =
      s.bus.inFlight ++ s.resultArea i results .sequel ++ [s.slotWrite i 5 .silent .sequel, s.tallyWrite .sequel] :=
  (List.append_assoc ..).symm

/-- What the end of an aborted order makes of the order unit and the shading copy, and what it leaves. -/
structure EndedAborted (s t : State) : Prop where
  part : t.order.part = .idle
  aborting : t.order.aborting = false
  chosen : t.order.chosen = none
  waiting : t.order.waiting = none
  suspendHold : t.order.suspendHold = false
  heldEnd : t.order.heldEnd = false
  ordersTally : t.order.ordersTally = s.order.ordersTally + 1
  endWrites : t.order.endWrites = true
  follows : t.order.follows = true
  shading : t.intake.shading = .empty
  cal : t.cal = s.cal
  reg : t.reg = s.reg
  mem : t.mem = s.mem
  barred : t.bus.barred = s.bus.barred

theorem endedAborted_orderAborted (s : State) (i : Fin 4) (results : Results) : EndedAborted s (s.orderAborted i results) :=
  ⟨rfl, rfl, rfl, rfl, rfl, rfl, rfl, rfl, rfl, rfl, rfl, rfl, rfl, rfl⟩

theorem startResults_eq (s : State) :
    s.startResults =
      { Results.only .aborted with
        source := 2, hot := if s.intake.shading = .loaded then s.intake.hot else 0
        dead := if s.intake.shading = .loaded then s.intake.dead else 0 } := by
  simp only [State.startResults, beq_iff_eq]
  rfl

/-! ### Issuing stops (log 5) -/

/-- The issuing of the writes that `own` chooses has stopped: only such writes whose issue was not settled have gone. -/
structure IssuingStopped (own : BusWrite → Bool) (before after : List BusWrite) : Prop where
  stays : ∀ w ∈ before, own w = false ∨ w.landed = true ∨ w.pace = .issued → w ∈ after
  same : ∀ w ∈ after, ∃ v ∈ before, sameAccess v w

theorem issuingStopped_refl (own : BusWrite → Bool) (ws : List BusWrite) : IssuingStopped own ws ws :=
  ⟨fun _ hw _ => hw, fun w hw => ⟨w, hw, rfl⟩⟩

theorem issuingStopped_keepIssued (own : BusWrite → Bool) (quota : Nat) (ws : List BusWrite) :
    IssuingStopped own ws (keepIssued own quota ws) := by
  refine ⟨fun w hw settled => mem_keepIssued_of_not hw ?_, fun _ => mem_keepIssued⟩
  rcases settled with h | h | h <;> simp [BusWrite.isQueued, h]

/-! ### ABORT in STARTING -/

/-- The start of an order stops and waits for its accesses. -/
theorem abortStarting_of_working (hw : s.order.waiting = none) :
    ∃ flight reads free, s.abortStarting = { s with
        order := { s.order with aborting := true }
        bus := { s.bus with inFlight := flight, reads := reads }
        free := free
        intake := { s.intake with
          shading := if s.intake.shading = .loading then ShadingState.empty else s.intake.shading } }
      ∧ IssuingStopped isRosterWrite s.bus.inFlight flight
      ∧ ∀ r ∈ reads, r.site ∈ [ReadSite.orderRecord, .shadingEntry] → r.stage = .dropped := by
  obtain ⟨free, reads, e, left, -⟩ := foldl_stopReads_eq [ReadSite.orderRecord, .shadingEntry] (s.cutUnissued isRosterWrite)
  refine ⟨_, reads, free, ?_, issuingStopped_keepIssued isRosterWrite (s.issuedCount isRosterWrite) _, fun r hr hsite =>
    (left r hr).elim (fun h => absurd hsite h.2) fun h => h.2⟩
  have stopped := congrArg State.markAborting e
  simp only [List.foldl_cons, List.foldl_nil] at stopped
  rw [State.abortStarting, if_neg (by simp [hw])]
  dsimp only
  rw [stopped]
  by_cases loading : s.intake.shading = .loading
  · rw [if_pos (by exact loading), if_pos loading]
    rfl
  · rw [if_neg (by exact loading), if_neg loading]
    rfl

theorem abortStarting_of_waiting {i : Fin 4} (hw : s.order.waiting.isSome) (hc : s.order.chosen = some i)
    (ha : s.accessBarred = false) : s.abortStarting = s.orderAborted i s.startResults :=
  (if_pos hw).trans (endAborted_eq _ hc ha)

/-! ### ABORT of a CALIBRATE order (R28) -/

/-- The unit is IDLE and the order has ended with the counts handed over. -/
def State.passesAborted (s : State) (i : Fin 4) (g : Gathered) : State :=
  ({ s with cal := { s.cal with pass := .idle } } : State).orderAborted i (s.calResults g .aborted)

theorem abortPasses_eq {i : Fin 4} (g : Gathered) (hc : s.order.chosen = some i) (ha : s.accessBarred = false) :
    s.abortPasses g = s.passesAborted i g := endAborted_eq _ hc ha

theorem endedAborted_passesAborted (s : State) (i : Fin 4) (g : Gathered) :
    EndedAborted { s with cal := { s.cal with pass := .idle } } (s.passesAborted i g) :=
  endedAborted_orderAborted { s with cal := { s.cal with pass := .idle } } i (s.calResults g .aborted)

theorem inFlight_passesAborted (s : State) (i : Fin 4) (g : Gathered) :
    (s.passesAborted i g).bus.inFlight =
      s.bus.inFlight
        ++ s.resultArea i
          { Results.only .aborted with
            source := 2, excess := g.excess, malformed := s.intake.malformed, hot := g.hot, dead := g.dead } .sequel
        ++ [s.slotWrite i 5 .silent .sequel, s.tallyWrite .sequel] :=
  inFlight_orderAborted { s with cal := { s.cal with pass := .idle } } i (s.calResults g .aborted)

theorem abortCalibrate_of_passes {o : CalOrder} (h : s.cal.pass ∈ [PassState.darkPass, .brightPass, .passesComplete]) :
    s.abortCalibrate o = s.abortPasses (s.cal.aborted 0 0) := by
  simp only [List.mem_cons, List.not_mem_nil, or_false] at h
  rcases h with h | h | h <;> rw [State.abortCalibrate, h]

theorem abortCalibrate_of_idle {o : CalOrder} {g : Gathered} (h : s.cal.pass = .idle) (hg : s.order.gathered = some g) :
    s.abortCalibrate o = s.abortPasses g := by
  rw [State.abortCalibrate, h, hg]
  rfl

theorem abortCalibrate_of_writing {o : CalOrder} (h : s.cal.pass = .writing) : s.abortCalibrate o = s.abortTable o := by
  rw [State.abortCalibrate, h]

/-! ### ABORT of a SCAN order (R71, R102, R123, R143) -/

/-- The writer enters ABORTING with a line write. -/
def FrameWriter.aborted (wr : FrameWriter) (write : Option LineWrite) : FrameWriter :=
  { wr with state := .aborting, stop := false, waitFlag := false, scan := none, rescan := false, write := write }

/-- The writer is ABORTING; of a line that had no error reported, the bursts that had not been issued are not issued. -/
theorem abortWriter_eq (s : State) :
    ∃ flight free write, s.abortWriter = { s with
        bus := { s.bus with inFlight := flight }, free := free, writer := s.writer.aborted write }
      ∧ IssuingStopped isBurst s.bus.inFlight flight := by
  have entered : ∀ errored : Bool, ∃ flight free write,
      (if errored then s else s.stopLine).onWriter (fun wr => wr.aborted wr.write) =
          { s with bus := { s.bus with inFlight := flight }, free := free, writer := s.writer.aborted write }
        ∧ IssuingStopped isBurst s.bus.inFlight flight := by
    intro errored
    cases errored with
    | true => exact ⟨s.bus.inFlight, s.free, s.writer.write, rfl, issuingStopped_refl ..⟩
    | false => exact ⟨_, _, _, rfl, issuingStopped_keepIssued isBurst (s.issuedCount isBurst) _⟩
  exact entered _

theorem abortScan_eq (s : State) (o : ScanOrder) :
    ∃ flight reads free write, s.abortScan o = { s with
        order := { s.order with aborting := true, gathered := some (s.tracker.handOver o) }
        tracker := Tracker.reset
        mapper := { s.mapper with runMerge := [], inHand := none }
        fill := { s.fill with state := .idle, line := none, pixel := none }
        bus := { s.bus with inFlight := flight, reads := reads }
        free := free
        writer := s.writer.aborted write }
      ∧ IssuingStopped isBurst s.bus.inFlight flight
      ∧ ∀ r ∈ reads, r.site ∈ [ReadSite.plateCount, .plateEntry] → r.stage = .dropped := by
  let stopped : State := { s with
    tracker := Tracker.reset
    mapper := { s.mapper with runMerge := [], inHand := none }
    fill := { s.fill with state := .idle, line := none, pixel := none } }
  obtain ⟨flight, _, write, writerEnds, issuing⟩ := abortWriter_eq stopped
  obtain ⟨free, reads, scanEnds, dropped, -⟩ := stopScan_eq stopped.abortWriter
  refine ⟨flight, reads, free, write, ?_, issuing, dropped⟩
  rw [writerEnds] at scanEnds
  have marked := congrArg (fun t : State => (t.onOrder fun u =>
    { u with gathered := some (s.tracker.handOver o) }).markAborting) ((congrArg State.stopScan writerEnds).trans scanEnds)
  exact marked

/-- The base handed over is the tracker's, or the one it forms from its window. -/
theorem reportedBase_eq {t : Tracker} {o : ScanOrder} {base : Base}
    (h : t.base = some base ∨ (t.base = none ∧ (t.withBase o).base = some base)) : t.reportedBase o = base := by
  rcases h with h | ⟨hnone, hformed⟩
  · rw [Tracker.reportedBase, h, Option.getD_some]
  · rw [Tracker.reportedBase, hnone, Option.getD_none]
    exact Option.some.inj hformed

/-! ### ABORT accepted -/

theorem exec_abort {t : State} (hp : s.order.part ∈ [PartState.starting, .running, .suspended, .finishing])
    (h : s.abort = t) (ht : t.Settled) : exec .abort s = .next t := by
  refine exec_of_accepted (by simp [codeCommands]) ?_ h ht
  have hasOrder : ∀ part ∈ [PartState.starting, .running, .suspended, .finishing], part.hasOrder = true := by decide
  exact hasOrder _ hp

theorem abort_of_starting (hn : s.order.aborting = false) (hp : s.order.part = .starting) : s.abort = s.abortStarting :=
  (if_neg (by simp [hn])).trans (if_pos hp)

theorem not_starting_of_order (hp : s.order.part ∈ [PartState.running, .suspended, .finishing]) :
    s.order.part ≠ .starting := by
  intro starting
  simp [starting] at hp

theorem abort_of_scan {o : ScanOrder} (hn : s.order.aborting = false)
    (hp : s.order.part ∈ [PartState.running, .suspended, .finishing]) (ho : s.order.current = some (.scan o)) :
    s.abort = s.abortScan o := by
  rw [State.abort, if_neg (by simp [hn]), State.abortOrder, if_neg (not_starting_of_order hp), ho]

theorem abort_of_calibrate {o : CalOrder} (hn : s.order.aborting = false)
    (hp : s.order.part ∈ [PartState.running, .suspended, .finishing]) (ho : s.order.current = some (.calibrate o)) :
    s.abort = s.abortCalibrate o := by
  rw [State.abort, if_neg (by simp [hn]), State.abortOrder, if_neg (not_starting_of_order hp), ho]

/-! ### The writes of the aborted work have ended (R183; log 3) -/

theorem drainsTo_endWritesThrough (s : State) (own : BusWrite → Bool) :
    s.DrainsTo own (s.endWritesThrough own).bus.inFlight (s.endWritesThrough own).mem := by
  let foreign := fun w => !own w
  let early := s.bus.inFlight.rdropWhile foreign
  let late := s.bus.inFlight.rtakeWhile foreign
  have split : s.bus.inFlight = early ++ late := List.rdropWhile_append_rtakeWhile.symm
  have place : (s.bus.inFlight.reverse.dropWhile foreign).length = early.length := (List.length_reverse ..).symm
  have taken : s.bus.inFlight.take early.length = early := by rw [split, List.take_left]
  have left : s.bus.inFlight.drop early.length = late := by rw [split, List.drop_left]
  refine ⟨early, late, split, fun w hw => by simpa [foreign] using List.mem_rtakeWhile_imp hw, ?_, ?_, ?_⟩
  · by_cases noneOwn : early = []
    · exact .inl noneOwn
    · exact .inr ⟨early.dropLast, early.getLast noneOwn, (List.dropLast_append_getLast noneOwn).symm,
        by simpa [foreign] using List.rdropWhile_last_not foreign s.bus.inFlight noneOwn⟩
  · simp only [State.endWritesThrough]
    rw [place, taken, left]
  · simp only [State.endWritesThrough]
    rw [place, taken]

/-- Writes chosen by their kind are gone. -/
theorem kind_ne_of_drainsTo {kind : AccessKind} {ws : List BusWrite} {mem : Memory}
    (h : s.DrainsTo (fun w => w.kind == kind) ws mem) : ∀ w ∈ ws, w.kind ≠ kind := by
  obtain ⟨early, late, -, foreign, -, rfl, -⟩ := h
  intro w hw
  rcases List.mem_append.1 hw with hw | hw
  · obtain ⟨v, hv, same⟩ := mem_stillTracked hw
    rw [← same]
    simpa using (List.mem_filter.1 hv).2
  · simpa using foreign w hw

theorem kind_of_mem_resultArea {i : Fin 4} {results : Results} {pace : Pace} :
    ∀ w ∈ s.resultArea i results pace, w.kind = .block := by
  intro w hw
  obtain ⟨write, hwrite, rfl⟩ := List.mem_map.1 hw
  obtain ⟨field, -, rfl⟩ := List.mem_map.1 hwrite
  rfl

theorem isStartWrite_eq {i : Fin 4} (hc : s.order.chosen = some i) :
    s.isStartWrite = fun w => w.kind == .roster || w.mark == .startLast
      || (w.kind == .block && w.address == s.blockBase + (0x200 + 256 * i.val)) := by
  funext w
  rw [State.isStartWrite, hc]
  rfl

/-! ### The drain (R183) -/

theorem exec_abortDrainComplete {t : State} (hn : s.order.aborting = true) (hb : ∀ w ∈ s.bus.inFlight, w.mark ≠ .burst)
    (h : s.drainAbort = t) (ht : t.Settled) : exec .abortDrainComplete s = .next t := by
  have noBurst : s.burstsLeft = false := by
    rw [← Bool.not_eq_true, burstsLeft_iff]
    exact fun ⟨w, hw, burst⟩ => hb w hw burst
  exact done_of_settled ((if_pos (by simp [hn, noBurst])).trans h) ht

theorem drainAbort_of_starting (hp : s.order.part = .starting) :
    s.drainAbort = (s.endAbortedReads.endWritesThrough s.isStartWrite).endAborted s.startResults := if_pos hp

theorem drainAbort_of_calibrate {o : CalOrder} {g : Gathered} (hp : s.order.part ≠ .starting)
    (ho : s.order.current = some (.calibrate o)) (hg : s.order.gathered = some g) :
    s.drainAbort = s.endAbortedReads.drainTable g := by
  have current : s.endAbortedReads.order.current = _ := ho
  have gathered : s.endAbortedReads.order.gathered = _ := hg
  simp only [State.drainAbort, current, gathered]
  exact if_neg hp

theorem drainAbort_of_scan {o : ScanOrder} {g : Gathered} (hp : s.order.part ≠ .starting)
    (ho : s.order.current = some (.scan o)) (hg : s.order.gathered = some g) :
    s.drainAbort = s.endAbortedReads.drainScan o g := by
  have current : s.endAbortedReads.order.current = _ := ho
  have gathered : s.endAbortedReads.order.gathered = _ := hg
  simp only [State.drainAbort, current, gathered]
  exact if_neg hp

/-- The records of an aborted SCAN order are written and gone, its store is emptied and its writer OFF. -/
def State.recordsAborted (s : State) (o : ScanOrder) (owners : List (Nat × Owner)) : State :=
  ({ s.endAbortedReads with
      writer := { s.writer with owners := owners, records := [], plate := none, state := .off }
      store := s.store.emptied } : State).withWrites (s.abortEntries o [] s.writer.records)

/-- Every record is written ABORTED, and the order ends. -/
theorem drainScan_eq {i : Fin 4} {o : ScanOrder} {g : Gathered} (hs : s.Settled) (ha : s.accessBarred = false)
    (hc : s.order.chosen = some i)
    (hw : insideWindow s.bus.windows o.rosterAddress (o.expectedFrames * 640) = true)
    (hn : ∀ r ∈ s.writer.records, 1 ≤ r.number ∧ r.number ≤ o.expectedFrames ∧ r.plateList.length ≤ 64
      ∧ ∀ p ∈ r.plateList, p.index < 256) :
    ∃ owners, s.endAbortedReads.drainScan o g = (s.recordsAborted o owners).orderAborted i (s.abortedResults g)
      ∧ ∀ k, lastOwner owners k =
          if (∃ r ∈ s.writer.records, ∃ p ∈ r.plateList, p.index = k) ∧ lastOwner s.writer.owners k = some .taken
          then some .given else lastOwner s.writer.owners k := by
  obtain ⟨owners, written, returned⟩ :=
    foldl_abortRecord_eq s s.writer.records [] s.endAbortedReads ha hw hn rfl fun _ =>
      ⟨fun h => ⟨h, List.not_mem_nil⟩, And.left⟩
  refine ⟨owners, ?_, returned⟩
  have records : s.endAbortedReads.abortRecords o = _ := written
  rw [State.drainScan, records]
  exact (if_neg (by simp [State.withWrites, show s.endAbortedReads.bus.barred = none from hs])).trans
    (endAborted_eq (s := s.recordsAborted o owners) (s.abortedResults g) hc ha)

end Sys2Proof.Machine

namespace Sys2Proof.Proofs
open Sys2Proof.Machine

/-- Settles O16: ABORT by the kind and the state of the order; while the order is aborting the three codes do nothing. -/
theorem abortTaken : Obligations.AbortTaken := by
  refine ⟨fun s o hs hp hn ho => ?_, fun s i hs hp hn hc => ⟨fun hw => ?_, fun hw => ?_⟩,
    fun s o i hs hp hn ho hc => ?_, fun s hs hn => ⟨fun hp => ?_, fun hp => ?_, fun hp => ?_⟩⟩
  · obtain ⟨flight, reads, free, write, e, stopped, dropped⟩ := abortScan_eq s o
    refine ⟨_, exec_abort (List.mem_cons_of_mem _ hp) ((abort_of_scan hn hp ho).trans e) hs, rfl, rfl,
      ⟨_, rfl, rfl, rfl, fun base hbase => ?_⟩, rfl, rfl, rfl, rfl, rfl, rfl, rfl, rfl, rfl, rfl, rfl, rfl, rfl, rfl, rfl,
      fun w hw settled => stopped.stays w hw ?_, stopped.same, dropped⟩
    · rw [← reportedBase_eq hbase]
      exact ⟨rfl, rfl, rfl, rfl⟩
    · simpa [isBurst] using settled
  · obtain ⟨flight, reads, free, e, stopped, dropped⟩ := abortStarting_of_working hw
    refine ⟨_, exec_abort (by simp [hp]) ((abort_of_starting hn hp).trans e) hs, rfl, rfl, rfl, rfl, rfl,
      fun w hw settled => stopped.stays w hw ?_, stopped.same, dropped⟩
    simpa [isRosterWrite] using settled
  · have unbarred : s.accessBarred = false := accessBarred_of_works (congrArg PartState.works hp) hs
    rw [← startResults_eq s]
    have e := endedAborted_orderAborted s i s.startResults
    exact ⟨_, exec_abort (by simp [hp]) ((abort_of_starting hn hp).trans (abortStarting_of_waiting hw hc unbarred))
        (e.barred.trans hs),
      e.part, e.chosen, e.waiting, e.ordersTally, e.endWrites, e.follows, e.reg, e.mem, inFlight_orderAborted ..⟩
  · have unbarred := accessBarred_of_order hp hs
    have taken {t : State} (h : s.abortCalibrate o = t) (ht : t.Settled) : exec .abort s = .next t :=
      exec_abort (List.mem_cons_of_mem _ hp) ((abort_of_calibrate hn hp ho).trans h) ht
    refine ⟨fun hpass => ?_, fun g hpass hg => ?_, fun hpass => ?_⟩
    · have e := endedAborted_passesAborted s i (s.cal.aborted 0 0)
      exact ⟨_, taken ((abortCalibrate_of_passes hpass).trans (abortPasses_eq _ hc unbarred)) (e.barred.trans hs),
        e.part, e.chosen, e.suspendHold, e.heldEnd, e.ordersTally, e.endWrites, e.follows, e.cal, e.reg, e.mem,
        inFlight_passesAborted ..⟩
    · have e := endedAborted_passesAborted s i g
      exact ⟨_, taken ((abortCalibrate_of_idle hpass hg).trans (abortPasses_eq _ hc unbarred)) (e.barred.trans hs),
        e.part, e.chosen, e.suspendHold, e.heldEnd, e.ordersTally, e.endWrites, e.follows, e.cal, e.reg, e.mem,
        inFlight_passesAborted ..⟩
    · have stopped := issuingStopped_keepIssued isTableWrite (s.issuedCount isTableWrite) s.bus.inFlight
      refine ⟨_, _, taken (abortCalibrate_of_writing hpass) hs, rfl, rfl, rfl, rfl,
        fun w hw settled => stopped.stays w hw ?_, stopped.same, rfl, rfl, rfl⟩
      simpa [isTableWrite] using settled
  · exact exec_abort hp (if_pos hn) hs
  · exact exec_of_accepted (by simp [codeCommands]) (by simpa [State.accepts] using hp) (if_pos hn) hs
  · exact exec_of_accepted (by simp [codeCommands]) (by simpa [State.accepts] using hp) (if_pos hn) hs

/-- Settles O54: the accesses of the aborted work end, the records of a SCAN order are written, and the order ends. -/
theorem abortDrains : Obligations.AbortDrains := by
  intro s i hs hn hc hb ended ends drained
  have ends_of {t u : State} (e : EndedAborted u t) (tally : u.order.ordersTally = s.order.ordersTally)
      (reg : u.reg = s.reg) : ended t :=
    ⟨e.part, e.aborting, e.chosen, e.suspendHold, e.ordersTally.trans (congrArg (· + 1) tally), e.endWrites, e.shading,
      e.reg.trans reg⟩
  refine ⟨fun hp => ?_, fun o g hp ho hg => ?_, fun o g hp ho hg hw hrecords => ?_⟩
  · have unbarred : s.accessBarred = false := accessBarred_of_works (congrArg PartState.works hp) hs
    let landed := s.endAbortedReads.endWritesThrough s.isStartWrite
    have drain : s.DrainsTo s.isStartWrite landed.bus.inFlight landed.mem :=
      drainsTo_endWritesThrough s.endAbortedReads s.isStartWrite
    have e := endedAborted_orderAborted landed i s.startResults
    rw [← isStartWrite_eq hc, ← startResults_eq s]
    refine ⟨_, exec_abortDrainComplete hn hb ((drainAbort_of_starting hp).trans (endAborted_eq _ hc unbarred))
      (e.barred.trans hs), ends_of e rfl rfl, _, by rwa [e.mem], ?_⟩
    exact (inFlight_orderAborted ..).trans (List.append_assoc ..)
  · have unbarred := accessBarred_of_order hp hs
    let landed := s.endAbortedReads.endWritesThrough isTableWrite
    have drain : s.DrainsTo isTableWrite landed.bus.inFlight landed.mem :=
      drainsTo_endWritesThrough s.endAbortedReads isTableWrite
    have e := endedAborted_passesAborted landed i g
    refine ⟨_, exec_abortDrainComplete hn hb ((drainAbort_of_calibrate (not_starting_of_order hp) ho hg).trans
      (abortPasses_eq (s := landed) g hc unbarred)) (e.barred.trans hs), ⟨ends_of e rfl rfl, _, by rwa [e.mem], ?_⟩, e.cal,
      fun w hw => ?_⟩
    · exact (inFlight_passesAborted ..).trans (List.append_assoc ..)
    rcases List.mem_append.1 hw with early | late
    · exact kind_ne_of_drainsTo drain w early
    · rcases List.mem_append.1 late with area | ends
      · exact (kind_of_mem_resultArea w area).trans_ne nofun
      · simp only [List.mem_cons, List.not_mem_nil, or_false] at ends
        rcases ends with rfl | rfl <;> exact nofun
  · have unbarred := accessBarred_of_order hp hs
    obtain ⟨owners, drains, returned⟩ := drainScan_eq (g := g) hs unbarred hc hw hrecords
    have e := endedAborted_orderAborted (s.recordsAborted o owners) i (s.abortedResults g)
    refine ⟨_, exec_abortDrainComplete hn hb ((drainAbort_of_scan (not_starting_of_order hp) ho hg).trans drains)
      (e.barred.trans hs), ends_of e rfl rfl, ?_, e.mem, rfl, rfl, rfl, rfl, rfl, rfl, rfl, rfl, returned⟩
    exact (inFlight_orderAborted ..).trans (List.append_assoc ..)

end Sys2Proof.Proofs
end

section
/-! SUPPORT. RESUME (R20, R135, R141, R181, R182): how the order goes on, and what a READY writer does with its head. -/
namespace Sys2Proof.Machine

variable {s : State} {o : ScanOrder}

/-! ### A READY writer and its head (R135, R36, R37) -/

section head
variable {e : Entry} {entries : List Entry} {k : Nat} {r : FrameRecord}

theorem writerGo_of_head (hw : s.writer.state = .ready) (hp : s.store.pending = e :: entries) :
    s.writerGo o = (handleHeads o (entries.length + 1) s).workDone o := by
  unfold State.writerGo
  rw [rethrottle_of_ne (by simp [hw])]
  dsimp only
  rw [hp]
  rfl

theorem ready_of_handlesHead (hh : s.handlesHead = true) : s.writer.state = .ready := by
  simp only [State.handlesHead, Bool.and_eq_true, beq_iff_eq] at hh
  exact hh.1.1.1

theorem dropHead_of_open (hopen : ∀ r ∈ s.writer.records, r.closed = false) : s.dropHead o = s.lineRemoved :=
  completeFrames_of_open hopen

/-- Behind the head that goes, an undecided head waits. -/
theorem handleHeads_dropHead {n : Nat} (hp : s.store.pending = e :: entries) (rest : ∀ e' ∈ entries, e'.fate = .undecided)
    (hopen : ∀ r ∈ s.writer.records, r.closed = false) : handleHeads o n (s.dropHead o) = s.lineRemoved := by
  rw [dropHead_of_open hopen]
  refine handleHeads_of_undecided ?_
  rw [State.lineRemoved, pending_removeHead false hp]
  exact rest

theorem handleHeads_of_dropped {n : Nat} (hh : s.handlesHead = true) (hp : s.store.pending = e :: entries)
    (hf : e.fate = .dropImage ∨ e.fate = .dropOther) : handleHeads o (n + 1) s = handleHeads o n (s.dropHead o) := by
  rw [handleHeads]
  rcases hf with hf | hf <;> simp [hh, hp, hf]

/-- A head that is a drop goes. -/
theorem writerGo_of_dropped (hh : s.handlesHead = true) (hp : s.store.pending = e :: entries)
    (hf : e.fate = .dropImage ∨ e.fate = .dropOther) (rest : ∀ e' ∈ entries, e'.fate = .undecided)
    (hopen : ∀ r ∈ s.writer.records, r.closed = false) : s.writerGo o = s.lineRemoved.workDone o := by
  rw [writerGo_of_head (ready_of_handlesHead hh) hp, handleHeads_of_dropped hh hp hf, handleHeads_dropHead hp rest hopen]

/-- The head has become DROP_IMAGE and has left the pending list. -/
def State.headDropped (s : State) (e : Entry) (entries : List Entry) : State :=
  { s with store := { s.store with pending := { e with fate := .dropImage } :: entries }.removeHead false }

theorem dropImageHead_eq (hp : s.store.pending = e :: entries) :
    s.dropImageHead = { s with store := { s.store with pending := { e with fate := .dropImage } :: entries } } := by
  rw [State.dropImageHead, State.onStore, hp]

theorem handleHeads_dropImageHead {n : Nat} (hp : s.store.pending = e :: entries)
    (rest : ∀ e' ∈ entries, e'.fate = .undecided) (hopen : ∀ r ∈ s.writer.records, r.closed = false) :
    handleHeads o n (s.dropImageHead.dropHead o) = s.headDropped e entries := by
  rw [dropImageHead_eq hp]
  exact handleHeads_dropHead rfl rest hopen

theorem mem_records_of_record (hr : s.writer.record k = some r) : r ∈ s.writer.records := List.mem_of_find?_eq_some hr

theorem number_of_record (hr : s.writer.record k = some r) : r.number = k := by
  have found := List.find?_some hr
  simp only [Bool.and_eq_true, beq_iff_eq] at found
  exact found.1

/-- A WRITE head of a damaged frame goes as DROP_IMAGE. -/
theorem writerGo_of_damaged (hh : s.handlesHead = true) (hp : s.store.pending = e :: entries) (hf : e.fate = .write)
    (hk : e.frame = some k) (hr : s.writer.record k = some r) (damaged : r.damage.isSome)
    (rest : ∀ e' ∈ entries, e'.fate = .undecided) (hopen : ∀ r ∈ s.writer.records, r.closed = false) :
    s.writerGo o = s.headDropped e entries := by
  rw [writerGo_of_head (ready_of_handlesHead hh) hp, handleHeads_of_write s o _ e entries k r hh hp hf hk hr, if_pos damaged,
    handleHeads_dropImageHead hp rest hopen]
  exact workDone_of_busy _ o (.inr (.inl (List.ne_nil_of_mem (mem_records_of_record hr))))

/-- A WRITE head that finds a place is placed, and that is all. -/
theorem writerGo_of_placed {t : State} (hh : s.handlesHead = true) (hp : s.store.pending = e :: entries)
    (hf : e.fate = .write) (hk : e.frame = some k) (hr : s.writer.record k = some r) (sound : r.damage = none)
    (placed : s.placeHead o e r = some t) (busy : t.store.pending ≠ [] ∨ t.writer.state ≠ .ready) : s.writerGo o = t := by
  rw [writerGo_of_head (ready_of_handlesHead hh) hp, handleHeads_of_write s o _ e entries k r hh hp hf hk hr,
    if_neg (by simp [sound]), placed, Option.getD_some]
  exact workDone_of_busy t o (busy.imp_right fun h => .inr (.inl h))

theorem throttle_ne_ready (p : CurrentPlate) : (s.throttle o e r p).writer.state ≠ .ready := by
  unfold State.throttle
  split <;> exact nofun

/-- With room in its frame's plate the head meets the throttle test. -/
theorem writerGo_of_room {p : CurrentPlate} (hh : s.handlesHead = true) (hp : s.store.pending = e :: entries)
    (hf : e.fate = .write) (hk : e.frame = some k) (hr : s.writer.record k = some r) (sound : r.damage = none)
    (plate : s.writer.plate = some p) (owned : p.frame = r.number) (room : r.outBytes ≤ p.room) :
    s.writerGo o = s.throttle o e r p := by
  refine writerGo_of_placed hh hp hf hk hr sound ?_ (.inr (throttle_ne_ready p))
  have usable : (s.writer.plate.filter fun p => p.frame == r.number && decide (r.outBytes ≤ p.room)) = some p := by
    rw [plate, Option.filter_some, if_pos (by simp [owned, room])]
  rw [State.placeHead, usable]

theorem placeHead_of_no_room (noRoom : ∀ p, s.writer.plate = some p → p.frame ≠ r.number ∨ p.room < r.outBytes) :
    s.placeHead o e r = if 64 ≤ r.plateList.length then none else some s.beginScan := by
  have unusable : (s.writer.plate.filter fun p => p.frame == r.number && decide (r.outBytes ≤ p.room)) = none := by
    refine Option.filter_eq_none_iff.2 fun p hp => ?_
    have := noRoom p hp
    simp only [Bool.and_eq_true, beq_iff_eq, decide_eq_true_eq]
    omega
  rw [State.placeHead, unusable]
  rfl

/-- Without a place in a plate a scan begins. -/
theorem writerGo_of_scan (hh : s.handlesHead = true) (hp : s.store.pending = e :: entries)
    (hf : e.fate = .write) (hk : e.frame = some k) (hr : s.writer.record k = some r) (sound : r.damage = none)
    (noRoom : ∀ p, s.writer.plate = some p → p.frame ≠ r.number ∨ p.room < r.outBytes)
    (short : r.plateList.length < 64) (ha : s.accessBarred = false) :
    s.writerGo o =
      ({ s with writer := { s.writer with scan := some .count } } : State).withReads [s.madeRead .plateCount 0x24 4] := by
  rw [← beginScan_eq ha]
  refine writerGo_of_placed hh hp hf hk hr sound ?_ (.inl ?_)
  · rw [placeHead_of_no_room noRoom, if_neg short.not_ge]
  · rw [beginScan_eq ha]
    exact hp.trans_ne (List.cons_ne_nil _ _)

/-- The frame of a full plate list is damaged, and its head goes as DROP_IMAGE (R150). -/
theorem writerGo_of_full (hh : s.handlesHead = true) (hp : s.store.pending = e :: entries)
    (hf : e.fate = .write) (hk : e.frame = some k) (hr : s.writer.record k = some r) (sound : r.damage = none)
    (noRoom : ∀ p, s.writer.plate = some p → p.frame ≠ r.number ∨ p.room < r.outBytes)
    (full : 64 ≤ r.plateList.length) (rest : ∀ e' ∈ entries, e'.fate = .undecided)
    (hopen : ∀ r ∈ s.writer.records, r.closed = false) :
    s.writerGo o =
      (s.onWriter fun wr => wr.onRecord k fun r => r.damaged .plateListFull).headDropped e entries := by
  rw [writerGo_of_head (ready_of_handlesHead hh) hp, handleHeads_of_write s o _ e entries k r hh hp hf hk hr,
    if_neg (by simp [sound]), placeHead_of_no_room noRoom, if_pos full, Option.getD_none, number_of_record hr,
    State.plateListFull, handleHeads_dropImageHead (by exact hp) rest]
  · refine workDone_of_busy _ o (.inr (.inl ?_))
    exact fun h => List.ne_nil_of_mem (mem_records_of_record hr) (List.map_eq_nil_iff.1 h)
  · exact forall_onRecord hopen fun r hr _ => hopen r hr

end head

/-! ### The order goes on (R182) -/

/-- The slot word RUNNING is issued, and the suspension is over. -/
def State.resumed (s : State) (i : Fin 4) (part : PartState) : State :=
  ({ s with
      order := { s.order with part := part, origin := none, suspendHold := false }
      writer := { s.writer with stop := false } } : State).withWrites [s.slotWrite i 2 .silent]

/-- No end is held. -/
def State.endReleased (s : State) : State := s.onOrder fun u => { u with heldEnd := false }

theorem heldEnd_of_unheld {u : OrderUnit} (h : u.heldEnd = false) : { u with heldEnd := false } = u := by
  cases u
  cases h
  rfl

theorem resume_eq {i : Fin 4} {origin : Origin} (hs : s.Settled) (hp : s.order.part = .suspended)
    (hn : s.order.aborting = false) (hc : s.order.chosen = some i) (ho : s.order.origin = some origin) :
    s.resume = ((s.resumed i origin.part).endReleased).goOn s.order.heldEnd := by
  have unbarred : s.accessBarred = false := accessBarred_of_works (congrArg PartState.works hp) hs
  rw [State.resume, if_neg (by simp [hn])]
  dsimp only
  rw [issueSlotWord_eq slotRunning .silent hc unbarred]
  simp only [State.onOrder, State.push, State.onBus, ho]
  rfl

theorem resume_of_unheld {i : Fin 4} {origin : Origin} (hs : s.Settled) (hp : s.order.part = .suspended)
    (hn : s.order.aborting = false) (hc : s.order.chosen = some i) (ho : s.order.origin = some origin)
    (hh : s.order.heldEnd = false) : s.resume = (s.resumed i origin.part).goOn false := by
  have released : (s.resumed i origin.part).endReleased = s.resumed i origin.part :=
    congrArg (fun u => { s.resumed i origin.part with order := u }) (heldEnd_of_unheld (by exact hh))
  rw [resume_eq hs hp hn hc ho, hh, released]

theorem goOn_of_scan (ho : s.order.current = some (.scan o)) : s.goOn false = s.writerGo o := by
  rw [State.goOn, ho]
  rfl

theorem goOn_of_calibrate {o : CalOrder} (ho : s.order.current = some (.calibrate o)) : s.goOn false = s.finishPasses o := by
  rw [State.goOn, ho]

theorem goOn_of_held_scan (ho : s.order.current = some (.scan o)) : s.goOn true = s.endScan o := by
  rw [State.goOn, ho]
  rfl

theorem goOn_of_held_calibrate {o : CalOrder} {g : Gathered} (ho : s.order.current = some (.calibrate o))
    (hg : s.order.gathered = some g) : s.goOn true = s.endCalibrate g := by
  rw [State.goOn, ho, hg]

theorem resume_of_scan {i : Fin 4} {origin : Origin} (hs : s.Settled) (hp : s.order.part = .suspended)
    (hn : s.order.aborting = false) (hc : s.order.chosen = some i) (ho : s.order.origin = some origin)
    (hh : s.order.heldEnd = false) (hscan : s.order.current = some (.scan o)) :
    s.resume = (s.resumed i origin.part).writerGo o :=
  (resume_of_unheld hs hp hn hc ho hh).trans (goOn_of_scan hscan)

theorem resume_of_calibrate {i : Fin 4} {origin : Origin} {o : CalOrder} (hs : s.Settled) (hp : s.order.part = .suspended)
    (hn : s.order.aborting = false) (hc : s.order.chosen = some i) (ho : s.order.origin = some origin)
    (hh : s.order.heldEnd = false) (hcal : s.order.current = some (.calibrate o)) :
    s.resume = (s.resumed i origin.part).finishPasses o :=
  (resume_of_unheld hs hp hn hc ho hh).trans (goOn_of_calibrate hcal)

theorem resume_of_held_scan {i : Fin 4} {origin : Origin} (hs : s.Settled) (hp : s.order.part = .suspended)
    (hn : s.order.aborting = false) (hc : s.order.chosen = some i) (ho : s.order.origin = some origin)
    (hh : s.order.heldEnd = true) (hscan : s.order.current = some (.scan o)) :
    s.resume = (s.resumed i origin.part).endReleased.endScan o := by
  rw [resume_eq hs hp hn hc ho, hh]
  exact goOn_of_held_scan hscan

theorem resume_of_held_calibrate {i : Fin 4} {origin : Origin} {o : CalOrder} {g : Gathered} (hs : s.Settled)
    (hp : s.order.part = .suspended) (hn : s.order.aborting = false) (hc : s.order.chosen = some i)
    (ho : s.order.origin = some origin) (hh : s.order.heldEnd = true) (hcal : s.order.current = some (.calibrate o))
    (hg : s.order.gathered = some g) : s.resume = (s.resumed i origin.part).endReleased.endCalibrate g := by
  rw [resume_eq hs hp hn hc ho, hh]
  exact goOn_of_held_calibrate hcal hg

theorem accessBarred_resumed {i : Fin 4} (origin : Origin) (hs : s.Settled) :
    (s.resumed i origin.part).accessBarred = false :=
  accessBarred_eq_false (by cases origin <;> exact nofun) (by cases origin <;> exact nofun) hs

theorem finishPasses_of_not {o : CalOrder} (h : ¬(s.cal.pass = .passesComplete ∧ s.order.part = .running)) :
    s.finishPasses o = s := if_neg h

theorem finishPasses_of_complete {o : CalOrder} (h : s.cal.pass = .passesComplete) (hp : s.order.part = .running) :
    s.finishPasses o = (s.onOrder fun u => { u with part := .finishing }).enterTable o := if_pos ⟨h, hp⟩

/-- The part has entered FINISHING and the unit WRITING, the suspension over. -/
def State.tableResumed (s : State) (o : CalOrder) : State :=
  { s with
    order := { s.order with part := .finishing, origin := none, suspendHold := false }
    writer := { s.writer with stop := false }
    cal := { s.cal with
      pass := .writing, columnInHand := none, hot := countHot (tableColumns o s.cal)
      dead := countDead (tableColumns o s.cal), faulted := countFaulted (tableColumns o s.cal) } }

/-- The order whose passes are complete issues its table behind the slot word. -/
theorem finishPasses_resumed {i : Fin 4} {o : CalOrder} (hs : s.Settled) (hpass : s.cal.pass = .passesComplete)
    (hw : insideWindow s.bus.windows o.tableAddress (o.width * 20) = true) :
    (s.resumed i .running).finishPasses o =
      (s.tableResumed o).withWrites (s.slotWrite i 2 .silent :: tableWrites o 0 (tableColumns o s.cal)) :=
  (finishPasses_of_complete (s := s.resumed i .running) hpass rfl).trans
    ((enterTable_eq (s := s.resumed i .finishing) (accessBarred_resumed .finishing hs) hw).trans
      (withWrites_withWrites (s.tableResumed o) [s.slotWrite i 2 .silent] _))

/-- A writer that waits for a plate or writes a line goes nowhere. -/
theorem writerGo_of_occupied (hw : s.writer.state = .plateWait ∨ s.writer.state = .writing) : s.writerGo o = s := by
  have notReady : s.writer.state ≠ .ready := by rcases hw with h | h <;> simp [h]
  have notThrottled : s.writer.state ≠ .throttled := by rcases hw with h | h <;> simp [h]
  unfold State.writerGo
  rw [rethrottle_of_ne notThrottled]
  dsimp only
  rw [handleHeads_of_not_handles (by simp [State.handlesHead, notReady])]
  exact workDone_of_busy s o (.inr (.inr (.inl notReady)))

theorem originPart_eq (origin : Origin) : origin.part = if origin = .running then .running else .finishing := by
  cases origin <;> rfl

theorem handlesHead_resumed {i : Fin 4} (origin : Origin) (hw : s.writer.state = .ready) (hscan : s.writer.scan = none) :
    (s.resumed i origin.part).handlesHead = true := by
  cases origin <;> simp [State.handlesHead, State.resumed, State.withWrites, hw, hscan, Origin.part]

/-- A head that is undecided waits, and the order goes on unless it is FINISHING with nothing left. -/
theorem writerGo_resumed_of_undecided {i : Fin 4} {origin : Origin} (hw : s.writer.state = .ready)
    (waits : ∀ e ∈ s.store.pending, e.fate = .undecided)
    (left : origin = .running ∨ s.store.pending ≠ [] ∨ s.writer.records ≠ []) :
    (s.resumed i origin.part).writerGo o = s.resumed i origin.part := by
  refine (writerGo_of_ready (s := s.resumed i origin.part) hw (.inr waits)).trans (workDone_of_busy _ o ?_)
  rcases left with rfl | pending | records
  · exact .inr (.inr (.inr rfl))
  · exact .inl pending
  · exact .inr (.inl records)

/-- A head that goes leaves the order going on, unless it was the last line of a FINISHING order with no frame left. -/
theorem workDone_lineRemoved {i : Fin 4} {origin : Origin} {e : Entry} {entries : List Entry}
    (hp : s.store.pending = e :: entries) (left : origin = .running ∨ entries ≠ [] ∨ s.writer.records ≠ []) :
    (s.resumed i origin.part).lineRemoved.workDone o = (s.resumed i origin.part).lineRemoved := by
  refine workDone_of_busy _ o ?_
  rcases left with rfl | behind | records
  · exact .inr (.inr (.inr rfl))
  · exact .inl ((pending_removeHead false hp).trans_ne behind)
  · exact .inr (.inl records)

/-! ### The order ends (R181) -/

/-- The order of slot `i` has ended with a slot word. -/
def State.orderEnded (s : State) (i : Fin 4) (results : Results) (value : Nat) : State :=
  (({ s with
      order := { s.order with ordersTally := s.order.ordersTally + 1, endWrites := true, follows := true } } : State).withWrites
    (s.resultArea i results .grouped ++ [s.slotWrite i value .silent .grouped, s.tallyWrite .grouped])).leaveOrder

/-- What the end of an order makes of the order unit, and what it leaves. -/
structure OrderEnded (s t : State) : Prop where
  part : t.order.part = .idle
  heldEnd : t.order.heldEnd = false
  suspendHold : t.order.suspendHold = s.order.suspendHold
  current : t.order.current = none
  ordersTally : t.order.ordersTally = s.order.ordersTally + 1
  endWrites : t.order.endWrites = true
  follows : t.order.follows = true
  reg : t.reg = s.reg
  mem : t.mem = s.mem
  barred : t.bus.barred = s.bus.barred

theorem orderEnded_spec (s : State) (i : Fin 4) (results : Results) (value : Nat) :
    OrderEnded s (s.orderEnded i results value) := ⟨rfl, rfl, rfl, rfl, rfl, rfl, rfl, rfl, rfl, rfl⟩

theorem inFlight_orderEnded {u : State} (reg : u.reg = s.reg) (tally : u.order.ordersTally = s.order.ordersTally)
    (i : Fin 4) (results : Results) (value : Nat) :
    (u.orderEnded i results value).bus.inFlight =
      u.bus.inFlight ++ s.resultArea i results .grouped ++ [s.slotWrite i value .silent .grouped, s.tallyWrite .grouped] := by
  have base : u.blockBase = s.blockBase := by rw [State.blockBase, reg, State.blockBase]
  calc (u.orderEnded i results value).bus.inFlight
      = u.bus.inFlight
        ++ (u.resultArea i results .grouped ++ [u.slotWrite i value .silent .grouped, u.tallyWrite .grouped]) := rfl
    _ = _ := by
      simp only [State.resultArea, State.resultWrites, State.slotWrite, State.tallyWrite, State.blockField, base, tally,
        List.append_assoc]

theorem endScan_eq_orderEnded {i : Fin 4} (hc : s.order.chosen = some i) (ha : s.accessBarred = false) :
    s.endScan o = s.orderEnded i (s.scanResults o .none) 4 :=
  congrArg State.leaveOrder (issueEnd_eq (s.scanResults o .none) slotDone .grouped hc ha)

theorem endCalibrate_eq_orderEnded {i : Fin 4} (g : Gathered) (hc : s.order.chosen = some i) (ha : s.accessBarred = false) :
    s.endCalibrate g =
      s.orderEnded i (s.calResults g (if g.sensorFailed then .sensor else .none)) (if g.sensorFailed then 5 else 4) :=
  endCalibrate_eq g hc ha

theorem scanResults_lineRemoved (reason : Reason) : s.lineRemoved.scanResults o reason = s.scanResults o reason := by
  simp only [State.scanResults, State.lineRemoved, lost_removeHead]

/-- The dropped head was the last line of a FINISHING order with no frame left: the order ends. -/
theorem workDone_lineRemoved_of_last {i : Fin 4} {e : Entry} (hs : s.Settled) (hc : s.order.chosen = some i)
    (hw : s.writer.state = .ready) (hp : s.store.pending = [e]) (hr : s.writer.records = []) :
    (s.resumed i .finishing).lineRemoved.workDone o =
      (s.resumed i .finishing).lineRemoved.orderEnded i (s.scanResults o .none) 4 := by
  have nothing : (s.resumed i .finishing).lineRemoved.store.pending = [] := pending_removeHead false hp
  have results : (s.resumed i .finishing).lineRemoved.scanResults o .none = s.scanResults o .none :=
    scanResults_lineRemoved .none
  rw [workDone_of_finishing nothing hr hw rfl, ← results]
  exact endScan_eq_orderEnded hc (accessBarred_resumed .finishing hs)

end Sys2Proof.Machine

namespace Sys2Proof.Proofs
open Sys2Proof.Machine

/-- Settles O15: the suspension is over, then by the kind of the order, its held end, and the state of its writer. -/
theorem resumeTaken : Obligations.ResumeTaken := by
  intro s i hs hp hn hc slot resumed ended
  have taken {t : State} (h : s.resume = t) (ht : t.Settled) : exec .resume s = .next t :=
    exec_of_accepted (by simp [codeCommands]) (beq_iff_eq.2 hp) h ht
  have ends {u : State} {results : Results} {value : Nat} (suspendHold : u.order.suspendHold = false)
      (tally : u.order.ordersTally = s.order.ordersTally) (reg : u.reg = s.reg) (mem : u.mem = s.mem)
      (inFlight : u.bus.inFlight = s.bus.inFlight ++ [slot]) : ended (u.orderEnded i results value) results value := by
    have e := orderEnded_spec u i results value
    refine ⟨e.part, e.heldEnd, e.suspendHold.trans suspendHold, e.current, ?_, e.endWrites, e.follows, ?_,
      e.reg.trans reg, e.mem.trans mem⟩
    · rw [e.ordersTally, tally]
    · rw [inFlight_orderEnded reg tally, inFlight]
  refine ⟨fun o ho hh hcal => ?_, fun o ho hh hcal => ?_,
    fun o origin ho hh hscan hw => ?_, fun o origin ho hh hscan hw => ?_, fun o ho hh hscan => ?_,
    fun o g ho hh hcal hg => ?_⟩
  · have passes := resume_of_calibrate hs hp hn hc ho hh hcal
    exact ⟨fun hpass => taken (passes.trans (finishPasses_of_not fun h => hpass h.1)) hs,
      fun hpass hw => taken (passes.trans (finishPasses_resumed hs hpass hw)) hs⟩
  · have passes := resume_of_calibrate hs hp hn hc ho hh hcal
    exact taken (passes.trans (finishPasses_of_not fun h => by cases h.2)) hs
  · rw [← originPart_eq]
    exact taken ((resume_of_scan hs hp hn hc ho hh hscan).trans (writerGo_of_occupied hw)) hs
  · rw [← originPart_eq]
    intro on
    have writer : s.resume = on.writerGo o := resume_of_scan hs hp hn hc ho hh hscan
    refine ⟨fun waits left => ?_, fun e entries pending noScan => ?_⟩
    · exact taken (writer.trans (writerGo_resumed_of_undecided hw waits left)) hs
    · have handles : on.handlesHead = true := handlesHead_resumed origin hw noScan
      refine ⟨fun rest allOpen dropped => ?_, fun k r fate frame record => ⟨fun sound => ⟨fun p plate owned room => ?_,
        fun noRoom => ⟨fun short => ?_, fun full rest allOpen => ?_⟩⟩, fun damaged rest allOpen => ?_⟩⟩
      · have removed := writer.trans (writerGo_of_dropped handles pending dropped rest allOpen)
        refine ⟨fun left => ⟨?_, pending_removeHead false pending⟩, ?_⟩
        · exact taken (removed.trans (workDone_lineRemoved pending left)) hs
        · rintro rfl rfl empty
          exact ⟨_, taken (removed.trans (workDone_lineRemoved_of_last hs hc hw pending empty)) hs, ends rfl rfl rfl rfl rfl⟩
      · have room := writer.trans (writerGo_of_room handles pending fate frame record sound plate owned room)
        obtain ⟨passes, waits⟩ := throttle_eq on o e r p
        exact ⟨fun h => taken (room.trans (passes h)) hs, fun h => taken (room.trans (waits h)) hs⟩
      · exact taken (writer.trans (writerGo_of_scan handles pending fate frame record sound noRoom short
          (accessBarred_resumed origin hs))) hs
      · exact taken (writer.trans (writerGo_of_full handles pending fate frame record sound noRoom full rest allOpen)) hs
      · exact taken (writer.trans (writerGo_of_damaged handles pending fate frame record damaged rest allOpen)) hs
  · have e := orderEnded_spec (s.resumed i .finishing).endReleased i (s.scanResults o .none) 4
    exact ⟨_, taken ((resume_of_held_scan hs hp hn hc ho hh hscan).trans
      (endScan_eq_orderEnded (by exact hc) (by exact accessBarred_resumed .finishing hs))) (e.barred.trans hs),
      ends rfl rfl rfl rfl rfl⟩
  · exact ⟨_, taken ((resume_of_held_calibrate hs hp hn hc ho hh hcal hg).trans
      (endCalibrate_eq_orderEnded g (by exact hc) (by exact accessBarred_resumed .finishing hs))) hs,
      ends rfl rfl rfl rfl rfl⟩

end Sys2Proof.Proofs
end

section
/-! SUPPORT. How a command answers (log 7): on operands that spell an event it runs to a next state, on any others it stops as
ill-formed; the one other stop is a shading load whose table has not the length that the order's load reads. -/
namespace Sys2Proof.Machine

variable {s t : State}

/-- The answer is a next state. -/
def Runs (answer : Host.Outcome State Fault Refusal) : Prop := ∃ t, answer = .next t

theorem runs_done (u : State) : Runs (done u) := ⟨u.settle, rfl⟩

theorem Runs.ite {c : Prop} [Decidable c] {a b : Host.Outcome State Fault Refusal} (ha : Runs a) (hb : Runs b) :
    Runs (if c then a else b) := by
  split
  · exact ha
  · exact hb

theorem Runs.of_pos {c : Prop} [Decidable c] {a b : Host.Outcome State Fault Refusal} (ha : Runs a) (h : c) :
    Runs (if c then a else b) := by rwa [if_pos h]

theorem Runs.of_neg {c : Prop} [Decidable c] {a b : Host.Outcome State Fault Refusal} (hb : Runs b) (h : ¬ c) :
    Runs (if c then a else b) := by rwa [if_neg h]

/-! ### The meanings that are more than one guard -/

theorem runs_registerWriteIgnored {access : IgnoredAccess} (h : access.wellFormed = true) :
    Runs (execRegisterWriteIgnored access s) := by
  refine .of_pos ?_ h
  cases access <;> exact runs_done _

theorem runs_plateScanReadComplete {reads : List ScanRead} (h : (!reads.isEmpty && reads.all ScanRead.wellFormed) = true) :
    Runs (execPlateScanReadComplete reads s) := by
  refine .of_pos ?_ h
  split <;> exact runs_done _

theorem runs_fillComplete (s : State) : Runs (execFillComplete s) := by
  unfold execFillComplete
  split <;> exact runs_done _

theorem runs_plateBurstBusError (s : State) : Runs (execPlateBurstBusError s) := by
  unfold execPlateBurstBusError
  split
  · exact runs_done _
  · split <;> exact runs_done _

/-- A table of 20 bytes for each column of the order is taken, or dropped where no load is in progress (R10). -/
theorem runs_shadingLoadComplete {table : List Byte} (h : table.length % 20 = 0)
    (hw : ∀ o, s.scanOrder = some o → table.length = 20 * o.width) : Runs (execShadingLoadComplete table s) := by
  refine .of_pos ?_ h
  split
  · next o ho => exact .ite (.of_pos (runs_done _) (hw o ho)) (runs_done _)
  · exact runs_done _

/-! ### Every command -/

theorem exec_runs {c : Instr} (h : c.wellFormed = true)
    (hw : ∀ table o, c = .shadingLoadComplete table → s.scanOrder = some o → table.length = 20 * o.width) :
    Runs (exec c s) := by
  cases c with
  | resetHoldEnter value => exact .of_pos (runs_done _) h
  | resetHoldLeave value => exact .of_neg (runs_done _) (by simpa [Instr.wellFormed] using h)
  | unknownAttentionValue value => exact .of_neg (runs_done _) (by simpa [Instr.wellFormed] using h)
  | windowLoadComplete | selectionReadsComplete | orderRecordReadComplete => exact .of_pos (runs_done _) (of_decide_eq_true h)
  | registerWriteIgnored access => exact runs_registerWriteIgnored h
  | shadingLoadComplete table => exact runs_shadingLoadComplete (of_decide_eq_true h) fun o => hw table o rfl
  | plateScanReadComplete reads => exact runs_plateScanReadComplete h
  | fillComplete => exact runs_fillComplete s
  | plateBurstBusError => exact runs_plateBurstBusError s
  | powerOn | startOfLineMark | pixel | endOfLineMark | blockBaseWrite | causeRead | causeMaskWrite | look | plates
  | holdOn | holdOff | suspend | resume | abort | windows | fixWindows | park | wake | startWritesComplete | burstComplete
  | framesTallyWriteComplete | orderTallyWriteComplete | shadingTableWritten | abortDrainComplete | exchangeBusError
  | busErrorInFault | faultDrainComplete => exact runs_done _

/-- Only the commands of the rows whose operands are constrained can be ill-formed, and each of those stops at its guard. -/
theorem exec_of_illFormed {c : Instr} (h : c.wellFormed = false) (s : State) : exec c s = .fault .illFormed := by
  cases c with
  | resetHoldLeave value => exact if_pos (by simpa [Instr.wellFormed] using h)
  | unknownAttentionValue value => exact if_pos (by simpa [Instr.wellFormed] using h)
  | resetHoldEnter | registerWriteIgnored | plateScanReadComplete => exact if_neg (ne_true_of_eq_false h)
  | windowLoadComplete | selectionReadsComplete | orderRecordReadComplete | shadingLoadComplete =>
    exact if_neg (of_decide_eq_false h)
  | powerOn | startOfLineMark | pixel | endOfLineMark | blockBaseWrite | causeRead | causeMaskWrite | look | plates
  | holdOn | holdOff | suspend | resume | abort | windows | fixWindows | park | wake | startWritesComplete | fillComplete
  | burstComplete | plateBurstBusError | framesTallyWriteComplete | orderTallyWriteComplete | shadingTableWritten
  | abortDrainComplete | exchangeBusError | busErrorInFault | faultDrainComplete => cases h

/-! ### The queue (log 1) -/

theorem step_of_front {c : Instr} {rest : List Instr} (h : s.pending = c :: rest) :
    step s = exec c { s with pending := rest } := by
  rw [step, h]

theorem step_of_empty (h : s.pending = []) : step s = .next s := by
  rw [step, h]

theorem Reaches.queue (h : Reaches s t) : t.pending = s.pending := by
  obtain ⟨u, hlands, hkeeps⟩ := h
  exact hkeeps.queue.trans hlands.queue

/-- Each of the things a command can do leaves the queue; a reset copies it from the state before. -/
theorem CommandNext.queue (h : CommandNext s t) : t.pending = s.pending := by
  cases h with
  | work h => exact h.queue
  | powerOn h => exact h ▸ rfl
  | holdReset h => exact h ▸ rfl
  | base b value hb h => exact h.queue
  | table data h => exact h.queue

end Sys2Proof.Machine

namespace Sys2Proof.Proofs
open Sys2Proof.Machine

/-- Settles O2: a well-formed command passes its guard and runs, an ill-formed one stops there, command by command. -/
theorem eventsRun : Obligations.EventsRun :=
  ⟨fun _ _ h hw => exec_runs h hw, fun _ s h => exec_of_illFormed h s⟩

/-- Settles O3: by what a command can do, each case of which keeps the queue. -/
theorem queueUntouched : Obligations.QueueUntouched := fun _ _ _ e => (exec_next e).queue

/-- Settles O1: the step by whether the queue has a front. -/
theorem stepTakesFront : Obligations.StepTakesFront :=
  ⟨fun _ _ _ => step_of_front rfl, fun _ => step_of_empty rfl⟩

end Sys2Proof.Proofs
end
